-- ==== Sys2Proof/Word.lean ====
section
/-! DEFINITION. The words of the machine, by width (00_scope.md R9 to R12). -/

namespace Sys2Proof

/-- A command word, an ARG word, a count of FREQ, the magic value: 32 bits (R10, R24, R65). -/
abbrev Word := BitVec 32

/-- RESULT, ERRINFO and the bit counters: 64 bits (R34, R36). -/
abbrev DWord := BitVec 64

/-- A literal byte, the operand class `byte` (R67). -/
abbrev Byte := BitVec 8

/-- The 9-bit SYM field as it stands in a command word and in a header leaf (R9, R65). -/
abbrev SymField := BitVec 9

/-- A symbol, 0..256 (R15): the index of FREQ and of the code table. -/
abbrev Symbol := Fin 257

/-- A tree weight, 41 bits (R10). -/
abbrev Weight := BitVec 41

/-- A node index, 10 bits (R10). -/
abbrev NodeIdx := BitVec 10

end Sys2Proof
end

