-- ==== Sys2Proof/Syntax.lean ====
section
/-! DEFINITION. The commands, one constructor per row of spec/opcode_table.json (30_encoding.md R69).
A constructor carries the operands its rule uses: SYM by its class (R67) and ARG where it is not
ignored (R66). -/

namespace Sys2Proof

/-- The 29 commands of R69. `sym` operands are the raw 9-bit field: `WellFormed` bounds them. -/
inductive Instr where
  /-- 0x01, R118 -/
  | nop
  /-- 0x02, R119 -/
  | errClear
  /-- 0x03, R120 -/
  | inReset
  /-- 0x04, R121 -/
  | outClose
  /-- 0x05, R122; class sel: 0 = IN_BITS_READ, 1 = OUT_BITS_WRITTEN -/
  | cntRead (sel : BitVec 1)
  /-- 0x10, R79 -/
  | freqClear
  /-- 0x11, R80; class byte -/
  | freqCount (b : Byte)
  /-- 0x12, R81 -/
  | freqSetEos
  /-- 0x13, R82; class sym, ARG = count -/
  | freqWrite (sym : SymField) (count : Word)
  /-- 0x14, R83; class sym -/
  | freqRead (sym : SymField)
  /-- 0x15, R84 -/
  | freqCountStream
  /-- 0x20, R89 -/
  | treeBuild
  /-- 0x21, R92 -/
  | treeInfo
  /-- 0x22, R93; ARG = node index -/
  | nodeRead (index : Word)
  /-- 0x23, R94; ARG = node index -/
  | nodeWeightRead (index : Word)
  /-- 0x30, R95 -/
  | codesBuild
  /-- 0x31, R98; class sym -/
  | codeLenRead (sym : SymField)
  /-- 0x32, R99; class sym, ARG = word index -/
  | codeBitsRead (sym : SymField) (wordIndex : Word)
  /-- 0x40, R100 -/
  | magicWrite
  /-- 0x41, R101 -/
  | magicRead
  /-- 0x42, R102 -/
  | headerWrite
  /-- 0x43, R104 -/
  | headerRead
  /-- 0x50, R107; class byte -/
  | encSymbol (b : Byte)
  /-- 0x51, R108 -/
  | encEos
  /-- 0x52, R109 -/
  | encStream
  /-- 0x60, R112 -/
  | decStart
  /-- 0x61, R113 -/
  | decBit
  /-- 0x62, R114 -/
  | decSymbol
  /-- 0x63, R115 -/
  | decStream
deriving DecidableEq, Repr

/-- The four operand classes of the SYM field (R67). -/
inductive SymClass where
  /-- SYM must be 0 -/
  | noSym
  /-- SYM is 0..255 -/
  | byte
  /-- SYM is 0..256 -/
  | sym
  /-- SYM is 0..1 -/
  | sel
deriving DecidableEq, Repr

end Sys2Proof
end

