-- ==== Sys2Proof/WellFormed.lean ====
section
/-! DEFINITION. Which terms of `Instr` are commands: a `sym` operand is at most 256 (R67). The other
classes hold by type: a byte has 8 bits, a selector one. -/

namespace Sys2Proof

/-- A `sym` operand names a symbol (R67: legal values 0..256). -/
def symInRange (sym : SymField) : Bool := decide (sym.toNat ≤ 256)

/-- The operands are legal for the command's class (R67, R68). -/
def Instr.wellFormed : Instr → Bool
  | .freqWrite sym _ => symInRange sym
  | .freqRead sym => symInRange sym
  | .codeLenRead sym => symInRange sym
  | .codeBitsRead sym _ => symInRange sym
  | .nop | .errClear | .inReset | .outClose | .cntRead _ => true
  | .freqClear | .freqCount _ | .freqSetEos | .freqCountStream => true
  | .treeBuild | .treeInfo | .nodeRead _ | .nodeWeightRead _ => true
  | .codesBuild => true
  | .magicWrite | .magicRead | .headerWrite | .headerRead => true
  | .encSymbol _ | .encEos | .encStream => true
  | .decStart | .decBit | .decSymbol | .decStream => true

end Sys2Proof
end

