-- ==== Sys2Proof/Decode.lean ====
section
/-! DEFINITION. Decoding a command word and its ARG word (30_encoding.md R65 to R73), total on every
pair of words, and the encoder. The two words come as 32-bit values: their byte order on the command
port is outside the block (R65). -/

namespace Sys2Proof

/-- OPC, bits [7:0] (R65). -/
def opcField (w : Word) : BitVec 8 := w.extractLsb' 0 8

/-- SYM, bits [16:8] (R65). -/
def symField (w : Word) : SymField := w.extractLsb' 8 9

/-- The reserved bits [31:17] (R65). -/
def reservedField (w : Word) : BitVec 15 := w.extractLsb' 17 15

/-- Why a command word is illegal (R68). -/
inductive Illegal where
  /-- bits [31:17] are not all 0 -/
  | reservedBits
  /-- OPC is not in the opcode map -/
  | reservedOpcode
  /-- SYM is outside the opcode's class -/
  | symOutOfClass
deriving DecidableEq, Repr

/-- What a command word decodes to (R70: one command or ILLEGAL_COMMAND). -/
inductive Decoded where
  | instr (i : Instr)
  | illegal (why : Illegal)
deriving DecidableEq, Repr

/-- Class `none`: SYM must be 0. -/
def takeNone (sym : SymField) (i : Instr) : Decoded :=
  if sym = 0#9 then .instr i else .illegal .symOutOfClass

/-- Class `byte`: SYM is at most 255, so SYM[8] = 0. -/
def takeByte (sym : SymField) (f : Byte → Instr) : Decoded :=
  if sym.toNat ≤ 255 then .instr (f (sym.extractLsb' 0 8)) else .illegal .symOutOfClass

/-- Class `sym`: SYM is at most 256. -/
def takeSym (sym : SymField) (f : SymField → Instr) : Decoded :=
  if sym.toNat ≤ 256 then .instr (f sym) else .illegal .symOutOfClass

/-- Class `sel`: SYM is at most 1. -/
def takeSel (sym : SymField) (f : BitVec 1 → Instr) : Decoded :=
  if sym.toNat ≤ 1 then .instr (f (sym.extractLsb' 0 1)) else .illegal .symOutOfClass

/-- The opcode map (R69) applied to the fields of a word whose reserved bits are 0. -/
def decodeFields (opc : BitVec 8) (sym : SymField) (arg : Word) : Decoded :=
  match opc.toNat with
  | 0x01 => takeNone sym .nop
  | 0x02 => takeNone sym .errClear
  | 0x03 => takeNone sym .inReset
  | 0x04 => takeNone sym .outClose
  | 0x05 => takeSel sym .cntRead
  | 0x10 => takeNone sym .freqClear
  | 0x11 => takeByte sym .freqCount
  | 0x12 => takeNone sym .freqSetEos
  | 0x13 => takeSym sym (fun s => .freqWrite s arg)
  | 0x14 => takeSym sym .freqRead
  | 0x15 => takeNone sym .freqCountStream
  | 0x20 => takeNone sym .treeBuild
  | 0x21 => takeNone sym .treeInfo
  | 0x22 => takeNone sym (.nodeRead arg)
  | 0x23 => takeNone sym (.nodeWeightRead arg)
  | 0x30 => takeNone sym .codesBuild
  | 0x31 => takeSym sym .codeLenRead
  | 0x32 => takeSym sym (fun s => .codeBitsRead s arg)
  | 0x40 => takeNone sym .magicWrite
  | 0x41 => takeNone sym .magicRead
  | 0x42 => takeNone sym .headerWrite
  | 0x43 => takeNone sym .headerRead
  | 0x50 => takeByte sym .encSymbol
  | 0x51 => takeNone sym .encEos
  | 0x52 => takeNone sym .encStream
  | 0x60 => takeNone sym .decStart
  | 0x61 => takeNone sym .decBit
  | 0x62 => takeNone sym .decSymbol
  | 0x63 => takeNone sym .decStream
  | _ => .illegal .reservedOpcode

/-- The decode procedure of R71. -/
def decode (w arg : Word) : Decoded :=
  if reservedField w = 0#15 then decodeFields (opcField w) (symField w) arg
  else .illegal .reservedBits

/-- The instruction of a decoded word, if it is legal. -/
def Decoded.instr? : Decoded → Option Instr
  | .instr i => some i
  | .illegal _ => none

/-- The opcode of each command (R69). -/
def opcode : Instr → BitVec 8
  | .nop => 0x01#8
  | .errClear => 0x02#8
  | .inReset => 0x03#8
  | .outClose => 0x04#8
  | .cntRead _ => 0x05#8
  | .freqClear => 0x10#8
  | .freqCount _ => 0x11#8
  | .freqSetEos => 0x12#8
  | .freqWrite _ _ => 0x13#8
  | .freqRead _ => 0x14#8
  | .freqCountStream => 0x15#8
  | .treeBuild => 0x20#8
  | .treeInfo => 0x21#8
  | .nodeRead _ => 0x22#8
  | .nodeWeightRead _ => 0x23#8
  | .codesBuild => 0x30#8
  | .codeLenRead _ => 0x31#8
  | .codeBitsRead _ _ => 0x32#8
  | .magicWrite => 0x40#8
  | .magicRead => 0x41#8
  | .headerWrite => 0x42#8
  | .headerRead => 0x43#8
  | .encSymbol _ => 0x50#8
  | .encEos => 0x51#8
  | .encStream => 0x52#8
  | .decStart => 0x60#8
  | .decBit => 0x61#8
  | .decSymbol => 0x62#8
  | .decStream => 0x63#8

/-- The SYM field of each command (R75: 0 where the command takes no symbol). -/
def encodeSym : Instr → SymField
  | .cntRead sel => sel.setWidth 9
  | .freqCount b => b.setWidth 9
  | .freqWrite sym _ => sym
  | .freqRead sym => sym
  | .codeLenRead sym => sym
  | .codeBitsRead sym _ => sym
  | .encSymbol b => b.setWidth 9
  | .nop | .errClear | .inReset | .outClose => 0#9
  | .freqClear | .freqSetEos | .freqCountStream => 0#9
  | .treeBuild | .treeInfo | .nodeRead _ | .nodeWeightRead _ => 0#9
  | .codesBuild => 0#9
  | .magicWrite | .magicRead | .headerWrite | .headerRead => 0#9
  | .encEos | .encStream => 0#9
  | .decStart | .decBit | .decSymbol | .decStream => 0#9

/-- The command word of a command: `zext_32(SYM) << 8 | OPC` (R75). -/
def encodeWord (i : Instr) : Word :=
  (encodeSym i).setWidth 32 <<< 8 ||| (opcode i).setWidth 32

/-- The ARG word of a command; 0 where ARG is ignored (R75: an omitted ARG is 0). -/
def encodeArg : Instr → Word
  | .freqWrite _ count => count
  | .nodeRead index => index
  | .nodeWeightRead index => index
  | .codeBitsRead _ k => k
  | .nop | .errClear | .inReset | .outClose | .cntRead _ => 0#32
  | .freqClear | .freqCount _ | .freqSetEos | .freqRead _ | .freqCountStream => 0#32
  | .treeBuild | .treeInfo => 0#32
  | .codesBuild | .codeLenRead _ => 0#32
  | .magicWrite | .magicRead | .headerWrite | .headerRead => 0#32
  | .encSymbol _ | .encEos | .encStream => 0#32
  | .decStart | .decBit | .decSymbol | .decStream => 0#32

/-- The two words of a command: command word, then ARG (R65). -/
def encode (i : Instr) : Word × Word := (encodeWord i, encodeArg i)

/-- One row of the opcode map: the mask and match of R70 (the `sym` class has an extra test). -/
structure Row where
  opc : BitVec 8
  cls : SymClass
deriving DecidableEq, Repr

/-- The mask of a class (R70). -/
def SymClass.mask : SymClass → Word
  | .noSym => 0xFFFFFFFF#32
  | .byte => 0xFFFF00FF#32
  | .sym => 0xFFFE00FF#32
  | .sel => 0xFFFFFEFF#32

/-- The test of a row on a command word (R70). -/
def Row.selects (r : Row) (w : Word) : Bool :=
  w &&& r.cls.mask == r.opc.setWidth 32 &&
    (match r.cls with
     | .sym => decide ((symField w).toNat ≤ 256)
     | .noSym | .byte | .sel => true)

/-- The opcode map as rows (R69). -/
def opcodeMap : List Row :=
  [⟨0x01, .noSym⟩, ⟨0x02, .noSym⟩, ⟨0x03, .noSym⟩, ⟨0x04, .noSym⟩, ⟨0x05, .sel⟩] ++
  [⟨0x10, .noSym⟩, ⟨0x11, .byte⟩, ⟨0x12, .noSym⟩, ⟨0x13, .sym⟩, ⟨0x14, .sym⟩, ⟨0x15, .noSym⟩] ++
  [⟨0x20, .noSym⟩, ⟨0x21, .noSym⟩, ⟨0x22, .noSym⟩, ⟨0x23, .noSym⟩] ++
  [⟨0x30, .noSym⟩, ⟨0x31, .sym⟩, ⟨0x32, .sym⟩] ++
  [⟨0x40, .noSym⟩, ⟨0x41, .noSym⟩, ⟨0x42, .noSym⟩, ⟨0x43, .noSym⟩] ++
  [⟨0x50, .byte⟩, ⟨0x51, .noSym⟩, ⟨0x52, .noSym⟩] ++
  [⟨0x60, .noSym⟩, ⟨0x61, .noSym⟩, ⟨0x62, .noSym⟩, ⟨0x63, .noSym⟩]

/-- The instruction whose bits are `w`, numbered with the command word at bits 31..0 and the ARG word
at bits 63..32; the bits from `nbits` up are 0. -/
def decodeTableWord (nbits w : Nat) : Option Instr :=
  let bits := w % 2 ^ nbits
  (decode (BitVec.ofNat 32 bits) (BitVec.ofNat 32 (bits / 2 ^ 32))).instr?

end Sys2Proof
end

