-- ==== Sys2Proof/Machine/Bits.lean ====
section
/-! DEFINITION. Symbols and bit strings: the conversions and the order of bits inside a field
(00_scope.md R12, R15, 20_memory.md R53). -/

namespace Sys2Proof

/-- The end-of-stream symbol (R9, R15). -/
def sentinel : Symbol := 256

/-- A byte as a symbol. -/
def byteSymbol (b : Byte) : Symbol := ⟨b.toNat, Nat.lt_trans b.isLt (by decide)⟩

/-- The symbol a 9-bit field names; none above 256. -/
def symbolOf (f : SymField) : Option Symbol :=
  if h : f.toNat < 257 then some ⟨f.toNat, h⟩ else none

/-- The 9-bit field of a symbol. -/
def symbolField (s : Symbol) : SymField := BitVec.ofNat 9 s.val

/-- The number a bit string spells, most significant bit first (R12, R53). -/
def bitsToNat (bits : List Bool) : Nat :=
  bits.foldl (fun acc b => 2 * acc + b.toNat) 0

/-- `bin_w(v)`: the bits of `v`, most significant bit first (R12). -/
def bin {w : Nat} (v : BitVec w) : List Bool :=
  (List.range w).map v.getMsbD

end Sys2Proof
end

