-- ==== Sys2Proof/Machine/Types.lean ====
section
/-! DEFINITION. The data the state is made of: nodes, tables, decoder states, error codes, the answers of
the channels, the host's acts and the responses. -/

namespace Sys2Proof.Machine

/-- A tree node (R25). The weight is present in a built tree and absent in a header tree. -/
inductive Node where
  /-- `Leaf(sym, weight)` -/
  | leaf (sym : Symbol) (weight : Option Weight)
  /-- `Internal(left, right, weight)` -/
  | internal (left right : NodeIdx) (weight : Option Weight)
deriving DecidableEq, Repr

/-- FREQ[0..256] (R24). -/
abbrev FreqTable := Vector Word 257

/-- NODE[0..512]; `none` is an absent entry (R21, R25). -/
abbrev NodeTable := Vector (Option Node) 513

/-- The three arrays of the code table; `none` is an absent entry (R21, R28). -/
structure CodeTable where
  present : Vector (Option Bool) 257
  len : Vector (Option (BitVec 9)) 257
  bits : Vector (Option (BitVec 256)) 257
deriving DecidableEq, Repr

/-- TREE_SRC (R26). -/
inductive TreeSrc where
  /-- 0: made by TREE_BUILD -/
  | built
  /-- 1: made by HEADER_READ -/
  | header
deriving DecidableEq, Repr

/-- DEC_STATE (R31). -/
inductive DecState where
  | idle
  | walking
  | done
  | error
deriving DecidableEq, Repr

/-- The values ERRCODE takes, and no others (R124). -/
inductive ErrCode where
  | none
  | illegalCommand
  | notReady
  | badOperand
  | construction
  | countOverflow
  | noCode
  | streamEnded
  | hdrEoi
  | hdrBadMagic
  | hdrBadSymbol
  | hdrDupSymbol
  | hdrTooLarge
  | truncatedStream
  | degenerateTree
  | ioReadFail
  | ioWriteFail
  | outputClosed
deriving DecidableEq, Repr

/-- How the environment answers one channel transaction (R46 to R51). -/
inductive Answer where
  /-- the value, or acceptance -/
  | accept
  /-- "failure", the draw of R48 -/
  | fail
  /-- never answered (R49) -/
  | silent
deriving DecidableEq, Repr

/-- One response: STATUS (R35) and RESULT (R36). -/
structure Response where
  status : Word
  result : DWord
deriving DecidableEq, Repr

/-- The channels the environment attaches with a reset (R143): the input's bits, and its answers by
transaction number (one not listed is accepted). -/
structure Channels where
  inBits : List Bool
  txAnswers : List (Nat × Answer)
deriving DecidableEq, Repr

/-- One act of the host (R139). -/
inductive HostAct where
  /-- a command word and its ARG word on the command port -/
  | command (word arg : Word)
  /-- the reset input asserted between commands (R142, R143) -/
  | reset (fresh : Channels)
  /-- the reset input asserted while this command runs (R145) -/
  | resetDuring (word arg : Word) (fresh : Channels)
deriving DecidableEq, Repr

end Sys2Proof.Machine
end

