-- ==== Sys2Proof/Config.lean ====
section
/-! DEFINITION. What an implementation fixes, and the free values.
HUFF_TREE_MAGIC (R10, R40) is a field of `State` that no step writes, so that a statement over all states
holds for every value of the parameter; only its suggested default stands here. -/

namespace Sys2Proof.Config

/-- NODE_CAP, the number of NODE records (R10). -/
def nodeCap : Nat := 513

/-- PRESUMED. The suggested default of HUFF_TREE_MAGIC (R10, D8, K1: general knowledge in the spec).
unsafe: a claim from `State.reset` that leans on the number says nothing of a block with another. -/
def defaultMagic : Word := 0xFACE8201#32

/-- FREE VALUE. The contents of NODE after a failed HEADER_READ, "unspecified" (R104, I18), the n-th time
that happens. No body is visible, so no proof can know it. safe. -/
opaque unspecifiedNodes : Nat → Machine.NodeTable

end Sys2Proof.Config
end

