-- ==== Sys2Proof/Machine/State.lean ====
section
/-! DEFINITION. The state: the block's registers and tables (10_state.md R20), the environment it reaches
through its ports (20_memory.md R45, 60_exceptions.md R139 to R141), and the state after reset
(70_reset_and_hazards.md R142, R143). -/

namespace Sys2Proof.Machine

/-- Why the model has no next state. None is raised on ordinary data: an error of the block is a next
state (R127). -/
inductive Fault where
  /-- A channel transaction is never answered, so the command never completes and no response comes
  (R49, I11: stuck). Raised by every command that issues a transaction, and by the close in the error
  entry. safe. -/
  | channelSilent
  /-- CODE_PRESENT, CODE_LEN or CODE_BITS is read while absent (R21). Raised by CODE_LEN_READ,
  CODE_BITS_READ and the encoder, in states no run reaches. safe. -/
  | absentCode
  /-- DEC_CUR is read while absent (R21). Raised by the decoder, in states no run reaches. safe. -/
  | absentCursor
  /-- NODE is read at an absent entry, or holds no finite tree below an index the command walks
  (R21, R27). Raised by the commands that read NODE, in states no run reaches. safe. -/
  | brokenTree
  /-- A loop used up the bound the model gives it. Raised by no state at all: the bounds are proved
  large enough under Sys2Proof/Laws. safe. -/
  | noProgress
deriving DecidableEq, Repr

/-- Why the model gives an instruction no meaning. -/
inductive Refusal where
  /-- The instruction is not modelled. Raised by no arm of `exec`. safe. -/
  | notModelled (mnemonic : String)
deriving DecidableEq, Repr

/-- The machine and its environment. -/
structure State where
  /-- FREQ[0..256] (R24) -/
  freq : FreqTable
  /-- NODE[0..512] (R25) -/
  nodes : NodeTable
  /-- TREE_VALID (R26) -/
  treeValid : Bool
  /-- TREE_SRC (R26) -/
  treeSrc : TreeSrc
  /-- ROOT (R26) -/
  root : NodeIdx
  /-- NODE_COUNT (R26) -/
  nodeCount : NodeIdx
  /-- LEAF_COUNT (R26) -/
  leafCount : NodeIdx
  /-- CODE_PRESENT[0..256] (R28) -/
  codePresent : Vector (Option Bool) 257
  /-- CODE_LEN[0..256] (R28) -/
  codeLen : Vector (Option (BitVec 9)) 257
  /-- CODE_BITS[0..256] (R28) -/
  codeBits : Vector (Option (BitVec 256)) 257
  /-- CODES_VALID (R29) -/
  codesValid : Bool
  /-- ENC_ENDED (R30) -/
  encEnded : Bool
  /-- DEC_STATE (R31) -/
  decState : DecState
  /-- DEC_CUR, present only while walking (R31) -/
  decCur : Option NodeIdx
  /-- ERR (R32) -/
  err : Bool
  /-- ERRCODE (R32) -/
  errCode : ErrCode
  /-- ERRINFO (R32) -/
  errInfo : DWord
  /-- OUT_OPEN (R33) -/
  outOpen : Bool
  /-- IN_EXHAUSTED (R33) -/
  inExhausted : Bool
  /-- IN_BITS_READ (R34) -/
  inBitsRead : DWord
  /-- OUT_BITS_WRITTEN (R34) -/
  outBitsWritten : DWord
  /-- HUFF_TREE_MAGIC, the block's parameter: no step writes it (R10, R40) -/
  magic : Word
  /-- IN, the input channel's bits (R45) -/
  inBits : List Bool
  /-- p, the input channel's position (R45) -/
  inPos : Nat
  /-- OUT, the bits the output channel has accepted, first bit first (R45) -/
  outBits : List Bool
  /-- the output channel has accepted a close (R45, R51) -/
  outClosed : Bool
  /-- MODEL'S OWN. the number of the next transaction, from 0 at reset -/
  txCount : Nat
  /-- MODEL'S OWN. the environment's answers by transaction number; one not listed is accepted (R48, R49) -/
  txAnswers : List (Nat × Answer)
  /-- the host's acts still to come, next one first (R139, R141) -/
  host : List HostAct
  /-- the responses given since reset, first one first (R74, R141) -/
  responses : List Response
  /-- MODEL'S OWN. how many free values have been taken -/
  freeDraws : Nat
deriving DecidableEq, Repr

/-- The state right after reset (R142, R143). The environment's part is a DESIGN CHOICE: an empty input,
every transaction accepted, no act of the host yet. unsafe for a claim that starts here and leans on it;
statements range over every value of those fields. -/
def State.reset : State where
  freq := Vector.replicate 257 0#32
  nodes := Vector.replicate 513 none
  treeValid := false
  treeSrc := .built
  root := 0#10
  nodeCount := 0#10
  leafCount := 0#10
  codePresent := Vector.replicate 257 none
  codeLen := Vector.replicate 257 none
  codeBits := Vector.replicate 257 none
  codesValid := false
  encEnded := false
  decState := .idle
  decCur := none
  err := false
  errCode := .none
  errInfo := 0#64
  outOpen := true
  inExhausted := false
  inBitsRead := 0#64
  outBitsWritten := 0#64
  magic := Config.defaultMagic
  inBits := []
  inPos := 0
  outBits := []
  outClosed := false
  txCount := 0
  txAnswers := []
  host := []
  responses := []
  freeDraws := 0

end Sys2Proof.Machine
end

