-- ==== Sys2Proof/Machine/Flags.lean ====
section
/-! DEFINITION. The STATUS word, a view of the registers (10_state.md R35), and the codes of its fields. -/

namespace Sys2Proof.Machine

/-- The 8-bit error code (R124). -/
def ErrCode.code : ErrCode → BitVec 8
  | .none => 0x00#8
  | .illegalCommand => 0x01#8
  | .notReady => 0x02#8
  | .badOperand => 0x03#8
  | .construction => 0x04#8
  | .countOverflow => 0x05#8
  | .noCode => 0x06#8
  | .streamEnded => 0x07#8
  | .hdrEoi => 0x10#8
  | .hdrBadMagic => 0x11#8
  | .hdrBadSymbol => 0x12#8
  | .hdrDupSymbol => 0x13#8
  | .hdrTooLarge => 0x14#8
  | .truncatedStream => 0x20#8
  | .degenerateTree => 0x21#8
  | .ioReadFail => 0x30#8
  | .ioWriteFail => 0x31#8
  | .outputClosed => 0x32#8

/-- The 2-bit decoder state (R31). -/
def DecState.code : DecState → BitVec 2
  | .idle => 0#2
  | .walking => 1#2
  | .done => 2#2
  | .error => 3#2

/-- The TREE_SRC bit (R26). -/
def TreeSrc.code : TreeSrc → BitVec 1
  | .built => 0#1
  | .header => 1#1

/-- STATUS (R35), from bit 31 down to bit 0. OK and REJECTED belong to the response, the rest are
registers; bits [31:24] and [15:11] read 0. -/
def statusWord (ok rejected : Bool) (s : State) : Word :=
  0#8 ++ s.errCode.code ++ 0#5 ++ BitVec.ofBool s.inExhausted ++ s.decState.code ++
    BitVec.ofBool s.outOpen ++ BitVec.ofBool s.encEnded ++ BitVec.ofBool s.codesValid ++
    s.treeSrc.code ++ BitVec.ofBool s.treeValid ++ BitVec.ofBool rejected ++ BitVec.ofBool s.err ++
    BitVec.ofBool ok

end Sys2Proof.Machine
end

