-- ==== Sys2Proof/Machine/Ops.lean ====
section
/-! DEFINITION. The shared operations: updates of the state, the channel transactions (20_memory.md R46 to
R51), responses, the error entry (60_exceptions.md R127) with the return from it (R129), rejection (R128),
and reset (70_reset_and_hazards.md R142, R145). -/

namespace Sys2Proof.Machine

/-! ### Updates of the state -/

/-- FREQ takes the table. -/
def State.setFreq (s : State) (t : FreqTable) : State := { s with freq := t }

/-- `FREQ[x] <- v`. -/
def State.setCount (s : State) (x : Symbol) (v : Word) : State :=
  s.setFreq (s.freq.set x.val v x.isLt)

/-- A complete tree is held: NODE and the five tree registers (R26). -/
def State.holdTree (s : State) (src : TreeSrc) (nodes : NodeTable) (root : NodeIdx)
    (nodeCount leafCount : Nat) : State :=
  { s with
    nodes := nodes, root := root, nodeCount := BitVec.ofNat 10 nodeCount,
    leafCount := BitVec.ofNat 10 leafCount, treeSrc := src, treeValid := true }

/-- TREE_VALID is cleared; the other tree registers keep their values (R26, R104). -/
def State.dropTree (s : State) : State := { s with treeValid := false }

/-- NODE takes the next free value (R104, I18). -/
def State.loseNodes (s : State) : State :=
  { s with nodes := Config.unspecifiedNodes s.freeDraws, freeDraws := s.freeDraws + 1 }

/-- The code table. -/
def State.codes (s : State) : CodeTable := ⟨s.codePresent, s.codeLen, s.codeBits⟩

/-- The code table takes a value and CODES_VALID with it. -/
def State.setCodes (s : State) (valid : Bool) (c : CodeTable) : State :=
  { s with codesValid := valid, codePresent := c.present, codeLen := c.len, codeBits := c.bits }

/-- CODES_VALID is cleared (R29). -/
def State.dropCodes (s : State) : State := { s with codesValid := false }

/-- ENC_ENDED (R30). -/
def State.setEnded (s : State) (b : Bool) : State := { s with encEnded := b }

/-- DEC_STATE and DEC_CUR (R31). -/
def State.setDec (s : State) (d : DecState) (cur : Option NodeIdx) : State :=
  { s with decState := d, decCur := cur }

/-- The error registers latch an error (R127). -/
def State.latch (s : State) (e : ErrCode) (info : DWord) : State :=
  { s with err := true, errCode := e, errInfo := info }

/-- ERR_CLEAR's effect on the error registers (R119, R129). -/
def State.unlatch (s : State) : State :=
  { s with err := false, errCode := .none, errInfo := 0#64 }

/-- One more transaction has been answered. -/
def State.countTx (s : State) : State := { s with txCount := s.txCount + 1 }

/-- A read of n bits is delivered (R46). -/
def State.acceptRead (s : State) (n : Nat) : State :=
  { s with inPos := s.inPos + n, inBitsRead := s.inBitsRead + BitVec.ofNat 64 n }

/-- A read answers END: p goes to the end and the leftover bits are lost (R46). -/
def State.exhaust (s : State) : State :=
  { s with inPos := s.inBits.length, inExhausted := true }

/-- The input is rewound (R50). -/
def State.rewind (s : State) : State :=
  { s with inPos := 0, inExhausted := false, inBitsRead := 0#64 }

/-- The output channel accepts bits (R47). -/
def State.acceptWrite (s : State) (bits : List Bool) : State :=
  { s with
    outBits := s.outBits ++ bits, outBitsWritten := s.outBitsWritten + BitVec.ofNat 64 bits.length }

/-- OUT_OPEN is cleared (R51). -/
def State.shutOut (s : State) : State := { s with outOpen := false }

/-- The output channel accepts the close (R51). -/
def State.closeChannel (s : State) : State := { s with outClosed := true }

/-- The host's acts still to come. -/
def State.setHost (s : State) (h : List HostAct) : State := { s with host := h }

/-- The response port gives one response (R74). -/
def State.addResponse (s : State) (r : Response) : State :=
  { s with responses := s.responses ++ [r] }

/-! ### The result of a command's pseudocode -/

/-- How a piece of pseudocode ends: with a value, by `raise E(info)` (R13), or in a stop of the model. -/
inductive Res (α : Type) where
  | ok (a : α) (s : State)
  | raise (e : ErrCode) (info : DWord) (s : State)
  | stop (f : Fault)

/-- The next piece runs only where the first ended with a value. -/
def Res.bind {α β : Type} (r : Res α) (f : α → State → Res β) : Res β :=
  match r with
  | .ok a s => f a s
  | .raise e info s => .raise e info s
  | .stop x => .stop x

/-- The state at the raising point is replaced. -/
def Res.mapRaise {α : Type} (r : Res α) (f : State → State) : Res α :=
  match r with
  | .ok a s => .ok a s
  | .raise e info s => .raise e info (f s)
  | .stop x => .stop x

/-- The outcome of a step of this machine. -/
abbrev Out := Host.Outcome State Fault Refusal

/-! ### Channel transactions -/

/-- How the environment answers transaction number n: the draws of R48 and R49. -/
def State.answerAt (s : State) (n : Nat) : Answer := (s.txAnswers.lookup n).getD .accept

/-- How the environment answers the next transaction. -/
def State.answer (s : State) : Answer := s.answerAt s.txCount

/-- The n bits of the input from p on, as a value, first bit most significant (R46, R53). -/
def State.peekBits (s : State) (n : Nat) : BitVec n :=
  BitVec.ofNat n (bitsToNat ((s.inBits.drop s.inPos).take n))

/-- `ReadBits(n)` (R46); `none` is END. -/
def readBits (n : Nat) (s : State) : Res (Option (BitVec n)) :=
  match s.answer with
  | .silent => .stop .channelSilent
  | .fail => .raise .ioReadFail s.inBitsRead s.countTx
  | .accept =>
    if s.inPos + n ≤ s.inBits.length then
      .ok (some (s.peekBits n)) (s.countTx.acceptRead n)
    else .ok none s.countTx.exhaust

/-- `WriteBits(n, v)` (R47). A write with OUT_OPEN = 0 reaches no channel. -/
def writeBits {n : Nat} (v : BitVec n) (s : State) : Res Unit :=
  if s.outOpen then
    match s.answer with
    | .silent => .stop .channelSilent
    | .fail => .raise .ioWriteFail s.outBitsWritten s.countTx
    | .accept => .ok () (s.countTx.acceptWrite (bin v))
  else .raise .outputClosed s.outBitsWritten s

/-- `ChanReset()` (R50). -/
def chanReset (s : State) : Res Unit :=
  match s.answer with
  | .silent => .stop .channelSilent
  | .fail => .raise .ioReadFail s.inBitsRead s.countTx
  | .accept => .ok () s.countTx.rewind

/-- How `ChanClose()` ends. -/
inductive Close where
  /-- OK or FAIL -/
  | answered (ok : Bool) (s : State)
  /-- never answered (R49) -/
  | silent

/-- `ChanClose()` (R51): idempotent, and OUT_OPEN goes to 0 even where the channel fails. -/
def chanClose (s : State) : Close :=
  if s.outOpen then
    match s.answer with
    | .silent => .silent
    | .fail => .answered false s.shutOut.countTx
    | .accept => .answered true s.shutOut.countTx.closeChannel
  else .answered true s

/-! ### Responses, the error entry and rejection -/

/-- The response of a command: STATUS shows the state after it (R35, R36). -/
def State.respond (s : State) (ok rejected : Bool) (result : DWord) : State :=
  s.addResponse ⟨statusWord ok rejected s, result⟩

/-- Whether a command is one of the decoder commands of the error entry (R127). -/
inductive CmdKind where
  | decoder
  | other
deriving DecidableEq, Repr

/-- The registers the error entry writes before it closes the output (R127). -/
def latchError (u : CmdKind) (e : ErrCode) (info : DWord) (s : State) : State :=
  if u = .decoder ∧ e ≠ .notReady then (s.latch e info).setDec .error none else s.latch e info

/-- The error entry, `raise E(info)` (R127): the one way an error is taken. The close is best effort. -/
def enterError (u : CmdKind) (e : ErrCode) (info : DWord) (s : State) : Out :=
  match chanClose (latchError u e info s) with
  | .answered _ t => .next (t.respond false false info)
  | .silent => .fault .channelSilent

/-- The end of a command: its response, or the error entry. -/
def finish (u : CmdKind) (r : Res DWord) : Out :=
  match r with
  | .ok result s => .next (s.respond true false result)
  | .raise e info s => enterError u e info s
  | .stop f => .fault f

/-- R126 step 1: with ERR = 1 only the exact word 0x00000002 is let through. -/
def rejects (w : Word) (s : State) : Bool := s.err && w != 0x00000002#32

/-- Rejection (R128): nothing changes, and the response says so with RESULT 0. -/
def reject (s : State) : State := s.respond false true 0#64

/-- ILLEGAL_COMMAND with the command word as ERRINFO (R68, R126 step 2). -/
def raiseIllegal (w : Word) (s : State) : Out :=
  enterError .other .illegalCommand (w.setWidth 64) s

/-! ### Reset -/

/-- The reset input (R142, R143, R145): every register takes its reset value, the environment attaches
fresh channels, and no response is given. The parameter of the block and the count of free values are
no state of the block and stay. -/
def State.afterReset (s : State) (fresh : Channels) (rest : List HostAct) : State :=
  { State.reset with
    magic := s.magic, freeDraws := s.freeDraws, inBits := fresh.inBits,
    txAnswers := fresh.txAnswers, host := rest }

end Sys2Proof.Machine
end

