-- ==== Sys2Proof/Machine/Operands.lean ====
section
/-! DEFINITION. The operand forms (30_encoding.md R66, R67), the shared preconditions (60_exceptions.md R124,
R126 steps 3 and 4), and the reads of the tables (20_memory.md R43). -/

namespace Sys2Proof.Machine

/-- `zext_64(command word)` of a command: the ERRINFO of NOT_READY and STREAM_ENDED (R124). -/
def wordInfo (i : Instr) : DWord := (encodeWord i).setWidth 64

/-- `raise NOT_READY(command word)` (R124). -/
def notReady {α : Type} (i : Instr) (s : State) : Res α := .raise .notReady (wordInfo i) s

/-- A `sym` operand (R67). A term of `Instr` whose field is above 256 is no command: as an encoded word it
is illegal (R68), and that is what it raises. -/
def withSymbol (i : Instr) (sym : SymField) (s : State) (k : Symbol → Res DWord) : Res DWord :=
  match symbolOf sym with
  | some x => k x
  | none => .raise .illegalCommand (wordInfo i) s

/-- `ARG < NODE_COUNT`, else BAD_OPERAND (R93, R94). -/
def nodeIndexOk (arg : Word) (s : State) : Bool := decide (arg.toNat < s.nodeCount.toNat)

/-- `raise BAD_OPERAND(zext_64(ARG))` (R124). -/
def badOperand {α : Type} (arg : Word) (s : State) : Res α :=
  .raise .badOperand (arg.setWidth 64) s

/-- `FREQ[x]`. -/
def State.count (s : State) (x : Symbol) : Word := s.freq[x.val]

/-- `NODE[i]`; `none` where the entry is absent or there is none. -/
def nodeAt (nodes : NodeTable) (i : Nat) : Option Node := (nodes[i]?).join

/-- CODE_PRESENT[x]; an absent entry stops the model (R21). -/
def codePresentAt (s : State) (x : Symbol) : Res Bool :=
  match s.codePresent[x.val] with
  | some p => .ok p s
  | none => .stop .absentCode

/-- CODE_LEN[x] and CODE_BITS[x]; an absent entry stops the model (R21). -/
def codeAt (s : State) (x : Symbol) : Res (BitVec 9 × BitVec 256) :=
  match s.codeLen[x.val], s.codeBits[x.val] with
  | some l, some b => .ok (l, b) s
  | _, _ => .stop .absentCode

end Sys2Proof.Machine
end

