-- ==== Sys2Proof/Machine/Tree.lean ====
section
/-! DEFINITION. The tree that NODE holds below an index, as a tree (10_state.md R25, R27; 00_scope.md R16). -/

namespace Sys2Proof.Machine

/-- A tree with the node indices and weights it has in NODE. -/
inductive Tree where
  | leaf (idx : Nat) (sym : Symbol) (weight : Option Weight)
  | node (idx : Nat) (weight : Option Weight) (left right : Tree)
deriving DecidableEq, Repr

/-- The index of the top node. -/
def Tree.idx : Tree → Nat
  | .leaf i _ _ => i
  | .node i _ _ _ => i

/-- The weight of the top node. -/
def Tree.weight : Tree → Option Weight
  | .leaf _ _ w => w
  | .node _ w _ _ => w

/-- Every node index, in pre-order. -/
def Tree.indices : Tree → List Nat
  | .leaf i _ _ => [i]
  | .node i _ l r => i :: (l.indices ++ r.indices)

/-- The leaves' symbols, from left to right. -/
def Tree.symbols : Tree → List Symbol
  | .leaf _ x _ => [x]
  | .node _ _ l r => l.symbols ++ r.symbols

/-- The tree's shape, without indices and weights (R16). -/
inductive Shape where
  | leaf (sym : Symbol)
  | node (left right : Shape)
deriving DecidableEq, Repr

/-- The shape of a tree: two trees are shape-equal when their shapes are equal (R16). -/
def Tree.shape : Tree → Shape
  | .leaf _ x _ => .leaf x
  | .node _ _ l r => .node l.shape r.shape

/-- The tree below index i, read to the given depth; `none` where an entry is absent or the nodes do not
end in leaves within that depth. -/
def readTree (nodes : NodeTable) : (depth i : Nat) → Option Tree
  | 0, _ => none
  | d + 1, i =>
    match nodeAt nodes i with
    | none => none
    | some (.leaf x w) => some (.leaf i x w)
    | some (.internal l r w) =>
      match readTree nodes d l.toNat, readTree nodes d r.toNat with
      | some tl, some tr => some (.node i w tl tr)
      | _, _ => none

/-- The held tree, NODE below ROOT. NODE_CAP levels are enough for every tree NODE can hold. -/
def State.heldTree (s : State) : Option Tree := readTree s.nodes Config.nodeCap s.root.toNat

/-- The commands that walk the held tree. -/
def withHeldTree {α : Type} (s : State) (k : Tree → Res α) : Res α :=
  match s.heldTree with
  | some t => k t
  | none => .stop .brokenTree

end Sys2Proof.Machine
end

