-- ==== Sys2Proof/Machine/CodeTable.lean ====
section
/-! DEFINITION. The code table (42_code_table.md R95 to R99). -/

namespace Sys2Proof.Machine

/-- No symbol has a code: CODE_PRESENT all 0, the rest absent (R95). -/
def emptyCodes : CodeTable :=
  ⟨Vector.replicate 257 (some false), Vector.replicate 257 none, Vector.replicate 257 none⟩

/-- A leaf's path becomes its symbol's code (R95). -/
def CodeTable.put (c : CodeTable) (x : Symbol) (len val : Nat) : CodeTable :=
  ⟨c.present.set x.val (some true) x.isLt,
   c.len.set x.val (some (BitVec.ofNat 9 len)) x.isLt,
   c.bits.set x.val (some (BitVec.ofNat 256 val)) x.isLt⟩

/-- `visit(i, len, val)` (R95): depth first, left before right, "0" for left and "1" for right. -/
def visit : Tree → (len val : Nat) → CodeTable → CodeTable
  | .leaf _ x _, len, val, c => c.put x len val
  | .node _ _ l r, len, val, c =>
    visit r (len + 1) (2 * val + 1) (visit l (len + 1) (2 * val) c)

/-- The code table of a tree (R95). -/
def codesOf (t : Tree) : CodeTable := visit t 0 0 emptyCodes

/-- CODES_BUILD (R95). -/
def execCodesBuild (s : State) : Out :=
  finish .other
    (if s.treeValid then
      withHeldTree s fun t =>
        .ok (s.leafCount.setWidth 64) ((s.setCodes true (codesOf t)).setEnded false)
     else notReady .codesBuild s)

/-- CODE_LEN_READ s (R98). -/
def execCodeLenRead (sym : SymField) (s : State) : Out :=
  finish .other (withSymbol (.codeLenRead sym) sym s fun x =>
    if s.codesValid then
      (codePresentAt s x).bind fun p t =>
        if p then (codeAt t x).bind fun c u => .ok (c.1.setWidth 64 ||| (1#64 <<< 9)) u
        else .ok 0#64 t
    else notReady (.codeLenRead sym) s)

/-- Word k of a code value: bits 64k+63 down to 64k (R99). -/
def codeWord (bits : BitVec 256) (k : Word) : DWord := bits.extractLsb' (64 * k.toNat) 64

/-- CODE_BITS_READ s, k (R99): NOT_READY before BAD_OPERAND. -/
def execCodeBitsRead (sym : SymField) (wordIndex : Word) (s : State) : Out :=
  finish .other (withSymbol (.codeBitsRead sym wordIndex) sym s fun x =>
    if s.codesValid then
      if wordIndex.toNat ≤ 3 then
        (codePresentAt s x).bind fun p t =>
          if p then (codeAt t x).bind fun c u => .ok (codeWord c.2 wordIndex) u
          else .ok 0#64 t
      else badOperand wordIndex s
    else notReady (.codeBitsRead sym wordIndex) s)

end Sys2Proof.Machine
end

