-- ==== Sys2Proof/Machine/Control.lean ====
section
/-! DEFINITION. The control commands (46_control.md R118 to R122). -/

namespace Sys2Proof.Machine

/-- NOP (R118). -/
def execNop (s : State) : Out := finish .other (.ok 0#64 s)

/-- ERR_CLEAR (R119): RESULT is the code being cleared. -/
def execErrClear (s : State) : Out :=
  finish .other (.ok (s.errCode.code.setWidth 64) s.unlatch)

/-- IN_RESET (R120). -/
def execInReset (s : State) : Out :=
  finish .other ((chanReset s).bind fun _ t => .ok 0#64 t)

/-- OUT_CLOSE (R121): IO_WRITE_FAIL where the close fails. -/
def execOutClose (s : State) : Out :=
  match chanClose s with
  | .answered true t => finish .other (.ok t.outBitsWritten t)
  | .answered false t => finish .other (.raise .ioWriteFail t.outBitsWritten t)
  | .silent => .fault .channelSilent

/-- CNT_READ k (R122). -/
def execCntRead (sel : BitVec 1) (s : State) : Out :=
  finish .other (.ok (if sel = 0#1 then s.inBitsRead else s.outBitsWritten) s)

end Sys2Proof.Machine
end

