-- ==== Sys2Proof/Machine/Frequency.lean ====
section
/-! DEFINITION. The frequency table commands (40_frequency.md R78 to R85). -/

namespace Sys2Proof.Machine

/-- The table of all zeros. -/
def zeroFreq : FreqTable := Vector.replicate 257 0#32

/-- The largest count (R80). -/
def maxCount : Word := 0xFFFFFFFF#32

/-- Count one byte: COUNT_OVERFLOW where the count is at its maximum, else the new count (R80). -/
def countByte (b : Byte) (s : State) : Res Word :=
  let c := s.count (byteSymbol b)
  if c = maxCount then .raise .countOverflow (b.setWidth 64) s
  else .ok (c + 1#32) (s.setCount (byteSymbol b) (c + 1#32))

/-- FREQ_CLEAR (R79). -/
def execFreqClear (s : State) : Out := finish .other (.ok 0#64 (s.setFreq zeroFreq))

/-- FREQ_COUNT b (R80). -/
def execFreqCount (b : Byte) (s : State) : Out :=
  finish .other ((countByte b s).bind fun c t => .ok (c.setWidth 64) t)

/-- FREQ_SET_EOS (R81). -/
def execFreqSetEos (s : State) : Out := finish .other (.ok 0#64 (s.setCount sentinel 1#32))

/-- FREQ_WRITE s, count (R82). -/
def execFreqWrite (sym : SymField) (count : Word) (s : State) : Out :=
  finish .other (withSymbol (.freqWrite sym count) sym s fun x => .ok 0#64 (s.setCount x count))

/-- FREQ_READ s (R83). -/
def execFreqRead (sym : SymField) (s : State) : Out :=
  finish .other (withSymbol (.freqRead sym) sym s fun x => .ok ((s.count x).setWidth 64) s)

/-- The counting loop of R84, from n bytes counted on. Each turn but the last takes 8 bits. -/
def countLoop : (bound : Nat) → (n : Nat) → State → Res Nat
  | 0, _, _ => .stop .noProgress
  | bound + 1, n, s =>
    (readBits 8 s).bind fun v t =>
      match v with
      | none => .ok n t
      | some b => (countByte b t).bind fun _ u => countLoop bound (n + 1) u

/-- A bound on the turns of a loop that reads the input: the bits left, and one. -/
def inputBound (s : State) : Nat := s.inBits.length - s.inPos + 1

/-- FREQ_COUNT_STREAM (R84). -/
def execFreqCountStream (s : State) : Out :=
  finish .other
    (if s.inExhausted then notReady .freqCountStream s
     else
      (countLoop (inputBound s) 0 (s.setFreq zeroFreq)).bind fun n t =>
        .ok (BitVec.ofNat 64 n) (t.setCount sentinel 1#32))

end Sys2Proof.Machine
end

