-- ==== Sys2Proof/Machine/Decoder.lean ====
section
/-! DEFINITION. The stream decoder (45_stream_decoder.md R111 to R117). -/

namespace Sys2Proof.Machine

/-- The step code of an emitted byte, `1 | s << 8` (R111). -/
def byteCode (x : Symbol) : DWord := 1#64 ||| (BitVec.ofNat 64 x.val <<< 8)

/-- The walk reaches node c (R111). -/
def arrive (c : NodeIdx) (s : State) : Res DWord :=
  match nodeAt s.nodes c.toNat with
  | none => .stop .brokenTree
  | some (.internal _ _ _) => .ok 0#64 (s.setDec s.decState (some c))
  | some (.leaf x _) =>
    if x = sentinel then .ok 2#64 (s.setDec .done none)
    else
      (writeBits (BitVec.ofNat 8 x.val) s).bind fun _ t =>
        .ok (byteCode x) (t.setDec t.decState (some t.root))

/-- The child of node DEC_CUR that bit `right` selects (R111). -/
def childOfCursor (right : Bool) (s : State) : Res NodeIdx :=
  match s.decCur with
  | none => .stop .absentCursor
  | some cur =>
    match nodeAt s.nodes cur.toNat with
    | some (.internal l r _) => .ok (if right then r else l) s
    | some (.leaf _ _) => .stop .brokenTree
    | none => .stop .brokenTree

/-- `DecStep()` (R111). -/
def decStep (s : State) : Res DWord :=
  (readBits 1 s).bind fun v t =>
    match v with
    | none => .raise .truncatedStream t.inBitsRead t
    | some b => (childOfCursor (b == 1#1) t).bind fun c u => arrive c u

/-- DEC_START (R112). -/
def execDecStart (s : State) : Out :=
  finish .decoder
    (if s.treeValid then
      match nodeAt s.nodes s.root.toNat with
      | none => .stop .brokenTree
      | some (.internal _ _ _) => .ok 0#64 (s.setDec .walking (some s.root))
      | some (.leaf x _) =>
        if x = sentinel then .ok 2#64 (s.setDec .done none)
        else .raise .degenerateTree (BitVec.ofNat 64 x.val) s
     else notReady .decStart s)

/-- The shared head of DEC_BIT, DEC_SYMBOL and DEC_STREAM: NOT_READY in IDLE and ERROR, and DONE is
absorbing (R113, R114, R115). -/
def whenWalking (i : Instr) (s : State) (doneResult : DWord) (k : Res DWord) : Res DWord :=
  match s.decState with
  | .idle => notReady i s
  | .error => notReady i s
  | .done => .ok doneResult s
  | .walking => k

/-- DEC_BIT (R113). -/
def execDecBit (s : State) : Out := finish .decoder (whenWalking .decBit s 2#64 (decStep s))

/-- `repeat r <- DecStep() until r != 0` (R114). -/
def symbolLoop : (bound : Nat) → State → Res DWord
  | 0, _ => .stop .noProgress
  | bound + 1, s =>
    (decStep s).bind fun r t => if r = 0#64 then symbolLoop bound t else .ok r t

/-- DEC_SYMBOL (R114). -/
def execDecSymbol (s : State) : Out :=
  finish .decoder (whenWalking .decSymbol s 2#64 (symbolLoop (inputBound s) s))

/-- `while DEC_STATE = WALKING` of R115, from n bytes emitted on. -/
def streamLoop : (bound : Nat) → (n : Nat) → State → Res Nat
  | 0, _, _ => .stop .noProgress
  | bound + 1, n, s =>
    if s.decState = .walking then
      (decStep s).bind fun r t => streamLoop bound (if r.getLsbD 0 then n + 1 else n) t
    else .ok n s

/-- DEC_STREAM (R115). -/
def execDecStream (s : State) : Out :=
  finish .decoder (whenWalking .decStream s 0#64
    ((streamLoop (inputBound s) 0 s).bind fun n t => .ok (BitVec.ofNat 64 n) t))

end Sys2Proof.Machine
end

