-- ==== Sys2Proof/Machine/Encoder.lean ====
section
/-! DEFINITION. The stream encoder (44_stream_encoder.md R106 to R110). -/

namespace Sys2Proof.Machine

/-- Bits j-1 down to 0 of a code value, one write each (R106). -/
def emitBits (bits : BitVec 256) : (j : Nat) → State → Res Unit
  | 0, s => .ok () s
  | j + 1, s => (writeBits (BitVec.ofBool (bits.getLsbD j)) s).bind fun _ t => emitBits bits j t

/-- `EmitCode(s)` (R106); its value is CODE_LEN[s]. -/
def emitCode (x : Symbol) (s : State) : Res (BitVec 9) :=
  (codeAt s x).bind fun c t => (emitBits c.2 c.1.toNat t).bind fun _ u => .ok c.1 u

/-- `if CODE_PRESENT[x] = 0: raise NO_CODE(x)`, then EmitCode (R107 to R109). -/
def emitSymbol (x : Symbol) (s : State) : Res (BitVec 9) :=
  (codePresentAt s x).bind fun p t =>
    if p then emitCode x t else .raise .noCode (BitVec.ofNat 64 x.val) t

/-- The preconditions every ENC_* command checks first, in this order (R107, R108, R109). -/
def encReady {α : Type} (i : Instr) (s : State) (k : Res α) : Res α :=
  if s.codesValid then
    if s.encEnded then .raise .streamEnded (wordInfo i) s else k
  else notReady i s

/-- ENC_SYMBOL b (R107). -/
def execEncSymbol (b : Byte) (s : State) : Out :=
  finish .other (encReady (.encSymbol b) s
    ((emitSymbol (byteSymbol b) s).bind fun len t => .ok (len.setWidth 64) t))

/-- ENC_EOS (R108). -/
def execEncEos (s : State) : Out :=
  finish .other (encReady .encEos s
    ((emitSymbol sentinel s).bind fun len t => .ok (len.setWidth 64) (t.setEnded true)))

/-- The encoding loop of R109, from n bytes encoded on. Each turn but the last takes 8 bits. -/
def encodeLoop : (bound : Nat) → (n : Nat) → State → Res Nat
  | 0, _, _ => .stop .noProgress
  | bound + 1, n, s =>
    (readBits 8 s).bind fun v t =>
      match v with
      | none => .ok n t
      | some b => (emitSymbol (byteSymbol b) t).bind fun _ u => encodeLoop bound (n + 1) u

/-- ENC_STREAM (R109). -/
def execEncStream (s : State) : Out :=
  finish .other (encReady .encStream s
    (if s.inExhausted then notReady .encStream s
     else
      (encodeLoop (inputBound s) 0 s).bind fun n t =>
        (emitSymbol sentinel t).bind fun _ u => .ok (BitVec.ofNat 64 n) (u.setEnded true)))

end Sys2Proof.Machine
end

