-- ==== Sys2Proof/Machine/Header.lean ====
section
/-! DEFINITION. The header codec: the magic value and the tree header (43_header_codec.md R100 to R105). -/

namespace Sys2Proof.Machine

/-- MAGIC_WRITE (R100). -/
def execMagicWrite (s : State) : Out :=
  finish .other ((writeBits s.magic s).bind fun _ t => .ok 0#64 t)

/-- The read and check of MAGIC_READ (R101). -/
def readMagic (s : State) : Res DWord :=
  (readBits 32 s).bind fun v t =>
    match v with
    | none => .raise .hdrEoi t.inBitsRead t
    | some m =>
      if m = t.magic then .ok (m.setWidth 64) t else .raise .hdrBadMagic (m.setWidth 64) t

/-- MAGIC_READ (R101). -/
def execMagicRead (s : State) : Out := finish .other (readMagic s)

/-- `emit(i)` of R102 on the tree below i: a 0 bit and the two subtrees, or a 1 bit and the 9-bit symbol. -/
def emitTree : Tree → State → Res Unit
  | .leaf _ x _, s => (writeBits 1#1 s).bind fun _ t => writeBits (symbolField x) t
  | .node _ _ l r, s =>
    (writeBits 0#1 s).bind fun _ t => (emitTree l t).bind fun _ u => emitTree r u

/-- HEADER_WRITE (R102). -/
def execHeaderWrite (s : State) : Out :=
  finish .other
    (if s.treeValid then
      withHeldTree s fun t =>
        (emitTree t s).bind fun _ u =>
          .ok (u.outBitsWritten - s.outBitsWritten) (u.setEnded false)
     else notReady .headerWrite s)

/-- The working storage of HEADER_READ (R104): n, L, SEEN, and the nodes written so far. -/
structure Parse where
  n : Nat
  leaves : Nat
  seen : List Symbol
  nodes : NodeTable
deriving DecidableEq, Repr

/-- The working storage at the start (R104). Every entry below the final n is written by the pass and the
entries from n on become absent, so the pass can start from an absent table. -/
def Parse.start : Parse := ⟨0, 0, [], Vector.replicate 513 none⟩

/-- The next index is taken (R104: pre-order numbering). -/
def Parse.take (p : Parse) : Parse := { p with n := p.n + 1 }

/-- `NODE[i] <- v`. -/
def Parse.put (p : Parse) (i : Nat) (v : Node) : Parse :=
  { p with nodes := p.nodes.setIfInBounds i (some v) }

/-- A leaf's symbol is noted (R104). -/
def Parse.see (p : Parse) (x : Symbol) : Parse :=
  { p with seen := x :: p.seen, leaves := p.leaves + 1 }

/-- The checks of a leaf's 9-bit field, in R104's order. -/
def parseLeaf (i : Nat) (p : Parse) (s : State) : Res (Nat × Parse) :=
  (readBits 9 s).bind fun v t =>
    match v with
    | none => .raise .hdrEoi t.inBitsRead t
    | some f =>
      match symbolOf f with
      | none => .raise .hdrBadSymbol (f.setWidth 64) t
      | some x =>
        if x ∈ p.seen then .raise .hdrDupSymbol (f.setWidth 64) t
        else .ok (i, (p.see x).put i (.leaf x none)) t

/-- `parse()` of R104: the new node's index. The depth is bounded, since each level takes an index. -/
def parse : (depth : Nat) → Parse → State → Res (Nat × Parse)
  | 0, _, _ => .stop .noProgress
  | d + 1, p, s =>
    (readBits 1 s).bind fun v t =>
      match v with
      | none => .raise .hdrEoi t.inBitsRead t
      | some tag =>
        if p.n = 513 then .raise .hdrTooLarge t.inBitsRead t
        else if tag = 0#1 then
          (parse d p.take t).bind fun l u =>
            (parse d l.2 u).bind fun r w =>
              .ok (p.n,
                r.2.put p.n (.internal (BitVec.ofNat 10 l.1) (BitVec.ofNat 10 r.1) none)) w
        else parseLeaf p.n p.take t

/-- What HEADER_READ clears before it reads (R104). -/
def beginHeaderRead (s : State) : State :=
  ((s.dropTree.dropCodes).setEnded false).setDec .idle none

/-- HEADER_READ (R104). After an error the contents of NODE are unspecified. -/
def execHeaderRead (s : State) : Out :=
  finish .other
    (((parse 514 Parse.start (beginHeaderRead s)).bind fun r t =>
        .ok (BitVec.ofNat 64 r.2.n)
          (t.holdTree .header r.2.nodes (BitVec.ofNat 10 r.1) r.2.n r.2.leaves)).mapRaise
      State.loseNodes)

end Sys2Proof.Machine
end

