-- ==== Sys2Proof/Machine/TreeBuilder.lean ====
section
/-! DEFINITION. The tree builder (41_tree_builder.md R86 to R94). -/

namespace Sys2Proof.Machine

/-- The symbols of positive count below n, highest first (R86). -/
def seedsBelow (freq : FreqTable) : Nat → List Symbol
  | 0 => []
  | n + 1 =>
    if h : n < 257 then
      if freq[n] = 0#32 then seedsBelow freq n else ⟨n, h⟩ :: seedsBelow freq n
    else seedsBelow freq n

/-- The symbols of positive count in descending order: the leaves' order (R86). -/
def seeds (freq : FreqTable) : List Symbol := seedsBelow freq 257

/-- An entry of LIVE: a node index with its weight (R87). -/
structure Live where
  weight : Weight
  idx : Nat
deriving DecidableEq, Repr

/-- The priority order: the lesser weight, then the lesser index (R87). -/
def Live.before (a b : Live) : Bool :=
  decide (a.weight.toNat < b.weight.toNat ∨ (a.weight = b.weight ∧ a.idx < b.idx))

/-- The first of `a :: rest` in the priority order, and the others. -/
def popFrom (a : Live) : List Live → Live × List Live
  | [] => (a, [])
  | b :: rest =>
    if b.before a then ((popFrom b rest).1, a :: (popFrom b rest).2)
    else ((popFrom a rest).1, b :: (popFrom a rest).2)

/-- `PopMin(LIVE)` (R87). -/
def popMin : List Live → Option (Live × List Live)
  | [] => none
  | a :: rest => some (popFrom a rest)

/-- The leaf of a symbol in a built tree (R89). -/
def seedLeaf (freq : FreqTable) (x : Symbol) : Node :=
  .leaf x (some ((freq[x.val]).setWidth 41))

/-- LIVE at the start: the seeded leaves with their indices (R86, R89). -/
def seedLive (freq : FreqTable) (xs : List Symbol) : List Live :=
  xs.zipIdx.map fun p => ⟨(freq[p.1.val]).setWidth 41, p.2⟩

/-- One merge: the node made of the two removed, the first as the right child and the second as the left
(R88), and its entry in LIVE. -/
def mergeNode (a b : Live) : Node :=
  .internal (BitVec.ofNat 10 b.idx) (BitVec.ofNat 10 a.idx) (some (a.weight + b.weight))

/-- The merge loop of R89: while two nodes are live, remove two and append their parent. -/
def mergeLoop : (turns : Nat) → List Live → List Node → List Node
  | 0, _, nodes => nodes
  | turns + 1, live, nodes =>
    match popMin live with
    | none => nodes
    | some (a, live1) =>
      match popMin live1 with
      | none => nodes
      | some (b, live2) =>
        mergeLoop turns (live2 ++ [⟨a.weight + b.weight, nodes.length⟩]) (nodes ++ [mergeNode a b])

/-- The nodes TREE_BUILD makes, in the order of their indices (R86, R89). Each turn takes one node from
LIVE, so the number of leaves bounds the turns. -/
def builtNodes (freq : FreqTable) : List Node :=
  let xs := seeds freq
  mergeLoop xs.length (seedLive freq xs) (xs.map (seedLeaf freq))

/-- A list of nodes as the NODE table, the entries after them absent. -/
def packNodes (nodes : List Node) : NodeTable :=
  Vector.mk ((nodes.map some ++ List.replicate 513 none).take 513).toArray
    (by rw [List.size_toArray, List.length_take, List.length_append, List.length_replicate]; omega)

/-- The weight field of a node (R25). -/
def Node.weight : Node → Option Weight
  | .leaf _ w => w
  | .internal _ _ w => w

/-- The code table with every entry absent (R89). -/
def absentCodes : CodeTable :=
  ⟨Vector.replicate 257 none, Vector.replicate 257 none, Vector.replicate 257 none⟩

/-- What TREE_BUILD leaves when it succeeds (R89). -/
def buildTree (s : State) : State :=
  let nodes := builtNodes s.freq
  ((((s.holdTree .built (packNodes nodes) (BitVec.ofNat 10 (nodes.length - 1)) nodes.length
    (seeds s.freq).length).setCodes false absentCodes).setEnded false).setDec .idle none)

/-- The weight of the last node built, the root (R89). -/
def builtWeight (freq : FreqTable) : Weight :=
  (((builtNodes freq).getLast?).bind Node.weight).getD 0#41

/-- TREE_BUILD (R89): CONSTRUCTION before anything changes. -/
def execTreeBuild (s : State) : Out :=
  finish .other
    (if (seeds s.freq).isEmpty then .raise .construction 0#64 s
     else .ok ((builtWeight s.freq).setWidth 64) (buildTree s))

/-- TREE_INFO's word: ROOT, NODE_COUNT, LEAF_COUNT, TREE_SRC (R92). -/
def treeInfoWord (s : State) : DWord :=
  s.root.setWidth 64 ||| (s.nodeCount.setWidth 64 <<< 10) ||| (s.leafCount.setWidth 64 <<< 20) |||
    (s.treeSrc.code.setWidth 64 <<< 30)

/-- TREE_INFO (R92). -/
def execTreeInfo (s : State) : Out :=
  finish .other (if s.treeValid then .ok (treeInfoWord s) s else notReady .treeInfo s)

/-- NODE_READ's word (R93). -/
def nodeWord : Node → DWord
  | .leaf x _ => 1#64 ||| ((symbolField x).setWidth 64 <<< 1)
  | .internal l r _ => (l.setWidth 64 <<< 10) ||| (r.setWidth 64 <<< 20)

/-- NODE_READ i (R93). -/
def execNodeRead (index : Word) (s : State) : Out :=
  finish .other
    (if s.treeValid then
      if nodeIndexOk index s then
        match nodeAt s.nodes index.toNat with
        | some n => .ok (nodeWord n) s
        | none => .stop .brokenTree
      else badOperand index s
     else notReady (.nodeRead index) s)

/-- NODE_WEIGHT_READ i (R94): a header tree has no weights. -/
def execNodeWeightRead (index : Word) (s : State) : Out :=
  finish .other
    (if s.treeValid && s.treeSrc == .built then
      if nodeIndexOk index s then
        match (nodeAt s.nodes index.toNat).bind Node.weight with
        | some w => .ok (w.setWidth 64) s
        | none => .stop .brokenTree
      else badOperand index s
     else notReady (.nodeWeightRead index) s)

end Sys2Proof.Machine
end

