-- ==== Sys2Proof/Machine/Dispatch.lean ====
section
/-! DEFINITION. The meaning of each command, one arm per constructor. -/

namespace Sys2Proof.Machine

def exec (i : Instr) (s : State) : Host.Outcome State Fault Refusal :=
  match i with
  | .nop => Sys2Proof.Machine.execNop s
  | .errClear => Sys2Proof.Machine.execErrClear s
  | .inReset => Sys2Proof.Machine.execInReset s
  | .outClose => Sys2Proof.Machine.execOutClose s
  | .cntRead sel => Sys2Proof.Machine.execCntRead sel s
  | .freqClear => Sys2Proof.Machine.execFreqClear s
  | .freqCount b => Sys2Proof.Machine.execFreqCount b s
  | .freqSetEos => Sys2Proof.Machine.execFreqSetEos s
  | .freqWrite sym count => Sys2Proof.Machine.execFreqWrite sym count s
  | .freqRead sym => Sys2Proof.Machine.execFreqRead sym s
  | .freqCountStream => Sys2Proof.Machine.execFreqCountStream s
  | .treeBuild => Sys2Proof.Machine.execTreeBuild s
  | .treeInfo => Sys2Proof.Machine.execTreeInfo s
  | .nodeRead index => Sys2Proof.Machine.execNodeRead index s
  | .nodeWeightRead index => Sys2Proof.Machine.execNodeWeightRead index s
  | .codesBuild => Sys2Proof.Machine.execCodesBuild s
  | .codeLenRead sym => Sys2Proof.Machine.execCodeLenRead sym s
  | .codeBitsRead sym wordIndex => Sys2Proof.Machine.execCodeBitsRead sym wordIndex s
  | .magicWrite => Sys2Proof.Machine.execMagicWrite s
  | .magicRead => Sys2Proof.Machine.execMagicRead s
  | .headerWrite => Sys2Proof.Machine.execHeaderWrite s
  | .headerRead => Sys2Proof.Machine.execHeaderRead s
  | .encSymbol b => Sys2Proof.Machine.execEncSymbol b s
  | .encEos => Sys2Proof.Machine.execEncEos s
  | .encStream => Sys2Proof.Machine.execEncStream s
  | .decStart => Sys2Proof.Machine.execDecStart s
  | .decBit => Sys2Proof.Machine.execDecBit s
  | .decSymbol => Sys2Proof.Machine.execDecSymbol s
  | .decStream => Sys2Proof.Machine.execDecStream s

end Sys2Proof.Machine
end

