-- ==== Sys2Proof/Machine/Issue.lean ====
section
/-! DEFINITION. What the block does with one command on its port, in the order of 60_exceptions.md R126, and
with one act of the host (R139). -/

namespace Sys2Proof.Machine

/-- R126: the latched error first, then decode, then the command's own checks. -/
def issue (w arg : Word) (s : State) : Out :=
  if rejects w s then .next (reject s)
  else
    match decode w arg with
    | .illegal _ => raiseIllegal w s
    | .instr i => exec i s

/-- The next act of the host. With none left the block waits and all its state holds (R138, R144). A reset
in the middle of a command ends it with no response and leaves the state of R142 (R145). -/
def takeAct (s : State) : Out :=
  match s.host with
  | [] => .next s
  | .command w arg :: rest => issue w arg (s.setHost rest)
  | .reset fresh :: rest => .next (s.afterReset fresh rest)
  | .resetDuring _ _ fresh :: rest => .next (s.afterReset fresh rest)

/-- The host issues one command before its other acts. -/
def State.withCommand (s : State) (w arg : Word) : State := s.setHost (.command w arg :: s.host)

end Sys2Proof.Machine
end

