-- ==== Sys2Proof/Safety.lean ====
section
/-! DEFINITION. The terms of the claims: when channels answer, the invariant of the machine (10_state.md R27
to R34), what a command may change (R41), and the bit strings the spec writes down (R12, R95, R102). -/

namespace Sys2Proof.Machine

/-! ### Channels -/

/-- The channels accept every transaction from the next one on. -/
def State.Quiet (s : State) : Prop := ∀ k, s.answerAt (s.txCount + k) = .accept

/-- The channels answer every transaction from the next one on; they may fail. -/
def State.Answers (s : State) : Prop := ∀ k, s.answerAt (s.txCount + k) ≠ .silent

/-- The channels accept every transaction from the next one to the one before number n (R48). -/
def State.acceptedBefore (s : State) (n : Nat) : Prop :=
  ∀ k, s.txCount ≤ k → k < n → s.answerAt k = .accept

/-- The first failed transaction from the next one on is the one after k accepted ones (R48). -/
def State.failsAfter (s : State) (k : Nat) : Prop :=
  s.acceptedBefore (s.txCount + k) ∧ s.answerAt (s.txCount + k) = .fail

/-- The state after k more transactions that have moved the input on by n bits and appended `out` to the
output, with the counters of both (R34, R46, R47); nothing else differs. -/
def State.moved (s : State) (n : Nat) (out : List Bool) (k : Nat) : State :=
  { s with
    inPos := s.inPos + n, inBitsRead := s.inBitsRead + BitVec.ofNat 64 n,
    outBits := s.outBits ++ out, outBitsWritten := s.outBitsWritten + BitVec.ofNat 64 out.length,
    txCount := s.txCount + k }

/-- The number of transactions of the error entry: its close, where the output is open (R51, R127). -/
def State.closeCount (s : State) : Nat := if s.outOpen then 1 else 0

/-- The input from p on (R45). -/
def State.restBits (s : State) : List Bool := s.inBits.drop s.inPos

/-- The close in the error entry is answered, or there is nothing to close (R51, R127). -/
def State.CloseAnswered (s : State) : Prop := s.outOpen = false ∨ s.answer ≠ .silent

/-- What the error entry leaves (R127), field by field: the error registers, DEC_STATE and DEC_CUR for a
decoder command, the closed output, and the response. -/
def State.afterError (s : State) (toError : Bool) (e : ErrCode) (info : DWord) : State :=
  let t : State :=
    { s with
      err := true, errCode := e, errInfo := info,
      decState := if toError then .error else s.decState,
      decCur := if toError then none else s.decCur,
      outOpen := false,
      outClosed := s.outClosed || (s.outOpen && s.answer == .accept),
      txCount := if s.outOpen then s.txCount + 1 else s.txCount }
  { t with responses := t.responses ++ [⟨statusWord false false t, info⟩] }

/-! ### The invariant -/

/-- Every weight is present, and an internal node's is the sum of its children's (R27 (d)). -/
def Tree.weighted : Tree → Bool
  | .leaf _ _ w => w.isSome
  | .node _ w l r =>
    l.weighted && r.weighted &&
      (match w, l.weight, r.weight with
       | some w, some a, some b => decide (w.toNat = a.toNat + b.toNat)
       | _, _, _ => false)

/-- No weight is present (R25: a header tree). -/
def Tree.unweighted : Tree → Bool
  | .leaf _ _ w => w.isNone
  | .node _ w l r => w.isNone && l.unweighted && r.unweighted

/-- The tree fills NODE[0..NODE_COUNT-1] and the tree registers describe it (R26, R27). -/
structure Tree.Fills (t : Tree) (s : State) : Prop where
  /-- (a) each node is reached once -/
  once : t.indices.Nodup
  /-- (a) every node reached is below NODE_COUNT -/
  below : ∀ i ∈ t.indices, i < s.nodeCount.toNat
  /-- (a) as many as there are -/
  all : t.indices.length = s.nodeCount.toNat
  /-- the entries from NODE_COUNT on are absent -/
  rest : ∀ i, s.nodeCount.toNat ≤ i → nodeAt s.nodes i = none
  /-- (b) LEAF_COUNT is the number of leaves -/
  leaves : t.symbols.length = s.leafCount.toNat
  /-- (c) no symbol twice -/
  distinct : t.symbols.Nodup
  /-- (d) a built tree has its weights -/
  built : s.treeSrc = .built → t.weighted = true
  /-- a header tree has none -/
  header : s.treeSrc = .header → t.unweighted = true

/-- R27: while TREE_VALID = 1, NODE holds a complete tree. -/
def State.TreeInv (s : State) : Prop :=
  s.treeValid = true → ∃ t, s.heldTree = some t ∧ t.Fills s

/-- R28, R29: while CODES_VALID = 1, the code table is the one of the tree now held. -/
def State.CodesInv (s : State) : Prop :=
  s.codesValid = true → s.treeValid = true ∧ ∃ t, s.heldTree = some t ∧ s.codes = codesOf t

/-- R31: DEC_CUR is present exactly while walking, and then it is an internal node of the held tree. -/
def State.DecInv (s : State) : Prop :=
  (s.decState ≠ .walking → s.decCur = none) ∧
  (s.decState = .walking → s.treeValid = true ∧
    ∃ c l r w, s.decCur = some c ∧ c.toNat < s.nodeCount.toNat ∧
      nodeAt s.nodes c.toNat = some (.internal l r w))

/-- R30: the stream has ended only under a valid code table. -/
def State.EndInv (s : State) : Prop := s.encEnded = true → s.codesValid = true

/-- R32, R127: ERR says whether an error is latched, and a latched error has closed the output. -/
def State.ErrInv (s : State) : Prop :=
  (s.err = false → s.errCode = .none ∧ s.errInfo = 0#64) ∧
  (s.err = true → s.errCode ≠ .none ∧ s.outOpen = false)

/-- R33, R34, R45: the flags and counters mirror the channels. -/
def State.ChanInv (s : State) : Prop :=
  s.inPos ≤ s.inBits.length ∧
  (s.inExhausted = true → s.inPos = s.inBits.length) ∧
  (s.inExhausted = false → s.inBitsRead = BitVec.ofNat 64 s.inPos) ∧
  s.outBitsWritten = BitVec.ofNat 64 s.outBits.length ∧
  (s.outClosed = true → s.outOpen = false)

/-- The invariant of the machine. -/
structure State.Inv (s : State) : Prop where
  tree : s.TreeInv
  codes : s.CodesInv
  dec : s.DecInv
  ended : s.EndInv
  err : s.ErrInv
  chan : s.ChanInv

/-- The table of reset values (R142), row by row. -/
structure State.AtReset (t : State) : Prop where
  freq : ∀ x, t.count x = 0#32
  node : ∀ i, nodeAt t.nodes i = none
  treeValid : t.treeValid = false
  treeSrc : t.treeSrc = .built
  root : t.root = 0#10
  nodeCount : t.nodeCount = 0#10
  leafCount : t.leafCount = 0#10
  codes : ∀ x : Symbol,
    t.codePresent[x.val] = none ∧ t.codeLen[x.val] = none ∧ t.codeBits[x.val] = none
  codesValid : t.codesValid = false
  encEnded : t.encEnded = false
  decState : t.decState = .idle
  decCur : t.decCur = none
  err : t.err = false
  errCode : t.errCode = .none
  errInfo : t.errInfo = 0#64
  outOpen : t.outOpen = true
  inExhausted : t.inExhausted = false
  inBitsRead : t.inBitsRead = 0#64
  outBitsWritten : t.outBitsWritten = 0#64

/-! ### Commands -/

/-- The command word with the given OPC and SYM: `zext_32(SYM) << 8 | OPC` (R65, R75). -/
def commandWord (opc : BitVec 8) (sym : SymField) : Word :=
  sym.setWidth 32 <<< 8 ||| opc.setWidth 32

/-- The legal SYM values of a class (R67). -/
def legalSym (c : SymClass) (sym : SymField) : Prop :=
  match c with
  | .noSym => sym.toNat = 0
  | .byte => sym.toNat ≤ 255
  | .sym => sym.toNat ≤ 256
  | .sel => sym.toNat ≤ 1

/-- The encoding of a command of class `none` (R67, R69): SYM 0 gives the command, any other SYM is illegal. -/
def EncodedNone (opc : BitVec 8) (f : Word → Instr) : Prop :=
  (∀ arg : Word, decode (commandWord opc 0#9) arg = .instr (f arg)) ∧
  ∀ (sym : SymField) (arg : Word), sym ≠ 0#9 →
    decode (commandWord opc sym) arg = .illegal .symOutOfClass

/-- The encoding of a command of class `sym` (R67, R69): SYM up to 256 gives the command, above it is illegal. -/
def EncodedSym (opc : BitVec 8) (f : SymField → Word → Instr) : Prop :=
  ∀ (sym : SymField) (arg : Word),
    (sym.toNat ≤ 256 → decode (commandWord opc sym) arg = .instr (f sym arg)) ∧
    (256 < sym.toNat → decode (commandWord opc sym) arg = .illegal .symOutOfClass)

/-- The encoding of a command of class `byte` (R67, R69): SYM up to 255 gives the command, above it is illegal. -/
def EncodedByte (opc : BitVec 8) (f : Byte → Instr) : Prop :=
  (∀ (b : Byte) (arg : Word), decode (commandWord opc (b.setWidth 9)) arg = .instr (f b)) ∧
  ∀ (sym : SymField) (arg : Word), 255 < sym.toNat →
    decode (commandWord opc sym) arg = .illegal .symOutOfClass

/-- The decoder commands of the error entry (R127). -/
def isDecoder : Instr → Bool
  | .decStart | .decBit | .decSymbol | .decStream => true
  | .nop | .errClear | .inReset | .outClose | .cntRead _ => false
  | .freqClear | .freqCount _ | .freqSetEos | .freqWrite _ _ | .freqRead _ => false
  | .freqCountStream | .treeBuild | .treeInfo | .nodeRead _ | .nodeWeightRead _ => false
  | .codesBuild | .codeLenRead _ | .codeBitsRead _ _ => false
  | .magicWrite | .magicRead | .headerWrite | .headerRead => false
  | .encSymbol _ | .encEos | .encStream => false

/-- The errors each command raises: the "raised by" column of R124, by command. A term of `Instr` whose
symbol field is out of its class raises ILLEGAL_COMMAND, as its word does. -/
def mayRaise : Instr → List ErrCode
  | .nop | .errClear | .cntRead _ | .freqClear | .freqSetEos => []
  | .inReset => [.ioReadFail]
  | .outClose => [.ioWriteFail]
  | .freqCount _ => [.countOverflow]
  | .freqWrite _ _ | .freqRead _ => [.illegalCommand]
  | .freqCountStream => [.notReady, .countOverflow, .ioReadFail]
  | .treeBuild => [.construction]
  | .treeInfo | .codesBuild => [.notReady]
  | .nodeRead _ | .nodeWeightRead _ => [.notReady, .badOperand]
  | .codeLenRead _ => [.illegalCommand, .notReady]
  | .codeBitsRead _ _ => [.illegalCommand, .notReady, .badOperand]
  | .magicWrite => [.outputClosed, .ioWriteFail]
  | .magicRead => [.hdrEoi, .hdrBadMagic, .ioReadFail]
  | .headerWrite => [.notReady, .outputClosed, .ioWriteFail]
  | .headerRead => [.hdrEoi, .hdrTooLarge, .hdrBadSymbol, .hdrDupSymbol, .ioReadFail]
  | .encSymbol _ | .encEos => [.notReady, .streamEnded, .noCode, .outputClosed, .ioWriteFail]
  | .encStream => [.notReady, .streamEnded, .noCode, .ioReadFail, .outputClosed, .ioWriteFail]
  | .decStart => [.notReady, .degenerateTree]
  | .decBit | .decSymbol | .decStream =>
    [.notReady, .truncatedStream, .ioReadFail, .outputClosed, .ioWriteFail]

/-- The value of the last n bits the input channel has delivered, first bit most significant (R46, R53). -/
def State.lastBits (s : State) (n : Nat) : Nat :=
  bitsToNat ((s.inBits.take s.inPos).drop (s.inPos - n))

/-- The ERRINFO column of R124, for an error of command `i` that takes state `s` to state `t`. "The byte" and
"the symbol" are the operand of a single-step command and the value last read of a reading one; the symbol of
ENC_STREAM is the sentinel once the input is exhausted (R109). -/
def infoFits (i : Instr) (s t : State) : Prop :=
  match t.errCode with
  | .none => False
  | .illegalCommand | .notReady | .streamEnded => t.errInfo = (encodeWord i).setWidth 64
  | .badOperand => t.errInfo = (encodeArg i).setWidth 64
  | .construction => t.errInfo = 0#64
  | .countOverflow =>
    (∀ b : Byte, i = .freqCount b → t.errInfo = b.setWidth 64) ∧
    (i = .freqCountStream → t.errInfo = BitVec.ofNat 64 (t.lastBits 8))
  | .noCode =>
    (∀ b : Byte, i = .encSymbol b → t.errInfo = b.setWidth 64) ∧
    (i = .encEos → t.errInfo = 256#64) ∧
    (i = .encStream →
      (t.inExhausted = false → t.errInfo = BitVec.ofNat 64 (t.lastBits 8)) ∧
      (t.inExhausted = true → t.errInfo = 256#64))
  | .hdrEoi | .hdrTooLarge | .truncatedStream | .ioReadFail => t.errInfo = t.inBitsRead
  | .hdrBadMagic =>
    t.errInfo = BitVec.ofNat 64 (t.lastBits 32) ∧ t.errInfo ≠ t.magic.setWidth 64
  | .hdrBadSymbol => t.errInfo = BitVec.ofNat 64 (t.lastBits 9) ∧ 256 < t.lastBits 9
  | .hdrDupSymbol => t.errInfo = BitVec.ofNat 64 (t.lastBits 9) ∧ t.lastBits 9 ≤ 256
  | .degenerateTree =>
    ∃ (x : Symbol) (w : Option Weight), nodeAt s.nodes s.root.toNat = some (.leaf x w) ∧
      x ≠ sentinel ∧ t.errInfo = BitVec.ofNat 64 x.val
  | .ioWriteFail | .outputClosed => t.errInfo = t.outBitsWritten

/-- The opcodes of the commands that take ARG as an operand (R66). -/
def argOpcodes : List (BitVec 8) := [0x13#8, 0x22#8, 0x23#8, 0x32#8]

/-- The commands that write FREQ (R41). -/
def writesFreq : Instr → Bool
  | .freqClear | .freqCount _ | .freqSetEos | .freqWrite _ _ | .freqCountStream => true
  | .nop | .errClear | .inReset | .outClose | .cntRead _ => false
  | .freqRead _ => false
  | .treeBuild | .treeInfo | .nodeRead _ | .nodeWeightRead _ => false
  | .codesBuild | .codeLenRead _ | .codeBitsRead _ _ => false
  | .magicWrite | .magicRead | .headerWrite | .headerRead => false
  | .encSymbol _ | .encEos | .encStream => false
  | .decStart | .decBit | .decSymbol | .decStream => false

/-- The commands that write NODE and the tree registers (R41). -/
def writesTree : Instr → Bool
  | .treeBuild | .headerRead => true
  | .nop | .errClear | .inReset | .outClose | .cntRead _ => false
  | .freqClear | .freqCount _ | .freqSetEos | .freqWrite _ _ | .freqRead _ => false
  | .freqCountStream | .treeInfo | .nodeRead _ | .nodeWeightRead _ => false
  | .codesBuild | .codeLenRead _ | .codeBitsRead _ _ => false
  | .magicWrite | .magicRead | .headerWrite => false
  | .encSymbol _ | .encEos | .encStream => false
  | .decStart | .decBit | .decSymbol | .decStream => false

/-- The commands that write CODES_VALID (R29, R41). -/
def writesCodesValid : Instr → Bool
  | .treeBuild | .headerRead | .codesBuild => true
  | .nop | .errClear | .inReset | .outClose | .cntRead _ => false
  | .freqClear | .freqCount _ | .freqSetEos | .freqWrite _ _ | .freqRead _ => false
  | .freqCountStream | .treeInfo | .nodeRead _ | .nodeWeightRead _ => false
  | .codeLenRead _ | .codeBitsRead _ _ => false
  | .magicWrite | .magicRead | .headerWrite => false
  | .encSymbol _ | .encEos | .encStream => false
  | .decStart | .decBit | .decSymbol | .decStream => false

/-- The commands that write ENC_ENDED (R30, R41). -/
def writesEnded : Instr → Bool
  | .treeBuild | .codesBuild | .headerWrite | .headerRead | .encEos | .encStream => true
  | .nop | .errClear | .inReset | .outClose | .cntRead _ => false
  | .freqClear | .freqCount _ | .freqSetEos | .freqWrite _ _ | .freqRead _ => false
  | .freqCountStream | .treeInfo | .nodeRead _ | .nodeWeightRead _ => false
  | .codeLenRead _ | .codeBitsRead _ _ => false
  | .magicWrite | .magicRead => false
  | .encSymbol _ => false
  | .decStart | .decBit | .decSymbol | .decStream => false

/-- The commands that write DEC_STATE and DEC_CUR (R31, R41). -/
def writesDec : Instr → Bool
  | .treeBuild | .headerRead | .decStart | .decBit | .decSymbol | .decStream => true
  | .nop | .errClear | .inReset | .outClose | .cntRead _ => false
  | .freqClear | .freqCount _ | .freqSetEos | .freqWrite _ _ | .freqRead _ => false
  | .freqCountStream | .treeInfo | .nodeRead _ | .nodeWeightRead _ => false
  | .codesBuild | .codeLenRead _ | .codeBitsRead _ _ => false
  | .magicWrite | .magicRead | .headerWrite => false
  | .encSymbol _ | .encEos | .encStream => false

/-- The commands that move the input channel (R41, R43). -/
def usesInput : Instr → Bool
  | .inReset | .freqCountStream | .magicRead | .headerRead | .encStream => true
  | .decBit | .decSymbol | .decStream => true
  | .nop | .errClear | .outClose | .cntRead _ => false
  | .freqClear | .freqCount _ | .freqSetEos | .freqWrite _ _ | .freqRead _ => false
  | .treeBuild | .treeInfo | .nodeRead _ | .nodeWeightRead _ => false
  | .codesBuild | .codeLenRead _ | .codeBitsRead _ _ => false
  | .magicWrite | .headerWrite => false
  | .encSymbol _ | .encEos => false
  | .decStart => false

/-- The commands that write bits to the output channel (R41, R43). -/
def writesOutput : Instr → Bool
  | .magicWrite | .headerWrite | .encSymbol _ | .encEos | .encStream => true
  | .decBit | .decSymbol | .decStream => true
  | .nop | .errClear | .inReset | .outClose | .cntRead _ => false
  | .freqClear | .freqCount _ | .freqSetEos | .freqWrite _ _ | .freqRead _ => false
  | .freqCountStream | .treeBuild | .treeInfo | .nodeRead _ | .nodeWeightRead _ => false
  | .codesBuild | .codeLenRead _ | .codeBitsRead _ _ => false
  | .magicRead | .headerRead => false
  | .decStart => false

/-- The inspection commands, which have no side effect (R58). -/
def inspects : Instr → Bool
  | .nop | .cntRead _ | .freqRead _ | .treeInfo | .nodeRead _ | .nodeWeightRead _ => true
  | .codeLenRead _ | .codeBitsRead _ _ => true
  | .errClear | .inReset | .outClose => false
  | .freqClear | .freqCount _ | .freqSetEos | .freqWrite _ _ => false
  | .freqCountStream | .treeBuild => false
  | .codesBuild => false
  | .magicWrite | .magicRead | .headerWrite | .headerRead => false
  | .encSymbol _ | .encEos | .encStream => false
  | .decStart | .decBit | .decSymbol | .decStream => false

/-! ### Bit strings of the spec -/

/-- The root-to-leaf paths, left first; `false` is the left edge (R95). -/
def Tree.paths : Tree → List (Symbol × List Bool)
  | .leaf _ x _ => [(x, [])]
  | .node _ _ l r =>
    (l.paths.map fun p => (p.1, false :: p.2)) ++ (r.paths.map fun p => (p.1, true :: p.2))

/-- The bits lead a walk that stands at `place` past the leaves of exactly these bytes: each path but the
first is one from the root, `tree` (R111). -/
def Tree.spells (tree : Tree) : (place : Tree) → List Byte → List Bool → Prop
  | _, [], bits => bits = []
  | place, b :: bytes, bits =>
    ∃ path rest, bits = path ++ rest ∧ (byteSymbol b, path) ∈ place.paths ∧
      tree.spells tree bytes rest

/-- Where a walk that stood at `place` stands after these bytes: at the root after the first (R111). -/
def Tree.placeAfter (tree place : Tree) (bytes : List Byte) : Tree :=
  if bytes.isEmpty then place else tree

/-- The leaves' symbols with their weights, from left to right. -/
def Tree.leafWeights : Tree → List (Symbol × Option Weight)
  | .leaf _ x w => [(x, w)]
  | .node _ _ l r => l.leafWeights ++ r.leafWeights

/-- The symbols of positive count in descending order (R86). -/
def State.positiveDescending (s : State) : List Symbol :=
  (List.finRange 257).reverse.filter fun x => decide (s.count x ≠ 0#32)

/-- The weight of the node at index j; 0 where there is none. -/
def State.weightAt (s : State) (j : Nat) : Nat :=
  match (nodeAt s.nodes j).bind Node.weight with
  | some w => w.toNat
  | none => 0

/-- Node j is in LIVE when node i is about to be made: it is made already and has no parent yet (R89). -/
def State.LiveBefore (s : State) (i j : Nat) : Prop :=
  j < i ∧ ∀ (k : Nat) (l r : NodeIdx) (w : Option Weight), k < i →
    nodeAt s.nodes k = some (.internal l r w) → j ≠ l.toNat ∧ j ≠ r.toNat

/-- The priority order of R87 on the pairs (weight, index). -/
def State.First (s : State) (a b : Nat) : Prop :=
  s.weightAt a < s.weightAt b ∨ (s.weightAt a = s.weightAt b ∧ a < b)

/-- `Code(s)` of R96: `bin_len(val)`, first-generated bit first. -/
def codeString (len : Nat) (bits : BitVec 256) : List Bool :=
  (List.range len).map fun k => bits.getLsbD (len - 1 - k)

/-- Symbol x has the code `c` in the code table (R28, R96). -/
def State.HasCode (s : State) (x : Symbol) (c : List Bool) : Prop :=
  ∃ l b, s.codePresent[x.val] = some true ∧ s.codeLen[x.val] = some l ∧
    s.codeBits[x.val] = some b ∧ c = codeString l.toNat b

/-- How command i, started in s, raises where it is about to encode symbol x in state u: NO_CODE; a write that
fails, after which the bits of the code before it stay in OUT; or the closed output (R106 to R109, R130). -/
def EncodeErrors (i : Instr) (s u : State) (x : Symbol) : Prop :=
  (u.codePresent[x.val] = some false → u.CloseAnswered →
    exec i s = .next (u.afterError false .noCode (BitVec.ofNat 64 x.val))) ∧
  ∀ c : List Bool, u.HasCode x c →
    (∀ k : Nat, u.outOpen = true → k < c.length → u.failsAfter k →
      (u.moved 0 (c.take k) (k + 1)).CloseAnswered →
      exec i s = .next ((u.moved 0 (c.take k) (k + 1)).afterError false .ioWriteFail
        (u.outBitsWritten + BitVec.ofNat 64 k))) ∧
    (u.outOpen = false → c ≠ [] →
      exec i s = .next (u.afterError false .outputClosed u.outBitsWritten))

/-- The term of symbol x in the Kraft sum, scaled by 2^256 (R97 (c)). -/
def State.kraftTerm (s : State) (x : Symbol) : Nat :=
  match s.codePresent[x.val], s.codeLen[x.val] with
  | some true, some l => 2 ^ (256 - l.toNat)
  | _, _ => 0

/-- A shape's weighted path length from depth d on (R91 (c)). -/
def Shape.cost (weight : Symbol → Nat) : Shape → (depth : Nat) → Nat
  | .leaf x, d => weight x * d
  | .node l r, d => l.cost weight (d + 1) + r.cost weight (d + 1)

/-- The pre-order header H of a tree's shape (R102). -/
def Shape.header : Shape → List Bool
  | .leaf x => true :: bin (symbolField x)
  | .node l r => false :: (l.header ++ r.header)

/-- The writes that make up a header, one list of bits for each transaction (R56, R102). -/
def Shape.writes : Shape → List (List Bool)
  | .leaf x => [[true], bin (symbolField x)]
  | .node l r => [false] :: (l.writes ++ r.writes)

/-- The leaves' symbols of a shape, from left to right. -/
def Shape.symbols : Shape → List Symbol
  | .leaf x => [x]
  | .node l r => l.symbols ++ r.symbols

/-- A header up to a place where a node begins: the bits so far, the leaves' symbols so far, and the number of
nodes begun (R104). -/
structure Lead where
  bits : List Bool
  symbols : List Symbol
  nodes : Nat
deriving DecidableEq, Repr

/-- The leads of a shape, one before each of its leaves, in pre-order (R102, R104). The shape is arbitrary, so
these are all the places where a well-formed header may go on with a node. -/
def Shape.leads : Shape → List Lead
  | .leaf _ => [⟨[], [], 0⟩]
  | .node l r =>
    (l.leads.map fun p => ⟨false :: p.bits, p.symbols, p.nodes + 1⟩) ++
      (r.leads.map fun p =>
        ⟨false :: (l.header ++ p.bits), l.symbols ++ p.symbols, 2 * l.symbols.length + p.nodes⟩)

/-- The whole bytes of a bit string, first bit most significant; a rest of 1 to 7 bits is dropped
(R46, R84). -/
def wholeBytes : List Bool → List Byte
  | a :: b :: c :: d :: e :: f :: g :: h :: rest =>
    BitVec.ofNat 8 (bitsToNat [a, b, c, d, e, f, g, h]) :: wholeBytes rest
  | _ => []

/-- The sum of all counts (R89). -/
def countSum (freq : FreqTable) : Nat := (freq.toList.map BitVec.toNat).sum

end Sys2Proof.Machine
end

