-- ==== Sys2Proof/Certificates/Slice0/Obligations.lean ====
section
/-! DEFINITION. The statements for the provers, one definition each. "Completes" means that `exec` answers a
next state with an OK response. Every equation of states is a frame as well: a field that is not named is
unchanged. -/

open Sys2Proof Sys2Proof.Machine

/-! ### Encoding (30_encoding.md) -/

/-- R65, R69, R75: decoding the two words of a well-formed command gives it back. -/
def Obligations.DecodeOfEncodeIsIdentity : Prop :=
  ∀ i : Instr, i.wellFormed = true → decode (encodeWord i) (encodeArg i) = .instr i

/-- R65, R66, R71, R75: a legal word is the word of the command it decodes to, and that command is well-formed;
its ARG is the one sent where the command takes ARG, and 0 where it ignores ARG, which then may be any. -/
def Obligations.LegalWordIsItsEncoding : Prop :=
  ∀ (w arg : Word) (i : Instr), decode w arg = .instr i →
    i.wellFormed = true ∧ encodeWord i = w ∧
    (opcode i ∈ argOpcodes → encodeArg i = arg) ∧
    (opcode i ∉ argOpcodes → encodeArg i = 0#32 ∧ ∀ other : Word, decode w other = .instr i)

/-- R70: a row of the match and mask table selects a word exactly when the word decodes to a command with that
row's opcode; at most one row selects a word; a word that no row selects is illegal. -/
def Obligations.MatchMaskRowsDecideLegality : Prop :=
  (∀ w arg : Word, ∀ r ∈ opcodeMap,
    r.selects w = true ↔ ∃ i, decode w arg = .instr i ∧ opcode i = r.opc) ∧
  (∀ w : Word, ∀ r ∈ opcodeMap, ∀ q ∈ opcodeMap,
    r.selects w = true → q.selects w = true → r = q) ∧
  (∀ w arg : Word,
    (∃ r ∈ opcodeMap, r.selects w = true) ∨ ∃ y, decode w arg = .illegal y)

/-- R68: exactly when a word is illegal; an illegal word raises ILLEGAL_COMMAND with the word as ERRINFO and
has no other effect, and its ARG is not examined. -/
def Obligations.IllegalWordsRaiseIllegalCommand : Prop :=
  (∀ w arg : Word, (∃ y, decode w arg = .illegal y) ↔
    ((∀ r ∈ opcodeMap, r.opc ≠ opcField w) ∨ reservedField w ≠ 0#15 ∨
      ∃ r ∈ opcodeMap, r.opc = opcField w ∧ ¬ legalSym r.cls (symField w))) ∧
  (∀ (w arg : Word) (s : State) (rest : List HostAct),
    (∃ y, decode w arg = .illegal y) → s.err = false → s.CloseAnswered →
    s.host = .command w arg :: rest →
    step s = .next ({ s with host := rest }.afterError false .illegalCommand (w.setWidth 64)))

/-- R66: FREQ_WRITE takes ARG as its count, NODE_READ and NODE_WEIGHT_READ as a node index, CODE_BITS_READ as a
word index; for every other word ARG has no effect on what the block does, and is never checked. -/
def Obligations.UnusedArgHasNoEffect : Prop :=
  (∀ (sym : SymField) (arg : Word), sym.toNat ≤ 256 →
    decode (commandWord 0x13#8 sym) arg = .instr (.freqWrite sym arg) ∧
    decode (commandWord 0x32#8 sym) arg = .instr (.codeBitsRead sym arg)) ∧
  (∀ arg : Word, decode 0x00000022#32 arg = .instr (.nodeRead arg) ∧
    decode 0x00000023#32 arg = .instr (.nodeWeightRead arg)) ∧
  (∀ (w a b : Word) (s : State),
    opcField w ∉ argOpcodes → issue w a s = issue w b s)

/-- R77: the encoding examples, read by the decoder. -/
def Obligations.EncodingExamplesDecode : Prop :=
  (∀ a, decode 0x00004111#32 a = .instr (.freqCount 0x41#8)) ∧
  decode 0x00010013#32 0x00000001#32 = .instr (.freqWrite 256#9 1#32) ∧
  decode 0x00004213#32 0x00000007#32 = .instr (.freqWrite 0x42#9 7#32) ∧
  decode 0x00000020#32 0#32 = .instr .treeBuild ∧
  decode 0x00000022#32 0x00000004#32 = .instr (.nodeRead 4#32) ∧
  decode 0x00004132#32 0#32 = .instr (.codeBitsRead 0x41#9 0#32) ∧
  decode 0x00004250#32 0#32 = .instr (.encSymbol 0x42#8) ∧
  decode 0x00000105#32 0#32 = .instr (.cntRead 1#1) ∧
  (∀ a, decode 0x00010011#32 a = .illegal .symOutOfClass) ∧
  (∀ a, decode 0x00000000#32 a = .illegal .reservedOpcode) ∧
  (∀ a, decode 0x00020020#32 a = .illegal .reservedBits)

/-! ### One step -/

/-- R18, R126: a legal command that is not rejected runs as `exec` of it, with its act taken from the host's
list first; and with no act left the block waits with all its state. That list is the model's own (log 1). -/
def Obligations.StepRunsTheDecodedCommand : Prop :=
  (∀ (s : State) (w arg : Word) (rest : List HostAct) (i : Instr),
    s.host = .command w arg :: rest → decode w arg = .instr i →
    (s.err = false ∨ w = 0x00000002#32) →
    step s = exec i { s with host := rest }) ∧
  (∀ s : State, s.host = [] → step s = .next s)

/-- R128: a command that arrives while ERR = 1, legal or illegal, other than the word 0x00000002, changes
nothing and issues no transaction; its response has OK = 0, ERR = 1, REJECTED = 1, the latched ERRCODE and
RESULT 0. -/
def Obligations.LatchedErrorRejects : Prop :=
  ∀ (s : State) (w arg : Word) (rest : List HostAct),
    s.err = true → w ≠ 0x00000002#32 → s.host = .command w arg :: rest →
    ∃ st : Word,
      step s = .next { s with host := rest, responses := s.responses ++ [⟨st, 0#64⟩] } ∧
      st.getLsbD 0 = false ∧ st.getLsbD 1 = true ∧ st.getLsbD 2 = true ∧
      st.extractLsb' 16 8 = s.errCode.code

/-- R142, R143, R145: the reset input, between commands or in the middle of one, gives every register the value of the
table, whatever the state and whatever the channels would answer, and the channels are the fresh ones at their
first bit; STATUS then reads 0x80, or 0x81 in the response of a command that completes; `State.reset` has the
same table. The list of the host's acts and the channels' answers are fields of the model (log 1, 3), and so is what
a reset in mid-command leaves of the channels (log 7). -/
def Obligations.ResetGivesTheResetTable : Prop :=
  (∀ (s : State) (fresh : Channels) (rest : List HostAct) (w arg : Word),
    (s.host = .reset fresh :: rest ∨ s.host = .resetDuring w arg fresh :: rest) →
    ∃ t : State, step s = .next t ∧ t.AtReset ∧
      t.inBits = fresh.inBits ∧ t.txAnswers = fresh.txAnswers ∧ t.inPos = 0 ∧ t.outBits = [] ∧
      t.outClosed = false ∧ t.host = rest ∧
      statusWord false false t = 0x00000080#32 ∧ statusWord true false t = 0x00000081#32) ∧
  State.reset.AtReset

/-- R31, R35, R124: the fields of STATUS, bit by bit, with the numbers of the decoder states and of the error
codes; the reserved bits read 0. -/
def Obligations.StatusWordFields : Prop :=
  (DecState.idle.code = 0#2 ∧ DecState.walking.code = 1#2 ∧ DecState.done.code = 2#2 ∧
    DecState.error.code = 3#2) ∧
  (ErrCode.none.code = 0x00#8 ∧ ErrCode.illegalCommand.code = 0x01#8 ∧
    ErrCode.notReady.code = 0x02#8 ∧ ErrCode.badOperand.code = 0x03#8 ∧
    ErrCode.construction.code = 0x04#8 ∧ ErrCode.countOverflow.code = 0x05#8 ∧
    ErrCode.noCode.code = 0x06#8 ∧ ErrCode.streamEnded.code = 0x07#8 ∧
    ErrCode.hdrEoi.code = 0x10#8 ∧ ErrCode.hdrBadMagic.code = 0x11#8 ∧
    ErrCode.hdrBadSymbol.code = 0x12#8 ∧ ErrCode.hdrDupSymbol.code = 0x13#8 ∧
    ErrCode.hdrTooLarge.code = 0x14#8 ∧ ErrCode.truncatedStream.code = 0x20#8 ∧
    ErrCode.degenerateTree.code = 0x21#8 ∧ ErrCode.ioReadFail.code = 0x30#8 ∧
    ErrCode.ioWriteFail.code = 0x31#8 ∧ ErrCode.outputClosed.code = 0x32#8) ∧
  ∀ (ok rejected : Bool) (s : State),
    (statusWord ok rejected s).getLsbD 0 = ok ∧
    (statusWord ok rejected s).getLsbD 1 = s.err ∧
    (statusWord ok rejected s).getLsbD 2 = rejected ∧
    (statusWord ok rejected s).getLsbD 3 = s.treeValid ∧
    (statusWord ok rejected s).getLsbD 4 = decide (s.treeSrc = .header) ∧
    (statusWord ok rejected s).getLsbD 5 = s.codesValid ∧
    (statusWord ok rejected s).getLsbD 6 = s.encEnded ∧
    (statusWord ok rejected s).getLsbD 7 = s.outOpen ∧
    (statusWord ok rejected s).extractLsb' 8 2 = s.decState.code ∧
    (statusWord ok rejected s).getLsbD 10 = s.inExhausted ∧
    (statusWord ok rejected s).extractLsb' 11 5 = 0#5 ∧
    (statusWord ok rejected s).extractLsb' 16 8 = s.errCode.code ∧
    (statusWord ok rejected s).extractLsb' 24 8 = 0#8

/-- R35, R36, R74: every command that ends, illegal and rejected ones included, gets exactly one response; its
STATUS shows the state after it; and OK, ERR, REJECTED and RESULT are as for a command that completes, raises,
or is rejected. -/
def Obligations.EveryCommandGetsOneResponse : Prop :=
  ∀ (s t : State) (w arg : Word) (rest : List HostAct),
    s.host = .command w arg :: rest → step s = .next t →
    ∃ (ok rejected : Bool) (result : DWord),
      t.responses = s.responses ++ [⟨statusWord ok rejected t, result⟩] ∧
      ((ok = true ∧ rejected = false ∧ t.err = false) ∨
       (ok = false ∧ rejected = false ∧ t.err = true ∧ result = t.errInfo) ∨
       (ok = false ∧ rejected = true ∧ s.err = true ∧ t.err = true ∧ result = 0#64))

/-! ### Errors (60_exceptions.md) -/

/-- R127: what the error entry leaves, whatever raises; the close is best effort, and where it is never
answered the command does not end. -/
def Obligations.ErrorEntryLatchesAndCloses : Prop :=
  ∀ (u : CmdKind) (e : ErrCode) (info : DWord) (s : State),
    (s.CloseAnswered → enterError u e info s =
      .next (s.afterError (decide (u = .decoder ∧ e ≠ .notReady)) e info)) ∧
    (s.outOpen = true → s.answer = .silent → enterError u e info s = .fault .channelSilent)

/-- R36, R48, R123, R127: a command that raises takes the error entry: the output is closed, an error is latched,
RESULT is ERRINFO, and DEC_STATE goes to ERROR exactly for a decoder command whose error is not NOT_READY; every
other command leaves it, but HEADER_READ, which has set it to IDLE. No channel failure is recovered: a command
completes only where the channels accepted all its transactions; it raises IO_READ_FAIL or IO_WRITE_FAIL exactly
at its first failed transaction, and any other error after accepted ones. The last transaction of a command that
raises with the output open is the close of the error entry, whose answer is ignored; OUT_CLOSE, whose own
transaction is that close, has its failure in ChannelControlCommands. -/
def Obligations.EveryErrorTakesTheEntry : Prop :=
  (∀ (i : Instr) (s t : State), s.err = false → exec i s = .next t → t.err = true →
    t.outOpen = false ∧ t.errCode ≠ .none ∧
    t.responses = s.responses ++ [⟨statusWord false false t, t.errInfo⟩] ∧
    (isDecoder i = true → t.errCode ≠ .notReady → t.decState = .error ∧ t.decCur = none) ∧
    (isDecoder i = true → t.errCode = .notReady → t.decState = s.decState ∧ t.decCur = s.decCur) ∧
    (isDecoder i = false → i ≠ .headerRead → t.decState = s.decState ∧ t.decCur = s.decCur) ∧
    (i = .headerRead → t.decState = .idle ∧ t.decCur = none)) ∧
  (∀ (i : Instr) (s t : State), s.err = false → exec i s = .next t → t.err = false →
    s.acceptedBefore t.txCount) ∧
  (∀ (i : Instr) (s t : State), s.err = false → i ≠ .outClose → exec i s = .next t →
    t.err = true →
    ∃ n : Nat, t.txCount = n + s.closeCount ∧
      (t.errCode ∉ [.ioReadFail, .ioWriteFail] → s.acceptedBefore n) ∧
      (t.errCode ∈ [.ioReadFail, .ioWriteFail] →
        ∃ k, n = k + 1 ∧ s.txCount ≤ k ∧ s.acceptedBefore k ∧ s.answerAt k = .fail))

/-- R124: a command raises only the errors the table lists for it, with the ERRINFO the table gives: the command
word, ARG, the byte or symbol (the operand, or the last bits read), the value read, or the counter. That a term
with a symbol field above 256 raises ILLEGAL_COMMAND is the model's choice (log 14). -/
def Obligations.ErrorsFollowTheErrorTable : Prop :=
  ∀ (i : Instr) (s t : State), s.err = false → exec i s = .next t → t.err = true →
    t.errCode ∈ mayRaise i ∧ infoFits i s t

/-- R126, R130: a command that raises in its decode, precondition or operand checks, and TREE_BUILD's
CONSTRUCTION, has no effect but the error entry. -/
def Obligations.EarlyErrorsHaveNoOtherEffect : Prop :=
  ∀ (i : Instr) (s t : State), s.err = false → exec i s = .next t → t.err = true →
    t.errCode ∈ [.illegalCommand, .notReady, .badOperand, .streamEnded, .construction] →
    t = { s with
      err := true, errCode := t.errCode, errInfo := t.errInfo, outOpen := false,
      outClosed := t.outClosed, txCount := t.txCount, responses := t.responses }

/-! ### Control (46_control.md) -/

/-- R118, R119, R122: NOP, ERR_CLEAR and CNT_READ: their encodings, and that they complete in every state. -/
def Obligations.ControlRegisterCommandsComplete : Prop :=
  EncodedNone 0x01#8 (fun _ => .nop) ∧ EncodedNone 0x02#8 (fun _ => .errClear) ∧
  (∀ arg, decode 0x00000005#32 arg = .instr (.cntRead 0#1) ∧
    decode 0x00000105#32 arg = .instr (.cntRead 1#1)) ∧
  (∀ (sym : SymField) (arg : Word), 1 < sym.toNat →
    decode (commandWord 0x05#8 sym) arg = .illegal .symOutOfClass) ∧
  ∀ s : State,
    exec .nop s = .next (s.respond true false 0#64) ∧
    exec .errClear s =
      .next ({ s with err := false, errCode := .none, errInfo := 0#64 }.respond true false
        (s.errCode.code.setWidth 64)) ∧
    exec (.cntRead 0#1) s = .next (s.respond true false s.inBitsRead) ∧
    exec (.cntRead 1#1) s = .next (s.respond true false s.outBitsWritten)

/-- R49, R50, R51, R120, R121: IN_RESET rewinds the input, and where the channel fails it raises IO_READ_FAIL
with p, IN_EXHAUSTED and IN_BITS_READ unchanged. OUT_CLOSE closes an open output, is idempotent with no
transaction on a closed one, and clears OUT_OPEN even where the close fails and raises IO_WRITE_FAIL. Where the
transaction is never answered there is no next state. -/
def Obligations.ChannelControlCommands : Prop :=
  EncodedNone 0x03#8 (fun _ => .inReset) ∧ EncodedNone 0x04#8 (fun _ => .outClose) ∧
  ∀ s : State,
    (s.answer = .accept → exec .inReset s =
      .next ({ s with inPos := 0, inExhausted := false, inBitsRead := 0#64,
                      txCount := s.txCount + 1 }.respond true false 0#64)) ∧
    (s.answer = .fail → { s with txCount := s.txCount + 1 }.CloseAnswered → exec .inReset s =
      .next ({ s with txCount := s.txCount + 1 }.afterError false .ioReadFail s.inBitsRead)) ∧
    (s.answer = .silent → exec .inReset s = .fault .channelSilent) ∧
    (s.outOpen = false → exec .outClose s = .next (s.respond true false s.outBitsWritten)) ∧
    (s.outOpen = true → s.answer = .accept → exec .outClose s =
      .next ({ s with outOpen := false, outClosed := true, txCount := s.txCount + 1 }.respond
        true false s.outBitsWritten)) ∧
    (s.outOpen = true → s.answer = .fail → exec .outClose s =
      .next ({ s with outOpen := false, txCount := s.txCount + 1 }.afterError false .ioWriteFail
        s.outBitsWritten)) ∧
    (s.outOpen = true → s.answer = .silent → exec .outClose s = .fault .channelSilent)

/-! ### Frequency table (40_frequency.md) -/

/-- R79, R81, R82, R83: FREQ_CLEAR, FREQ_SET_EOS, FREQ_WRITE and FREQ_READ, with their encodings; they
complete in every state, change at most the counts named, and a symbol above 256 is illegal. -/
def Obligations.FrequencyTableCommands : Prop :=
  EncodedNone 0x10#8 (fun _ => .freqClear) ∧ EncodedNone 0x12#8 (fun _ => .freqSetEos) ∧
  EncodedSym 0x13#8 .freqWrite ∧ EncodedSym 0x14#8 (fun sym _ => .freqRead sym) ∧
  (∀ s : State, ∃ t : State, exec .freqClear s = .next t ∧ (∀ x, t.count x = 0#32) ∧
    t = { s with freq := t.freq }.respond true false 0#64) ∧
  (∀ s : State, ∃ t : State, exec .freqSetEos s = .next t ∧ t.count sentinel = 1#32 ∧
    (∀ x, x ≠ sentinel → t.count x = s.count x) ∧
    t = { s with freq := t.freq }.respond true false 0#64) ∧
  (∀ (s : State) (sym : SymField) (x : Symbol) (count : Word), symbolOf sym = some x →
    ∃ t : State, exec (.freqWrite sym count) s = .next t ∧ t.count x = count ∧
      (∀ y, y ≠ x → t.count y = s.count y) ∧
      t = { s with freq := t.freq }.respond true false 0#64) ∧
  (∀ (s : State) (sym : SymField) (x : Symbol), symbolOf sym = some x →
    exec (.freqRead sym) s = .next (s.respond true false ((s.count x).setWidth 64)))

/-- R80: FREQ_COUNT adds one to the byte's count and answers the new count; at 2^32 - 1 it raises
COUNT_OVERFLOW with the byte and the count is unchanged. SYM above 255 is illegal. -/
def Obligations.FreqCountCountsOrOverflows : Prop :=
  EncodedByte 0x11#8 .freqCount ∧
  (∀ (s : State) (b : Byte), (s.count (byteSymbol b)).toNat < 2 ^ 32 - 1 →
    ∃ t : State, exec (.freqCount b) s = .next t ∧
      (t.count (byteSymbol b)).toNat = (s.count (byteSymbol b)).toNat + 1 ∧
      (∀ y, y ≠ byteSymbol b → t.count y = s.count y) ∧
      t = { s with freq := t.freq }.respond true false ((t.count (byteSymbol b)).setWidth 64)) ∧
  (∀ (s : State) (b : Byte), s.count (byteSymbol b) = 0xFFFFFFFF#32 → s.CloseAnswered →
    exec (.freqCount b) s = .next (s.afterError false .countOverflow (b.setWidth 64)))

/-- R78, R84: FREQ_COUNT_STREAM over an input whose bytes each occur fewer than 2^32 times completes: FREQ
holds the numbers of occurrences and 1 for the sentinel, RESULT is the number of bytes, and the input is at
its end. -/
def Obligations.FreqCountStreamCountsTheInput : Prop :=
  ∀ s : State, s.Quiet → s.inExhausted = false →
    (∀ b : Byte, (wholeBytes s.restBits).count b < 2 ^ 32) →
    ∃ t : State, exec .freqCountStream s = .next t ∧
      (∀ b : Byte, (t.count (byteSymbol b)).toNat = (wholeBytes s.restBits).count b) ∧
      t.count sentinel = 1#32 ∧
      t = { s with
        freq := t.freq, inPos := s.inBits.length, inExhausted := true,
        inBitsRead := s.inBitsRead + BitVec.ofNat 64 (8 * (wholeBytes s.restBits).length),
        txCount := s.txCount + (wholeBytes s.restBits).length + 1 }.respond true false
          (BitVec.ofNat 64 (wholeBytes s.restBits).length)

/-- R84, R130, R147: FREQ_COUNT_STREAM on an exhausted input is NOT_READY. After any other error FREQ holds the
counts of the n bytes counted so far, and 0 for the sentinel; the bytes read stay consumed, which are those n
where the next read failed, and one more, not counted, where its count was at the maximum; only FREQ, the input,
the error registers and the output's closing have changed. -/
def Obligations.FreqCountStreamErrors : Prop :=
  (∀ s : State, s.inExhausted = true → s.CloseAnswered →
    exec .freqCountStream s = .next (s.afterError false .notReady 0x15#64)) ∧
  (∀ s t : State, s.err = false → s.inExhausted = false → exec .freqCountStream s = .next t →
    t.err = true →
    (∃ n : Nat, n ≤ (wholeBytes s.restBits).length ∧
      (∀ b : Byte,
        (t.count (byteSymbol b)).toNat = ((wholeBytes s.restBits).take n).count b) ∧
      ((t.errCode = .ioReadFail ∧ s.answerAt (s.txCount + n) = .fail ∧
          t.inPos = s.inPos + 8 * n ∧ t.inBitsRead = s.inBitsRead + BitVec.ofNat 64 (8 * n)) ∨
       (t.errCode = .countOverflow ∧ t.inPos = s.inPos + 8 * (n + 1) ∧
          t.inBitsRead = s.inBitsRead + BitVec.ofNat 64 (8 * (n + 1)) ∧
          ∃ v : Byte, (wholeBytes s.restBits)[n]? = some v ∧
            t.count (byteSymbol v) = 0xFFFFFFFF#32 ∧ t.errInfo = v.setWidth 64))) ∧
    t.count sentinel = 0#32 ∧
    t = { s with
      freq := t.freq, inPos := t.inPos, inBitsRead := t.inBitsRead,
      err := true, errCode := t.errCode, errInfo := t.errInfo, outOpen := false,
      outClosed := t.outClosed, txCount := t.txCount, responses := t.responses })

/-! ### Tree builder (41_tree_builder.md) -/

/-- R89, R91 (a), (b), R27: with some positive count TREE_BUILD completes and holds a complete built tree whose
leaves are exactly the symbols of positive count, each with its count as weight; RESULT is the sum of all
counts; the code table, ENC_ENDED and the decoder are cleared; nothing else changes. -/
def Obligations.TreeBuildHoldsTheCountedTree : Prop :=
  ∀ s : State, (∃ x, s.count x ≠ 0#32) →
    ∃ (t : State) (tree : Tree), exec .treeBuild s = .next t ∧
      t.heldTree = some tree ∧ tree.Fills t ∧
      (∀ x, x ∈ tree.symbols ↔ s.count x ≠ 0#32) ∧
      (∀ p ∈ tree.leafWeights, p.2 = some ((s.count p.1).setWidth 41)) ∧
      t.root.toNat + 1 = t.nodeCount.toNat ∧
      t.nodeCount.toNat + 1 = 2 * t.leafCount.toNat ∧
      t = { s with
        nodes := t.nodes, root := t.root, nodeCount := t.nodeCount, leafCount := t.leafCount,
        treeValid := true, treeSrc := .built,
        codesValid := false, codePresent := Vector.replicate 257 none,
        codeLen := Vector.replicate 257 none, codeBits := Vector.replicate 257 none,
        encEnded := false, decState := .idle, decCur := none }.respond true false
          (BitVec.ofNat 64 (countSum s.freq))

/-- R91 (c), K5: no tree with the same leaves has a smaller weighted path length than the one TREE_BUILD
holds. -/
def Obligations.BuiltTreeIsOptimal : Prop :=
  ∀ (s t : State) (tree : Tree) (other : Shape),
    s.err = false → exec .treeBuild s = .next t → t.err = false → t.heldTree = some tree →
    other.symbols.Perm tree.symbols →
    tree.shape.cost (fun x => (s.count x).toNat) 0 ≤ other.cost (fun x => (s.count x).toNat) 0

/-- R86, R87, R88, R89: TREE_BUILD gives the leaves the node indices 0, 1, ... in descending symbol order; then
each further node, in the order of the indices, is made of the two live nodes that are least by weight and then
by index: the least is its right child, the next its left child, and its weight is their sum. -/
def Obligations.TreeBuildSeedsAndMerges : Prop :=
  ∀ s : State, (∃ x, s.count x ≠ 0#32) →
    ∃ t : State, exec .treeBuild s = .next t ∧
      t.leafCount.toNat = s.positiveDescending.length ∧
      (∀ (k : Nat) (h : k < s.positiveDescending.length),
        nodeAt t.nodes k =
          some (.leaf s.positiveDescending[k]
            (some ((s.count s.positiveDescending[k]).setWidth 41)))) ∧
      (∀ i : Nat, t.leafCount.toNat ≤ i → i < t.nodeCount.toNat →
        ∃ (l r : NodeIdx) (w : Weight), nodeAt t.nodes i = some (.internal l r (some w)) ∧
          t.LiveBefore i l.toNat ∧ t.LiveBefore i r.toNat ∧ t.First r.toNat l.toNat ∧
          (∀ j, t.LiveBefore i j → j ≠ l.toNat → j ≠ r.toNat → t.First l.toNat j) ∧
          w.toNat = t.weightAt l.toNat + t.weightAt r.toNat)

/-- R87: PopMin answers on every LIVE that is not empty; it removes one entry, the least by weight and then by
index, and keeps the others. -/
def Obligations.PopMinRemovesTheLeast : Prop :=
  (∀ live : List Live, live ≠ [] → ∃ a rest, popMin live = some (a, rest)) ∧
  (∀ (live rest : List Live) (a : Live), popMin live = some (a, rest) →
    (a :: rest).Perm live ∧
    ∀ b ∈ rest, a.weight.toNat < b.weight.toNat ∨ (a.weight = b.weight ∧ a.idx ≤ b.idx))

/-- R88, C8: for every count k of one byte, with the sentinel's count 1 and all others 0, the built tree is the
two-leaf tree with the byte on the left and the sentinel on the right. -/
def Obligations.TwoLeafTreeForEveryCount : Prop :=
  ∀ (s : State) (b : Byte), s.count (byteSymbol b) ≠ 0#32 → s.count sentinel = 1#32 →
    (∀ x, x ≠ byteSymbol b → x ≠ sentinel → s.count x = 0#32) →
    ∃ (t : State) (tree : Tree), exec .treeBuild s = .next t ∧ t.heldTree = some tree ∧
      tree.shape = .node (.leaf (byteSymbol b)) (.leaf sentinel) ∧
      nodeAt t.nodes 0 = some (.leaf sentinel (some 1#41)) ∧
      nodeAt t.nodes 1 = some (.leaf (byteSymbol b)
        (some ((s.count (byteSymbol b)).setWidth 41))) ∧
      t.root = 2#10

/-- R89, D41: with no positive count TREE_BUILD raises CONSTRUCTION, and the held tree, the code table and
every other register are unchanged. -/
def Obligations.EmptyTableRaisesConstruction : Prop :=
  ∀ s : State, (∀ x, s.count x = 0#32) → s.CloseAnswered →
    exec .treeBuild s = .next (s.afterError false .construction 0#64)

/-- R92, R93, R94: TREE_INFO, NODE_READ and NODE_WEIGHT_READ: their encodings, the words they answer, and NOT_READY before
BAD_OPERAND. -/
def Obligations.TreeInspectionCommands : Prop :=
  EncodedNone 0x21#8 (fun _ => .treeInfo) ∧ EncodedNone 0x22#8 .nodeRead ∧
  EncodedNone 0x23#8 .nodeWeightRead ∧
  (∀ s : State, s.treeValid = true →
    ∃ r : DWord, exec .treeInfo s = .next (s.respond true false r) ∧
      r.extractLsb' 0 10 = s.root ∧ r.extractLsb' 10 10 = s.nodeCount ∧
      r.extractLsb' 20 10 = s.leafCount ∧ r.getLsbD 30 = decide (s.treeSrc = .header) ∧
      r.extractLsb' 31 33 = 0#33) ∧
  (∀ (s : State) (i : Word) (x : Symbol) (w : Option Weight), s.treeValid = true →
    i.toNat < s.nodeCount.toNat → nodeAt s.nodes i.toNat = some (.leaf x w) →
    exec (.nodeRead i) s = .next (s.respond true false (BitVec.ofNat 64 (1 + 2 * x.val)))) ∧
  (∀ (s : State) (i : Word) (l r : NodeIdx) (w : Option Weight), s.treeValid = true →
    i.toNat < s.nodeCount.toNat → nodeAt s.nodes i.toNat = some (.internal l r w) →
    exec (.nodeRead i) s =
      .next (s.respond true false (BitVec.ofNat 64 (2 ^ 10 * l.toNat + 2 ^ 20 * r.toNat)))) ∧
  (∀ (s : State) (i : Word) (n : Node) (w : Weight), s.treeValid = true → s.treeSrc = .built →
    i.toNat < s.nodeCount.toNat → nodeAt s.nodes i.toNat = some n → n.weight = some w →
    exec (.nodeWeightRead i) s = .next (s.respond true false (w.setWidth 64))) ∧
  (∀ (s : State) (i : Word), s.treeValid = false → s.CloseAnswered →
    exec .treeInfo s = .next (s.afterError false .notReady 0x21#64) ∧
    exec (.nodeRead i) s = .next (s.afterError false .notReady 0x22#64) ∧
    exec (.nodeWeightRead i) s = .next (s.afterError false .notReady 0x23#64)) ∧
  (∀ (s : State) (i : Word), s.treeSrc = .header → s.CloseAnswered →
    exec (.nodeWeightRead i) s = .next (s.afterError false .notReady 0x23#64)) ∧
  (∀ (s : State) (i : Word), s.treeValid = true → s.nodeCount.toNat ≤ i.toNat → s.CloseAnswered →
    exec (.nodeRead i) s = .next (s.afterError false .badOperand (i.setWidth 64)) ∧
    (s.treeSrc = .built →
      exec (.nodeWeightRead i) s = .next (s.afterError false .badOperand (i.setWidth 64))))

/-! ### Code table (42_code_table.md) -/

/-- R95: CODES_BUILD completes on every complete tree; each leaf's code is its root-to-leaf path, 0 for left
and 1 for right, and a symbol that is no leaf has none; RESULT is LEAF_COUNT; CODES_VALID is set and ENC_ENDED
cleared; without a tree it is NOT_READY. -/
def Obligations.CodesBuildRecordsTheLeafPaths : Prop :=
  EncodedNone 0x30#8 (fun _ => .codesBuild) ∧
  (∀ s : State, s.TreeInv → s.treeValid = true →
    ∃ t : State, exec .codesBuild s = .next t ∧
      (∀ tree, s.heldTree = some tree →
        (∀ p ∈ tree.paths, t.codePresent[p.1.val] = some true ∧
          t.codeLen[p.1.val] = some (BitVec.ofNat 9 p.2.length) ∧
          t.codeBits[p.1.val] = some (BitVec.ofNat 256 (bitsToNat p.2)) ∧
          p.2.length ≤ 256 ∧ t.HasCode p.1 p.2) ∧
        (∀ x, x ∉ tree.symbols → t.codePresent[x.val] = some false ∧
          t.codeLen[x.val] = none ∧ t.codeBits[x.val] = none)) ∧
      t = { s with
        codePresent := t.codePresent, codeLen := t.codeLen, codeBits := t.codeBits,
        codesValid := true, encEnded := false }.respond true false (s.leafCount.setWidth 64)) ∧
  (∀ s : State, s.treeValid = false → s.CloseAnswered →
    exec .codesBuild s = .next (s.afterError false .notReady 0x30#64))

/-- R97 (b), (e): no code is a prefix of another symbol's code. -/
def Obligations.CodesArePrefixFree : Prop :=
  ∀ s : State, s.TreeInv → s.CodesInv → s.codesValid = true →
    ∀ (x y : Symbol) (c d : List Bool), x ≠ y → s.HasCode x c → s.HasCode y d → ¬ c <+: d

/-- R97 (c): the sum of 2^(-CODE_LEN) over the symbols with a code is 1, here scaled by 2^256. -/
def Obligations.CodesMeetKraftEquality : Prop :=
  ∀ s : State, s.TreeInv → s.CodesInv → s.codesValid = true →
    ((List.finRange 257).map s.kraftTerm).sum = 2 ^ 256

/-- R98, R99, D38: CODE_LEN_READ and CODE_BITS_READ: their encodings, the words they answer, 0 for a symbol with no code, and
NOT_READY before BAD_OPERAND. -/
def Obligations.CodeInspectionCommands : Prop :=
  EncodedSym 0x31#8 (fun sym _ => .codeLenRead sym) ∧ EncodedSym 0x32#8 .codeBitsRead ∧
  (∀ (s : State) (sym : SymField) (x : Symbol) (k : Word), symbolOf sym = some x →
    s.codesValid = true → s.codePresent[x.val] = some false →
    exec (.codeLenRead sym) s = .next (s.respond true false 0#64) ∧
    (k.toNat ≤ 3 → exec (.codeBitsRead sym k) s = .next (s.respond true false 0#64))) ∧
  (∀ (s : State) (sym : SymField) (x : Symbol) (k : Word) (l : BitVec 9) (b : BitVec 256),
    symbolOf sym = some x → s.codesValid = true → s.codePresent[x.val] = some true →
    s.codeLen[x.val] = some l → s.codeBits[x.val] = some b →
    exec (.codeLenRead sym) s = .next (s.respond true false (BitVec.ofNat 64 (l.toNat + 2 ^ 9))) ∧
    (k.toNat ≤ 3 → ∃ r : DWord, exec (.codeBitsRead sym k) s = .next (s.respond true false r) ∧
      ∀ j, j < 64 → r.getLsbD j = b.getLsbD (64 * k.toNat + j))) ∧
  (∀ (s : State) (sym : SymField) (k : Word), sym.toNat ≤ 256 → s.codesValid = false →
    s.CloseAnswered →
    exec (.codeLenRead sym) s =
      .next (s.afterError false .notReady ((commandWord 0x31#8 sym).setWidth 64)) ∧
    exec (.codeBitsRead sym k) s =
      .next (s.afterError false .notReady ((commandWord 0x32#8 sym).setWidth 64))) ∧
  (∀ (s : State) (sym : SymField) (k : Word), sym.toNat ≤ 256 → s.codesValid = true →
    3 < k.toNat → s.CloseAnswered →
    exec (.codeBitsRead sym k) s = .next (s.afterError false .badOperand (k.setWidth 64)))

/-! ### Header codec (43_header_codec.md) -/

/-- R47, R49, R100: MAGIC_WRITE appends the 32 bits of HUFF_TREE_MAGIC, most significant first; on a closed output it
raises OUTPUT_CLOSED, and on a failure IO_WRITE_FAIL; never answered, it has no next state (log 4). -/
def Obligations.MagicWriteAppendsTheMagic : Prop :=
  EncodedNone 0x40#8 (fun _ => .magicWrite) ∧
  ∀ s : State,
    (s.outOpen = true → s.answer = .accept → exec .magicWrite s =
      .next ({ s with
        outBits := s.outBits ++ (List.range 32).map (fun k => s.magic.getLsbD (31 - k)),
        outBitsWritten := s.outBitsWritten + 32#64,
        txCount := s.txCount + 1 }.respond true false 0#64)) ∧
    (s.outOpen = false → exec .magicWrite s =
      .next (s.afterError false .outputClosed s.outBitsWritten)) ∧
    (s.outOpen = true → s.answer = .fail → { s with txCount := s.txCount + 1 }.CloseAnswered →
      exec .magicWrite s =
        .next ({ s with txCount := s.txCount + 1 }.afterError false .ioWriteFail s.outBitsWritten)) ∧
    (s.outOpen = true → s.answer = .silent → exec .magicWrite s = .fault .channelSilent)

/-- R46, R49, R101: MAGIC_READ takes 32 bits, most significant first, and completes when they are HUFF_TREE_MAGIC;
other bits raise HDR_BAD_MAGIC and stay consumed; fewer than 32 raise HDR_EOI; a failure raises
IO_READ_FAIL; never answered, it has no next state (log 4). -/
def Obligations.MagicReadChecksTheMagic : Prop :=
  EncodedNone 0x41#8 (fun _ => .magicRead) ∧
  ∀ s : State,
    (∀ (v : Word) (rest : List Bool), s.answer = .accept → s.restBits = bin v ++ rest →
      (v = s.magic → exec .magicRead s =
        .next ({ s with
          inPos := s.inPos + 32, inBitsRead := s.inBitsRead + 32#64,
          txCount := s.txCount + 1 }.respond true false (v.setWidth 64))) ∧
      (v ≠ s.magic → { s with txCount := s.txCount + 1 }.CloseAnswered → exec .magicRead s =
        .next ({ s with
          inPos := s.inPos + 32, inBitsRead := s.inBitsRead + 32#64,
          txCount := s.txCount + 1 }.afterError false .hdrBadMagic (v.setWidth 64)))) ∧
    (s.answer = .accept → s.restBits.length < 32 →
      { s with txCount := s.txCount + 1 }.CloseAnswered → exec .magicRead s =
        .next ({ s with
          inPos := s.inBits.length, inExhausted := true,
          txCount := s.txCount + 1 }.afterError false .hdrEoi s.inBitsRead)) ∧
    (s.answer = .fail → { s with txCount := s.txCount + 1 }.CloseAnswered → exec .magicRead s =
      .next ({ s with txCount := s.txCount + 1 }.afterError false .ioReadFail s.inBitsRead)) ∧
    (s.answer = .silent → exec .magicRead s = .fault .channelSilent)

/-- R57, R102, R103, R130: HEADER_WRITE appends the pre-order header of the held tree, 11 L - 1 bits for L leaves, answers
their number and clears ENC_ENDED; where its write number n fails, the n writes before it stay in OUT and the rest is
not written; without a tree it is NOT_READY. -/
def Obligations.HeaderWriteAppendsThePreorder : Prop :=
  (∀ (s : State) (tree : Tree), s.Quiet → s.outOpen = true → s.treeValid = true →
    s.heldTree = some tree →
    tree.shape.header.length + 1 = 11 * tree.symbols.length ∧
    exec .headerWrite s =
      .next ({ s with
        outBits := s.outBits ++ tree.shape.header,
        outBitsWritten := s.outBitsWritten + BitVec.ofNat 64 (11 * tree.symbols.length - 1),
        txCount := s.txCount + (3 * tree.symbols.length - 1),
        encEnded := false }.respond true false (BitVec.ofNat 64 (11 * tree.symbols.length - 1)))) ∧
  (∀ (s : State) (tree : Tree) (n : Nat), s.outOpen = true → s.treeValid = true →
    s.heldTree = some tree → tree.shape.writes.flatten = tree.shape.header ∧
    (n < tree.shape.writes.length → s.failsAfter n →
      (s.moved 0 (tree.shape.writes.take n).flatten (n + 1)).CloseAnswered →
      exec .headerWrite s =
        .next ((s.moved 0 (tree.shape.writes.take n).flatten (n + 1)).afterError false .ioWriteFail
          (s.outBitsWritten + BitVec.ofNat 64 (tree.shape.writes.take n).flatten.length)))) ∧
  (∀ s : State, s.treeValid = false → s.CloseAnswered →
    exec .headerWrite s = .next (s.afterError false .notReady 0x42#64))

/-- R69, R104: HEADER_READ is OPC 0x43, class none; on an input that begins with the header of a tree of distinct
symbols it completes and holds that tree with pre-order indices, ROOT 0 and no weights; it reads the header and
no further. -/
def Obligations.HeaderReadHoldsTheTree : Prop :=
  EncodedNone 0x43#8 (fun _ => .headerRead) ∧
  ∀ (s : State) (sh : Shape) (rest : List Bool), s.Quiet → s.restBits = sh.header ++ rest →
    sh.symbols.Nodup →
    ∃ (t : State) (tree : Tree), exec .headerRead s = .next t ∧
      t.heldTree = some tree ∧ tree.shape = sh ∧ tree.Fills t ∧
      tree.indices = List.range (2 * sh.symbols.length - 1) ∧
      t = { s with
        nodes := t.nodes, root := 0#10,
        nodeCount := BitVec.ofNat 10 (2 * sh.symbols.length - 1),
        leafCount := BitVec.ofNat 10 sh.symbols.length, treeValid := true, treeSrc := .header,
        codesValid := false, encEnded := false, decState := .idle, decCur := none,
        inPos := s.inPos + sh.header.length,
        inBitsRead := s.inBitsRead + BitVec.ofNat 64 sh.header.length,
        txCount := t.txCount }.respond true false
          (BitVec.ofNat 64 (2 * sh.symbols.length - 1))

/-- R105: what HEADER_WRITE writes for a held tree, HEADER_READ reads back: it consumes exactly those bits,
raises no error and holds a shape-equal tree, with pre-order node indices and no weights. -/
def Obligations.HeaderRoundTrip : Prop :=
  ∀ (s t u : State) (tree : Tree) (header rest : List Bool),
    s.TreeInv → s.treeValid = true → s.heldTree = some tree → s.Quiet → s.outOpen = true →
    exec .headerWrite s = .next t → t.outBits = s.outBits ++ header →
    u.Quiet → u.restBits = header ++ rest →
    ∃ (v : State) (copy : Tree), exec .headerRead u = .next v ∧ v.err = u.err ∧
      v.treeValid = true ∧ v.heldTree = some copy ∧ copy.shape = tree.shape ∧
      copy.indices = List.range copy.indices.length ∧ copy.unweighted = true ∧
      v.inPos = u.inPos + header.length

/-- R104, R130, C12: after an error of HEADER_READ no tree and no code table is held, ENC_ENDED is 0 and the
decoder is IDLE; ROOT, NODE_COUNT, LEAF_COUNT and TREE_SRC keep their values; the d bits delivered stay consumed
and counted, and an end of the input also consumes the 0 to 8 bits left; NODE is a free value. The statement
holds for every value of NODE's contents. -/
def Obligations.HeaderReadErrorHoldsNoTree : Prop :=
  ∀ s t : State, s.err = false → exec .headerRead s = .next t → t.err = true →
    (∃ d : Nat, t.inBitsRead = s.inBitsRead + BitVec.ofNat 64 d ∧
      (d = 0 ∨ s.inPos + d ≤ s.inBits.length) ∧
      ((t.errCode ≠ .hdrEoi ∧ t.inExhausted = s.inExhausted ∧ t.inPos = s.inPos + d) ∨
       (t.errCode = .hdrEoi ∧ t.inExhausted = true ∧ t.inPos = s.inBits.length ∧
          s.inBits.length < s.inPos + d + 9))) ∧
    t = { s with
      nodes := t.nodes, freeDraws := s.freeDraws + 1, treeValid := false, codesValid := false,
      encEnded := false, decState := .idle, decCur := none,
      inPos := t.inPos, inExhausted := t.inExhausted, inBitsRead := t.inBitsRead,
      err := true, errCode := t.errCode, errInfo := t.errInfo, outOpen := false,
      outClosed := t.outClosed, txCount := t.txCount, responses := t.responses }

/-- R104, R124: at any place of a header where a node begins, after any well-formed part with distinct symbols:
HDR_EOI where the input ends before the tag bit or within the 9-bit symbol, HDR_TOO_LARGE on the tag bit of a
514th node, HDR_BAD_SYMBOL on a leaf value above 256, and HDR_DUP_SYMBOL on a symbol of an earlier leaf, each
with its ERRINFO and with the bits read consumed. In particular HDR_EOI on the header of a tree cut short at any
bit, and HDR_TOO_LARGE at the 514th of 514 0 bits. -/
def Obligations.MalformedHeadersAreRefused : Prop :=
  ∀ s : State, s.Quiet → s.err = false →
    (∀ (sh : Shape), ∀ p ∈ sh.leads, p.symbols.Nodup →
      ((p.nodes ≤ 513 ∧ s.restBits = p.bits ∨
          p.nodes < 513 ∧ ∃ part, part.length < 9 ∧ s.restBits = p.bits ++ true :: part) →
        ∃ t : State, exec .headerRead s = .next t ∧ t.err = true ∧ t.errCode = .hdrEoi ∧
          t.errInfo = t.inBitsRead ∧ t.inPos = s.inBits.length) ∧
      (∀ (tag : Bool) (rest : List Bool), p.nodes = 513 → s.restBits = p.bits ++ tag :: rest →
        ∃ t : State, exec .headerRead s = .next t ∧ t.err = true ∧ t.errCode = .hdrTooLarge ∧
          t.errInfo = s.inBitsRead + BitVec.ofNat 64 (p.bits.length + 1) ∧
          t.inPos = s.inPos + p.bits.length + 1) ∧
      (∀ (f : SymField) (rest : List Bool), p.nodes < 513 →
        s.restBits = p.bits ++ true :: bin f ++ rest →
        (256 < f.toNat → ∃ t : State, exec .headerRead s = .next t ∧ t.err = true ∧
          t.errCode = .hdrBadSymbol ∧ t.errInfo = f.setWidth 64 ∧
          t.inPos = s.inPos + p.bits.length + 10) ∧
        (∀ x ∈ p.symbols, symbolOf f = some x → ∃ t : State, exec .headerRead s = .next t ∧
          t.err = true ∧ t.errCode = .hdrDupSymbol ∧ t.errInfo = BitVec.ofNat 64 x.val ∧
          t.inPos = s.inPos + p.bits.length + 10))) ∧
    (∀ (sh : Shape) (more : List Bool), sh.header = s.restBits ++ more → more ≠ [] →
      sh.symbols.Nodup → ∃ t : State, exec .headerRead s = .next t ∧ t.err = true ∧
        t.errCode = .hdrEoi ∧ t.errInfo = t.inBitsRead ∧ t.inPos = s.inBits.length) ∧
    (∀ rest : List Bool, s.restBits = List.replicate 514 false ++ rest →
      ∃ t : State, exec .headerRead s = .next t ∧ t.err = true ∧ t.errCode = .hdrTooLarge ∧
        t.errInfo = s.inBitsRead + 514#64)

/-! ### Stream encoder (44_stream_encoder.md) -/

/-- R57, R106, R107, R108, R130: ENC_SYMBOL and ENC_EOS append the symbol's code, first-generated bit first, one
transaction a bit, and answer its length; ENC_EOS sets ENC_ENDED. Where the write of bit k fails, the k bits
before it stay in OUT and nothing else is written; NO_CODE and OUTPUT_CLOSED write nothing. -/
def Obligations.EncoderAppendsTheCode : Prop :=
  (∀ s : State, s.Quiet → s.outOpen = true → s.codesValid = true → s.encEnded = false →
    (∀ (b : Byte) (c : List Bool), s.HasCode (byteSymbol b) c → exec (.encSymbol b) s =
      .next ({ s with
        outBits := s.outBits ++ c,
        outBitsWritten := s.outBitsWritten + BitVec.ofNat 64 c.length,
        txCount := s.txCount + c.length }.respond true false (BitVec.ofNat 64 c.length))) ∧
    (∀ c : List Bool, s.HasCode sentinel c → exec .encEos s =
      .next ({ s with
        outBits := s.outBits ++ c,
        outBitsWritten := s.outBitsWritten + BitVec.ofNat 64 c.length,
        txCount := s.txCount + c.length,
        encEnded := true }.respond true false (BitVec.ofNat 64 c.length)))) ∧
  (∀ s : State, s.codesValid = true → s.encEnded = false →
    (∀ b : Byte, EncodeErrors (.encSymbol b) s s (byteSymbol b)) ∧
    EncodeErrors .encEos s s sentinel)

/-- R107, R108, R109, R126: the preconditions of the encoder in their order: NOT_READY without codes, then
STREAM_ENDED, then NOT_READY on an exhausted input for ENC_STREAM, then NO_CODE. -/
def Obligations.EncoderChecksInOrder : Prop :=
  (∀ s : State, s.CloseAnswered → s.codesValid = false →
    (∀ b : Byte, exec (.encSymbol b) s =
      .next (s.afterError false .notReady ((commandWord 0x50#8 (b.setWidth 9)).setWidth 64))) ∧
    exec .encEos s = .next (s.afterError false .notReady 0x51#64) ∧
    exec .encStream s = .next (s.afterError false .notReady 0x52#64)) ∧
  (∀ s : State, s.CloseAnswered → s.codesValid = true → s.encEnded = true →
    (∀ b : Byte, exec (.encSymbol b) s =
      .next (s.afterError false .streamEnded ((commandWord 0x50#8 (b.setWidth 9)).setWidth 64))) ∧
    exec .encEos s = .next (s.afterError false .streamEnded 0x51#64) ∧
    exec .encStream s = .next (s.afterError false .streamEnded 0x52#64)) ∧
  (∀ s : State, s.CloseAnswered → s.codesValid = true → s.encEnded = false →
    (∀ b : Byte, s.codePresent[(byteSymbol b).val] = some false → exec (.encSymbol b) s =
      .next (s.afterError false .noCode (b.setWidth 64))) ∧
    (s.codePresent[sentinel.val] = some false → exec .encEos s =
      .next (s.afterError false .noCode 256#64)) ∧
    (s.inExhausted = true → exec .encStream s =
      .next (s.afterError false .notReady 0x52#64)))

/-- R57, R109, R110 (a), R130: ENC_STREAM over an input whose bytes all have codes appends the bytes' codes in order and
then the sentinel's, answers the number of bytes, exhausts the input and sets ENC_ENDED. Where it raises after
n bytes, their codes stay in OUT and the bytes read stay consumed: at a read that fails, and at the byte or the
sentinel after them where it has no code, a write of its code fails, which leaves the bits before, or the output
is closed. With the output closed, n bytes are encoded only where their codes are empty. -/
def Obligations.EncStreamAppendsTheBody : Prop :=
  (∀ (s : State) (code : Symbol → List Bool), s.Quiet → s.outOpen = true → s.codesValid = true →
    s.encEnded = false → s.inExhausted = false →
    (∀ b ∈ wholeBytes s.restBits, s.HasCode (byteSymbol b) (code (byteSymbol b))) →
    s.HasCode sentinel (code sentinel) →
    ∃ t : State, exec .encStream s = .next t ∧
      t.outBits = s.outBits ++
        ((wholeBytes s.restBits).flatMap fun b => code (byteSymbol b)) ++ code sentinel ∧
      t = { s with
        outBits := t.outBits,
        outBitsWritten := s.outBitsWritten +
          BitVec.ofNat 64 (t.outBits.length - s.outBits.length),
        inPos := s.inBits.length, inExhausted := true,
        inBitsRead := s.inBitsRead + BitVec.ofNat 64 (8 * (wholeBytes s.restBits).length),
        txCount := t.txCount, encEnded := true }.respond true false
          (BitVec.ofNat 64 (wholeBytes s.restBits).length)) ∧
  (∀ (s : State) (code : Symbol → List Bool) (n : Nat) (body : List Bool),
    s.codesValid = true → s.encEnded = false → s.inExhausted = false →
    n ≤ (wholeBytes s.restBits).length →
    (∀ b ∈ (wholeBytes s.restBits).take n, s.HasCode (byteSymbol b) (code (byteSymbol b))) →
    body = (((wholeBytes s.restBits).take n).flatMap fun b => code (byteSymbol b)) →
    (s.outOpen = true ∨ body = []) →
    (s.failsAfter (n + body.length) →
      (s.moved (8 * n) body (n + body.length + 1)).CloseAnswered →
      exec .encStream s = .next ((s.moved (8 * n) body (n + body.length + 1)).afterError false
        .ioReadFail (s.inBitsRead + BitVec.ofNat 64 (8 * n)))) ∧
    (s.acceptedBefore (s.txCount + (n + body.length + 1)) →
      (∀ v : Byte, (wholeBytes s.restBits)[n]? = some v →
        EncodeErrors .encStream s (s.moved (8 * (n + 1)) body (n + body.length + 1))
          (byteSymbol v)) ∧
      (n = (wholeBytes s.restBits).length →
        EncodeErrors .encStream s
          { s.moved (8 * n) body (n + body.length + 1) with
            inPos := s.inBits.length, inExhausted := true } sentinel)))

/-- R30, R102, R108, R109, R110 (b): while ENC_ENDED = 1 no encoder command writes a bit, and ENC_ENDED stays 1
except through TREE_BUILD, HEADER_READ, CODES_BUILD and HEADER_WRITE, which clear it: each where it completes,
HEADER_READ where it raises as well. It becomes 1 only where ENC_EOS or ENC_STREAM completes, and an encoder
command or HEADER_WRITE that raises leaves it. -/
def Obligations.NothingIsEncodedAfterTheSentinel : Prop :=
  (∀ (i : Instr) (s t : State), s.encEnded = true → exec i s = .next t →
    ((∃ b, i = .encSymbol b) ∨ i = .encEos ∨ i = .encStream → t.outBits = s.outBits) ∧
    (i ∉ [.treeBuild, .headerRead, .codesBuild, .headerWrite] → t.encEnded = true)) ∧
  (∀ (i : Instr) (s t : State), exec i s = .next t →
    (i ∈ [.treeBuild, .headerRead, .codesBuild, .headerWrite] ∧ t.err = false ∨ i = .headerRead) →
    t.encEnded = false) ∧
  (∀ (i : Instr) (s t : State), s.err = false → s.encEnded = false → exec i s = .next t →
    t.encEnded = true → (i = .encEos ∨ i = .encStream) ∧ t.err = false) ∧
  (∀ (i : Instr) (s t : State), s.err = false → exec i s = .next t → t.err = true →
    (∃ b, i = .encSymbol b) ∨ i = .encEos ∨ i = .encStream ∨ i = .headerWrite →
    t.encEnded = s.encEnded)

/-! ### Stream decoder (45_stream_decoder.md) -/

/-- R112: DEC_START by the root of the held tree: WALKING at ROOT on an internal node, DONE on the sentinel's
leaf, DEGENERATE_TREE on a byte's leaf; NOT_READY without a tree. It reads no bit. -/
def Obligations.DecStartByTheRoot : Prop :=
  EncodedNone 0x60#8 (fun _ => .decStart) ∧
  ∀ s : State,
    (∀ (l r : NodeIdx) (w : Option Weight), s.treeValid = true →
      nodeAt s.nodes s.root.toNat = some (.internal l r w) → exec .decStart s =
        .next ({ s with decState := .walking, decCur := some s.root }.respond true false 0#64)) ∧
    (∀ w : Option Weight, s.treeValid = true →
      nodeAt s.nodes s.root.toNat = some (.leaf sentinel w) → exec .decStart s =
        .next ({ s with decState := .done, decCur := none }.respond true false 2#64)) ∧
    (∀ (b : Byte) (w : Option Weight), s.treeValid = true → s.CloseAnswered →
      nodeAt s.nodes s.root.toNat = some (.leaf (byteSymbol b) w) → exec .decStart s =
        .next (s.afterError true .degenerateTree (b.setWidth 64))) ∧
    (s.treeValid = false → s.CloseAnswered →
      exec .decStart s = .next (s.afterError false .notReady 0x60#64))

/-- R111, R113: DEC_BIT while walking: a bit that selects an internal node, a byte's leaf or the sentinel's
leaf, and the end of the input. -/
def Obligations.DecBitTakesOneStep : Prop :=
  ∀ (s : State) (c l r : NodeIdx) (w : Option Weight), s.Quiet → s.decState = .walking →
    s.decCur = some c → nodeAt s.nodes c.toNat = some (.internal l r w) →
    (∀ (bit : Bool) (rest : List Bool), s.restBits = bit :: rest →
      (∀ (l' r' : NodeIdx) (w' : Option Weight),
        nodeAt s.nodes (if bit then r else l).toNat = some (.internal l' r' w') →
        exec .decBit s = .next ({ s with
          decCur := some (if bit then r else l), inPos := s.inPos + 1,
          inBitsRead := s.inBitsRead + 1#64, txCount := s.txCount + 1 }.respond
            true false 0#64)) ∧
      (∀ w' : Option Weight,
        nodeAt s.nodes (if bit then r else l).toNat = some (.leaf sentinel w') →
        exec .decBit s = .next ({ s with
          decState := .done, decCur := none, inPos := s.inPos + 1,
          inBitsRead := s.inBitsRead + 1#64, txCount := s.txCount + 1 }.respond
            true false 2#64)) ∧
      (∀ (b : Byte) (w' : Option Weight), s.outOpen = true →
        nodeAt s.nodes (if bit then r else l).toNat = some (.leaf (byteSymbol b) w') →
        exec .decBit s = .next ({ s with
          decCur := some s.root, inPos := s.inPos + 1, inBitsRead := s.inBitsRead + 1#64,
          outBits := s.outBits ++ bin b, outBitsWritten := s.outBitsWritten + 8#64,
          txCount := s.txCount + 2 }.respond true false (BitVec.ofNat 64 (1 + 256 * b.toNat)))))
    ∧
    (s.restBits = [] → exec .decBit s =
      .next ({ s with
        inPos := s.inBits.length, inExhausted := true,
        txCount := s.txCount + 1 }.afterError true .truncatedStream s.inBitsRead))

/-- R111, R114, R116: on an input that begins with the path from DEC_CUR to a leaf, DEC_SYMBOL reads exactly that
path and completes: a byte is emitted and the walk is back at ROOT, or the sentinel ends it. On an input that
ends before the leaf it raises TRUNCATED_STREAM with IN_BITS_READ, with the bits left consumed. -/
def Obligations.DecSymbolFollowsThePath : Prop :=
  ∀ (s : State) (c : NodeIdx) (sub : Tree) (x : Symbol) (path : List Bool),
    s.Quiet → s.decState = .walking → s.decCur = some c →
    (∃ l r w, nodeAt s.nodes c.toNat = some (.internal l r w)) →
    readTree s.nodes Config.nodeCap c.toNat = some sub → (x, path) ∈ sub.paths →
    (∀ rest : List Bool, s.outOpen = true → s.restBits = path ++ rest →
      ∃ t : State, exec .decSymbol s = .next t ∧
        (x = sentinel → t = { s with
          decState := .done, decCur := none, inPos := s.inPos + path.length,
          inBitsRead := s.inBitsRead + BitVec.ofNat 64 path.length,
          txCount := s.txCount + path.length }.respond true false 2#64) ∧
        (∀ b : Byte, x = byteSymbol b → t = { s with
          decCur := some s.root, inPos := s.inPos + path.length,
          inBitsRead := s.inBitsRead + BitVec.ofNat 64 path.length,
          outBits := s.outBits ++ bin b, outBitsWritten := s.outBitsWritten + 8#64,
          txCount := s.txCount + path.length + 1 }.respond true false
            (BitVec.ofNat 64 (1 + 256 * b.toNat)))) ∧
    (∀ more : List Bool, more ≠ [] → path = s.restBits ++ more →
      exec .decSymbol s = .next ({ s with
        inPos := s.inBits.length, inExhausted := true,
        inBitsRead := s.inBitsRead + BitVec.ofNat 64 s.restBits.length,
        txCount := s.txCount + s.restBits.length + 1 }.afterError true .truncatedStream
          (s.inBitsRead + BitVec.ofNat 64 s.restBits.length)))

/-- R117 (b): on the codes of bytes followed by the sentinel's code, DEC_STREAM from the root emits exactly those
bytes, answers their number, is DONE, and reads no bit beyond the sentinel's code. -/
def Obligations.DecStreamDecodesTheBody : Prop :=
  ∀ (s : State) (tree : Tree) (code : Symbol → List Bool) (bytes : List Byte) (rest : List Bool),
    s.Quiet → s.outOpen = true → s.decState = .walking → s.decCur = some s.root →
    (∃ l r w, nodeAt s.nodes s.root.toNat = some (.internal l r w)) →
    s.heldTree = some tree →
    (∀ b ∈ bytes, (byteSymbol b, code (byteSymbol b)) ∈ tree.paths) →
    (sentinel, code sentinel) ∈ tree.paths →
    s.restBits = (bytes.flatMap fun b => code (byteSymbol b)) ++ code sentinel ++ rest →
    ∃ t : State, exec .decStream s = .next t ∧
      t = { s with
        decState := .done, decCur := none, inPos := s.inBits.length - rest.length,
        inBitsRead := s.inBitsRead +
          BitVec.ofNat 64 (s.inBits.length - rest.length - s.inPos),
        outBits := s.outBits ++ bytes.flatMap fun b => bin b,
        outBitsWritten := s.outBitsWritten + BitVec.ofNat 64 (8 * bytes.length),
        txCount := t.txCount }.respond true false (BitVec.ofNat 64 bytes.length)

/-- R111, R113, R114, R115, R117 (a), (d), R130: when no channel fails, DEC_STREAM from WALKING ends, in DONE right
after the sentinel's path or with TRUNCATED_STREAM at the end of the input; in both cases OUT has grown by the
bytes whose leaves the bits before led to. Where a decoder command raises after some bytes, they stay in OUT and
the bits read stay consumed: at the end of the input, at a read that fails, and at the write of the next byte,
which is not in OUT. DEC_SYMBOL and DEC_BIT are the cases of no byte before. -/
def Obligations.DecStreamEndsDoneOrTruncated : Prop :=
  (∀ s : State, s.TreeInv → s.DecInv → s.Quiet → s.outOpen = true → s.err = false →
    s.decState = .walking →
    ∃ (t : State) (c : NodeIdx) (tree sub : Tree) (bytes : List Byte) (bits : List Bool),
      exec .decStream s = .next t ∧
      s.decCur = some c ∧ s.heldTree = some tree ∧
      readTree s.nodes Config.nodeCap c.toNat = some sub ∧ tree.spells sub bytes bits ∧
      t.outBits = s.outBits ++ bytes.flatMap (fun b => bin b) ∧
      ((t.err = false ∧ t.decState = .done ∧ s.inPos < t.inPos ∧
        ∃ path rest, (sentinel, path) ∈ (tree.placeAfter sub bytes).paths ∧
          s.restBits = bits ++ path ++ rest ∧
          t.inPos = s.inPos + (bits.length + path.length)) ∨
       (t.err = true ∧ t.errCode = .truncatedStream ∧ t.decState = .error ∧
        t.inPos = s.inBits.length ∧
        ∃ x part more, more ≠ [] ∧ (x, part ++ more) ∈ (tree.placeAfter sub bytes).paths ∧
          s.restBits = bits ++ part))) ∧
  (∀ (i : Instr) (s : State) (c : NodeIdx) (tree sub : Tree) (bytes : List Byte)
      (bits : List Bool),
    s.decState = .walking → s.decCur = some c →
    (∃ l r w, nodeAt s.nodes c.toNat = some (.internal l r w)) →
    readTree s.nodes Config.nodeCap c.toNat = some sub →
    s.heldTree = some tree → (∃ l r w, nodeAt s.nodes s.root.toNat = some (.internal l r w)) →
    tree.spells sub bytes bits → (s.outOpen = true ∨ bytes = []) →
    (∀ (x : Symbol) (part more : List Bool), more ≠ [] →
      (x, part ++ more) ∈ (tree.placeAfter sub bytes).paths →
      (i = .decStream ∨ bytes = [] ∧ (i = .decSymbol ∨ i = .decBit ∧ part = [])) →
      ∀ u, u = s.moved (bits.length + part.length) (bytes.flatMap fun b => bin b)
          (bits.length + bytes.length + part.length + 1) →
        (s.restBits = bits ++ part → s.acceptedBefore u.txCount → u.CloseAnswered →
          exec i s = .next ({ u with inPos := s.inBits.length, inExhausted := true }.afterError
            true .truncatedStream u.inBitsRead)) ∧
        (∀ rest, s.restBits = bits ++ part ++ rest →
          s.failsAfter (bits.length + bytes.length + part.length) → u.CloseAnswered →
          exec i s = .next (u.afterError true .ioReadFail u.inBitsRead))) ∧
    (∀ (b : Byte) (path rest : List Bool),
      (byteSymbol b, path) ∈ (tree.placeAfter sub bytes).paths →
      (i = .decStream ∨ bytes = [] ∧ (i = .decSymbol ∨ i = .decBit ∧ path.length = 1)) →
      s.restBits = bits ++ path ++ rest → s.outOpen = true →
      s.failsAfter (bits.length + bytes.length + path.length) →
      ∀ u, u = s.moved (bits.length + path.length) (bytes.flatMap fun b => bin b)
          (bits.length + bytes.length + path.length + 1) →
        u.CloseAnswered →
        exec i s = .next (u.afterError true .ioWriteFail u.outBitsWritten)))

/-- R113, R114, R115, R116: in DONE the decoder commands complete and read nothing; in IDLE and ERROR they are
NOT_READY and leave DEC_STATE. -/
def Obligations.DoneAbsorbsAndIdleIsNotReady : Prop :=
  ∀ s : State,
    (s.decState = .done →
      exec .decBit s = .next (s.respond true false 2#64) ∧
      exec .decSymbol s = .next (s.respond true false 2#64) ∧
      exec .decStream s = .next (s.respond true false 0#64)) ∧
    ((s.decState = .idle ∨ s.decState = .error) → s.CloseAnswered →
      exec .decBit s = .next (s.afterError false .notReady 0x61#64) ∧
      exec .decSymbol s = .next (s.afterError false .notReady 0x62#64) ∧
      exec .decStream s = .next (s.afterError false .notReady 0x63#64))

/-- R110, R117: the decoder inverts the encoder. What ENC_STREAM appends, DEC_STREAM on any shape-equal tree
turns back into the encoder's input bytes, reading exactly those bits. -/
def Obligations.DecoderInvertsEncoder : Prop :=
  ∀ (s t u : State) (tree copy : Tree) (rest : List Bool),
    s.TreeInv → s.CodesInv → s.Quiet → s.err = false →
    exec .encStream s = .next t → t.err = false →
    s.heldTree = some tree → u.heldTree = some copy → copy.shape = tree.shape →
    u.TreeInv → u.DecInv → u.Quiet → u.outOpen = true → u.decState = .walking →
    u.decCur = some u.root →
    u.restBits = t.outBits.drop s.outBits.length ++ rest →
    ∃ v : State, exec .decStream u = .next v ∧ v.err = u.err ∧ v.decState = .done ∧
      v.outBits = u.outBits ++ (wholeBytes s.restBits).flatMap (fun b => bin b) ∧
      v.inPos = u.inPos + (t.outBits.length - s.outBits.length)

/-! ### Invariants of every step -/

/-- The state after reset meets the whole invariant. -/
def Obligations.ResetMeetsTheInvariant : Prop := State.reset.Inv

/-- R27: every step keeps the tree invariant. -/
def Obligations.StepKeepsTheTreeInvariant : Prop :=
  ∀ s t : State, s.TreeInv → step s = .next t → t.TreeInv

/-- R29, R28: every step keeps the code table that of the tree now held. -/
def Obligations.StepKeepsTheCodesOfTheTree : Prop :=
  ∀ s t : State, s.CodesInv → step s = .next t → t.CodesInv

/-- R31: every step keeps DEC_CUR an internal node of the held tree while walking, and absent otherwise. -/
def Obligations.StepKeepsTheCursorInTheTree : Prop :=
  ∀ s t : State, s.TreeInv → s.DecInv → step s = .next t → t.DecInv

/-- R32, R127, R152: every step keeps a latched error together with a closed output and a code, and the error
registers clear otherwise. -/
def Obligations.StepKeepsTheErrorInvariant : Prop :=
  ∀ s t : State, s.ErrInv → step s = .next t → t.ErrInv

/-- R30, R33, R34: every step keeps the channel flags and counters in step with the channels, and ENC_ENDED
under a valid code table. Counters are taken modulo 2^64 (log 13), and `outClosed` follows log 11. -/
def Obligations.StepKeepsTheChannelInvariant : Prop :=
  ∀ s t : State, s.ChanInv → s.EndInv → step s = .next t → t.ChanInv ∧ t.EndInv

/-- R21, R49: from a state that meets the invariant, a step that has no next state is one whose transaction is
never answered: no command reads an absent entry, no loop runs out, and nothing is refused. With channels that
answer, every step has a next state. -/
def Obligations.StepReadsNothingAbsent : Prop :=
  (∀ (s : State) (f : Fault), s.Inv → step s = .fault f → f = .channelSilent) ∧
  (∀ (s : State) (r : Refusal), step s ≠ .refused r) ∧
  (∀ s : State, s.Inv → s.Answers → ∃ t, step s = .next t)

/-! ### Rules of the whole machine -/

/-- R41, R40, R89, R149: each command writes only the state its row of the access table allows, whether it
completes or raises, but that TREE_BUILD also writes the CODE_* arrays, which R89 makes absent; of the commands
that complete (OK = 1), OUT_CLOSE alone writes OUT_OPEN and ERR_CLEAR alone the error registers; the parameter,
the input's bits, the environment's answers and the host's acts are written by none. -/
def Obligations.CommandsKeepToTheAccessTable : Prop :=
  ∀ (i : Instr) (s t : State), exec i s = .next t →
    (writesFreq i = false → t.freq = s.freq) ∧
    (writesTree i = false → t.nodes = s.nodes ∧ t.treeValid = s.treeValid ∧
      t.treeSrc = s.treeSrc ∧ t.root = s.root ∧ t.nodeCount = s.nodeCount ∧
      t.leafCount = s.leafCount ∧ t.freeDraws = s.freeDraws) ∧
    (i ≠ .treeBuild → i ≠ .codesBuild → t.codes = s.codes) ∧
    (writesCodesValid i = false → t.codesValid = s.codesValid) ∧
    (writesEnded i = false → t.encEnded = s.encEnded) ∧
    (writesDec i = false → t.decState = s.decState ∧ t.decCur = s.decCur) ∧
    (usesInput i = false → t.inPos = s.inPos ∧ t.inExhausted = s.inExhausted ∧
      t.inBitsRead = s.inBitsRead) ∧
    (writesOutput i = false → t.outBits = s.outBits ∧ t.outBitsWritten = s.outBitsWritten) ∧
    (∀ r : Response, t.responses = s.responses ++ [r] → r.status.getLsbD 0 = true →
      (i ≠ .outClose → t.outOpen = s.outOpen ∧ t.outClosed = s.outClosed) ∧
      (i ≠ .errClear → t.err = s.err ∧ t.errCode = s.errCode ∧ t.errInfo = s.errInfo)) ∧
    t.magic = s.magic ∧ t.inBits = s.inBits ∧ t.txAnswers = s.txAnswers ∧ t.host = s.host

/-- R47, R58, R60, R121, R152: a command only appends to the output, and once OUT_OPEN = 0 no command writes a bit
or opens it again: HEADER_WRITE on a held tree, ENC_SYMBOL, ENC_EOS and ENC_STREAM at a code that is not empty,
and DEC_BIT, DEC_SYMBOL and DEC_STREAM at a byte's leaf then raise OUTPUT_CLOSED with OUT_BITS_WRITTEN, with the
bits read consumed and no transaction for the write (log 10). MAGIC_WRITE is in MagicWriteAppendsTheMagic. -/
def Obligations.OutputOnlyGrowsAndStaysClosed : Prop :=
  (∀ (i : Instr) (s t : State), exec i s = .next t →
    s.outBits <+: t.outBits ∧
    (s.outOpen = false → t.outBits = s.outBits ∧ t.outBitsWritten = s.outBitsWritten ∧
      t.outOpen = false)) ∧
  (∀ (s : State) (tree : Tree), s.outOpen = false → s.treeValid = true → s.heldTree = some tree →
    exec .headerWrite s = .next (s.afterError false .outputClosed s.outBitsWritten)) ∧
  (∀ (s : State) (c : List Bool), s.outOpen = false → s.codesValid = true → s.encEnded = false →
    c ≠ [] →
    (∀ b : Byte, s.HasCode (byteSymbol b) c → exec (.encSymbol b) s =
      .next (s.afterError false .outputClosed s.outBitsWritten)) ∧
    (s.HasCode sentinel c → exec .encEos s =
      .next (s.afterError false .outputClosed s.outBitsWritten)) ∧
    (s.inExhausted = false → s.answer = .accept →
      (∀ (b : Byte) (rest : List Bool), s.HasCode (byteSymbol b) c → s.restBits = bin b ++ rest →
        exec .encStream s = .next ({ s with
          inPos := s.inPos + 8, inBitsRead := s.inBitsRead + 8#64,
          txCount := s.txCount + 1 }.afterError false .outputClosed s.outBitsWritten)) ∧
      (s.HasCode sentinel c → s.restBits.length < 8 →
        exec .encStream s = .next ({ s with
          inPos := s.inBits.length, inExhausted := true,
          txCount := s.txCount + 1 }.afterError false .outputClosed s.outBitsWritten)))) ∧
  (∀ (s : State) (c : NodeIdx) (sub : Tree) (b : Byte) (path rest : List Bool),
    s.outOpen = false → s.Quiet → s.decState = .walking → s.decCur = some c →
    (∃ l r w, nodeAt s.nodes c.toNat = some (.internal l r w)) →
    readTree s.nodes Config.nodeCap c.toNat = some sub → (byteSymbol b, path) ∈ sub.paths →
    s.restBits = path ++ rest →
    (∀ i : Instr, i = .decSymbol ∨ i = .decStream ∨ (i = .decBit ∧ path.length = 1) →
      exec i s = .next ({ s with
        inPos := s.inPos + path.length,
        inBitsRead := s.inBitsRead + BitVec.ofNat 64 path.length,
        txCount := s.txCount + path.length }.afterError true .outputClosed s.outBitsWritten)))

/-- R58, R137: an inspection command that raises nothing changes nothing but the list of responses. -/
def Obligations.InspectionHasNoSideEffect : Prop :=
  ∀ (i : Instr) (s t : State), inspects i = true → s.err = false → exec i s = .next t →
    t.err = false → t = { s with responses := t.responses }
end

