-- ==== Sys2Proof/Laws/State.lean ====
section
/-! SUPPORT. One lemma per field per update of the state: what it writes, and what it leaves. -/

namespace Sys2Proof.Machine

/-! ### setFreq -/

@[simp] theorem State.setFreq_freq (s : State) (t : FreqTable) :
    (s.setFreq t).freq = t := rfl

@[simp] theorem State.setFreq_nodes (s : State) (t : FreqTable) :
    (s.setFreq t).nodes = s.nodes := rfl

@[simp] theorem State.setFreq_treeValid (s : State) (t : FreqTable) :
    (s.setFreq t).treeValid = s.treeValid := rfl

@[simp] theorem State.setFreq_treeSrc (s : State) (t : FreqTable) :
    (s.setFreq t).treeSrc = s.treeSrc := rfl

@[simp] theorem State.setFreq_root (s : State) (t : FreqTable) :
    (s.setFreq t).root = s.root := rfl

@[simp] theorem State.setFreq_nodeCount (s : State) (t : FreqTable) :
    (s.setFreq t).nodeCount = s.nodeCount := rfl

@[simp] theorem State.setFreq_leafCount (s : State) (t : FreqTable) :
    (s.setFreq t).leafCount = s.leafCount := rfl

@[simp] theorem State.setFreq_codePresent (s : State) (t : FreqTable) :
    (s.setFreq t).codePresent = s.codePresent := rfl

@[simp] theorem State.setFreq_codeLen (s : State) (t : FreqTable) :
    (s.setFreq t).codeLen = s.codeLen := rfl

@[simp] theorem State.setFreq_codeBits (s : State) (t : FreqTable) :
    (s.setFreq t).codeBits = s.codeBits := rfl

@[simp] theorem State.setFreq_codesValid (s : State) (t : FreqTable) :
    (s.setFreq t).codesValid = s.codesValid := rfl

@[simp] theorem State.setFreq_encEnded (s : State) (t : FreqTable) :
    (s.setFreq t).encEnded = s.encEnded := rfl

@[simp] theorem State.setFreq_decState (s : State) (t : FreqTable) :
    (s.setFreq t).decState = s.decState := rfl

@[simp] theorem State.setFreq_decCur (s : State) (t : FreqTable) :
    (s.setFreq t).decCur = s.decCur := rfl

@[simp] theorem State.setFreq_err (s : State) (t : FreqTable) :
    (s.setFreq t).err = s.err := rfl

@[simp] theorem State.setFreq_errCode (s : State) (t : FreqTable) :
    (s.setFreq t).errCode = s.errCode := rfl

@[simp] theorem State.setFreq_errInfo (s : State) (t : FreqTable) :
    (s.setFreq t).errInfo = s.errInfo := rfl

@[simp] theorem State.setFreq_outOpen (s : State) (t : FreqTable) :
    (s.setFreq t).outOpen = s.outOpen := rfl

@[simp] theorem State.setFreq_inExhausted (s : State) (t : FreqTable) :
    (s.setFreq t).inExhausted = s.inExhausted := rfl

@[simp] theorem State.setFreq_inBitsRead (s : State) (t : FreqTable) :
    (s.setFreq t).inBitsRead = s.inBitsRead := rfl

@[simp] theorem State.setFreq_outBitsWritten (s : State) (t : FreqTable) :
    (s.setFreq t).outBitsWritten = s.outBitsWritten := rfl

@[simp] theorem State.setFreq_magic (s : State) (t : FreqTable) :
    (s.setFreq t).magic = s.magic := rfl

@[simp] theorem State.setFreq_inBits (s : State) (t : FreqTable) :
    (s.setFreq t).inBits = s.inBits := rfl

@[simp] theorem State.setFreq_inPos (s : State) (t : FreqTable) :
    (s.setFreq t).inPos = s.inPos := rfl

@[simp] theorem State.setFreq_outBits (s : State) (t : FreqTable) :
    (s.setFreq t).outBits = s.outBits := rfl

@[simp] theorem State.setFreq_outClosed (s : State) (t : FreqTable) :
    (s.setFreq t).outClosed = s.outClosed := rfl

@[simp] theorem State.setFreq_txCount (s : State) (t : FreqTable) :
    (s.setFreq t).txCount = s.txCount := rfl

@[simp] theorem State.setFreq_txAnswers (s : State) (t : FreqTable) :
    (s.setFreq t).txAnswers = s.txAnswers := rfl

@[simp] theorem State.setFreq_host (s : State) (t : FreqTable) :
    (s.setFreq t).host = s.host := rfl

@[simp] theorem State.setFreq_responses (s : State) (t : FreqTable) :
    (s.setFreq t).responses = s.responses := rfl

@[simp] theorem State.setFreq_freeDraws (s : State) (t : FreqTable) :
    (s.setFreq t).freeDraws = s.freeDraws := rfl

/-! ### holdTree -/

@[simp] theorem State.holdTree_freq (s : State) (src : TreeSrc) (nodes : NodeTable) (root : NodeIdx) (n l : Nat) :
    (s.holdTree src nodes root n l).freq = s.freq := rfl

@[simp] theorem State.holdTree_nodes (s : State) (src : TreeSrc) (nodes : NodeTable) (root : NodeIdx) (n l : Nat) :
    (s.holdTree src nodes root n l).nodes = nodes := rfl

@[simp] theorem State.holdTree_treeValid (s : State) (src : TreeSrc) (nodes : NodeTable) (root : NodeIdx) (n l : Nat) :
    (s.holdTree src nodes root n l).treeValid = true := rfl

@[simp] theorem State.holdTree_treeSrc (s : State) (src : TreeSrc) (nodes : NodeTable) (root : NodeIdx) (n l : Nat) :
    (s.holdTree src nodes root n l).treeSrc = src := rfl

@[simp] theorem State.holdTree_root (s : State) (src : TreeSrc) (nodes : NodeTable) (root : NodeIdx) (n l : Nat) :
    (s.holdTree src nodes root n l).root = root := rfl

@[simp] theorem State.holdTree_nodeCount (s : State) (src : TreeSrc) (nodes : NodeTable) (root : NodeIdx) (n l : Nat) :
    (s.holdTree src nodes root n l).nodeCount = BitVec.ofNat 10 n := rfl

@[simp] theorem State.holdTree_leafCount (s : State) (src : TreeSrc) (nodes : NodeTable) (root : NodeIdx) (n l : Nat) :
    (s.holdTree src nodes root n l).leafCount = BitVec.ofNat 10 l := rfl

@[simp] theorem State.holdTree_codePresent (s : State) (src : TreeSrc) (nodes : NodeTable) (root : NodeIdx) (n l : Nat) :
    (s.holdTree src nodes root n l).codePresent = s.codePresent := rfl

@[simp] theorem State.holdTree_codeLen (s : State) (src : TreeSrc) (nodes : NodeTable) (root : NodeIdx) (n l : Nat) :
    (s.holdTree src nodes root n l).codeLen = s.codeLen := rfl

@[simp] theorem State.holdTree_codeBits (s : State) (src : TreeSrc) (nodes : NodeTable) (root : NodeIdx) (n l : Nat) :
    (s.holdTree src nodes root n l).codeBits = s.codeBits := rfl

@[simp] theorem State.holdTree_codesValid (s : State) (src : TreeSrc) (nodes : NodeTable) (root : NodeIdx) (n l : Nat) :
    (s.holdTree src nodes root n l).codesValid = s.codesValid := rfl

@[simp] theorem State.holdTree_encEnded (s : State) (src : TreeSrc) (nodes : NodeTable) (root : NodeIdx) (n l : Nat) :
    (s.holdTree src nodes root n l).encEnded = s.encEnded := rfl

@[simp] theorem State.holdTree_decState (s : State) (src : TreeSrc) (nodes : NodeTable) (root : NodeIdx) (n l : Nat) :
    (s.holdTree src nodes root n l).decState = s.decState := rfl

@[simp] theorem State.holdTree_decCur (s : State) (src : TreeSrc) (nodes : NodeTable) (root : NodeIdx) (n l : Nat) :
    (s.holdTree src nodes root n l).decCur = s.decCur := rfl

@[simp] theorem State.holdTree_err (s : State) (src : TreeSrc) (nodes : NodeTable) (root : NodeIdx) (n l : Nat) :
    (s.holdTree src nodes root n l).err = s.err := rfl

@[simp] theorem State.holdTree_errCode (s : State) (src : TreeSrc) (nodes : NodeTable) (root : NodeIdx) (n l : Nat) :
    (s.holdTree src nodes root n l).errCode = s.errCode := rfl

@[simp] theorem State.holdTree_errInfo (s : State) (src : TreeSrc) (nodes : NodeTable) (root : NodeIdx) (n l : Nat) :
    (s.holdTree src nodes root n l).errInfo = s.errInfo := rfl

@[simp] theorem State.holdTree_outOpen (s : State) (src : TreeSrc) (nodes : NodeTable) (root : NodeIdx) (n l : Nat) :
    (s.holdTree src nodes root n l).outOpen = s.outOpen := rfl

@[simp] theorem State.holdTree_inExhausted (s : State) (src : TreeSrc) (nodes : NodeTable) (root : NodeIdx) (n l : Nat) :
    (s.holdTree src nodes root n l).inExhausted = s.inExhausted := rfl

@[simp] theorem State.holdTree_inBitsRead (s : State) (src : TreeSrc) (nodes : NodeTable) (root : NodeIdx) (n l : Nat) :
    (s.holdTree src nodes root n l).inBitsRead = s.inBitsRead := rfl

@[simp] theorem State.holdTree_outBitsWritten (s : State) (src : TreeSrc) (nodes : NodeTable) (root : NodeIdx) (n l : Nat) :
    (s.holdTree src nodes root n l).outBitsWritten = s.outBitsWritten := rfl

@[simp] theorem State.holdTree_magic (s : State) (src : TreeSrc) (nodes : NodeTable) (root : NodeIdx) (n l : Nat) :
    (s.holdTree src nodes root n l).magic = s.magic := rfl

@[simp] theorem State.holdTree_inBits (s : State) (src : TreeSrc) (nodes : NodeTable) (root : NodeIdx) (n l : Nat) :
    (s.holdTree src nodes root n l).inBits = s.inBits := rfl

@[simp] theorem State.holdTree_inPos (s : State) (src : TreeSrc) (nodes : NodeTable) (root : NodeIdx) (n l : Nat) :
    (s.holdTree src nodes root n l).inPos = s.inPos := rfl

@[simp] theorem State.holdTree_outBits (s : State) (src : TreeSrc) (nodes : NodeTable) (root : NodeIdx) (n l : Nat) :
    (s.holdTree src nodes root n l).outBits = s.outBits := rfl

@[simp] theorem State.holdTree_outClosed (s : State) (src : TreeSrc) (nodes : NodeTable) (root : NodeIdx) (n l : Nat) :
    (s.holdTree src nodes root n l).outClosed = s.outClosed := rfl

@[simp] theorem State.holdTree_txCount (s : State) (src : TreeSrc) (nodes : NodeTable) (root : NodeIdx) (n l : Nat) :
    (s.holdTree src nodes root n l).txCount = s.txCount := rfl

@[simp] theorem State.holdTree_txAnswers (s : State) (src : TreeSrc) (nodes : NodeTable) (root : NodeIdx) (n l : Nat) :
    (s.holdTree src nodes root n l).txAnswers = s.txAnswers := rfl

@[simp] theorem State.holdTree_host (s : State) (src : TreeSrc) (nodes : NodeTable) (root : NodeIdx) (n l : Nat) :
    (s.holdTree src nodes root n l).host = s.host := rfl

@[simp] theorem State.holdTree_responses (s : State) (src : TreeSrc) (nodes : NodeTable) (root : NodeIdx) (n l : Nat) :
    (s.holdTree src nodes root n l).responses = s.responses := rfl

@[simp] theorem State.holdTree_freeDraws (s : State) (src : TreeSrc) (nodes : NodeTable) (root : NodeIdx) (n l : Nat) :
    (s.holdTree src nodes root n l).freeDraws = s.freeDraws := rfl

/-! ### dropTree -/

@[simp] theorem State.dropTree_freq (s : State) :
    (s.dropTree).freq = s.freq := rfl

@[simp] theorem State.dropTree_nodes (s : State) :
    (s.dropTree).nodes = s.nodes := rfl

@[simp] theorem State.dropTree_treeValid (s : State) :
    (s.dropTree).treeValid = false := rfl

@[simp] theorem State.dropTree_treeSrc (s : State) :
    (s.dropTree).treeSrc = s.treeSrc := rfl

@[simp] theorem State.dropTree_root (s : State) :
    (s.dropTree).root = s.root := rfl

@[simp] theorem State.dropTree_nodeCount (s : State) :
    (s.dropTree).nodeCount = s.nodeCount := rfl

@[simp] theorem State.dropTree_leafCount (s : State) :
    (s.dropTree).leafCount = s.leafCount := rfl

@[simp] theorem State.dropTree_codePresent (s : State) :
    (s.dropTree).codePresent = s.codePresent := rfl

@[simp] theorem State.dropTree_codeLen (s : State) :
    (s.dropTree).codeLen = s.codeLen := rfl

@[simp] theorem State.dropTree_codeBits (s : State) :
    (s.dropTree).codeBits = s.codeBits := rfl

@[simp] theorem State.dropTree_codesValid (s : State) :
    (s.dropTree).codesValid = s.codesValid := rfl

@[simp] theorem State.dropTree_encEnded (s : State) :
    (s.dropTree).encEnded = s.encEnded := rfl

@[simp] theorem State.dropTree_decState (s : State) :
    (s.dropTree).decState = s.decState := rfl

@[simp] theorem State.dropTree_decCur (s : State) :
    (s.dropTree).decCur = s.decCur := rfl

@[simp] theorem State.dropTree_err (s : State) :
    (s.dropTree).err = s.err := rfl

@[simp] theorem State.dropTree_errCode (s : State) :
    (s.dropTree).errCode = s.errCode := rfl

@[simp] theorem State.dropTree_errInfo (s : State) :
    (s.dropTree).errInfo = s.errInfo := rfl

@[simp] theorem State.dropTree_outOpen (s : State) :
    (s.dropTree).outOpen = s.outOpen := rfl

@[simp] theorem State.dropTree_inExhausted (s : State) :
    (s.dropTree).inExhausted = s.inExhausted := rfl

@[simp] theorem State.dropTree_inBitsRead (s : State) :
    (s.dropTree).inBitsRead = s.inBitsRead := rfl

@[simp] theorem State.dropTree_outBitsWritten (s : State) :
    (s.dropTree).outBitsWritten = s.outBitsWritten := rfl

@[simp] theorem State.dropTree_magic (s : State) :
    (s.dropTree).magic = s.magic := rfl

@[simp] theorem State.dropTree_inBits (s : State) :
    (s.dropTree).inBits = s.inBits := rfl

@[simp] theorem State.dropTree_inPos (s : State) :
    (s.dropTree).inPos = s.inPos := rfl

@[simp] theorem State.dropTree_outBits (s : State) :
    (s.dropTree).outBits = s.outBits := rfl

@[simp] theorem State.dropTree_outClosed (s : State) :
    (s.dropTree).outClosed = s.outClosed := rfl

@[simp] theorem State.dropTree_txCount (s : State) :
    (s.dropTree).txCount = s.txCount := rfl

@[simp] theorem State.dropTree_txAnswers (s : State) :
    (s.dropTree).txAnswers = s.txAnswers := rfl

@[simp] theorem State.dropTree_host (s : State) :
    (s.dropTree).host = s.host := rfl

@[simp] theorem State.dropTree_responses (s : State) :
    (s.dropTree).responses = s.responses := rfl

@[simp] theorem State.dropTree_freeDraws (s : State) :
    (s.dropTree).freeDraws = s.freeDraws := rfl

/-! ### loseNodes -/

@[simp] theorem State.loseNodes_freq (s : State) :
    (s.loseNodes).freq = s.freq := rfl

@[simp] theorem State.loseNodes_nodes (s : State) :
    (s.loseNodes).nodes = Config.unspecifiedNodes s.freeDraws := rfl

@[simp] theorem State.loseNodes_treeValid (s : State) :
    (s.loseNodes).treeValid = s.treeValid := rfl

@[simp] theorem State.loseNodes_treeSrc (s : State) :
    (s.loseNodes).treeSrc = s.treeSrc := rfl

@[simp] theorem State.loseNodes_root (s : State) :
    (s.loseNodes).root = s.root := rfl

@[simp] theorem State.loseNodes_nodeCount (s : State) :
    (s.loseNodes).nodeCount = s.nodeCount := rfl

@[simp] theorem State.loseNodes_leafCount (s : State) :
    (s.loseNodes).leafCount = s.leafCount := rfl

@[simp] theorem State.loseNodes_codePresent (s : State) :
    (s.loseNodes).codePresent = s.codePresent := rfl

@[simp] theorem State.loseNodes_codeLen (s : State) :
    (s.loseNodes).codeLen = s.codeLen := rfl

@[simp] theorem State.loseNodes_codeBits (s : State) :
    (s.loseNodes).codeBits = s.codeBits := rfl

@[simp] theorem State.loseNodes_codesValid (s : State) :
    (s.loseNodes).codesValid = s.codesValid := rfl

@[simp] theorem State.loseNodes_encEnded (s : State) :
    (s.loseNodes).encEnded = s.encEnded := rfl

@[simp] theorem State.loseNodes_decState (s : State) :
    (s.loseNodes).decState = s.decState := rfl

@[simp] theorem State.loseNodes_decCur (s : State) :
    (s.loseNodes).decCur = s.decCur := rfl

@[simp] theorem State.loseNodes_err (s : State) :
    (s.loseNodes).err = s.err := rfl

@[simp] theorem State.loseNodes_errCode (s : State) :
    (s.loseNodes).errCode = s.errCode := rfl

@[simp] theorem State.loseNodes_errInfo (s : State) :
    (s.loseNodes).errInfo = s.errInfo := rfl

@[simp] theorem State.loseNodes_outOpen (s : State) :
    (s.loseNodes).outOpen = s.outOpen := rfl

@[simp] theorem State.loseNodes_inExhausted (s : State) :
    (s.loseNodes).inExhausted = s.inExhausted := rfl

@[simp] theorem State.loseNodes_inBitsRead (s : State) :
    (s.loseNodes).inBitsRead = s.inBitsRead := rfl

@[simp] theorem State.loseNodes_outBitsWritten (s : State) :
    (s.loseNodes).outBitsWritten = s.outBitsWritten := rfl

@[simp] theorem State.loseNodes_magic (s : State) :
    (s.loseNodes).magic = s.magic := rfl

@[simp] theorem State.loseNodes_inBits (s : State) :
    (s.loseNodes).inBits = s.inBits := rfl

@[simp] theorem State.loseNodes_inPos (s : State) :
    (s.loseNodes).inPos = s.inPos := rfl

@[simp] theorem State.loseNodes_outBits (s : State) :
    (s.loseNodes).outBits = s.outBits := rfl

@[simp] theorem State.loseNodes_outClosed (s : State) :
    (s.loseNodes).outClosed = s.outClosed := rfl

@[simp] theorem State.loseNodes_txCount (s : State) :
    (s.loseNodes).txCount = s.txCount := rfl

@[simp] theorem State.loseNodes_txAnswers (s : State) :
    (s.loseNodes).txAnswers = s.txAnswers := rfl

@[simp] theorem State.loseNodes_host (s : State) :
    (s.loseNodes).host = s.host := rfl

@[simp] theorem State.loseNodes_responses (s : State) :
    (s.loseNodes).responses = s.responses := rfl

@[simp] theorem State.loseNodes_freeDraws (s : State) :
    (s.loseNodes).freeDraws = s.freeDraws + 1 := rfl

/-! ### setCodes -/

@[simp] theorem State.setCodes_freq (s : State) (v : Bool) (c : CodeTable) :
    (s.setCodes v c).freq = s.freq := rfl

@[simp] theorem State.setCodes_nodes (s : State) (v : Bool) (c : CodeTable) :
    (s.setCodes v c).nodes = s.nodes := rfl

@[simp] theorem State.setCodes_treeValid (s : State) (v : Bool) (c : CodeTable) :
    (s.setCodes v c).treeValid = s.treeValid := rfl

@[simp] theorem State.setCodes_treeSrc (s : State) (v : Bool) (c : CodeTable) :
    (s.setCodes v c).treeSrc = s.treeSrc := rfl

@[simp] theorem State.setCodes_root (s : State) (v : Bool) (c : CodeTable) :
    (s.setCodes v c).root = s.root := rfl

@[simp] theorem State.setCodes_nodeCount (s : State) (v : Bool) (c : CodeTable) :
    (s.setCodes v c).nodeCount = s.nodeCount := rfl

@[simp] theorem State.setCodes_leafCount (s : State) (v : Bool) (c : CodeTable) :
    (s.setCodes v c).leafCount = s.leafCount := rfl

@[simp] theorem State.setCodes_codePresent (s : State) (v : Bool) (c : CodeTable) :
    (s.setCodes v c).codePresent = c.present := rfl

@[simp] theorem State.setCodes_codeLen (s : State) (v : Bool) (c : CodeTable) :
    (s.setCodes v c).codeLen = c.len := rfl

@[simp] theorem State.setCodes_codeBits (s : State) (v : Bool) (c : CodeTable) :
    (s.setCodes v c).codeBits = c.bits := rfl

@[simp] theorem State.setCodes_codesValid (s : State) (v : Bool) (c : CodeTable) :
    (s.setCodes v c).codesValid = v := rfl

@[simp] theorem State.setCodes_encEnded (s : State) (v : Bool) (c : CodeTable) :
    (s.setCodes v c).encEnded = s.encEnded := rfl

@[simp] theorem State.setCodes_decState (s : State) (v : Bool) (c : CodeTable) :
    (s.setCodes v c).decState = s.decState := rfl

@[simp] theorem State.setCodes_decCur (s : State) (v : Bool) (c : CodeTable) :
    (s.setCodes v c).decCur = s.decCur := rfl

@[simp] theorem State.setCodes_err (s : State) (v : Bool) (c : CodeTable) :
    (s.setCodes v c).err = s.err := rfl

@[simp] theorem State.setCodes_errCode (s : State) (v : Bool) (c : CodeTable) :
    (s.setCodes v c).errCode = s.errCode := rfl

@[simp] theorem State.setCodes_errInfo (s : State) (v : Bool) (c : CodeTable) :
    (s.setCodes v c).errInfo = s.errInfo := rfl

@[simp] theorem State.setCodes_outOpen (s : State) (v : Bool) (c : CodeTable) :
    (s.setCodes v c).outOpen = s.outOpen := rfl

@[simp] theorem State.setCodes_inExhausted (s : State) (v : Bool) (c : CodeTable) :
    (s.setCodes v c).inExhausted = s.inExhausted := rfl

@[simp] theorem State.setCodes_inBitsRead (s : State) (v : Bool) (c : CodeTable) :
    (s.setCodes v c).inBitsRead = s.inBitsRead := rfl

@[simp] theorem State.setCodes_outBitsWritten (s : State) (v : Bool) (c : CodeTable) :
    (s.setCodes v c).outBitsWritten = s.outBitsWritten := rfl

@[simp] theorem State.setCodes_magic (s : State) (v : Bool) (c : CodeTable) :
    (s.setCodes v c).magic = s.magic := rfl

@[simp] theorem State.setCodes_inBits (s : State) (v : Bool) (c : CodeTable) :
    (s.setCodes v c).inBits = s.inBits := rfl

@[simp] theorem State.setCodes_inPos (s : State) (v : Bool) (c : CodeTable) :
    (s.setCodes v c).inPos = s.inPos := rfl

@[simp] theorem State.setCodes_outBits (s : State) (v : Bool) (c : CodeTable) :
    (s.setCodes v c).outBits = s.outBits := rfl

@[simp] theorem State.setCodes_outClosed (s : State) (v : Bool) (c : CodeTable) :
    (s.setCodes v c).outClosed = s.outClosed := rfl

@[simp] theorem State.setCodes_txCount (s : State) (v : Bool) (c : CodeTable) :
    (s.setCodes v c).txCount = s.txCount := rfl

@[simp] theorem State.setCodes_txAnswers (s : State) (v : Bool) (c : CodeTable) :
    (s.setCodes v c).txAnswers = s.txAnswers := rfl

@[simp] theorem State.setCodes_host (s : State) (v : Bool) (c : CodeTable) :
    (s.setCodes v c).host = s.host := rfl

@[simp] theorem State.setCodes_responses (s : State) (v : Bool) (c : CodeTable) :
    (s.setCodes v c).responses = s.responses := rfl

@[simp] theorem State.setCodes_freeDraws (s : State) (v : Bool) (c : CodeTable) :
    (s.setCodes v c).freeDraws = s.freeDraws := rfl

/-! ### dropCodes -/

@[simp] theorem State.dropCodes_freq (s : State) :
    (s.dropCodes).freq = s.freq := rfl

@[simp] theorem State.dropCodes_nodes (s : State) :
    (s.dropCodes).nodes = s.nodes := rfl

@[simp] theorem State.dropCodes_treeValid (s : State) :
    (s.dropCodes).treeValid = s.treeValid := rfl

@[simp] theorem State.dropCodes_treeSrc (s : State) :
    (s.dropCodes).treeSrc = s.treeSrc := rfl

@[simp] theorem State.dropCodes_root (s : State) :
    (s.dropCodes).root = s.root := rfl

@[simp] theorem State.dropCodes_nodeCount (s : State) :
    (s.dropCodes).nodeCount = s.nodeCount := rfl

@[simp] theorem State.dropCodes_leafCount (s : State) :
    (s.dropCodes).leafCount = s.leafCount := rfl

@[simp] theorem State.dropCodes_codePresent (s : State) :
    (s.dropCodes).codePresent = s.codePresent := rfl

@[simp] theorem State.dropCodes_codeLen (s : State) :
    (s.dropCodes).codeLen = s.codeLen := rfl

@[simp] theorem State.dropCodes_codeBits (s : State) :
    (s.dropCodes).codeBits = s.codeBits := rfl

@[simp] theorem State.dropCodes_codesValid (s : State) :
    (s.dropCodes).codesValid = false := rfl

@[simp] theorem State.dropCodes_encEnded (s : State) :
    (s.dropCodes).encEnded = s.encEnded := rfl

@[simp] theorem State.dropCodes_decState (s : State) :
    (s.dropCodes).decState = s.decState := rfl

@[simp] theorem State.dropCodes_decCur (s : State) :
    (s.dropCodes).decCur = s.decCur := rfl

@[simp] theorem State.dropCodes_err (s : State) :
    (s.dropCodes).err = s.err := rfl

@[simp] theorem State.dropCodes_errCode (s : State) :
    (s.dropCodes).errCode = s.errCode := rfl

@[simp] theorem State.dropCodes_errInfo (s : State) :
    (s.dropCodes).errInfo = s.errInfo := rfl

@[simp] theorem State.dropCodes_outOpen (s : State) :
    (s.dropCodes).outOpen = s.outOpen := rfl

@[simp] theorem State.dropCodes_inExhausted (s : State) :
    (s.dropCodes).inExhausted = s.inExhausted := rfl

@[simp] theorem State.dropCodes_inBitsRead (s : State) :
    (s.dropCodes).inBitsRead = s.inBitsRead := rfl

@[simp] theorem State.dropCodes_outBitsWritten (s : State) :
    (s.dropCodes).outBitsWritten = s.outBitsWritten := rfl

@[simp] theorem State.dropCodes_magic (s : State) :
    (s.dropCodes).magic = s.magic := rfl

@[simp] theorem State.dropCodes_inBits (s : State) :
    (s.dropCodes).inBits = s.inBits := rfl

@[simp] theorem State.dropCodes_inPos (s : State) :
    (s.dropCodes).inPos = s.inPos := rfl

@[simp] theorem State.dropCodes_outBits (s : State) :
    (s.dropCodes).outBits = s.outBits := rfl

@[simp] theorem State.dropCodes_outClosed (s : State) :
    (s.dropCodes).outClosed = s.outClosed := rfl

@[simp] theorem State.dropCodes_txCount (s : State) :
    (s.dropCodes).txCount = s.txCount := rfl

@[simp] theorem State.dropCodes_txAnswers (s : State) :
    (s.dropCodes).txAnswers = s.txAnswers := rfl

@[simp] theorem State.dropCodes_host (s : State) :
    (s.dropCodes).host = s.host := rfl

@[simp] theorem State.dropCodes_responses (s : State) :
    (s.dropCodes).responses = s.responses := rfl

@[simp] theorem State.dropCodes_freeDraws (s : State) :
    (s.dropCodes).freeDraws = s.freeDraws := rfl

/-! ### setEnded -/

@[simp] theorem State.setEnded_freq (s : State) (b : Bool) :
    (s.setEnded b).freq = s.freq := rfl

@[simp] theorem State.setEnded_nodes (s : State) (b : Bool) :
    (s.setEnded b).nodes = s.nodes := rfl

@[simp] theorem State.setEnded_treeValid (s : State) (b : Bool) :
    (s.setEnded b).treeValid = s.treeValid := rfl

@[simp] theorem State.setEnded_treeSrc (s : State) (b : Bool) :
    (s.setEnded b).treeSrc = s.treeSrc := rfl

@[simp] theorem State.setEnded_root (s : State) (b : Bool) :
    (s.setEnded b).root = s.root := rfl

@[simp] theorem State.setEnded_nodeCount (s : State) (b : Bool) :
    (s.setEnded b).nodeCount = s.nodeCount := rfl

@[simp] theorem State.setEnded_leafCount (s : State) (b : Bool) :
    (s.setEnded b).leafCount = s.leafCount := rfl

@[simp] theorem State.setEnded_codePresent (s : State) (b : Bool) :
    (s.setEnded b).codePresent = s.codePresent := rfl

@[simp] theorem State.setEnded_codeLen (s : State) (b : Bool) :
    (s.setEnded b).codeLen = s.codeLen := rfl

@[simp] theorem State.setEnded_codeBits (s : State) (b : Bool) :
    (s.setEnded b).codeBits = s.codeBits := rfl

@[simp] theorem State.setEnded_codesValid (s : State) (b : Bool) :
    (s.setEnded b).codesValid = s.codesValid := rfl

@[simp] theorem State.setEnded_encEnded (s : State) (b : Bool) :
    (s.setEnded b).encEnded = b := rfl

@[simp] theorem State.setEnded_decState (s : State) (b : Bool) :
    (s.setEnded b).decState = s.decState := rfl

@[simp] theorem State.setEnded_decCur (s : State) (b : Bool) :
    (s.setEnded b).decCur = s.decCur := rfl

@[simp] theorem State.setEnded_err (s : State) (b : Bool) :
    (s.setEnded b).err = s.err := rfl

@[simp] theorem State.setEnded_errCode (s : State) (b : Bool) :
    (s.setEnded b).errCode = s.errCode := rfl

@[simp] theorem State.setEnded_errInfo (s : State) (b : Bool) :
    (s.setEnded b).errInfo = s.errInfo := rfl

@[simp] theorem State.setEnded_outOpen (s : State) (b : Bool) :
    (s.setEnded b).outOpen = s.outOpen := rfl

@[simp] theorem State.setEnded_inExhausted (s : State) (b : Bool) :
    (s.setEnded b).inExhausted = s.inExhausted := rfl

@[simp] theorem State.setEnded_inBitsRead (s : State) (b : Bool) :
    (s.setEnded b).inBitsRead = s.inBitsRead := rfl

@[simp] theorem State.setEnded_outBitsWritten (s : State) (b : Bool) :
    (s.setEnded b).outBitsWritten = s.outBitsWritten := rfl

@[simp] theorem State.setEnded_magic (s : State) (b : Bool) :
    (s.setEnded b).magic = s.magic := rfl

@[simp] theorem State.setEnded_inBits (s : State) (b : Bool) :
    (s.setEnded b).inBits = s.inBits := rfl

@[simp] theorem State.setEnded_inPos (s : State) (b : Bool) :
    (s.setEnded b).inPos = s.inPos := rfl

@[simp] theorem State.setEnded_outBits (s : State) (b : Bool) :
    (s.setEnded b).outBits = s.outBits := rfl

@[simp] theorem State.setEnded_outClosed (s : State) (b : Bool) :
    (s.setEnded b).outClosed = s.outClosed := rfl

@[simp] theorem State.setEnded_txCount (s : State) (b : Bool) :
    (s.setEnded b).txCount = s.txCount := rfl

@[simp] theorem State.setEnded_txAnswers (s : State) (b : Bool) :
    (s.setEnded b).txAnswers = s.txAnswers := rfl

@[simp] theorem State.setEnded_host (s : State) (b : Bool) :
    (s.setEnded b).host = s.host := rfl

@[simp] theorem State.setEnded_responses (s : State) (b : Bool) :
    (s.setEnded b).responses = s.responses := rfl

@[simp] theorem State.setEnded_freeDraws (s : State) (b : Bool) :
    (s.setEnded b).freeDraws = s.freeDraws := rfl

/-! ### setDec -/

@[simp] theorem State.setDec_freq (s : State) (d : DecState) (c : Option NodeIdx) :
    (s.setDec d c).freq = s.freq := rfl

@[simp] theorem State.setDec_nodes (s : State) (d : DecState) (c : Option NodeIdx) :
    (s.setDec d c).nodes = s.nodes := rfl

@[simp] theorem State.setDec_treeValid (s : State) (d : DecState) (c : Option NodeIdx) :
    (s.setDec d c).treeValid = s.treeValid := rfl

@[simp] theorem State.setDec_treeSrc (s : State) (d : DecState) (c : Option NodeIdx) :
    (s.setDec d c).treeSrc = s.treeSrc := rfl

@[simp] theorem State.setDec_root (s : State) (d : DecState) (c : Option NodeIdx) :
    (s.setDec d c).root = s.root := rfl

@[simp] theorem State.setDec_nodeCount (s : State) (d : DecState) (c : Option NodeIdx) :
    (s.setDec d c).nodeCount = s.nodeCount := rfl

@[simp] theorem State.setDec_leafCount (s : State) (d : DecState) (c : Option NodeIdx) :
    (s.setDec d c).leafCount = s.leafCount := rfl

@[simp] theorem State.setDec_codePresent (s : State) (d : DecState) (c : Option NodeIdx) :
    (s.setDec d c).codePresent = s.codePresent := rfl

@[simp] theorem State.setDec_codeLen (s : State) (d : DecState) (c : Option NodeIdx) :
    (s.setDec d c).codeLen = s.codeLen := rfl

@[simp] theorem State.setDec_codeBits (s : State) (d : DecState) (c : Option NodeIdx) :
    (s.setDec d c).codeBits = s.codeBits := rfl

@[simp] theorem State.setDec_codesValid (s : State) (d : DecState) (c : Option NodeIdx) :
    (s.setDec d c).codesValid = s.codesValid := rfl

@[simp] theorem State.setDec_encEnded (s : State) (d : DecState) (c : Option NodeIdx) :
    (s.setDec d c).encEnded = s.encEnded := rfl

@[simp] theorem State.setDec_decState (s : State) (d : DecState) (c : Option NodeIdx) :
    (s.setDec d c).decState = d := rfl

@[simp] theorem State.setDec_decCur (s : State) (d : DecState) (c : Option NodeIdx) :
    (s.setDec d c).decCur = c := rfl

@[simp] theorem State.setDec_err (s : State) (d : DecState) (c : Option NodeIdx) :
    (s.setDec d c).err = s.err := rfl

@[simp] theorem State.setDec_errCode (s : State) (d : DecState) (c : Option NodeIdx) :
    (s.setDec d c).errCode = s.errCode := rfl

@[simp] theorem State.setDec_errInfo (s : State) (d : DecState) (c : Option NodeIdx) :
    (s.setDec d c).errInfo = s.errInfo := rfl

@[simp] theorem State.setDec_outOpen (s : State) (d : DecState) (c : Option NodeIdx) :
    (s.setDec d c).outOpen = s.outOpen := rfl

@[simp] theorem State.setDec_inExhausted (s : State) (d : DecState) (c : Option NodeIdx) :
    (s.setDec d c).inExhausted = s.inExhausted := rfl

@[simp] theorem State.setDec_inBitsRead (s : State) (d : DecState) (c : Option NodeIdx) :
    (s.setDec d c).inBitsRead = s.inBitsRead := rfl

@[simp] theorem State.setDec_outBitsWritten (s : State) (d : DecState) (c : Option NodeIdx) :
    (s.setDec d c).outBitsWritten = s.outBitsWritten := rfl

@[simp] theorem State.setDec_magic (s : State) (d : DecState) (c : Option NodeIdx) :
    (s.setDec d c).magic = s.magic := rfl

@[simp] theorem State.setDec_inBits (s : State) (d : DecState) (c : Option NodeIdx) :
    (s.setDec d c).inBits = s.inBits := rfl

@[simp] theorem State.setDec_inPos (s : State) (d : DecState) (c : Option NodeIdx) :
    (s.setDec d c).inPos = s.inPos := rfl

@[simp] theorem State.setDec_outBits (s : State) (d : DecState) (c : Option NodeIdx) :
    (s.setDec d c).outBits = s.outBits := rfl

@[simp] theorem State.setDec_outClosed (s : State) (d : DecState) (c : Option NodeIdx) :
    (s.setDec d c).outClosed = s.outClosed := rfl

@[simp] theorem State.setDec_txCount (s : State) (d : DecState) (c : Option NodeIdx) :
    (s.setDec d c).txCount = s.txCount := rfl

@[simp] theorem State.setDec_txAnswers (s : State) (d : DecState) (c : Option NodeIdx) :
    (s.setDec d c).txAnswers = s.txAnswers := rfl

@[simp] theorem State.setDec_host (s : State) (d : DecState) (c : Option NodeIdx) :
    (s.setDec d c).host = s.host := rfl

@[simp] theorem State.setDec_responses (s : State) (d : DecState) (c : Option NodeIdx) :
    (s.setDec d c).responses = s.responses := rfl

@[simp] theorem State.setDec_freeDraws (s : State) (d : DecState) (c : Option NodeIdx) :
    (s.setDec d c).freeDraws = s.freeDraws := rfl

/-! ### latch -/

@[simp] theorem State.latch_freq (s : State) (e : ErrCode) (info : DWord) :
    (s.latch e info).freq = s.freq := rfl

@[simp] theorem State.latch_nodes (s : State) (e : ErrCode) (info : DWord) :
    (s.latch e info).nodes = s.nodes := rfl

@[simp] theorem State.latch_treeValid (s : State) (e : ErrCode) (info : DWord) :
    (s.latch e info).treeValid = s.treeValid := rfl

@[simp] theorem State.latch_treeSrc (s : State) (e : ErrCode) (info : DWord) :
    (s.latch e info).treeSrc = s.treeSrc := rfl

@[simp] theorem State.latch_root (s : State) (e : ErrCode) (info : DWord) :
    (s.latch e info).root = s.root := rfl

@[simp] theorem State.latch_nodeCount (s : State) (e : ErrCode) (info : DWord) :
    (s.latch e info).nodeCount = s.nodeCount := rfl

@[simp] theorem State.latch_leafCount (s : State) (e : ErrCode) (info : DWord) :
    (s.latch e info).leafCount = s.leafCount := rfl

@[simp] theorem State.latch_codePresent (s : State) (e : ErrCode) (info : DWord) :
    (s.latch e info).codePresent = s.codePresent := rfl

@[simp] theorem State.latch_codeLen (s : State) (e : ErrCode) (info : DWord) :
    (s.latch e info).codeLen = s.codeLen := rfl

@[simp] theorem State.latch_codeBits (s : State) (e : ErrCode) (info : DWord) :
    (s.latch e info).codeBits = s.codeBits := rfl

@[simp] theorem State.latch_codesValid (s : State) (e : ErrCode) (info : DWord) :
    (s.latch e info).codesValid = s.codesValid := rfl

@[simp] theorem State.latch_encEnded (s : State) (e : ErrCode) (info : DWord) :
    (s.latch e info).encEnded = s.encEnded := rfl

@[simp] theorem State.latch_decState (s : State) (e : ErrCode) (info : DWord) :
    (s.latch e info).decState = s.decState := rfl

@[simp] theorem State.latch_decCur (s : State) (e : ErrCode) (info : DWord) :
    (s.latch e info).decCur = s.decCur := rfl

@[simp] theorem State.latch_err (s : State) (e : ErrCode) (info : DWord) :
    (s.latch e info).err = true := rfl

@[simp] theorem State.latch_errCode (s : State) (e : ErrCode) (info : DWord) :
    (s.latch e info).errCode = e := rfl

@[simp] theorem State.latch_errInfo (s : State) (e : ErrCode) (info : DWord) :
    (s.latch e info).errInfo = info := rfl

@[simp] theorem State.latch_outOpen (s : State) (e : ErrCode) (info : DWord) :
    (s.latch e info).outOpen = s.outOpen := rfl

@[simp] theorem State.latch_inExhausted (s : State) (e : ErrCode) (info : DWord) :
    (s.latch e info).inExhausted = s.inExhausted := rfl

@[simp] theorem State.latch_inBitsRead (s : State) (e : ErrCode) (info : DWord) :
    (s.latch e info).inBitsRead = s.inBitsRead := rfl

@[simp] theorem State.latch_outBitsWritten (s : State) (e : ErrCode) (info : DWord) :
    (s.latch e info).outBitsWritten = s.outBitsWritten := rfl

@[simp] theorem State.latch_magic (s : State) (e : ErrCode) (info : DWord) :
    (s.latch e info).magic = s.magic := rfl

@[simp] theorem State.latch_inBits (s : State) (e : ErrCode) (info : DWord) :
    (s.latch e info).inBits = s.inBits := rfl

@[simp] theorem State.latch_inPos (s : State) (e : ErrCode) (info : DWord) :
    (s.latch e info).inPos = s.inPos := rfl

@[simp] theorem State.latch_outBits (s : State) (e : ErrCode) (info : DWord) :
    (s.latch e info).outBits = s.outBits := rfl

@[simp] theorem State.latch_outClosed (s : State) (e : ErrCode) (info : DWord) :
    (s.latch e info).outClosed = s.outClosed := rfl

@[simp] theorem State.latch_txCount (s : State) (e : ErrCode) (info : DWord) :
    (s.latch e info).txCount = s.txCount := rfl

@[simp] theorem State.latch_txAnswers (s : State) (e : ErrCode) (info : DWord) :
    (s.latch e info).txAnswers = s.txAnswers := rfl

@[simp] theorem State.latch_host (s : State) (e : ErrCode) (info : DWord) :
    (s.latch e info).host = s.host := rfl

@[simp] theorem State.latch_responses (s : State) (e : ErrCode) (info : DWord) :
    (s.latch e info).responses = s.responses := rfl

@[simp] theorem State.latch_freeDraws (s : State) (e : ErrCode) (info : DWord) :
    (s.latch e info).freeDraws = s.freeDraws := rfl

/-! ### unlatch -/

@[simp] theorem State.unlatch_freq (s : State) :
    (s.unlatch).freq = s.freq := rfl

@[simp] theorem State.unlatch_nodes (s : State) :
    (s.unlatch).nodes = s.nodes := rfl

@[simp] theorem State.unlatch_treeValid (s : State) :
    (s.unlatch).treeValid = s.treeValid := rfl

@[simp] theorem State.unlatch_treeSrc (s : State) :
    (s.unlatch).treeSrc = s.treeSrc := rfl

@[simp] theorem State.unlatch_root (s : State) :
    (s.unlatch).root = s.root := rfl

@[simp] theorem State.unlatch_nodeCount (s : State) :
    (s.unlatch).nodeCount = s.nodeCount := rfl

@[simp] theorem State.unlatch_leafCount (s : State) :
    (s.unlatch).leafCount = s.leafCount := rfl

@[simp] theorem State.unlatch_codePresent (s : State) :
    (s.unlatch).codePresent = s.codePresent := rfl

@[simp] theorem State.unlatch_codeLen (s : State) :
    (s.unlatch).codeLen = s.codeLen := rfl

@[simp] theorem State.unlatch_codeBits (s : State) :
    (s.unlatch).codeBits = s.codeBits := rfl

@[simp] theorem State.unlatch_codesValid (s : State) :
    (s.unlatch).codesValid = s.codesValid := rfl

@[simp] theorem State.unlatch_encEnded (s : State) :
    (s.unlatch).encEnded = s.encEnded := rfl

@[simp] theorem State.unlatch_decState (s : State) :
    (s.unlatch).decState = s.decState := rfl

@[simp] theorem State.unlatch_decCur (s : State) :
    (s.unlatch).decCur = s.decCur := rfl

@[simp] theorem State.unlatch_err (s : State) :
    (s.unlatch).err = false := rfl

@[simp] theorem State.unlatch_errCode (s : State) :
    (s.unlatch).errCode = .none := rfl

@[simp] theorem State.unlatch_errInfo (s : State) :
    (s.unlatch).errInfo = 0#64 := rfl

@[simp] theorem State.unlatch_outOpen (s : State) :
    (s.unlatch).outOpen = s.outOpen := rfl

@[simp] theorem State.unlatch_inExhausted (s : State) :
    (s.unlatch).inExhausted = s.inExhausted := rfl

@[simp] theorem State.unlatch_inBitsRead (s : State) :
    (s.unlatch).inBitsRead = s.inBitsRead := rfl

@[simp] theorem State.unlatch_outBitsWritten (s : State) :
    (s.unlatch).outBitsWritten = s.outBitsWritten := rfl

@[simp] theorem State.unlatch_magic (s : State) :
    (s.unlatch).magic = s.magic := rfl

@[simp] theorem State.unlatch_inBits (s : State) :
    (s.unlatch).inBits = s.inBits := rfl

@[simp] theorem State.unlatch_inPos (s : State) :
    (s.unlatch).inPos = s.inPos := rfl

@[simp] theorem State.unlatch_outBits (s : State) :
    (s.unlatch).outBits = s.outBits := rfl

@[simp] theorem State.unlatch_outClosed (s : State) :
    (s.unlatch).outClosed = s.outClosed := rfl

@[simp] theorem State.unlatch_txCount (s : State) :
    (s.unlatch).txCount = s.txCount := rfl

@[simp] theorem State.unlatch_txAnswers (s : State) :
    (s.unlatch).txAnswers = s.txAnswers := rfl

@[simp] theorem State.unlatch_host (s : State) :
    (s.unlatch).host = s.host := rfl

@[simp] theorem State.unlatch_responses (s : State) :
    (s.unlatch).responses = s.responses := rfl

@[simp] theorem State.unlatch_freeDraws (s : State) :
    (s.unlatch).freeDraws = s.freeDraws := rfl

/-! ### countTx -/

@[simp] theorem State.countTx_freq (s : State) :
    (s.countTx).freq = s.freq := rfl

@[simp] theorem State.countTx_nodes (s : State) :
    (s.countTx).nodes = s.nodes := rfl

@[simp] theorem State.countTx_treeValid (s : State) :
    (s.countTx).treeValid = s.treeValid := rfl

@[simp] theorem State.countTx_treeSrc (s : State) :
    (s.countTx).treeSrc = s.treeSrc := rfl

@[simp] theorem State.countTx_root (s : State) :
    (s.countTx).root = s.root := rfl

@[simp] theorem State.countTx_nodeCount (s : State) :
    (s.countTx).nodeCount = s.nodeCount := rfl

@[simp] theorem State.countTx_leafCount (s : State) :
    (s.countTx).leafCount = s.leafCount := rfl

@[simp] theorem State.countTx_codePresent (s : State) :
    (s.countTx).codePresent = s.codePresent := rfl

@[simp] theorem State.countTx_codeLen (s : State) :
    (s.countTx).codeLen = s.codeLen := rfl

@[simp] theorem State.countTx_codeBits (s : State) :
    (s.countTx).codeBits = s.codeBits := rfl

@[simp] theorem State.countTx_codesValid (s : State) :
    (s.countTx).codesValid = s.codesValid := rfl

@[simp] theorem State.countTx_encEnded (s : State) :
    (s.countTx).encEnded = s.encEnded := rfl

@[simp] theorem State.countTx_decState (s : State) :
    (s.countTx).decState = s.decState := rfl

@[simp] theorem State.countTx_decCur (s : State) :
    (s.countTx).decCur = s.decCur := rfl

@[simp] theorem State.countTx_err (s : State) :
    (s.countTx).err = s.err := rfl

@[simp] theorem State.countTx_errCode (s : State) :
    (s.countTx).errCode = s.errCode := rfl

@[simp] theorem State.countTx_errInfo (s : State) :
    (s.countTx).errInfo = s.errInfo := rfl

@[simp] theorem State.countTx_outOpen (s : State) :
    (s.countTx).outOpen = s.outOpen := rfl

@[simp] theorem State.countTx_inExhausted (s : State) :
    (s.countTx).inExhausted = s.inExhausted := rfl

@[simp] theorem State.countTx_inBitsRead (s : State) :
    (s.countTx).inBitsRead = s.inBitsRead := rfl

@[simp] theorem State.countTx_outBitsWritten (s : State) :
    (s.countTx).outBitsWritten = s.outBitsWritten := rfl

@[simp] theorem State.countTx_magic (s : State) :
    (s.countTx).magic = s.magic := rfl

@[simp] theorem State.countTx_inBits (s : State) :
    (s.countTx).inBits = s.inBits := rfl

@[simp] theorem State.countTx_inPos (s : State) :
    (s.countTx).inPos = s.inPos := rfl

@[simp] theorem State.countTx_outBits (s : State) :
    (s.countTx).outBits = s.outBits := rfl

@[simp] theorem State.countTx_outClosed (s : State) :
    (s.countTx).outClosed = s.outClosed := rfl

@[simp] theorem State.countTx_txCount (s : State) :
    (s.countTx).txCount = s.txCount + 1 := rfl

@[simp] theorem State.countTx_txAnswers (s : State) :
    (s.countTx).txAnswers = s.txAnswers := rfl

@[simp] theorem State.countTx_host (s : State) :
    (s.countTx).host = s.host := rfl

@[simp] theorem State.countTx_responses (s : State) :
    (s.countTx).responses = s.responses := rfl

@[simp] theorem State.countTx_freeDraws (s : State) :
    (s.countTx).freeDraws = s.freeDraws := rfl

/-! ### acceptRead -/

@[simp] theorem State.acceptRead_freq (s : State) (n : Nat) :
    (s.acceptRead n).freq = s.freq := rfl

@[simp] theorem State.acceptRead_nodes (s : State) (n : Nat) :
    (s.acceptRead n).nodes = s.nodes := rfl

@[simp] theorem State.acceptRead_treeValid (s : State) (n : Nat) :
    (s.acceptRead n).treeValid = s.treeValid := rfl

@[simp] theorem State.acceptRead_treeSrc (s : State) (n : Nat) :
    (s.acceptRead n).treeSrc = s.treeSrc := rfl

@[simp] theorem State.acceptRead_root (s : State) (n : Nat) :
    (s.acceptRead n).root = s.root := rfl

@[simp] theorem State.acceptRead_nodeCount (s : State) (n : Nat) :
    (s.acceptRead n).nodeCount = s.nodeCount := rfl

@[simp] theorem State.acceptRead_leafCount (s : State) (n : Nat) :
    (s.acceptRead n).leafCount = s.leafCount := rfl

@[simp] theorem State.acceptRead_codePresent (s : State) (n : Nat) :
    (s.acceptRead n).codePresent = s.codePresent := rfl

@[simp] theorem State.acceptRead_codeLen (s : State) (n : Nat) :
    (s.acceptRead n).codeLen = s.codeLen := rfl

@[simp] theorem State.acceptRead_codeBits (s : State) (n : Nat) :
    (s.acceptRead n).codeBits = s.codeBits := rfl

@[simp] theorem State.acceptRead_codesValid (s : State) (n : Nat) :
    (s.acceptRead n).codesValid = s.codesValid := rfl

@[simp] theorem State.acceptRead_encEnded (s : State) (n : Nat) :
    (s.acceptRead n).encEnded = s.encEnded := rfl

@[simp] theorem State.acceptRead_decState (s : State) (n : Nat) :
    (s.acceptRead n).decState = s.decState := rfl

@[simp] theorem State.acceptRead_decCur (s : State) (n : Nat) :
    (s.acceptRead n).decCur = s.decCur := rfl

@[simp] theorem State.acceptRead_err (s : State) (n : Nat) :
    (s.acceptRead n).err = s.err := rfl

@[simp] theorem State.acceptRead_errCode (s : State) (n : Nat) :
    (s.acceptRead n).errCode = s.errCode := rfl

@[simp] theorem State.acceptRead_errInfo (s : State) (n : Nat) :
    (s.acceptRead n).errInfo = s.errInfo := rfl

@[simp] theorem State.acceptRead_outOpen (s : State) (n : Nat) :
    (s.acceptRead n).outOpen = s.outOpen := rfl

@[simp] theorem State.acceptRead_inExhausted (s : State) (n : Nat) :
    (s.acceptRead n).inExhausted = s.inExhausted := rfl

@[simp] theorem State.acceptRead_inBitsRead (s : State) (n : Nat) :
    (s.acceptRead n).inBitsRead = s.inBitsRead + BitVec.ofNat 64 n := rfl

@[simp] theorem State.acceptRead_outBitsWritten (s : State) (n : Nat) :
    (s.acceptRead n).outBitsWritten = s.outBitsWritten := rfl

@[simp] theorem State.acceptRead_magic (s : State) (n : Nat) :
    (s.acceptRead n).magic = s.magic := rfl

@[simp] theorem State.acceptRead_inBits (s : State) (n : Nat) :
    (s.acceptRead n).inBits = s.inBits := rfl

@[simp] theorem State.acceptRead_inPos (s : State) (n : Nat) :
    (s.acceptRead n).inPos = s.inPos + n := rfl

@[simp] theorem State.acceptRead_outBits (s : State) (n : Nat) :
    (s.acceptRead n).outBits = s.outBits := rfl

@[simp] theorem State.acceptRead_outClosed (s : State) (n : Nat) :
    (s.acceptRead n).outClosed = s.outClosed := rfl

@[simp] theorem State.acceptRead_txCount (s : State) (n : Nat) :
    (s.acceptRead n).txCount = s.txCount := rfl

@[simp] theorem State.acceptRead_txAnswers (s : State) (n : Nat) :
    (s.acceptRead n).txAnswers = s.txAnswers := rfl

@[simp] theorem State.acceptRead_host (s : State) (n : Nat) :
    (s.acceptRead n).host = s.host := rfl

@[simp] theorem State.acceptRead_responses (s : State) (n : Nat) :
    (s.acceptRead n).responses = s.responses := rfl

@[simp] theorem State.acceptRead_freeDraws (s : State) (n : Nat) :
    (s.acceptRead n).freeDraws = s.freeDraws := rfl

/-! ### exhaust -/

@[simp] theorem State.exhaust_freq (s : State) :
    (s.exhaust).freq = s.freq := rfl

@[simp] theorem State.exhaust_nodes (s : State) :
    (s.exhaust).nodes = s.nodes := rfl

@[simp] theorem State.exhaust_treeValid (s : State) :
    (s.exhaust).treeValid = s.treeValid := rfl

@[simp] theorem State.exhaust_treeSrc (s : State) :
    (s.exhaust).treeSrc = s.treeSrc := rfl

@[simp] theorem State.exhaust_root (s : State) :
    (s.exhaust).root = s.root := rfl

@[simp] theorem State.exhaust_nodeCount (s : State) :
    (s.exhaust).nodeCount = s.nodeCount := rfl

@[simp] theorem State.exhaust_leafCount (s : State) :
    (s.exhaust).leafCount = s.leafCount := rfl

@[simp] theorem State.exhaust_codePresent (s : State) :
    (s.exhaust).codePresent = s.codePresent := rfl

@[simp] theorem State.exhaust_codeLen (s : State) :
    (s.exhaust).codeLen = s.codeLen := rfl

@[simp] theorem State.exhaust_codeBits (s : State) :
    (s.exhaust).codeBits = s.codeBits := rfl

@[simp] theorem State.exhaust_codesValid (s : State) :
    (s.exhaust).codesValid = s.codesValid := rfl

@[simp] theorem State.exhaust_encEnded (s : State) :
    (s.exhaust).encEnded = s.encEnded := rfl

@[simp] theorem State.exhaust_decState (s : State) :
    (s.exhaust).decState = s.decState := rfl

@[simp] theorem State.exhaust_decCur (s : State) :
    (s.exhaust).decCur = s.decCur := rfl

@[simp] theorem State.exhaust_err (s : State) :
    (s.exhaust).err = s.err := rfl

@[simp] theorem State.exhaust_errCode (s : State) :
    (s.exhaust).errCode = s.errCode := rfl

@[simp] theorem State.exhaust_errInfo (s : State) :
    (s.exhaust).errInfo = s.errInfo := rfl

@[simp] theorem State.exhaust_outOpen (s : State) :
    (s.exhaust).outOpen = s.outOpen := rfl

@[simp] theorem State.exhaust_inExhausted (s : State) :
    (s.exhaust).inExhausted = true := rfl

@[simp] theorem State.exhaust_inBitsRead (s : State) :
    (s.exhaust).inBitsRead = s.inBitsRead := rfl

@[simp] theorem State.exhaust_outBitsWritten (s : State) :
    (s.exhaust).outBitsWritten = s.outBitsWritten := rfl

@[simp] theorem State.exhaust_magic (s : State) :
    (s.exhaust).magic = s.magic := rfl

@[simp] theorem State.exhaust_inBits (s : State) :
    (s.exhaust).inBits = s.inBits := rfl

@[simp] theorem State.exhaust_inPos (s : State) :
    (s.exhaust).inPos = s.inBits.length := rfl

@[simp] theorem State.exhaust_outBits (s : State) :
    (s.exhaust).outBits = s.outBits := rfl

@[simp] theorem State.exhaust_outClosed (s : State) :
    (s.exhaust).outClosed = s.outClosed := rfl

@[simp] theorem State.exhaust_txCount (s : State) :
    (s.exhaust).txCount = s.txCount := rfl

@[simp] theorem State.exhaust_txAnswers (s : State) :
    (s.exhaust).txAnswers = s.txAnswers := rfl

@[simp] theorem State.exhaust_host (s : State) :
    (s.exhaust).host = s.host := rfl

@[simp] theorem State.exhaust_responses (s : State) :
    (s.exhaust).responses = s.responses := rfl

@[simp] theorem State.exhaust_freeDraws (s : State) :
    (s.exhaust).freeDraws = s.freeDraws := rfl

/-! ### rewind -/

@[simp] theorem State.rewind_freq (s : State) :
    (s.rewind).freq = s.freq := rfl

@[simp] theorem State.rewind_nodes (s : State) :
    (s.rewind).nodes = s.nodes := rfl

@[simp] theorem State.rewind_treeValid (s : State) :
    (s.rewind).treeValid = s.treeValid := rfl

@[simp] theorem State.rewind_treeSrc (s : State) :
    (s.rewind).treeSrc = s.treeSrc := rfl

@[simp] theorem State.rewind_root (s : State) :
    (s.rewind).root = s.root := rfl

@[simp] theorem State.rewind_nodeCount (s : State) :
    (s.rewind).nodeCount = s.nodeCount := rfl

@[simp] theorem State.rewind_leafCount (s : State) :
    (s.rewind).leafCount = s.leafCount := rfl

@[simp] theorem State.rewind_codePresent (s : State) :
    (s.rewind).codePresent = s.codePresent := rfl

@[simp] theorem State.rewind_codeLen (s : State) :
    (s.rewind).codeLen = s.codeLen := rfl

@[simp] theorem State.rewind_codeBits (s : State) :
    (s.rewind).codeBits = s.codeBits := rfl

@[simp] theorem State.rewind_codesValid (s : State) :
    (s.rewind).codesValid = s.codesValid := rfl

@[simp] theorem State.rewind_encEnded (s : State) :
    (s.rewind).encEnded = s.encEnded := rfl

@[simp] theorem State.rewind_decState (s : State) :
    (s.rewind).decState = s.decState := rfl

@[simp] theorem State.rewind_decCur (s : State) :
    (s.rewind).decCur = s.decCur := rfl

@[simp] theorem State.rewind_err (s : State) :
    (s.rewind).err = s.err := rfl

@[simp] theorem State.rewind_errCode (s : State) :
    (s.rewind).errCode = s.errCode := rfl

@[simp] theorem State.rewind_errInfo (s : State) :
    (s.rewind).errInfo = s.errInfo := rfl

@[simp] theorem State.rewind_outOpen (s : State) :
    (s.rewind).outOpen = s.outOpen := rfl

@[simp] theorem State.rewind_inExhausted (s : State) :
    (s.rewind).inExhausted = false := rfl

@[simp] theorem State.rewind_inBitsRead (s : State) :
    (s.rewind).inBitsRead = 0#64 := rfl

@[simp] theorem State.rewind_outBitsWritten (s : State) :
    (s.rewind).outBitsWritten = s.outBitsWritten := rfl

@[simp] theorem State.rewind_magic (s : State) :
    (s.rewind).magic = s.magic := rfl

@[simp] theorem State.rewind_inBits (s : State) :
    (s.rewind).inBits = s.inBits := rfl

@[simp] theorem State.rewind_inPos (s : State) :
    (s.rewind).inPos = 0 := rfl

@[simp] theorem State.rewind_outBits (s : State) :
    (s.rewind).outBits = s.outBits := rfl

@[simp] theorem State.rewind_outClosed (s : State) :
    (s.rewind).outClosed = s.outClosed := rfl

@[simp] theorem State.rewind_txCount (s : State) :
    (s.rewind).txCount = s.txCount := rfl

@[simp] theorem State.rewind_txAnswers (s : State) :
    (s.rewind).txAnswers = s.txAnswers := rfl

@[simp] theorem State.rewind_host (s : State) :
    (s.rewind).host = s.host := rfl

@[simp] theorem State.rewind_responses (s : State) :
    (s.rewind).responses = s.responses := rfl

@[simp] theorem State.rewind_freeDraws (s : State) :
    (s.rewind).freeDraws = s.freeDraws := rfl

/-! ### acceptWrite -/

@[simp] theorem State.acceptWrite_freq (s : State) (bits : List Bool) :
    (s.acceptWrite bits).freq = s.freq := rfl

@[simp] theorem State.acceptWrite_nodes (s : State) (bits : List Bool) :
    (s.acceptWrite bits).nodes = s.nodes := rfl

@[simp] theorem State.acceptWrite_treeValid (s : State) (bits : List Bool) :
    (s.acceptWrite bits).treeValid = s.treeValid := rfl

@[simp] theorem State.acceptWrite_treeSrc (s : State) (bits : List Bool) :
    (s.acceptWrite bits).treeSrc = s.treeSrc := rfl

@[simp] theorem State.acceptWrite_root (s : State) (bits : List Bool) :
    (s.acceptWrite bits).root = s.root := rfl

@[simp] theorem State.acceptWrite_nodeCount (s : State) (bits : List Bool) :
    (s.acceptWrite bits).nodeCount = s.nodeCount := rfl

@[simp] theorem State.acceptWrite_leafCount (s : State) (bits : List Bool) :
    (s.acceptWrite bits).leafCount = s.leafCount := rfl

@[simp] theorem State.acceptWrite_codePresent (s : State) (bits : List Bool) :
    (s.acceptWrite bits).codePresent = s.codePresent := rfl

@[simp] theorem State.acceptWrite_codeLen (s : State) (bits : List Bool) :
    (s.acceptWrite bits).codeLen = s.codeLen := rfl

@[simp] theorem State.acceptWrite_codeBits (s : State) (bits : List Bool) :
    (s.acceptWrite bits).codeBits = s.codeBits := rfl

@[simp] theorem State.acceptWrite_codesValid (s : State) (bits : List Bool) :
    (s.acceptWrite bits).codesValid = s.codesValid := rfl

@[simp] theorem State.acceptWrite_encEnded (s : State) (bits : List Bool) :
    (s.acceptWrite bits).encEnded = s.encEnded := rfl

@[simp] theorem State.acceptWrite_decState (s : State) (bits : List Bool) :
    (s.acceptWrite bits).decState = s.decState := rfl

@[simp] theorem State.acceptWrite_decCur (s : State) (bits : List Bool) :
    (s.acceptWrite bits).decCur = s.decCur := rfl

@[simp] theorem State.acceptWrite_err (s : State) (bits : List Bool) :
    (s.acceptWrite bits).err = s.err := rfl

@[simp] theorem State.acceptWrite_errCode (s : State) (bits : List Bool) :
    (s.acceptWrite bits).errCode = s.errCode := rfl

@[simp] theorem State.acceptWrite_errInfo (s : State) (bits : List Bool) :
    (s.acceptWrite bits).errInfo = s.errInfo := rfl

@[simp] theorem State.acceptWrite_outOpen (s : State) (bits : List Bool) :
    (s.acceptWrite bits).outOpen = s.outOpen := rfl

@[simp] theorem State.acceptWrite_inExhausted (s : State) (bits : List Bool) :
    (s.acceptWrite bits).inExhausted = s.inExhausted := rfl

@[simp] theorem State.acceptWrite_inBitsRead (s : State) (bits : List Bool) :
    (s.acceptWrite bits).inBitsRead = s.inBitsRead := rfl

@[simp] theorem State.acceptWrite_outBitsWritten (s : State) (bits : List Bool) :
    (s.acceptWrite bits).outBitsWritten = s.outBitsWritten + BitVec.ofNat 64 bits.length := rfl

@[simp] theorem State.acceptWrite_magic (s : State) (bits : List Bool) :
    (s.acceptWrite bits).magic = s.magic := rfl

@[simp] theorem State.acceptWrite_inBits (s : State) (bits : List Bool) :
    (s.acceptWrite bits).inBits = s.inBits := rfl

@[simp] theorem State.acceptWrite_inPos (s : State) (bits : List Bool) :
    (s.acceptWrite bits).inPos = s.inPos := rfl

@[simp] theorem State.acceptWrite_outBits (s : State) (bits : List Bool) :
    (s.acceptWrite bits).outBits = s.outBits ++ bits := rfl

@[simp] theorem State.acceptWrite_outClosed (s : State) (bits : List Bool) :
    (s.acceptWrite bits).outClosed = s.outClosed := rfl

@[simp] theorem State.acceptWrite_txCount (s : State) (bits : List Bool) :
    (s.acceptWrite bits).txCount = s.txCount := rfl

@[simp] theorem State.acceptWrite_txAnswers (s : State) (bits : List Bool) :
    (s.acceptWrite bits).txAnswers = s.txAnswers := rfl

@[simp] theorem State.acceptWrite_host (s : State) (bits : List Bool) :
    (s.acceptWrite bits).host = s.host := rfl

@[simp] theorem State.acceptWrite_responses (s : State) (bits : List Bool) :
    (s.acceptWrite bits).responses = s.responses := rfl

@[simp] theorem State.acceptWrite_freeDraws (s : State) (bits : List Bool) :
    (s.acceptWrite bits).freeDraws = s.freeDraws := rfl

/-! ### shutOut -/

@[simp] theorem State.shutOut_freq (s : State) :
    (s.shutOut).freq = s.freq := rfl

@[simp] theorem State.shutOut_nodes (s : State) :
    (s.shutOut).nodes = s.nodes := rfl

@[simp] theorem State.shutOut_treeValid (s : State) :
    (s.shutOut).treeValid = s.treeValid := rfl

@[simp] theorem State.shutOut_treeSrc (s : State) :
    (s.shutOut).treeSrc = s.treeSrc := rfl

@[simp] theorem State.shutOut_root (s : State) :
    (s.shutOut).root = s.root := rfl

@[simp] theorem State.shutOut_nodeCount (s : State) :
    (s.shutOut).nodeCount = s.nodeCount := rfl

@[simp] theorem State.shutOut_leafCount (s : State) :
    (s.shutOut).leafCount = s.leafCount := rfl

@[simp] theorem State.shutOut_codePresent (s : State) :
    (s.shutOut).codePresent = s.codePresent := rfl

@[simp] theorem State.shutOut_codeLen (s : State) :
    (s.shutOut).codeLen = s.codeLen := rfl

@[simp] theorem State.shutOut_codeBits (s : State) :
    (s.shutOut).codeBits = s.codeBits := rfl

@[simp] theorem State.shutOut_codesValid (s : State) :
    (s.shutOut).codesValid = s.codesValid := rfl

@[simp] theorem State.shutOut_encEnded (s : State) :
    (s.shutOut).encEnded = s.encEnded := rfl

@[simp] theorem State.shutOut_decState (s : State) :
    (s.shutOut).decState = s.decState := rfl

@[simp] theorem State.shutOut_decCur (s : State) :
    (s.shutOut).decCur = s.decCur := rfl

@[simp] theorem State.shutOut_err (s : State) :
    (s.shutOut).err = s.err := rfl

@[simp] theorem State.shutOut_errCode (s : State) :
    (s.shutOut).errCode = s.errCode := rfl

@[simp] theorem State.shutOut_errInfo (s : State) :
    (s.shutOut).errInfo = s.errInfo := rfl

@[simp] theorem State.shutOut_outOpen (s : State) :
    (s.shutOut).outOpen = false := rfl

@[simp] theorem State.shutOut_inExhausted (s : State) :
    (s.shutOut).inExhausted = s.inExhausted := rfl

@[simp] theorem State.shutOut_inBitsRead (s : State) :
    (s.shutOut).inBitsRead = s.inBitsRead := rfl

@[simp] theorem State.shutOut_outBitsWritten (s : State) :
    (s.shutOut).outBitsWritten = s.outBitsWritten := rfl

@[simp] theorem State.shutOut_magic (s : State) :
    (s.shutOut).magic = s.magic := rfl

@[simp] theorem State.shutOut_inBits (s : State) :
    (s.shutOut).inBits = s.inBits := rfl

@[simp] theorem State.shutOut_inPos (s : State) :
    (s.shutOut).inPos = s.inPos := rfl

@[simp] theorem State.shutOut_outBits (s : State) :
    (s.shutOut).outBits = s.outBits := rfl

@[simp] theorem State.shutOut_outClosed (s : State) :
    (s.shutOut).outClosed = s.outClosed := rfl

@[simp] theorem State.shutOut_txCount (s : State) :
    (s.shutOut).txCount = s.txCount := rfl

@[simp] theorem State.shutOut_txAnswers (s : State) :
    (s.shutOut).txAnswers = s.txAnswers := rfl

@[simp] theorem State.shutOut_host (s : State) :
    (s.shutOut).host = s.host := rfl

@[simp] theorem State.shutOut_responses (s : State) :
    (s.shutOut).responses = s.responses := rfl

@[simp] theorem State.shutOut_freeDraws (s : State) :
    (s.shutOut).freeDraws = s.freeDraws := rfl

/-! ### closeChannel -/

@[simp] theorem State.closeChannel_freq (s : State) :
    (s.closeChannel).freq = s.freq := rfl

@[simp] theorem State.closeChannel_nodes (s : State) :
    (s.closeChannel).nodes = s.nodes := rfl

@[simp] theorem State.closeChannel_treeValid (s : State) :
    (s.closeChannel).treeValid = s.treeValid := rfl

@[simp] theorem State.closeChannel_treeSrc (s : State) :
    (s.closeChannel).treeSrc = s.treeSrc := rfl

@[simp] theorem State.closeChannel_root (s : State) :
    (s.closeChannel).root = s.root := rfl

@[simp] theorem State.closeChannel_nodeCount (s : State) :
    (s.closeChannel).nodeCount = s.nodeCount := rfl

@[simp] theorem State.closeChannel_leafCount (s : State) :
    (s.closeChannel).leafCount = s.leafCount := rfl

@[simp] theorem State.closeChannel_codePresent (s : State) :
    (s.closeChannel).codePresent = s.codePresent := rfl

@[simp] theorem State.closeChannel_codeLen (s : State) :
    (s.closeChannel).codeLen = s.codeLen := rfl

@[simp] theorem State.closeChannel_codeBits (s : State) :
    (s.closeChannel).codeBits = s.codeBits := rfl

@[simp] theorem State.closeChannel_codesValid (s : State) :
    (s.closeChannel).codesValid = s.codesValid := rfl

@[simp] theorem State.closeChannel_encEnded (s : State) :
    (s.closeChannel).encEnded = s.encEnded := rfl

@[simp] theorem State.closeChannel_decState (s : State) :
    (s.closeChannel).decState = s.decState := rfl

@[simp] theorem State.closeChannel_decCur (s : State) :
    (s.closeChannel).decCur = s.decCur := rfl

@[simp] theorem State.closeChannel_err (s : State) :
    (s.closeChannel).err = s.err := rfl

@[simp] theorem State.closeChannel_errCode (s : State) :
    (s.closeChannel).errCode = s.errCode := rfl

@[simp] theorem State.closeChannel_errInfo (s : State) :
    (s.closeChannel).errInfo = s.errInfo := rfl

@[simp] theorem State.closeChannel_outOpen (s : State) :
    (s.closeChannel).outOpen = s.outOpen := rfl

@[simp] theorem State.closeChannel_inExhausted (s : State) :
    (s.closeChannel).inExhausted = s.inExhausted := rfl

@[simp] theorem State.closeChannel_inBitsRead (s : State) :
    (s.closeChannel).inBitsRead = s.inBitsRead := rfl

@[simp] theorem State.closeChannel_outBitsWritten (s : State) :
    (s.closeChannel).outBitsWritten = s.outBitsWritten := rfl

@[simp] theorem State.closeChannel_magic (s : State) :
    (s.closeChannel).magic = s.magic := rfl

@[simp] theorem State.closeChannel_inBits (s : State) :
    (s.closeChannel).inBits = s.inBits := rfl

@[simp] theorem State.closeChannel_inPos (s : State) :
    (s.closeChannel).inPos = s.inPos := rfl

@[simp] theorem State.closeChannel_outBits (s : State) :
    (s.closeChannel).outBits = s.outBits := rfl

@[simp] theorem State.closeChannel_outClosed (s : State) :
    (s.closeChannel).outClosed = true := rfl

@[simp] theorem State.closeChannel_txCount (s : State) :
    (s.closeChannel).txCount = s.txCount := rfl

@[simp] theorem State.closeChannel_txAnswers (s : State) :
    (s.closeChannel).txAnswers = s.txAnswers := rfl

@[simp] theorem State.closeChannel_host (s : State) :
    (s.closeChannel).host = s.host := rfl

@[simp] theorem State.closeChannel_responses (s : State) :
    (s.closeChannel).responses = s.responses := rfl

@[simp] theorem State.closeChannel_freeDraws (s : State) :
    (s.closeChannel).freeDraws = s.freeDraws := rfl

/-! ### setHost -/

@[simp] theorem State.setHost_freq (s : State) (h : List HostAct) :
    (s.setHost h).freq = s.freq := rfl

@[simp] theorem State.setHost_nodes (s : State) (h : List HostAct) :
    (s.setHost h).nodes = s.nodes := rfl

@[simp] theorem State.setHost_treeValid (s : State) (h : List HostAct) :
    (s.setHost h).treeValid = s.treeValid := rfl

@[simp] theorem State.setHost_treeSrc (s : State) (h : List HostAct) :
    (s.setHost h).treeSrc = s.treeSrc := rfl

@[simp] theorem State.setHost_root (s : State) (h : List HostAct) :
    (s.setHost h).root = s.root := rfl

@[simp] theorem State.setHost_nodeCount (s : State) (h : List HostAct) :
    (s.setHost h).nodeCount = s.nodeCount := rfl

@[simp] theorem State.setHost_leafCount (s : State) (h : List HostAct) :
    (s.setHost h).leafCount = s.leafCount := rfl

@[simp] theorem State.setHost_codePresent (s : State) (h : List HostAct) :
    (s.setHost h).codePresent = s.codePresent := rfl

@[simp] theorem State.setHost_codeLen (s : State) (h : List HostAct) :
    (s.setHost h).codeLen = s.codeLen := rfl

@[simp] theorem State.setHost_codeBits (s : State) (h : List HostAct) :
    (s.setHost h).codeBits = s.codeBits := rfl

@[simp] theorem State.setHost_codesValid (s : State) (h : List HostAct) :
    (s.setHost h).codesValid = s.codesValid := rfl

@[simp] theorem State.setHost_encEnded (s : State) (h : List HostAct) :
    (s.setHost h).encEnded = s.encEnded := rfl

@[simp] theorem State.setHost_decState (s : State) (h : List HostAct) :
    (s.setHost h).decState = s.decState := rfl

@[simp] theorem State.setHost_decCur (s : State) (h : List HostAct) :
    (s.setHost h).decCur = s.decCur := rfl

@[simp] theorem State.setHost_err (s : State) (h : List HostAct) :
    (s.setHost h).err = s.err := rfl

@[simp] theorem State.setHost_errCode (s : State) (h : List HostAct) :
    (s.setHost h).errCode = s.errCode := rfl

@[simp] theorem State.setHost_errInfo (s : State) (h : List HostAct) :
    (s.setHost h).errInfo = s.errInfo := rfl

@[simp] theorem State.setHost_outOpen (s : State) (h : List HostAct) :
    (s.setHost h).outOpen = s.outOpen := rfl

@[simp] theorem State.setHost_inExhausted (s : State) (h : List HostAct) :
    (s.setHost h).inExhausted = s.inExhausted := rfl

@[simp] theorem State.setHost_inBitsRead (s : State) (h : List HostAct) :
    (s.setHost h).inBitsRead = s.inBitsRead := rfl

@[simp] theorem State.setHost_outBitsWritten (s : State) (h : List HostAct) :
    (s.setHost h).outBitsWritten = s.outBitsWritten := rfl

@[simp] theorem State.setHost_magic (s : State) (h : List HostAct) :
    (s.setHost h).magic = s.magic := rfl

@[simp] theorem State.setHost_inBits (s : State) (h : List HostAct) :
    (s.setHost h).inBits = s.inBits := rfl

@[simp] theorem State.setHost_inPos (s : State) (h : List HostAct) :
    (s.setHost h).inPos = s.inPos := rfl

@[simp] theorem State.setHost_outBits (s : State) (h : List HostAct) :
    (s.setHost h).outBits = s.outBits := rfl

@[simp] theorem State.setHost_outClosed (s : State) (h : List HostAct) :
    (s.setHost h).outClosed = s.outClosed := rfl

@[simp] theorem State.setHost_txCount (s : State) (h : List HostAct) :
    (s.setHost h).txCount = s.txCount := rfl

@[simp] theorem State.setHost_txAnswers (s : State) (h : List HostAct) :
    (s.setHost h).txAnswers = s.txAnswers := rfl

@[simp] theorem State.setHost_host (s : State) (h : List HostAct) :
    (s.setHost h).host = h := rfl

@[simp] theorem State.setHost_responses (s : State) (h : List HostAct) :
    (s.setHost h).responses = s.responses := rfl

@[simp] theorem State.setHost_freeDraws (s : State) (h : List HostAct) :
    (s.setHost h).freeDraws = s.freeDraws := rfl

/-! ### addResponse -/

@[simp] theorem State.addResponse_freq (s : State) (r : Response) :
    (s.addResponse r).freq = s.freq := rfl

@[simp] theorem State.addResponse_nodes (s : State) (r : Response) :
    (s.addResponse r).nodes = s.nodes := rfl

@[simp] theorem State.addResponse_treeValid (s : State) (r : Response) :
    (s.addResponse r).treeValid = s.treeValid := rfl

@[simp] theorem State.addResponse_treeSrc (s : State) (r : Response) :
    (s.addResponse r).treeSrc = s.treeSrc := rfl

@[simp] theorem State.addResponse_root (s : State) (r : Response) :
    (s.addResponse r).root = s.root := rfl

@[simp] theorem State.addResponse_nodeCount (s : State) (r : Response) :
    (s.addResponse r).nodeCount = s.nodeCount := rfl

@[simp] theorem State.addResponse_leafCount (s : State) (r : Response) :
    (s.addResponse r).leafCount = s.leafCount := rfl

@[simp] theorem State.addResponse_codePresent (s : State) (r : Response) :
    (s.addResponse r).codePresent = s.codePresent := rfl

@[simp] theorem State.addResponse_codeLen (s : State) (r : Response) :
    (s.addResponse r).codeLen = s.codeLen := rfl

@[simp] theorem State.addResponse_codeBits (s : State) (r : Response) :
    (s.addResponse r).codeBits = s.codeBits := rfl

@[simp] theorem State.addResponse_codesValid (s : State) (r : Response) :
    (s.addResponse r).codesValid = s.codesValid := rfl

@[simp] theorem State.addResponse_encEnded (s : State) (r : Response) :
    (s.addResponse r).encEnded = s.encEnded := rfl

@[simp] theorem State.addResponse_decState (s : State) (r : Response) :
    (s.addResponse r).decState = s.decState := rfl

@[simp] theorem State.addResponse_decCur (s : State) (r : Response) :
    (s.addResponse r).decCur = s.decCur := rfl

@[simp] theorem State.addResponse_err (s : State) (r : Response) :
    (s.addResponse r).err = s.err := rfl

@[simp] theorem State.addResponse_errCode (s : State) (r : Response) :
    (s.addResponse r).errCode = s.errCode := rfl

@[simp] theorem State.addResponse_errInfo (s : State) (r : Response) :
    (s.addResponse r).errInfo = s.errInfo := rfl

@[simp] theorem State.addResponse_outOpen (s : State) (r : Response) :
    (s.addResponse r).outOpen = s.outOpen := rfl

@[simp] theorem State.addResponse_inExhausted (s : State) (r : Response) :
    (s.addResponse r).inExhausted = s.inExhausted := rfl

@[simp] theorem State.addResponse_inBitsRead (s : State) (r : Response) :
    (s.addResponse r).inBitsRead = s.inBitsRead := rfl

@[simp] theorem State.addResponse_outBitsWritten (s : State) (r : Response) :
    (s.addResponse r).outBitsWritten = s.outBitsWritten := rfl

@[simp] theorem State.addResponse_magic (s : State) (r : Response) :
    (s.addResponse r).magic = s.magic := rfl

@[simp] theorem State.addResponse_inBits (s : State) (r : Response) :
    (s.addResponse r).inBits = s.inBits := rfl

@[simp] theorem State.addResponse_inPos (s : State) (r : Response) :
    (s.addResponse r).inPos = s.inPos := rfl

@[simp] theorem State.addResponse_outBits (s : State) (r : Response) :
    (s.addResponse r).outBits = s.outBits := rfl

@[simp] theorem State.addResponse_outClosed (s : State) (r : Response) :
    (s.addResponse r).outClosed = s.outClosed := rfl

@[simp] theorem State.addResponse_txCount (s : State) (r : Response) :
    (s.addResponse r).txCount = s.txCount := rfl

@[simp] theorem State.addResponse_txAnswers (s : State) (r : Response) :
    (s.addResponse r).txAnswers = s.txAnswers := rfl

@[simp] theorem State.addResponse_host (s : State) (r : Response) :
    (s.addResponse r).host = s.host := rfl

@[simp] theorem State.addResponse_responses (s : State) (r : Response) :
    (s.addResponse r).responses = s.responses ++ [r] := rfl

@[simp] theorem State.addResponse_freeDraws (s : State) (r : Response) :
    (s.addResponse r).freeDraws = s.freeDraws := rfl

/-! ### setCount and respond, made of the updates above -/

@[simp] theorem State.setCount_freq (s : State) (x : Symbol) (v : Word) :
    (s.setCount x v).freq = s.freq.set x.val v x.isLt := rfl

@[simp] theorem State.setCount_nodes (s : State) (x : Symbol) (v : Word) :
    (s.setCount x v).nodes = s.nodes := rfl

@[simp] theorem State.setCount_treeValid (s : State) (x : Symbol) (v : Word) :
    (s.setCount x v).treeValid = s.treeValid := rfl

@[simp] theorem State.setCount_treeSrc (s : State) (x : Symbol) (v : Word) :
    (s.setCount x v).treeSrc = s.treeSrc := rfl

@[simp] theorem State.setCount_root (s : State) (x : Symbol) (v : Word) :
    (s.setCount x v).root = s.root := rfl

@[simp] theorem State.setCount_nodeCount (s : State) (x : Symbol) (v : Word) :
    (s.setCount x v).nodeCount = s.nodeCount := rfl

@[simp] theorem State.setCount_leafCount (s : State) (x : Symbol) (v : Word) :
    (s.setCount x v).leafCount = s.leafCount := rfl

@[simp] theorem State.setCount_codePresent (s : State) (x : Symbol) (v : Word) :
    (s.setCount x v).codePresent = s.codePresent := rfl

@[simp] theorem State.setCount_codeLen (s : State) (x : Symbol) (v : Word) :
    (s.setCount x v).codeLen = s.codeLen := rfl

@[simp] theorem State.setCount_codeBits (s : State) (x : Symbol) (v : Word) :
    (s.setCount x v).codeBits = s.codeBits := rfl

@[simp] theorem State.setCount_codesValid (s : State) (x : Symbol) (v : Word) :
    (s.setCount x v).codesValid = s.codesValid := rfl

@[simp] theorem State.setCount_encEnded (s : State) (x : Symbol) (v : Word) :
    (s.setCount x v).encEnded = s.encEnded := rfl

@[simp] theorem State.setCount_decState (s : State) (x : Symbol) (v : Word) :
    (s.setCount x v).decState = s.decState := rfl

@[simp] theorem State.setCount_decCur (s : State) (x : Symbol) (v : Word) :
    (s.setCount x v).decCur = s.decCur := rfl

@[simp] theorem State.setCount_err (s : State) (x : Symbol) (v : Word) :
    (s.setCount x v).err = s.err := rfl

@[simp] theorem State.setCount_errCode (s : State) (x : Symbol) (v : Word) :
    (s.setCount x v).errCode = s.errCode := rfl

@[simp] theorem State.setCount_errInfo (s : State) (x : Symbol) (v : Word) :
    (s.setCount x v).errInfo = s.errInfo := rfl

@[simp] theorem State.setCount_outOpen (s : State) (x : Symbol) (v : Word) :
    (s.setCount x v).outOpen = s.outOpen := rfl

@[simp] theorem State.setCount_inExhausted (s : State) (x : Symbol) (v : Word) :
    (s.setCount x v).inExhausted = s.inExhausted := rfl

@[simp] theorem State.setCount_inBitsRead (s : State) (x : Symbol) (v : Word) :
    (s.setCount x v).inBitsRead = s.inBitsRead := rfl

@[simp] theorem State.setCount_outBitsWritten (s : State) (x : Symbol) (v : Word) :
    (s.setCount x v).outBitsWritten = s.outBitsWritten := rfl

@[simp] theorem State.setCount_magic (s : State) (x : Symbol) (v : Word) :
    (s.setCount x v).magic = s.magic := rfl

@[simp] theorem State.setCount_inBits (s : State) (x : Symbol) (v : Word) :
    (s.setCount x v).inBits = s.inBits := rfl

@[simp] theorem State.setCount_inPos (s : State) (x : Symbol) (v : Word) :
    (s.setCount x v).inPos = s.inPos := rfl

@[simp] theorem State.setCount_outBits (s : State) (x : Symbol) (v : Word) :
    (s.setCount x v).outBits = s.outBits := rfl

@[simp] theorem State.setCount_outClosed (s : State) (x : Symbol) (v : Word) :
    (s.setCount x v).outClosed = s.outClosed := rfl

@[simp] theorem State.setCount_txCount (s : State) (x : Symbol) (v : Word) :
    (s.setCount x v).txCount = s.txCount := rfl

@[simp] theorem State.setCount_txAnswers (s : State) (x : Symbol) (v : Word) :
    (s.setCount x v).txAnswers = s.txAnswers := rfl

@[simp] theorem State.setCount_host (s : State) (x : Symbol) (v : Word) :
    (s.setCount x v).host = s.host := rfl

@[simp] theorem State.setCount_responses (s : State) (x : Symbol) (v : Word) :
    (s.setCount x v).responses = s.responses := rfl

@[simp] theorem State.setCount_freeDraws (s : State) (x : Symbol) (v : Word) :
    (s.setCount x v).freeDraws = s.freeDraws := rfl

@[simp] theorem State.respond_freq (s : State) (ok rej : Bool) (r : DWord) :
    (s.respond ok rej r).freq = s.freq := rfl

@[simp] theorem State.respond_nodes (s : State) (ok rej : Bool) (r : DWord) :
    (s.respond ok rej r).nodes = s.nodes := rfl

@[simp] theorem State.respond_treeValid (s : State) (ok rej : Bool) (r : DWord) :
    (s.respond ok rej r).treeValid = s.treeValid := rfl

@[simp] theorem State.respond_treeSrc (s : State) (ok rej : Bool) (r : DWord) :
    (s.respond ok rej r).treeSrc = s.treeSrc := rfl

@[simp] theorem State.respond_root (s : State) (ok rej : Bool) (r : DWord) :
    (s.respond ok rej r).root = s.root := rfl

@[simp] theorem State.respond_nodeCount (s : State) (ok rej : Bool) (r : DWord) :
    (s.respond ok rej r).nodeCount = s.nodeCount := rfl

@[simp] theorem State.respond_leafCount (s : State) (ok rej : Bool) (r : DWord) :
    (s.respond ok rej r).leafCount = s.leafCount := rfl

@[simp] theorem State.respond_codePresent (s : State) (ok rej : Bool) (r : DWord) :
    (s.respond ok rej r).codePresent = s.codePresent := rfl

@[simp] theorem State.respond_codeLen (s : State) (ok rej : Bool) (r : DWord) :
    (s.respond ok rej r).codeLen = s.codeLen := rfl

@[simp] theorem State.respond_codeBits (s : State) (ok rej : Bool) (r : DWord) :
    (s.respond ok rej r).codeBits = s.codeBits := rfl

@[simp] theorem State.respond_codesValid (s : State) (ok rej : Bool) (r : DWord) :
    (s.respond ok rej r).codesValid = s.codesValid := rfl

@[simp] theorem State.respond_encEnded (s : State) (ok rej : Bool) (r : DWord) :
    (s.respond ok rej r).encEnded = s.encEnded := rfl

@[simp] theorem State.respond_decState (s : State) (ok rej : Bool) (r : DWord) :
    (s.respond ok rej r).decState = s.decState := rfl

@[simp] theorem State.respond_decCur (s : State) (ok rej : Bool) (r : DWord) :
    (s.respond ok rej r).decCur = s.decCur := rfl

@[simp] theorem State.respond_err (s : State) (ok rej : Bool) (r : DWord) :
    (s.respond ok rej r).err = s.err := rfl

@[simp] theorem State.respond_errCode (s : State) (ok rej : Bool) (r : DWord) :
    (s.respond ok rej r).errCode = s.errCode := rfl

@[simp] theorem State.respond_errInfo (s : State) (ok rej : Bool) (r : DWord) :
    (s.respond ok rej r).errInfo = s.errInfo := rfl

@[simp] theorem State.respond_outOpen (s : State) (ok rej : Bool) (r : DWord) :
    (s.respond ok rej r).outOpen = s.outOpen := rfl

@[simp] theorem State.respond_inExhausted (s : State) (ok rej : Bool) (r : DWord) :
    (s.respond ok rej r).inExhausted = s.inExhausted := rfl

@[simp] theorem State.respond_inBitsRead (s : State) (ok rej : Bool) (r : DWord) :
    (s.respond ok rej r).inBitsRead = s.inBitsRead := rfl

@[simp] theorem State.respond_outBitsWritten (s : State) (ok rej : Bool) (r : DWord) :
    (s.respond ok rej r).outBitsWritten = s.outBitsWritten := rfl

@[simp] theorem State.respond_magic (s : State) (ok rej : Bool) (r : DWord) :
    (s.respond ok rej r).magic = s.magic := rfl

@[simp] theorem State.respond_inBits (s : State) (ok rej : Bool) (r : DWord) :
    (s.respond ok rej r).inBits = s.inBits := rfl

@[simp] theorem State.respond_inPos (s : State) (ok rej : Bool) (r : DWord) :
    (s.respond ok rej r).inPos = s.inPos := rfl

@[simp] theorem State.respond_outBits (s : State) (ok rej : Bool) (r : DWord) :
    (s.respond ok rej r).outBits = s.outBits := rfl

@[simp] theorem State.respond_outClosed (s : State) (ok rej : Bool) (r : DWord) :
    (s.respond ok rej r).outClosed = s.outClosed := rfl

@[simp] theorem State.respond_txCount (s : State) (ok rej : Bool) (r : DWord) :
    (s.respond ok rej r).txCount = s.txCount := rfl

@[simp] theorem State.respond_txAnswers (s : State) (ok rej : Bool) (r : DWord) :
    (s.respond ok rej r).txAnswers = s.txAnswers := rfl

@[simp] theorem State.respond_host (s : State) (ok rej : Bool) (r : DWord) :
    (s.respond ok rej r).host = s.host := rfl

@[simp] theorem State.respond_responses (s : State) (ok rej : Bool) (r : DWord) :
    (s.respond ok rej r).responses = s.responses ++ [⟨statusWord ok rej s, r⟩] := rfl

@[simp] theorem State.respond_freeDraws (s : State) (ok rej : Bool) (r : DWord) :
    (s.respond ok rej r).freeDraws = s.freeDraws := rfl

end Sys2Proof.Machine
end

