-- ==== Sys2Proof/Laws/Ops.lean ====
section
/-! SUPPORT. For each shared operation, once, everything it can do. -/

namespace Sys2Proof.Machine

/-! ### Res -/

@[simp] theorem Res.bind_ok {α β : Type} (a : α) (s : State) (f : α → State → Res β) :
    (Res.ok a s).bind f = f a s := rfl

@[simp] theorem Res.bind_raise {α β : Type} (e : ErrCode) (info : DWord) (s : State)
    (f : α → State → Res β) : (Res.raise e info s : Res α).bind f = .raise e info s := rfl

@[simp] theorem Res.bind_stop {α β : Type} (x : Fault) (f : α → State → Res β) :
    (Res.stop x : Res α).bind f = .stop x := rfl

/-- A sequence ends with a value only where both parts do. -/
theorem Res.bind_eq_ok {α β : Type} {r : Res α} {f : α → State → Res β} {b : β} {t : State}
    (h : r.bind f = .ok b t) : ∃ a s, r = .ok a s ∧ f a s = .ok b t := by
  cases r with
  | ok a s => exact ⟨a, s, rfl, h⟩
  | raise e i s => exact absurd h (by simp)
  | stop x => exact absurd h (by simp)

/-- A sequence raises where its first part does, or its second. -/
theorem Res.bind_eq_raise {α β : Type} {r : Res α} {f : α → State → Res β} {e : ErrCode}
    {info : DWord} {t : State} (h : r.bind f = .raise e info t) :
    r = .raise e info t ∨ ∃ a s, r = .ok a s ∧ f a s = .raise e info t := by
  cases r with
  | ok a s => exact .inr ⟨a, s, rfl, h⟩
  | raise e' i s => simp only [Res.bind_raise, Res.raise.injEq] at h; simp [h]
  | stop x => exact absurd h (by simp)

/-- A sequence stops where its first part does, or its second. -/
theorem Res.bind_eq_stop {α β : Type} {r : Res α} {f : α → State → Res β} {x : Fault}
    (h : r.bind f = .stop x) : r = .stop x ∨ ∃ a s, r = .ok a s ∧ f a s = .stop x := by
  cases r with
  | ok a s => exact .inr ⟨a, s, rfl, h⟩
  | raise e' i s => exact absurd h (by simp)
  | stop y => simp only [Res.bind_stop, Res.stop.injEq] at h; simp [h]

/-! ### Quiet channels -/

theorem State.Quiet.answer {s : State} (h : s.Quiet) : s.answer = .accept := h 0

/-- Channels that accept everything from here on accept everything after the next transaction. -/
theorem State.Quiet.countTx {s : State} (h : s.Quiet) : s.countTx.Quiet := fun k => by
  have := h (k + 1)
  simpa [State.answerAt, Nat.add_comm, Nat.add_left_comm] using this

/-- Quietness depends on the transaction number and the answers alone. -/
theorem State.Quiet.congr {s t : State} (h : s.Quiet) (hc : t.txCount = s.txCount)
    (ha : t.txAnswers = s.txAnswers) : t.Quiet := fun k => by
  have := h k
  simpa [State.answerAt, hc, ha] using this

/-! ### Accepted transactions -/

/-- No transaction has been issued yet. -/
theorem State.acceptedBefore_self (s : State) : s.acceptedBefore s.txCount :=
  fun _ hk hn => absurd hn (by omega)

/-- One transaction more is accepted. -/
theorem State.acceptedBefore_succ (s : State) (n : Nat) :
    s.acceptedBefore (n + 1) ↔
      s.acceptedBefore n ∧ (s.txCount ≤ n → s.answerAt n = .accept) := by
  refine ⟨fun h => ⟨fun k hk hn => h k hk (by omega), fun hn => h n hn (by omega)⟩,
    fun h k hk hn => ?_⟩
  rcases Nat.lt_succ_iff_lt_or_eq.mp hn with hl | rfl
  · exact h.1 k hk hl
  · exact h.2 hk

/-! ### What transactions have moved -/

@[simp] theorem State.moved_outOpen (s : State) (n : Nat) (out : List Bool) (k : Nat) :
    (s.moved n out k).outOpen = s.outOpen := rfl

@[simp] theorem State.moved_txCount (s : State) (n : Nat) (out : List Bool) (k : Nat) :
    (s.moved n out k).txCount = s.txCount + k := rfl

@[simp] theorem State.moved_answerAt (s : State) (n : Nat) (out : List Bool) (k j : Nat) :
    (s.moved n out k).answerAt j = s.answerAt j := rfl

@[simp] theorem State.moved_restBits (s : State) (n : Nat) (out : List Bool) (k : Nat) :
    (s.moved n out k).restBits = s.restBits.drop n := by
  simp [State.restBits, State.moved, List.drop_drop]

/-- Nothing moved. -/
@[simp] theorem State.moved_none (s : State) : s.moved 0 [] 0 = s := by
  simp [State.moved]

/-- Moves add up. -/
theorem State.moved_moved (s : State) (n m : Nat) (out more : List Bool) (k j : Nat) :
    (s.moved n out k).moved m more j = s.moved (n + m) (out ++ more) (k + j) := by
  simp [State.moved, BitVec.ofNat_add, BitVec.add_assoc, Nat.add_assoc]

/-- An accepted read moves the input (R46). -/
theorem State.acceptRead_eq_moved (s : State) (n : Nat) :
    s.countTx.acceptRead n = s.moved n [] 1 := by
  simp [State.moved, State.acceptRead, State.countTx]

/-- An accepted write moves the output (R47). -/
theorem State.acceptWrite_eq_moved (s : State) (out : List Bool) :
    s.countTx.acceptWrite out = s.moved 0 out 1 := by
  simp [State.moved, State.acceptWrite, State.countTx]

/-- After k accepted transactions, the failure counts from where they end (R48). -/
theorem State.moved_failsAfter (s : State) (n : Nat) (out : List Bool) (k j : Nat)
    (h : s.acceptedBefore (s.txCount + k)) :
    (s.moved n out k).failsAfter j ↔ s.failsAfter (k + j) := by
  simp only [State.failsAfter, State.acceptedBefore, State.moved_txCount, State.moved_answerAt,
    Nat.add_assoc]
  refine and_congr_left fun _ => ⟨fun hj i hi hn => ?_, fun hj i hi hn => hj i (by omega) hn⟩
  rcases Nat.lt_or_ge i (s.txCount + k) with hk | hk
  · exact h i hi hk
  · exact hj i hk hn

/-! ### ReadBits -/

/-- `ReadBits(n)` ends with a value (R46): n bits, or END. -/
theorem readBits_eq_ok {n : Nat} {s t : State} {v : Option (BitVec n)}
    (h : readBits n s = .ok v t) :
    s.answer = .accept ∧
      ((s.inPos + n ≤ s.inBits.length ∧ v = some (s.peekBits n) ∧ t = s.countTx.acceptRead n) ∨
       (s.inBits.length < s.inPos + n ∧ v = none ∧ t = s.countTx.exhaust)) := by
  unfold readBits at h
  split at h
  · cases h
  · cases h
  · rename_i ha
    split at h
    · rename_i hl
      simp only [Res.ok.injEq] at h
      exact ⟨ha, .inl ⟨hl, h.1.symm, h.2.symm⟩⟩
    · rename_i hl
      simp only [Res.ok.injEq] at h
      exact ⟨ha, .inr ⟨by omega, h.1.symm, h.2.symm⟩⟩

/-- `ReadBits(n)` raises only IO_READ_FAIL, on a failure (R46, R48). -/
theorem readBits_eq_raise {n : Nat} {s t : State} {e : ErrCode} {info : DWord}
    (h : readBits n s = .raise e info t) :
    s.answer = .fail ∧ e = .ioReadFail ∧ info = s.inBitsRead ∧ t = s.countTx := by
  unfold readBits at h
  split at h
  · cases h
  · rename_i ha
    simp only [Res.raise.injEq] at h
    exact ⟨ha, h.1.symm, h.2.1.symm, h.2.2.symm⟩
  · split at h <;> cases h

/-- `ReadBits(n)` stops only where it is never answered (R49). -/
theorem readBits_eq_stop {n : Nat} {s : State} {x : Fault} (h : readBits n s = .stop x) :
    s.answer = .silent ∧ x = .channelSilent := by
  unfold readBits at h
  split at h
  · rename_i ha
    simp only [Res.stop.injEq] at h
    exact ⟨ha, h.symm⟩
  · cases h
  · split at h <;> cases h

/-- A read that is answered within the input delivers its bits (R46). -/
theorem readBits_some {n : Nat} {s : State} (ha : s.answer = .accept)
    (hl : s.inPos + n ≤ s.inBits.length) :
    readBits n s = .ok (some (s.peekBits n)) (s.countTx.acceptRead n) := by
  simp [readBits, ha, hl]

/-- A read that is answered and runs past the end gives END (R46). -/
theorem readBits_end {n : Nat} {s : State} (ha : s.answer = .accept)
    (hl : s.inBits.length < s.inPos + n) : readBits n s = .ok none s.countTx.exhaust := by
  have : ¬ s.inPos + n ≤ s.inBits.length := by omega
  simp [readBits, ha, this]

/-- The bits a read delivers are the last ones delivered after it (R46). -/
theorem lastBits_acceptRead {n : Nat} {s : State} :
    (s.countTx.acceptRead n).lastBits n = bitsToNat (s.restBits.take n) := by
  show bitsToNat ((s.inBits.take (s.inPos + n)).drop (s.inPos + n - n)) = _
  rw [Nat.add_sub_cancel, List.drop_take, Nat.add_sub_cancel_left]
  rfl

/-- `lastBits` depends on the input and its position alone. -/
theorem State.lastBits_congr {s t : State} (hb : t.inBits = s.inBits) (hp : t.inPos = s.inPos)
    (n : Nat) : t.lastBits n = s.lastBits n := by
  simp [State.lastBits, hb, hp]

/-! ### WriteBits -/

/-- `WriteBits(n, v)` succeeds on an open output that accepts (R47). -/
theorem writeBits_eq_ok {n : Nat} {v : BitVec n} {s t : State} {u : Unit}
    (h : writeBits v s = .ok u t) :
    s.outOpen = true ∧ s.answer = .accept ∧ t = s.countTx.acceptWrite (bin v) := by
  unfold writeBits at h
  split at h
  · rename_i ho
    split at h
    · cases h
    · cases h
    · rename_i ha
      simp only [Res.ok.injEq] at h
      exact ⟨ho, ha, h.2.symm⟩
  · cases h

/-- `WriteBits(n, v)` raises OUTPUT_CLOSED on a closed output and IO_WRITE_FAIL on a failure (R47). -/
theorem writeBits_eq_raise {n : Nat} {v : BitVec n} {s t : State} {e : ErrCode} {info : DWord}
    (h : writeBits v s = .raise e info t) :
    info = s.outBitsWritten ∧
      ((s.outOpen = false ∧ e = .outputClosed ∧ t = s) ∨
       (s.outOpen = true ∧ s.answer = .fail ∧ e = .ioWriteFail ∧ t = s.countTx)) := by
  unfold writeBits at h
  split at h
  · rename_i ho
    split at h
    · cases h
    · rename_i ha
      simp only [Res.raise.injEq] at h
      exact ⟨h.2.1.symm, .inr ⟨ho, ha, h.1.symm, h.2.2.symm⟩⟩
    · cases h
  · rename_i ho
    simp only [Res.raise.injEq] at h
    exact ⟨h.2.1.symm, .inl ⟨by simpa using ho, h.1.symm, h.2.2.symm⟩⟩

/-- `WriteBits(n, v)` stops only where it is never answered (R49). -/
theorem writeBits_eq_stop {n : Nat} {v : BitVec n} {s : State} {x : Fault}
    (h : writeBits v s = .stop x) :
    s.outOpen = true ∧ s.answer = .silent ∧ x = .channelSilent := by
  unfold writeBits at h
  split at h
  · rename_i ho
    split at h
    · rename_i ha
      simp only [Res.stop.injEq] at h
      exact ⟨ho, ha, h.symm⟩
    · cases h
    · cases h
  · cases h

/-- A write on an open output that accepts appends its bits (R47). -/
theorem writeBits_accept {n : Nat} {v : BitVec n} {s : State} (ho : s.outOpen = true)
    (ha : s.answer = .accept) : writeBits v s = .ok () (s.countTx.acceptWrite (bin v)) := by
  simp [writeBits, ho, ha]

@[simp] theorem bin_length {n : Nat} (v : BitVec n) : (bin v).length = n := by simp [bin]

/-! ### ChanReset and ChanClose -/

/-- Everything `ChanReset()` can do (R50). -/
theorem chanReset_cases (s : State) :
    (s.answer = .accept ∧ chanReset s = .ok () s.countTx.rewind) ∨
    (s.answer = .fail ∧ chanReset s = .raise .ioReadFail s.inBitsRead s.countTx) ∨
    (s.answer = .silent ∧ chanReset s = .stop .channelSilent) := by
  cases h : s.answer <;> simp [chanReset, h]

/-- Everything `ChanClose()` can do (R51). -/
theorem chanClose_cases (s : State) :
    (s.outOpen = false ∧ chanClose s = .answered true s) ∨
    (s.outOpen = true ∧ s.answer = .accept ∧
      chanClose s = .answered true s.shutOut.countTx.closeChannel) ∨
    (s.outOpen = true ∧ s.answer = .fail ∧ chanClose s = .answered false s.shutOut.countTx) ∨
    (s.outOpen = true ∧ s.answer = .silent ∧ chanClose s = .silent) := by
  cases ho : s.outOpen <;> cases h : s.answer <;> simp [chanClose, ho, h]

/-- After `ChanClose()` the output is closed (R51). -/
theorem chanClose_outOpen {s t : State} {ok : Bool} (h : chanClose s = .answered ok t) :
    t.outOpen = false := by
  rcases chanClose_cases s with ⟨ho, hc⟩ | ⟨_, _, hc⟩ | ⟨_, _, hc⟩ | ⟨_, _, hc⟩ <;>
    rw [hc] at h <;> simp only [Close.answered.injEq, reduceCtorEq] at h
  · rw [← h.2]; exact ho
  · rw [← h.2]; rfl
  · rw [← h.2]; rfl

/-! ### The error entry and the end of a command -/

/-- The error entry gives a next state where the close is answered (R127). -/
theorem enterError_eq_next {u : CmdKind} {e : ErrCode} {info : DWord} {s t : State}
    (h : enterError u e info s = .next t) :
    ∃ ok c, chanClose (latchError u e info s) = .answered ok c ∧ t = c.respond false false info := by
  unfold enterError at h
  split at h
  · rename_i ok c hc
    simp only [Host.Outcome.next.injEq] at h
    exact ⟨ok, c, hc, h.symm⟩
  · cases h

/-- The error entry stops only where the close is never answered (R49, R127). -/
theorem enterError_eq_fault {u : CmdKind} {e : ErrCode} {info : DWord} {s : State} {x : Fault}
    (h : enterError u e info s = .fault x) : x = .channelSilent := by
  unfold enterError at h
  split at h
  · cases h
  · simpa using h.symm

theorem enterError_ne_refused {u : CmdKind} {e : ErrCode} {info : DWord} {s : State} {x : Refusal} :
    enterError u e info s ≠ .refused x := by
  unfold enterError; split <;> simp

/-- A command that gives a next state has completed, or has taken the error entry (R123). -/
theorem finish_eq_next {u : CmdKind} {r : Res DWord} {t : State} (h : finish u r = .next t) :
    (∃ v s, r = .ok v s ∧ t = s.respond true false v) ∨
    (∃ e info s, r = .raise e info s ∧ enterError u e info s = .next t) := by
  cases r with
  | ok v s =>
    simp only [finish, Host.Outcome.next.injEq] at h
    exact .inl ⟨v, s, rfl, h.symm⟩
  | raise e info s => exact .inr ⟨e, info, s, rfl, h⟩
  | stop x => simp [finish] at h

/-- A command stops where its pseudocode does, or where the close in its error entry does. -/
theorem finish_eq_fault {u : CmdKind} {r : Res DWord} {x : Fault} (h : finish u r = .fault x) :
    r = .stop x ∨ x = .channelSilent := by
  cases r with
  | ok v s => simp [finish] at h
  | raise e info s => exact .inr (enterError_eq_fault h)
  | stop y => simp only [finish, Host.Outcome.fault.injEq] at h; exact .inl (by rw [h])

theorem finish_ne_refused {u : CmdKind} {r : Res DWord} {x : Refusal} :
    finish u r ≠ .refused x := by
  cases r with
  | ok v s => simp [finish]
  | raise e info s => exact enterError_ne_refused
  | stop y => simp [finish]

end Sys2Proof.Machine
end

