-- ==== Sys2Proof/Laws/Frames.lean ====
section
/-! SUPPORT. How a piece of pseudocode can end, as one predicate, and what the channel operations leave
unchanged. -/

namespace Sys2Proof.Machine

/-- The three ways to end: with a value and a state that `Q` allows, by a raise that `E` allows, or in a
stop that `F` allows. -/
def Res.Ends {α : Type} (r : Res α) (Q : α → State → Prop) (E : ErrCode → DWord → State → Prop)
    (F : Fault → Prop) : Prop :=
  match r with
  | .ok a s => Q a s
  | .raise e info s => E e info s
  | .stop x => F x

/-- A sequence ends as its parts allow. -/
theorem Res.Ends.bind {α β : Type} {r : Res α} {f : α → State → Res β} {Q : α → State → Prop}
    {R : β → State → Prop} {E : ErrCode → DWord → State → Prop} {F : Fault → Prop}
    (hr : r.Ends Q E F) (hf : ∀ a s, Q a s → (f a s).Ends R E F) : (r.bind f).Ends R E F := by
  cases r with
  | ok a s => exact hf a s hr
  | raise e info s => exact hr
  | stop x => exact hr

/-- What is allowed may be weakened. -/
theorem Res.Ends.mono {α : Type} {r : Res α} {Q Q' : α → State → Prop}
    {E E' : ErrCode → DWord → State → Prop} {F F' : Fault → Prop} (hr : r.Ends Q E F)
    (hq : ∀ a s, Q a s → Q' a s) (he : ∀ e i s, E e i s → E' e i s) (hx : ∀ x, F x → F' x) :
    r.Ends Q' E' F' := by
  cases r with
  | ok a s => exact hq a s hr
  | raise e info s => exact he e info s hr
  | stop x => exact hx x hr

/-- Only the channels' part of the state differs: position, flag and counter of the input, bits and
counter of the output, and the number of transactions. -/
def ChanFrame (s t : State) : Prop :=
  ∃ p e r n o w, t =
    { s with
      inPos := p, inExhausted := e, inBitsRead := r, txCount := n, outBits := o,
      outBitsWritten := w }

theorem ChanFrame.refl (s : State) : ChanFrame s s := ⟨_, _, _, _, _, _, rfl⟩

theorem ChanFrame.trans {s t u : State} (h : ChanFrame s t) (k : ChanFrame t u) :
    ChanFrame s u := by
  obtain ⟨p, e, r, n, o, w, rfl⟩ := h
  obtain ⟨p', e', r', n', o', w', rfl⟩ := k
  exact ⟨p', e', r', n', o', w', rfl⟩

/-- The input read so far is not given back. -/
def Advances (s t : State) : Prop := s.inPos ≤ t.inPos ∧ t.inBits = s.inBits

/-- `ReadBits(n)` touches the input only; a delivered value took n bits (R46). -/
theorem readBits_ends (n : Nat) (s : State) :
    (readBits n s).Ends
      (fun v t => ChanFrame s t ∧ t.outBits = s.outBits ∧ t.outBitsWritten = s.outBitsWritten ∧
        ((∃ b, v = some b ∧ t.inPos = s.inPos + n ∧ s.inPos + n ≤ s.inBits.length) ∨
         (v = none ∧ t.inExhausted = true ∧ t.inPos = s.inBits.length)))
      (fun e info t => e = .ioReadFail ∧ info = t.inBitsRead ∧ t = s.countTx)
      (fun x => x = .channelSilent) := by
  cases h : readBits n s with
  | ok v t =>
    obtain ⟨_, ⟨hl, hv, ht⟩ | ⟨_, hv, ht⟩⟩ := readBits_eq_ok h
    · subst ht
      exact ⟨⟨_, _, _, _, _, _, rfl⟩, rfl, rfl, .inl ⟨_, hv, rfl, hl⟩⟩
    · subst ht
      exact ⟨⟨_, _, _, _, _, _, rfl⟩, rfl, rfl, .inr ⟨hv, rfl, rfl⟩⟩
  | raise e info t =>
    obtain ⟨_, he, hi, ht⟩ := readBits_eq_raise h
    exact ⟨he, by rw [hi, ht]; rfl, ht⟩
  | stop x => exact (readBits_eq_stop h).2

/-- `WriteBits(n, v)` touches the output only (R47). -/
theorem writeBits_ends {n : Nat} (v : BitVec n) (s : State) :
    (writeBits v s).Ends
      (fun _ t => ChanFrame s t ∧ t.inPos = s.inPos ∧ s.outOpen = true ∧
        t.outBits = s.outBits ++ bin v ∧ t.outBitsWritten = s.outBitsWritten + BitVec.ofNat 64 n)
      (fun e info t => (e = .outputClosed ∨ e = .ioWriteFail) ∧ info = t.outBitsWritten ∧
        ChanFrame s t ∧ t.inPos = s.inPos ∧ t.outBits = s.outBits ∧
        t.outBitsWritten = s.outBitsWritten)
      (fun x => x = .channelSilent) := by
  cases h : writeBits v s with
  | ok u t =>
    obtain ⟨ho, _, ht⟩ := writeBits_eq_ok h
    subst ht
    exact ⟨⟨_, _, _, _, _, _, rfl⟩, rfl, ho, rfl, by simp⟩
  | raise e info t =>
    obtain ⟨hi, ⟨_, he, ht⟩ | ⟨_, _, he, ht⟩⟩ := writeBits_eq_raise h
    · subst ht
      exact ⟨.inl he, hi, ChanFrame.refl _, rfl, rfl, rfl⟩
    · subst ht
      exact ⟨.inr he, hi, ⟨_, _, _, _, _, _, rfl⟩, rfl, rfl, rfl⟩
  | stop x => exact (writeBits_eq_stop h).2.2

end Sys2Proof.Machine
end

