-- ==== Sys2Proof/Laws/Loops.lean ====
section
/-! SUPPORT. The loops and traversals: what they leave unchanged, which errors they raise, and that their
bounds are never used up (no `noProgress`). -/

namespace Sys2Proof.Machine

/-! ### Counting -/

/-- Only FREQ and the channels' part differ. -/
def FreqFrame (s t : State) : Prop := ∃ f, ChanFrame { s with freq := f } t

theorem FreqFrame.trans {s t u : State} (h : FreqFrame s t) (k : FreqFrame t u) : FreqFrame s u := by
  obtain ⟨f, p, e, r, n, o, w, rfl⟩ := h
  obtain ⟨f', p', e', r', n', o', w', rfl⟩ := k
  exact ⟨f', p', e', r', n', o', w', rfl⟩

theorem ChanFrame.freq {s t : State} (h : ChanFrame s t) : FreqFrame s t := ⟨s.freq, h⟩

theorem ChanFrame.inBits {s t : State} (h : ChanFrame s t) : t.inBits = s.inBits := by
  obtain ⟨p, e, r, n, o, w, rfl⟩ := h; rfl

theorem FreqFrame.inBits {s t : State} (h : FreqFrame s t) : t.inBits = s.inBits := by
  obtain ⟨f, p, e, r, n, o, w, rfl⟩ := h; rfl

/-- Counting one byte adds one to its count, or raises COUNT_OVERFLOW and changes nothing (R80). -/
theorem countByte_cases (b : Byte) (s : State) :
    (s.count (byteSymbol b) = maxCount ∧
      countByte b s = .raise .countOverflow (b.setWidth 64) s) ∨
    (s.count (byteSymbol b) ≠ maxCount ∧
      countByte b s = .ok (s.count (byteSymbol b) + 1#32)
        (s.setCount (byteSymbol b) (s.count (byteSymbol b) + 1#32))) := by
  unfold countByte
  by_cases h : s.count (byteSymbol b) = maxCount
  · exact .inl ⟨h, by simp [h]⟩
  · exact .inr ⟨h, by simp [h]⟩

/-- The counting loop (R84): it ends on END, on a failure or on an overflow, and changes FREQ and the
input only. -/
theorem countLoop_ends (bound n : Nat) (s : State) (hb : s.inBits.length - s.inPos < bound) :
    (countLoop bound n s).Ends
      (fun _ t => FreqFrame s t ∧ t.inExhausted = true)
      (fun e _ t => FreqFrame s t ∧ (e = .ioReadFail ∨ e = .countOverflow))
      (fun x => x = .channelSilent) := by
  induction bound generalizing n s with
  | zero => omega
  | succ bound ih =>
    unfold countLoop
    refine ((readBits_ends 8 s).mono (fun _ _ h => h)
      (fun e i t h => ?_) (fun _ h => h)).bind (fun v t hv => ?_)
    · rw [h.2.2]
      exact ⟨⟨s.freq, _, _, _, _, _, _, rfl⟩, .inl h.1⟩
    · obtain ⟨hf, _, _, ⟨b, rfl, hp, hl⟩ | ⟨rfl, hx, _⟩⟩ := hv
      · rcases countByte_cases b t with ⟨_, hc⟩ | ⟨_, hc⟩
        · simp only [hc, Res.bind_raise]
          exact ⟨hf.freq, .inr rfl⟩
        · simp only [hc, Res.bind_ok]
          have hb' : (t.setCount (byteSymbol b) (t.count (byteSymbol b) + 1#32)).inBits.length -
              (t.setCount (byteSymbol b) (t.count (byteSymbol b) + 1#32)).inPos < bound := by
            simp only [State.setCount_inBits, State.setCount_inPos, hf.inBits, hp]; omega
          have hs : FreqFrame t (t.setCount (byteSymbol b) (t.count (byteSymbol b) + 1#32)) :=
            ⟨_, _, _, _, _, _, _, rfl⟩
          exact (ih _ _ hb').mono
            (fun _ u h => ⟨(hf.freq.trans hs).trans h.1, h.2⟩)
            (fun _ _ u h => ⟨(hf.freq.trans hs).trans h.1, h.2⟩) (fun _ h => h)
      · exact ⟨hf.freq, hx⟩

/-! ### Codes -/

/-- Writing the bits of a code appends them (R106). -/
theorem emitBits_ends (bits : BitVec 256) (j : Nat) (s : State) :
    (emitBits bits j s).Ends
      (fun _ t => ChanFrame s t ∧ t.inPos = s.inPos)
      (fun e info t => (e = .outputClosed ∨ e = .ioWriteFail) ∧ info = t.outBitsWritten ∧
        ChanFrame s t ∧ t.inPos = s.inPos)
      (fun x => x = .channelSilent) := by
  induction j generalizing s with
  | zero => exact ⟨ChanFrame.refl s, rfl⟩
  | succ j ih =>
    refine ((writeBits_ends (BitVec.ofBool (bits.getLsbD j)) s).mono (fun _ _ h => h)
      (fun e i t h => ⟨h.1, h.2.1, h.2.2.1, h.2.2.2.1⟩) (fun _ h => h)).bind (fun _ t ht => ?_)
    exact (ih t).mono (fun _ u h => ⟨ht.1.trans h.1, h.2.trans ht.2.1⟩)
      (fun _ _ u h => ⟨h.1, h.2.1, ht.1.trans h.2.2.1, h.2.2.2.trans ht.2.1⟩) (fun _ h => h)

/-- Looking a symbol up and writing its code (R106, R107). -/
theorem emitSymbol_ends (x : Symbol) (s : State) :
    (emitSymbol x s).Ends
      (fun _ t => ChanFrame s t ∧ t.inPos = s.inPos)
      (fun e info t => ChanFrame s t ∧ t.inPos = s.inPos ∧
        ((e = .noCode ∧ info = BitVec.ofNat 64 x.val) ∨
         ((e = .outputClosed ∨ e = .ioWriteFail) ∧ info = t.outBitsWritten)))
      (fun f => f = .channelSilent ∨ f = .absentCode) := by
  unfold emitSymbol codePresentAt
  split
  · rename_i p _
    cases p with
    | false => exact ⟨ChanFrame.refl s, rfl, .inl ⟨rfl, rfl⟩⟩
    | true =>
      simp only [Res.bind_ok, if_true, emitCode, codeAt]
      split
      · rename_i l b _ _
        simp only [Res.bind_ok]
        refine ((emitBits_ends b l.toNat s).mono (fun _ _ h => h)
          (fun e i t h => ⟨h.2.2.1, h.2.2.2, .inr ⟨h.1, h.2.1⟩⟩) (fun _ h => .inl h)).bind
          (fun _ t ht => ht)
      · exact .inr rfl
  · exact .inr rfl

/-- The encoding loop (R109): it ends on END or on an error, and touches the channels only. -/
theorem encodeLoop_ends (bound n : Nat) (s : State) (hb : s.inBits.length - s.inPos < bound) :
    (encodeLoop bound n s).Ends
      (fun _ t => ChanFrame s t ∧ t.inExhausted = true)
      (fun e _ t => ChanFrame s t ∧
        (e = .ioReadFail ∨ e = .noCode ∨ e = .outputClosed ∨ e = .ioWriteFail))
      (fun f => f = .channelSilent ∨ f = .absentCode) := by
  induction bound generalizing n s with
  | zero => omega
  | succ bound ih =>
    unfold encodeLoop
    refine ((readBits_ends 8 s).mono (fun _ _ h => h)
      (fun e i t h => ?_) (fun _ h => .inl h)).bind (fun v t hv => ?_)
    · rw [h.2.2]
      exact ⟨⟨_, _, _, _, _, _, rfl⟩, .inl h.1⟩
    · obtain ⟨hf, _, _, ⟨b, rfl, hp, hl⟩ | ⟨rfl, hx, _⟩⟩ := hv
      · refine Res.Ends.bind (Q := fun _ u => ChanFrame t u ∧ u.inPos = t.inPos)
          ((emitSymbol_ends (byteSymbol b) t).mono (fun _ _ h => h) (fun e i u h => ?_)
            (fun _ h => h)) (fun _ u hu => ?_)
        · refine ⟨hf.trans h.1, ?_⟩
          rcases h.2.2 with ⟨he, _⟩ | ⟨he | he, _⟩
          · exact .inr (.inl he)
          · exact .inr (.inr (.inl he))
          · exact .inr (.inr (.inr he))
        · have hb' : u.inBits.length - u.inPos < bound := by
            rw [(hf.trans hu.1).inBits, hu.2, hp]; omega
          exact (ih _ _ hb').mono (fun _ w h => ⟨(hf.trans hu.1).trans h.1, h.2⟩)
            (fun _ _ w h => ⟨(hf.trans hu.1).trans h.1, h.2⟩) (fun _ h => h)
      · exact ⟨hf, hx⟩

/-! ### The tree header -/

/-- Writing a tree's header touches the output only (R102). -/
theorem emitTree_ends (t : Tree) (s : State) :
    (emitTree t s).Ends
      (fun _ u => ChanFrame s u ∧ u.inPos = s.inPos)
      (fun e info u => (e = .outputClosed ∨ e = .ioWriteFail) ∧ info = u.outBitsWritten ∧
        ChanFrame s u ∧ u.inPos = s.inPos)
      (fun x => x = .channelSilent) := by
  induction t generalizing s with
  | leaf i x w =>
    unfold emitTree
    refine Res.Ends.bind (Q := fun _ t => ChanFrame s t ∧ t.inPos = s.inPos)
      ((writeBits_ends 1#1 s).mono (fun _ _ h => ⟨h.1, h.2.1⟩)
        (fun e i t h => ⟨h.1, h.2.1, h.2.2.1, h.2.2.2.1⟩) (fun _ h => h)) (fun _ t ht => ?_)
    refine (writeBits_ends (symbolField x) t).mono (fun _ u h => ?_) (fun e i u h => ?_)
      (fun _ h => h)
    · exact ⟨ht.1.trans h.1, h.2.1.trans ht.2⟩
    · exact ⟨h.1, h.2.1, ht.1.trans h.2.2.1, h.2.2.2.1.trans ht.2⟩
  | node i w l r ihl ihr =>
    unfold emitTree
    refine ((writeBits_ends 0#1 s).mono (fun _ _ h => h)
      (fun e i t h => ⟨h.1, h.2.1, h.2.2.1, h.2.2.2.1⟩) (fun _ h => h)).bind (fun _ t ht => ?_)
    refine Res.Ends.bind (Q := fun _ u => ChanFrame s u ∧ u.inPos = s.inPos)
      ((ihl t).mono (fun _ u h => ⟨ht.1.trans h.1, h.2.trans ht.2.1⟩)
        (fun e i u h => ⟨h.1, h.2.1, ht.1.trans h.2.2.1, h.2.2.2.trans ht.2.1⟩)
        (fun _ h => h)) (fun _ u hu => ?_)
    exact (ihr u).mono (fun _ v h => ⟨hu.1.trans h.1, h.2.trans hu.2⟩)
      (fun e i v h => ⟨h.1, h.2.1, hu.1.trans h.2.2.1, h.2.2.2.trans hu.2⟩) (fun _ h => h)

/-- Reading a header (R104): which errors it raises with which information, that it touches the input
only, and that its depth bound is never used up, since each level takes one of the 513 indices. -/
theorem parse_ends (d : Nat) (p : Parse) (s : State) (hd : 514 ≤ d + p.n) (hn : p.n ≤ 513) :
    (parse d p s).Ends
      (fun r t => ChanFrame s t ∧ t.outBits = s.outBits ∧ p.n < r.2.n ∧ r.2.n ≤ 513)
      (fun e info t => ChanFrame s t ∧ t.outBits = s.outBits ∧
        (((e = .hdrEoi ∨ e = .hdrTooLarge ∨ e = .ioReadFail) ∧ info = t.inBitsRead) ∨
         e = .hdrBadSymbol ∨ e = .hdrDupSymbol))
      (fun x => x = .channelSilent) := by
  induction d generalizing p s with
  | zero => omega
  | succ d ih =>
    unfold parse
    refine ((readBits_ends 1 s).mono (fun _ _ h => h)
      (fun e i t h => ?_) (fun _ h => h)).bind (fun v t hv => ?_)
    · refine ⟨?_, ?_, .inl ⟨.inr (.inr h.1), h.2.1⟩⟩
      · rw [h.2.2]; exact ⟨_, _, _, _, _, _, rfl⟩
      · rw [h.2.2]; rfl
    · obtain ⟨hf, ho, _, hv⟩ := hv
      cases v with
      | none => exact ⟨hf, ho, .inl ⟨.inl rfl, rfl⟩⟩
      | some tag =>
        dsimp only
        split
        · exact ⟨hf, ho, .inl ⟨.inr (.inl rfl), rfl⟩⟩
        · rename_i hne
          split
          · refine ((ih p.take t (by simp only [Parse.take]; omega)
              (by simp only [Parse.take]; omega)).mono (fun _ _ h => h)
              (fun e i u h => ⟨hf.trans h.1, h.2.1.trans ho, h.2.2⟩) (fun _ h => h)).bind
              (fun l u hu => ?_)
            have hlt : p.n + 1 < l.2.n := hu.2.2.1
            refine ((ih l.2 u (by omega) hu.2.2.2).mono (fun _ _ h => h)
              (fun e i w h => ⟨(hf.trans hu.1).trans h.1, (h.2.1.trans hu.2.1).trans ho, h.2.2⟩)
              (fun _ h => h)).bind (fun r w hw => ?_)
            have hlr : l.2.n < r.2.n := hw.2.2.1
            exact ⟨(hf.trans hu.1).trans hw.1, (hw.2.1.trans hu.2.1).trans ho,
              show p.n < r.2.n by omega, hw.2.2.2⟩
          · unfold parseLeaf
            refine ((readBits_ends 9 t).mono (fun _ _ h => h)
              (fun e i u h => ?_) (fun _ h => h)).bind (fun v u hv => ?_)
            · refine ⟨hf.trans ?_, ?_, .inl ⟨.inr (.inr h.1), h.2.1⟩⟩
              · rw [h.2.2]; exact ⟨_, _, _, _, _, _, rfl⟩
              · rw [h.2.2]; exact ho
            · obtain ⟨hg, ho', _, _⟩ := hv
              cases v with
              | none => exact ⟨hf.trans hg, ho'.trans ho, .inl ⟨.inl rfl, rfl⟩⟩
              | some f =>
                dsimp only
                split
                · exact ⟨hf.trans hg, ho'.trans ho, .inr (.inl rfl)⟩
                · split
                  · exact ⟨hf.trans hg, ho'.trans ho, .inr (.inr rfl)⟩
                  · refine ⟨hf.trans hg, ho'.trans ho, ?_, ?_⟩
                    · show p.n < p.n + 1; omega
                    · show p.n + 1 ≤ 513; omega

/-! ### The decoder -/

/-- Only the decoder's registers and the channels' part differ. -/
def DecFrame (s t : State) : Prop :=
  ∃ d c, ChanFrame { s with decState := d, decCur := c } t

theorem DecFrame.refl (s : State) : DecFrame s s := ⟨_, _, ChanFrame.refl s⟩

theorem DecFrame.trans {s t u : State} (h : DecFrame s t) (k : DecFrame t u) : DecFrame s u := by
  obtain ⟨d, c, p, e, r, n, o, w, rfl⟩ := h
  obtain ⟨d', c', p', e', r', n', o', w', rfl⟩ := k
  exact ⟨d', c', p', e', r', n', o', w', rfl⟩

theorem ChanFrame.dec {s t : State} (h : ChanFrame s t) : DecFrame s t := ⟨_, _, h⟩

theorem DecFrame.inBits {s t : State} (h : DecFrame s t) : t.inBits = s.inBits := by
  obtain ⟨d, c, p, e, r, n, o, w, rfl⟩ := h; rfl

/-- One step of the walk (R111) takes one bit, or raises. -/
theorem decStep_ends (s : State) :
    (decStep s).Ends
      (fun _ t => DecFrame s t ∧ t.inPos = s.inPos + 1 ∧ s.inPos + 1 ≤ s.inBits.length)
      (fun e info t => DecFrame s t ∧
        (((e = .truncatedStream ∨ e = .ioReadFail) ∧ info = t.inBitsRead) ∨
         ((e = .outputClosed ∨ e = .ioWriteFail) ∧ info = t.outBitsWritten)))
      (fun f => f = .channelSilent ∨ f = .absentCursor ∨ f = .brokenTree) := by
  unfold decStep
  refine ((readBits_ends 1 s).mono (fun _ _ h => h)
    (fun e i t h => ?_) (fun _ h => .inl h)).bind (fun v t hv => ?_)
  · refine ⟨?_, .inl ⟨.inr h.1, h.2.1⟩⟩
    rw [h.2.2]; exact ChanFrame.dec ⟨_, _, _, _, _, _, rfl⟩
  · obtain ⟨hf, _, _, ⟨b, rfl, hp, hl⟩ | ⟨rfl, _, _⟩⟩ := hv
    · dsimp only
      have hchild : (childOfCursor (b == 1#1) t).Ends (fun _ u => u = t) (fun _ _ _ => False)
          (fun f => f = .absentCursor ∨ f = .brokenTree) := by
        unfold childOfCursor
        split
        · exact .inl rfl
        · split
          · rfl
          · exact .inr rfl
          · exact .inr rfl
      refine (hchild.mono (fun _ _ h => h) (fun _ _ _ h => h.elim)
        (fun f h => .inr h)).bind (fun c u hu => ?_)
      subst hu
      unfold arrive
      split
      · exact .inr (.inr rfl)
      · exact ⟨hf.dec.trans ⟨_, _, ChanFrame.refl _⟩, hp, hl⟩
      · split
        · exact ⟨hf.dec.trans ⟨_, _, ChanFrame.refl _⟩, hp, hl⟩
        · refine ((writeBits_ends _ u).mono (fun _ _ h => h)
            (fun e i w h => ⟨hf.dec.trans h.2.2.1.dec, .inr ⟨h.1, h.2.1⟩⟩)
            (fun _ h => .inl h)).bind (fun _ w hw => ?_)
          refine ⟨(hf.dec.trans hw.1.dec).trans ⟨_, _, ChanFrame.refl _⟩, ?_, hl⟩
          show w.inPos = s.inPos + 1
          rw [hw.2.1, hp]
    · exact ⟨hf.dec, .inl ⟨.inl rfl, rfl⟩⟩

/-- The loop of DEC_SYMBOL (R114). -/
theorem symbolLoop_ends (bound : Nat) (s : State) (hb : s.inBits.length - s.inPos < bound) :
    (symbolLoop bound s).Ends
      (fun _ t => DecFrame s t)
      (fun e info t => DecFrame s t ∧
        (((e = .truncatedStream ∨ e = .ioReadFail) ∧ info = t.inBitsRead) ∨
         ((e = .outputClosed ∨ e = .ioWriteFail) ∧ info = t.outBitsWritten)))
      (fun f => f = .channelSilent ∨ f = .absentCursor ∨ f = .brokenTree) := by
  induction bound generalizing s with
  | zero => omega
  | succ bound ih =>
    unfold symbolLoop
    refine (decStep_ends s).bind (fun r t ht => ?_)
    split
    · have hb' : t.inBits.length - t.inPos < bound := by rw [ht.1.inBits, ht.2.1]; omega
      exact (ih t hb').mono (fun _ u h => ht.1.trans h)
        (fun _ _ u h => ⟨ht.1.trans h.1, h.2⟩) (fun _ h => h)
    · exact ht.1

/-- The loop of DEC_STREAM (R115). -/
theorem streamLoop_ends (bound n : Nat) (s : State) (hb : s.inBits.length - s.inPos < bound) :
    (streamLoop bound n s).Ends
      (fun _ t => DecFrame s t ∧ t.decState ≠ .walking)
      (fun e info t => DecFrame s t ∧
        (((e = .truncatedStream ∨ e = .ioReadFail) ∧ info = t.inBitsRead) ∨
         ((e = .outputClosed ∨ e = .ioWriteFail) ∧ info = t.outBitsWritten)))
      (fun f => f = .channelSilent ∨ f = .absentCursor ∨ f = .brokenTree) := by
  induction bound generalizing n s with
  | zero => omega
  | succ bound ih =>
    unfold streamLoop
    split
    · refine (decStep_ends s).bind (fun r t ht => ?_)
      have hb' : t.inBits.length - t.inPos < bound := by rw [ht.1.inBits, ht.2.1]; omega
      exact (ih _ t hb').mono (fun _ u h => ⟨ht.1.trans h.1, h.2⟩)
        (fun _ _ u h => ⟨ht.1.trans h.1, h.2⟩) (fun _ h => h)
    · rename_i hw
      exact ⟨DecFrame.refl s, hw⟩

theorem inputBound_enough (s : State) : s.inBits.length - s.inPos < inputBound s :=
  Nat.lt_succ_self _

end Sys2Proof.Machine
end

