-- ==== Sys2Proof/Laws/PerInstr.lean ====
section
/-! SUPPORT. Facts about every instruction as syntax, one lemma per constructor: the fields of its command
word are its opcode, its SYM field and reserved bits of 0 (30_encoding.md R65). -/

namespace Sys2Proof.Laws.WordFields

/-- The fields of `SYM << 8 | OPC`. -/
theorem fields_of_word (sym : SymField) (opc : BitVec 8) :
    opcField (sym.setWidth 32 <<< 8 ||| opc.setWidth 32) = opc ∧
    symField (sym.setWidth 32 <<< 8 ||| opc.setWidth 32) = sym ∧
    reservedField (sym.setWidth 32 <<< 8 ||| opc.setWidth 32) = 0#15 := by
  refine ⟨?_, ?_, ?_⟩
  · ext k hk
    have h8 : k < 8 := hk
    have h32 : k < 32 := by omega
    simp [opcField, h8, h32]
  · ext k hk
    have h32 : 8 + k < 32 := by omega
    simp [symField, h32, hk]
  · ext k hk
    have hs : sym.getLsbD (17 + k - 8) = false := BitVec.getLsbD_of_ge _ _ (by omega)
    have ho : opc.getLsbD (17 + k) = false := BitVec.getLsbD_of_ge _ _ (by omega)
    simp [reservedField, hs, ho]

/-- The command word of `i` shows its opcode, its SYM field and reserved bits of 0. -/
def Statement (i : Instr) : Prop :=
  opcField (encodeWord i) = opcode i ∧ symField (encodeWord i) = encodeSym i ∧
    reservedField (encodeWord i) = 0#15

theorem nop : Statement .nop := fields_of_word _ _

theorem errClear : Statement .errClear := fields_of_word _ _

theorem inReset : Statement .inReset := fields_of_word _ _

theorem outClose : Statement .outClose := fields_of_word _ _

theorem cntRead (sel : BitVec 1) : Statement (.cntRead sel) := fields_of_word _ _

theorem freqClear : Statement .freqClear := fields_of_word _ _

theorem freqCount (b : Byte) : Statement (.freqCount b) := fields_of_word _ _

theorem freqSetEos : Statement .freqSetEos := fields_of_word _ _

theorem freqWrite (sym : SymField) (count : Word) : Statement (.freqWrite sym count) := fields_of_word _ _

theorem freqRead (sym : SymField) : Statement (.freqRead sym) := fields_of_word _ _

theorem freqCountStream : Statement .freqCountStream := fields_of_word _ _

theorem treeBuild : Statement .treeBuild := fields_of_word _ _

theorem treeInfo : Statement .treeInfo := fields_of_word _ _

theorem nodeRead (index : Word) : Statement (.nodeRead index) := fields_of_word _ _

theorem nodeWeightRead (index : Word) : Statement (.nodeWeightRead index) := fields_of_word _ _

theorem codesBuild : Statement .codesBuild := fields_of_word _ _

theorem codeLenRead (sym : SymField) : Statement (.codeLenRead sym) := fields_of_word _ _

theorem codeBitsRead (sym : SymField) (wordIndex : Word) : Statement (.codeBitsRead sym wordIndex) := fields_of_word _ _

theorem magicWrite : Statement .magicWrite := fields_of_word _ _

theorem magicRead : Statement .magicRead := fields_of_word _ _

theorem headerWrite : Statement .headerWrite := fields_of_word _ _

theorem headerRead : Statement .headerRead := fields_of_word _ _

theorem encSymbol (b : Byte) : Statement (.encSymbol b) := fields_of_word _ _

theorem encEos : Statement .encEos := fields_of_word _ _

theorem encStream : Statement .encStream := fields_of_word _ _

theorem decStart : Statement .decStart := fields_of_word _ _

theorem decBit : Statement .decBit := fields_of_word _ _

theorem decSymbol : Statement .decSymbol := fields_of_word _ _

theorem decStream : Statement .decStream := fields_of_word _ _

end Sys2Proof.Laws.WordFields
end

