-- ==== Sys2Proof/Laws/Tree.lean ====
section
/-! SUPPORT. The laws of NODE as a list of records and as a tree. -/

namespace Sys2Proof.Machine

/-- A packed table holds the list at its front and nothing after it. -/
theorem nodeAt_packNodes (nodes : List Node) (h : nodes.length ≤ 513) (i : Nat) :
    nodeAt (packNodes nodes) i = nodes[i]? := by
  by_cases hi : i < 513
  · by_cases hn : i < nodes.length
    · simp [nodeAt, packNodes, -List.reduceReplicate, hi, hn]
    · have hl : (nodes.map some).length ≤ i := by simpa using Nat.not_lt.mp hn
      simp [nodeAt, packNodes, -List.reduceReplicate, hi, List.getElem_append_right hl,
        List.getElem?_eq_none (Nat.not_lt.mp hn)]
  · have hn : nodes.length ≤ i := by omega
    simp [nodeAt, Vector.getElem?_eq_none (Nat.not_lt.mp hi), List.getElem?_eq_none hn]

/-- The tree read below an index has that index at its top. -/
theorem readTree_idx {nodes : NodeTable} {d i : Nat} {t : Tree}
    (h : readTree nodes d i = some t) : t.idx = i := by
  cases d with
  | zero => simp [readTree] at h
  | succ d =>
    unfold readTree at h
    split at h
    · cases h
    · simp only [Option.some.injEq] at h; rw [← h]; rfl
    · split at h
      · simp only [Option.some.injEq] at h; rw [← h]; rfl
      · cases h

/-- More depth reads the same tree. -/
theorem readTree_deeper {nodes : NodeTable} {d i : Nat} {t : Tree}
    (h : readTree nodes d i = some t) : readTree nodes (d + 1) i = some t := by
  induction d generalizing i t with
  | zero => simp [readTree] at h
  | succ d ih =>
    rw [readTree] at h ⊢
    split at h
    · cases h
    · exact h
    · split at h
      · rename_i hl hr
        simp only [ih hl, ih hr]
        exact h
      · cases h

/-- `Tree.Fills` depends on NODE and the tree registers alone. -/
theorem Tree.Fills.congr {tree : Tree} {s t : State} (h : tree.Fills s) (hn : t.nodes = s.nodes)
    (hc : t.nodeCount = s.nodeCount) (hl : t.leafCount = s.leafCount)
    (hs : t.treeSrc = s.treeSrc) : tree.Fills t where
  once := h.once
  below := by rw [hc]; exact h.below
  all := by rw [hc]; exact h.all
  rest := by rw [hc, hn]; exact h.rest
  leaves := by rw [hl]; exact h.leaves
  distinct := h.distinct
  built := by rw [hs]; exact h.built
  header := by rw [hs]; exact h.header

/-- The tree invariant depends on NODE and the tree registers alone. -/
theorem State.TreeInv.congr {s t : State} (h : s.TreeInv) (hn : t.nodes = s.nodes)
    (hv : t.treeValid = s.treeValid) (hr : t.root = s.root) (hc : t.nodeCount = s.nodeCount)
    (hl : t.leafCount = s.leafCount) (hs : t.treeSrc = s.treeSrc) : t.TreeInv := fun hvt => by
  obtain ⟨tree, hh, hf⟩ := h (by rw [← hv]; exact hvt)
  exact ⟨tree, by rw [State.heldTree, hn, hr]; exact hh, hf.congr hn hc hl hs⟩

end Sys2Proof.Machine
end

