-- ==== Sys2Proof/Tests/Slice0.lean ====
section
/-! SUPPORT. Tests of the model, each expected value taken from the spec (the vectors of 95_test_vectors.md, the
encodings of 30_encoding.md), and one witness or more for the hypotheses of each statement. -/

set_option maxRecDepth 20000

namespace Sys2Proof.Tests

open Sys2Proof Sys2Proof.Machine

/-! ### Helpers -/

/-- STATUS and RESULT of the last response of a next state. -/
def answer : Out → Option (Nat × Nat)
  | .next t => t.responses.getLast?.map fun r => (r.status.toNat, r.result.toNat)
  | .fault _ => none
  | .refused _ => none

/-- The next state, or the reset state where there is none. -/
def after : Out → State
  | .next t => t
  | .fault _ => State.reset
  | .refused _ => State.reset

/-- There is a next state. -/
def completes : Out → Bool
  | .next _ => true
  | .fault _ => false
  | .refused _ => false

theorem next_after {o : Out} (h : completes o = true) : o = .next (after o) := by
  cases o with
  | next t => rfl
  | fault f => cases h
  | refused r => cases h

/-- A bit string from 0s and 1s. -/
def bits (l : List Nat) : List Bool := l.map fun n => n == 1

/-- The bits of bytes, first byte first. -/
def bytes (l : List Byte) : List Bool := l.flatMap fun b => bin b

/-- A command word from its SYM and OPC fields, R65. -/
def word (sym : BitVec 9) (opc : BitVec 8) : Word := 0b000000000000000#15 ++ sym ++ opc

/-- The reset state with an input attached. -/
def withInput (l : List Bool) : State := { State.reset with inBits := l }

/-- The reset state with transaction 0 answered as given. -/
def answering (a : Answer) : State := { State.reset with txAnswers := [(0, a)] }

/-- The reset state with an input attached and transaction n failing. -/
def failing (n : Nat) (l : List Bool) : State := { withInput l with txAnswers := [(n, .fail)] }

/-- An error is latched. -/
def latched : State := { State.reset with err := true, errCode := .notReady, errInfo := 5#64, outOpen := false }

/-- FREQ of V-TB-1: A twice, B once, the sentinel once. -/
def counted (s : State) : State :=
  ((s.setCount 0x41 2#32).setCount 0x42 1#32).setCount 256 1#32

/-- The nodes of V-TB-1. -/
def aabNodes : List Node :=
  [.leaf 256 (some 1#41), .leaf 0x42 (some 1#41), .leaf 0x41 (some 2#41),
   .internal 1#10 0#10 (some 2#41), .internal 3#10 2#10 (some 4#41)]

/-- The state that holds the tree of V-TB-1. -/
def aabTree (s : State) : State := s.holdTree .built (packNodes aabNodes) 4#10 5 3

/-- The codes of V-TB-1: A is 1, B is 00, the sentinel is 01. -/
def aabTable : CodeTable :=
  ((emptyCodes.put 0x42 2 0).put 256 2 1).put 0x41 1 1

/-- The tree and the codes of V-TB-1. -/
def aabCodes (s : State) : State := (aabTree s).setCodes true aabTable

/-- The hand-built header of HUF section 8: 0, 1 and 0x41, 1 and the sentinel. -/
def handHeader : List Bool :=
  bits [0, 1, 0, 0, 1, 0, 0, 0, 0, 0, 1, 1, 1, 0, 0, 0, 0, 0, 0, 0, 0]

/-- The nodes of V-HDR-HAND. -/
def handNodes : List Node := [.internal 1#10 2#10 none, .leaf 0x41 none, .leaf 256 none]

/-- The state that holds the header tree of V-HDR-HAND. -/
def handTree (s : State) : State := s.holdTree .header (packNodes handNodes) 0#10 3 2

/-- A state that holds the one-leaf header tree of the given symbol. -/
def oneLeaf (x : Symbol) : State :=
  State.reset.holdTree .header (packNodes [.leaf x none]) 0#10 1 1

/-- The decoder stands at ROOT. -/
def walking (s : State) : State := s.setDec .walking (some s.root)

/-! ### Well-formedness and decoding -/

/-- R67: a `sym` operand above 256 is refused, 256 is not; the other classes hold by type. -/
theorem test_wellFormed_sym :
    (Instr.freqWrite 257#9 1#32).wellFormed = false ∧ (Instr.freqRead 257#9).wellFormed = false ∧
    (Instr.codeLenRead 511#9).wellFormed = false ∧
    (Instr.codeBitsRead 257#9 0#32).wellFormed = false ∧
    (Instr.freqRead 256#9).wellFormed = true := by decide

/-- R65, R69: one word of each control command, field by field. -/
theorem test_decode_control :
    decode (word 0b000000000#9 0b00000001#8) 0#32 = .instr .nop ∧
    decode (word 0b000000000#9 0b00000010#8) 0#32 = .instr .errClear ∧
    decode (word 0b000000000#9 0b00000011#8) 0#32 = .instr .inReset ∧
    decode (word 0b000000000#9 0b00000100#8) 0#32 = .instr .outClose ∧
    decode (word 0b000000001#9 0b00000101#8) 0#32 = .instr (.cntRead 1#1) := by decide

/-- R65, R69: the frequency commands. -/
theorem test_decode_frequency :
    decode (word 0b000000000#9 0b00010000#8) 0#32 = .instr .freqClear ∧
    decode (word 0b011111111#9 0b00010001#8) 0#32 = .instr (.freqCount 0xFF#8) ∧
    decode (word 0b000000000#9 0b00010010#8) 0#32 = .instr .freqSetEos ∧
    decode (word 0b100000000#9 0b00010011#8) 1#32 = .instr (.freqWrite 256#9 1#32) ∧
    decode (word 0b100000000#9 0b00010100#8) 9#32 = .instr (.freqRead 256#9) ∧
    decode (word 0b000000000#9 0b00010101#8) 0#32 = .instr .freqCountStream := by decide

/-- R65, R69: the tree commands. -/
theorem test_decode_tree :
    decode (word 0b000000000#9 0b00100000#8) 0#32 = .instr .treeBuild ∧
    decode (word 0b000000000#9 0b00100001#8) 0#32 = .instr .treeInfo ∧
    decode (word 0b000000000#9 0b00100010#8) 0x200#32 = .instr (.nodeRead 512#32) ∧
    decode (word 0b000000000#9 0b00100011#8) 3#32 = .instr (.nodeWeightRead 3#32) := by decide

/-- R65, R69: the code table commands. -/
theorem test_decode_codes :
    decode (word 0b000000000#9 0b00110000#8) 0#32 = .instr .codesBuild ∧
    decode (word 0b001000001#9 0b00110001#8) 0#32 = .instr (.codeLenRead 0x41#9) ∧
    decode (word 0b001000010#9 0b00110010#8) 3#32 = .instr (.codeBitsRead 0x42#9 3#32) := by
  decide

/-- R65, R69: the header commands. -/
theorem test_decode_header :
    decode (word 0b000000000#9 0b01000000#8) 0#32 = .instr .magicWrite ∧
    decode (word 0b000000000#9 0b01000001#8) 0#32 = .instr .magicRead ∧
    decode (word 0b000000000#9 0b01000010#8) 0#32 = .instr .headerWrite ∧
    decode (word 0b000000000#9 0b01000011#8) 0#32 = .instr .headerRead := by decide

/-- R65, R69: the encoder commands. -/
theorem test_decode_encoder :
    decode (word 0b001000010#9 0b01010000#8) 0#32 = .instr (.encSymbol 0x42#8) ∧
    decode (word 0b000000000#9 0b01010001#8) 0#32 = .instr .encEos ∧
    decode (word 0b000000000#9 0b01010010#8) 0#32 = .instr .encStream := by decide

/-- R65, R69: the decoder commands. -/
theorem test_decode_decoder :
    decode (word 0b000000000#9 0b01100000#8) 0#32 = .instr .decStart ∧
    decode (word 0b000000000#9 0b01100001#8) 0#32 = .instr .decBit ∧
    decode (word 0b000000000#9 0b01100010#8) 0#32 = .instr .decSymbol ∧
    decode (word 0b000000000#9 0b01100011#8) 0#32 = .instr .decStream := by decide

/-- L2.0: the illegal words of the encoding table, V-ILL-1. -/
theorem test_decode_illegal :
    decode 0x00000000#32 0#32 = .illegal .reservedOpcode ∧
    decode 0x00010011#32 0#32 = .illegal .symOutOfClass ∧
    decode 0x00020020#32 0#32 = .illegal .reservedBits ∧
    decode 0x000000FF#32 0#32 = .illegal .reservedOpcode ∧
    decode 0x00000106#32 0#32 = .illegal .reservedOpcode ∧
    decode 0x00000205#32 0#32 = .illegal .symOutOfClass ∧
    decode 0x00000102#32 0#32 = .illegal .symOutOfClass ∧
    decode 0x00020001#32 0#32 = .illegal .reservedBits ∧
    decode 0x00010050#32 0#32 = .illegal .symOutOfClass := by decide

/-- The table numbers ARG's bits from 32 up. -/
theorem test_decodeTableWord :
    decodeTableWord 64 0x0000000700004213 = some (.freqWrite 0x42#9 7#32) ∧
    decodeTableWord 32 0x0000000700004213 = some (.freqWrite 0x42#9 0#32) ∧
    decodeTableWord 32 0 = none := by decide

/-- R75: the encoder writes the words of the encoding examples, R77. -/
theorem test_encode :
    encode (.freqCount 0x41#8) = (0x00004111#32, 0#32) ∧
    encode (.freqWrite 256#9 1#32) = (0x00010013#32, 1#32) ∧
    encode (.nodeRead 4#32) = (0x00000022#32, 4#32) ∧
    encode (.cntRead 1#1) = (0x00000105#32, 0#32) := by decide

/-! ### One step from the reset state -/

/-- R142 and V-CTL-1: NOP from reset. -/
theorem test_step_nop : answer (step (State.reset.withFetchWord 32 0x1)) = some (0x81, 0) := by decide

/-- V-ILL-2. -/
theorem test_step_illegal :
    answer (step (State.reset.withFetchWord 32 0x10050)) = some (0x00010002, 0x00010050) := by
  decide

/-- V-CTL-2, row 3: only the exact word 0x00000002 clears a latched error. -/
theorem test_step_rejected :
    answer (step (latched.withFetchWord 32 0x102)) = some (0x00020006, 0) ∧
    answer (step (latched.withFetchWord 32 0x2)) = some (0x01, 2) := by decide

/-! ### Control -/

/-- V-CTL-2, row 4. -/
theorem test_errClear : answer (exec .errClear latched) = some (0x01, 2) := by decide

/-- V-CTL-4: transaction 0 fails. -/
theorem test_inReset_fail :
    answer (exec .inReset (answering .fail)) = some (0x00300002, 0) := by decide

/-- V-CTL-3: the input is rewound. -/
theorem test_inReset :
    (after (exec .inReset { withInput (bytes [0x41#8]) with
      inPos := 8, inExhausted := true, inBitsRead := 8#64 })).inPos = 0 := by decide

/-- V-CTL-5. -/
theorem test_outClose : answer (exec .outClose State.reset) = some (0x01, 0) := by decide

/-- V-CTL-6: the output is closed anyway. -/
theorem test_outClose_fail :
    answer (exec .outClose (answering .fail)) = some (0x00310002, 0) := by decide

/-- V-CTL-7: selector 0 is the input, 1 the output. -/
theorem test_cntRead :
    answer (exec (.cntRead 1#1) { State.reset with outBitsWritten := 70#64, inBitsRead := 24#64 }) =
      some (0x81, 0x46) ∧
    answer (exec (.cntRead 0#1) { State.reset with outBitsWritten := 70#64, inBitsRead := 24#64 }) =
      some (0x81, 0x18) := by decide

/-! ### Frequency -/

/-- V-FQ-3. -/
theorem test_freqClear :
    (after (exec .freqClear (State.reset.setCount 0xFF 0xFFFFFFFF#32))).count 0xFF = 0#32 := by
  decide

/-- V-FQ-1: the second count answers 2. -/
theorem test_freqCount :
    answer (exec (.freqCount 0x41#8) (State.reset.setCount 0x41 1#32)) = some (0x81, 2) := by
  decide

/-- V-FQ-4: an overflow answers the byte, and the count stays. -/
theorem test_freqCount_overflow :
    answer (exec (.freqCount 0x41#8) (State.reset.setCount 0x41 0xFFFFFFFF#32)) =
      some (0x00050002, 0x41) ∧
    (after (exec (.freqCount 0x41#8) (State.reset.setCount 0x41 0xFFFFFFFF#32))).count 0x41 =
      0xFFFFFFFF#32 := by decide

/-- V-FQ-2: the sentinel's count is set, not incremented. -/
theorem test_freqSetEos :
    (after (exec .freqSetEos (State.reset.setCount 256 1#32))).count 256 = 1#32 := by decide

/-- V-FQ-3: the sentinel's count may be written. -/
theorem test_freqWrite :
    (after (exec (.freqWrite 256#9 5#32) State.reset)).count 256 = 5#32 := by decide

/-- V-FQ-3. -/
theorem test_freqRead :
    answer (exec (.freqRead 0xFF#9) (State.reset.setCount 0xFF 0xFFFFFFFF#32)) =
      some (0x81, 0xFFFFFFFF) := by decide

/-- V-FQ-6: the last 4 bits are lost. -/
theorem test_freqCountStream :
    answer (exec .freqCountStream (withInput (bits [0, 1, 0, 0, 0, 0, 0, 1, 0, 1, 1, 0]))) =
      some (0x481, 1) ∧
    (after (exec .freqCountStream
      (withInput (bits [0, 1, 0, 0, 0, 0, 0, 1, 0, 1, 1, 0])))).inPos = 12 := by decide

/-- V-FQ-7: transaction 1 fails; the first byte stays counted and FREQ[256] is 0. -/
theorem test_freqCountStream_fail :
    answer (exec .freqCountStream
      { withInput (bytes [0x41#8, 0x41#8, 0x42#8]) with txAnswers := [(1, .fail)] }) =
        some (0x00300002, 8) := by decide

/-! ### Tree builder -/

/-- V-TB-1: the root's weight, and the merges: the first node removed is the right child. -/
theorem test_treeBuild :
    answer (exec .treeBuild (counted State.reset)) = some (0x89, 4) ∧
    (after (exec .treeBuild (counted State.reset))).nodes.toList.take 6 =
      aabNodes.map some ++ [none] := by decide

/-- R89: nothing to build from. -/
theorem test_treeBuild_empty :
    answer (exec .treeBuild State.reset) = some (0x00040002, 0) := by decide

/-- V-TB-1 and V-HDR-HAND. -/
theorem test_treeInfo :
    answer (exec .treeInfo (aabTree State.reset)) = some (0x89, 0x301404) ∧
    answer (exec .treeInfo (handTree State.reset)) = some (0x99, 0x40200C00) := by decide

/-- V-TB-1: a leaf and an internal node. -/
theorem test_nodeRead :
    answer (exec (.nodeRead 2#32) (aabTree State.reset)) = some (0x89, 0x83) ∧
    answer (exec (.nodeRead 4#32) (aabTree State.reset)) = some (0x89, 0x200C00) := by decide

/-- R93: the first index past the tree. -/
theorem test_nodeRead_bad :
    answer (exec (.nodeRead 5#32) (aabTree State.reset)) = some (0x0003000A, 5) := by decide

/-- V-TB-1. -/
theorem test_nodeWeightRead :
    answer (exec (.nodeWeightRead 3#32) (aabTree State.reset)) = some (0x89, 2) := by decide

/-- V-HDR-HAND: a header tree has no weights. -/
theorem test_nodeWeightRead_header :
    answer (exec (.nodeWeightRead 0#32) (handTree State.reset)) = some (0x0002001A, 0x23) := by
  decide

/-! ### Code table -/

/-- V-CT-1: the codes A = 1, B = 00, sentinel = 01. -/
theorem test_codesBuild :
    answer (exec .codesBuild (aabTree State.reset)) = some (0xA9, 3) ∧
    (after (exec .codesBuild (aabTree State.reset))).codes = aabTable := by decide

/-- V-CT-2. -/
theorem test_codesBuild_notReady :
    answer (exec .codesBuild State.reset) = some (0x00020002, 0x30) := by decide

/-- V-CT-1: A, and C, which is absent. -/
theorem test_codeLenRead :
    answer (exec (.codeLenRead 0x41#9) (aabCodes State.reset)) = some (0xA9, 0x201) ∧
    answer (exec (.codeLenRead 0x43#9) (aabCodes State.reset)) = some (0xA9, 0) := by decide

/-- V-CT-1: word 0 and word 1 of the sentinel's code. -/
theorem test_codeBitsRead :
    answer (exec (.codeBitsRead 256#9 0#32) (aabCodes State.reset)) = some (0xA9, 1) ∧
    answer (exec (.codeBitsRead 256#9 1#32) (aabCodes State.reset)) = some (0xA9, 0) := by decide

/-- V-CT-1, last row. -/
theorem test_codeBitsRead_bad :
    answer (exec (.codeBitsRead 0x41#9 4#32) (aabCodes State.reset)) = some (0x0003002A, 4) := by
  decide

/-! ### Header codec -/

/-- V-HC-1. -/
theorem test_magicWrite :
    (after (exec .magicWrite State.reset)).outBits =
      bits [1, 1, 1, 1, 1, 0, 1, 0, 1, 1, 0, 0, 1, 1, 1, 0, 1, 0, 0, 0, 0, 0, 1, 0, 0, 0, 0, 0, 0, 0,
        0, 1] := by decide

/-- V-HC-3. -/
theorem test_magicRead_bad :
    answer (exec .magicRead (withInput (bin 0xFACE8200#32))) = some (0x00110002, 0xFACE8200) := by
  decide

/-- V-HC-1. -/
theorem test_magicRead :
    answer (exec .magicRead (withInput (bin 0xFACE8201#32))) = some (0x81, 0xFACE8201) := by decide

/-- V-HC-2: the header of V-TB-1 in pre-order. -/
theorem test_headerWrite :
    answer (exec .headerWrite (aabTree State.reset)) = some (0x89, 0x20) ∧
    (after (exec .headerWrite (aabTree State.reset))).outBits =
      bits [0, 0, 1, 0, 0, 1, 0, 0, 0, 0, 1, 0, 1, 1, 0, 0, 0, 0, 0, 0, 0, 0, 1, 0, 0, 1, 0, 0, 0, 0,
        0, 1] := by decide

/-- V-HDR-HAND. -/
theorem test_headerRead :
    answer (exec .headerRead (withInput handHeader)) = some (0x99, 3) ∧
    (after (exec .headerRead (withInput handHeader))).nodes.toList.take 4 =
      handNodes.map some ++ [none] := by decide

/-- V-HC-5 and V-HC-6. -/
theorem test_headerRead_bad :
    answer (exec .headerRead (withInput (bits [1, 1, 0, 0, 0, 0, 0, 0, 0, 1]))) =
      some (0x00120002, 0x101) ∧
    answer (exec .headerRead (withInput
      (bits [0, 1, 0, 0, 1, 0, 0, 0, 0, 0, 1, 1, 0, 0, 1, 0, 0, 0, 0, 0, 1]))) =
      some (0x00130002, 0x41) := by decide

/-! ### Encoder -/

/-- V-ENC-3. -/
theorem test_encSymbol :
    answer (exec (.encSymbol 0x42#8) (aabCodes State.reset)) = some (0xA9, 2) ∧
    (after (exec (.encSymbol 0x42#8) (aabCodes State.reset))).outBits = bits [0, 0] := by decide

/-- V-ENC-6. -/
theorem test_encSymbol_noCode :
    answer (exec (.encSymbol 0x43#8) (aabCodes State.reset)) = some (0x0006002A, 0x43) := by decide

/-- V-ENC-4. -/
theorem test_encEos :
    answer (exec .encEos (aabCodes State.reset)) = some (0xE9, 2) ∧
    (after (exec .encEos (aabCodes State.reset))).outBits = bits [0, 1] := by decide

/-- V-ENC-5. -/
theorem test_encEos_twice :
    answer (exec .encEos ((aabCodes State.reset).setEnded true)) = some (0x0007006A, 0x51) := by
  decide

/-- V-ENC-9: the body of V-AAB. -/
theorem test_encStream :
    answer (exec .encStream (aabCodes (withInput (bytes [0x41#8, 0x41#8, 0x42#8])))) =
      some (0x4E9, 3) ∧
    (after (exec .encStream (aabCodes (withInput (bytes [0x41#8, 0x41#8, 0x42#8]))))).outBits =
      bits [1, 1, 0, 0, 0, 1] := by decide

/-- V-ENC-8: the input is exhausted. -/
theorem test_encStream_exhausted :
    answer (exec .encStream { aabCodes State.reset with inExhausted := true }) =
      some (0x0002042A, 0x52) := by decide

/-! ### Decoder -/

/-- V-DEC-1, row 1, and V-DEC-4. -/
theorem test_decStart :
    answer (exec .decStart (aabCodes State.reset)) = some (0x1A9, 0) ∧
    answer (exec .decStart (oneLeaf 0x41)) = some (0x0021031A, 0x41) := by decide

/-- V-DEC-5. -/
theorem test_decStart_sentinel : answer (exec .decStart (oneLeaf 256)) = some (0x299, 2) := by
  decide

/-- V-DEC-1, rows 2 and 4. -/
theorem test_decBit :
    answer (exec .decBit (walking (aabCodes (withInput (bits [1]))))) = some (0x1A9, 0x4101) ∧
    answer (exec .decBit (walking (aabCodes (withInput (bits [0]))))) = some (0x1A9, 0) := by decide

/-- V-DEC-6. -/
theorem test_decBit_idle :
    answer (exec .decBit (aabTree State.reset)) = some (0x0002000A, 0x61) := by decide

/-- V-DEC-2: two bits make B. -/
theorem test_decSymbol :
    answer (exec .decSymbol (walking (aabCodes (withInput (bits [0, 0, 1]))))) =
      some (0x1A9, 0x4201) ∧
    (after (exec .decSymbol (walking (aabCodes (withInput (bits [0, 0, 1])))))).inPos = 2 := by
  decide

/-- V-AAB: the body decodes to its bytes. -/
theorem test_decStream :
    answer (exec .decStream (walking (aabCodes (withInput (bits [1, 1, 0, 0, 0, 1, 0, 0]))))) =
      some (0x2A9, 3) ∧
    (after (exec .decStream
      (walking (aabCodes (withInput (bits [1, 1, 0, 0, 0, 1, 0, 0])))))).outBits =
        bytes [0x41#8, 0x41#8, 0x42#8] := by decide

/-- V-DEC-3: the sentinel is missing. -/
theorem test_decStream_truncated :
    answer (exec .decStream (walking (handTree (withInput (bits [0]))))) =
      some (0x0020071A, 1) := by decide

/-! ### Facts of the states used as witnesses -/

theorem quiet_reset (l : List Bool) : (withInput l).Quiet := fun _ => rfl

/-- Channels with no listed answer accept everything. -/
theorem quiet_of_none {s : State} (h : s.txAnswers = []) : s.Quiet := fun k => by
  simp [State.answerAt, h]

/-- Where only transaction n fails, it is the first. -/
theorem failsAfter_of_one {s : State} {n : Nat} (h : s.txAnswers = [(n, .fail)])
    (hn : s.txCount ≤ n) : s.failsAfter (n - s.txCount) := by
  have hs : s.txCount + (n - s.txCount) = n := by omega
  refine ⟨fun k _ hk => ?_, ?_⟩
  · have : (k == n) = false := beq_eq_false_iff_ne.mpr (by omega)
    simp [State.answerAt, h, List.lookup, this]
  · simp [State.answerAt, h, hs]

/-- Where nothing is listed, all is accepted. -/
theorem acceptedBefore_of_none {s : State} (h : s.txAnswers = []) (n : Nat) :
    s.acceptedBefore n := fun k _ _ => by simp [State.answerAt, h]

/-- A close after the one failure is answered. -/
theorem closeAnswered_of_one {s : State} {n : Nat} (h : s.txAnswers = [(n, .fail)]) :
    s.CloseAnswered := by
  refine .inr ?_
  simp only [State.answer, State.answerAt, h, List.lookup]
  split <;> decide

theorem closeAnswered_of_none {s : State} (h : s.txAnswers = []) : s.CloseAnswered :=
  .inr (by simp [State.answer, State.answerAt, h])

/-- The tree of V-TB-1. -/
def aab : Tree :=
  .node 4 (some 4#41)
    (.node 3 (some 2#41) (.leaf 1 0x42 (some 1#41)) (.leaf 0 256 (some 1#41)))
    (.leaf 2 0x41 (some 2#41))

/-- The tree of V-HDR-HAND. -/
def hand : Tree := .node 0 none (.leaf 1 0x41 none) (.leaf 2 256 none)

theorem aab_held (s : State) : (aabTree s).heldTree = some aab := by
  show readTree (packNodes aabNodes) 513 4 = some aab
  decide

theorem hand_held (s : State) : (handTree s).heldTree = some hand := by
  show readTree (packNodes handNodes) 513 0 = some hand
  decide

theorem aab_fills (s : State) : aab.Fills (aabTree s) where
  once := by decide
  below := by show ∀ i ∈ aab.indices, i < 5; decide
  all := rfl
  rest := fun i h => by
    have h : 5 ≤ i := h
    show nodeAt (packNodes aabNodes) i = none
    rw [nodeAt_packNodes _ (by decide), List.getElem?_eq_none (by simpa [aabNodes] using h)]
  leaves := rfl
  distinct := by decide
  built := fun _ => by decide
  header := fun h => nomatch (show TreeSrc.built = .header from h)

theorem hand_fills (s : State) : hand.Fills (handTree s) where
  once := by decide
  below := by show ∀ i ∈ hand.indices, i < 3; decide
  all := rfl
  rest := fun i h => by
    have h : 3 ≤ i := h
    show nodeAt (packNodes handNodes) i = none
    rw [nodeAt_packNodes _ (by decide), List.getElem?_eq_none (by simpa [handNodes] using h)]
  leaves := rfl
  distinct := by decide
  built := fun h => nomatch (show TreeSrc.header = .built from h)
  header := fun _ => by decide

theorem aab_treeInv (s : State) : (aabTree s).TreeInv := fun _ => ⟨aab, aab_held s, aab_fills s⟩

theorem hand_treeInv (s : State) : (handTree s).TreeInv :=
  fun _ => ⟨hand, hand_held s, hand_fills s⟩

theorem aab_table : aabTable = codesOf aab := by decide

theorem aabCodes_treeInv (s : State) : (aabCodes s).TreeInv :=
  (aab_treeInv s).congr rfl rfl rfl rfl rfl rfl

theorem aabCodes_codesInv (s : State) : (aabCodes s).CodesInv :=
  fun _ => ⟨rfl, aab, aab_held s, aab_table⟩

theorem walking_aab_treeInv (s : State) : (walking (aabCodes s)).TreeInv :=
  (aab_treeInv s).congr rfl rfl rfl rfl rfl rfl

theorem walking_aab_codesInv (s : State) : (walking (aabCodes s)).CodesInv :=
  fun _ => ⟨rfl, aab, aab_held s, aab_table⟩

theorem aab_root (s : State) :
    nodeAt (walking (aabCodes s)).nodes (walking (aabCodes s)).root.toNat =
      some (.internal 3#10 2#10 (some 4#41)) := by
  show nodeAt (packNodes aabNodes) 4 = _
  rw [nodeAt_packNodes _ (by decide)]
  rfl

theorem walking_aab_decInv (s : State) : (walking (aabCodes s)).DecInv :=
  ⟨fun h => absurd rfl h, fun _ => ⟨rfl, 4#10, 3#10, 2#10, some 4#41, rfl,
    by show (4#10).toNat < (BitVec.ofNat 10 5).toNat; decide, aab_root s⟩⟩

/-- The codes of V-TB-1 as bit strings. -/
theorem aab_codes (s : State) :
    (aabCodes s).HasCode 0x41 [true] ∧ (aabCodes s).HasCode 0x42 [false, false] ∧
    (aabCodes s).HasCode 256 [false, true] := by
  refine ⟨⟨1#9, 1#256, ?_, ?_, ?_, ?_⟩, ⟨2#9, 0#256, ?_, ?_, ?_, ?_⟩, ⟨2#9, 1#256, ?_, ?_, ?_, ?_⟩⟩
  all_goals first
    | decide
    | (show aabTable.present[_] = _; decide)
    | (show aabTable.len[_] = _; decide)
    | (show aabTable.bits[_] = _; decide)

/-! ### Witnesses: a state and operands that meet the hypotheses of a statement together -/

/-- For the encodings in the statements of the families (classes none, byte, sym and sel). -/
theorem witness_operandClasses :
    (1#9 : SymField) ≠ 0#9 ∧ 255 < (256#9 : SymField).toNat ∧ (256#9 : SymField).toNat ≤ 256 ∧
    256 < (257#9 : SymField).toNat ∧ 1 < (2#9 : SymField).toNat := by decide

theorem witness_DecodeOfEncodeIsIdentity : (Instr.codeBitsRead 256#9 3#32).wellFormed = true := by
  decide

theorem witness_LegalWordIsItsEncoding :
    decode 0x00010013#32 7#32 = .instr (.freqWrite 256#9 7#32) ∧
    opcode (.freqWrite 256#9 7#32) ∈ argOpcodes ∧
    decode 0x00000001#32 7#32 = .instr .nop ∧ opcode .nop ∉ argOpcodes := by decide

theorem witness_MatchMaskRowsDecideLegality :
    (⟨0x13, .sym⟩ : Row) ∈ opcodeMap ∧ (⟨0x13, .sym⟩ : Row).selects 0x00010013#32 = true := by
  decide

theorem witness_IllegalWordsRaiseIllegalCommand :
    (∃ y, decode 0x00010113#32 0#32 = .illegal y) ∧ State.reset.err = false ∧
    (State.reset.withCommand 0x00010113#32 0#32).CloseAnswered ∧
    (State.reset.withCommand 0x00010113#32 0#32).host = [.command 0x00010113#32 0#32] :=
  ⟨⟨_, rfl⟩, rfl, closeAnswered_of_none rfl, rfl⟩

theorem witness_UnusedArgHasNoEffect :
    opcField 0x00004111#32 ∉ argOpcodes ∧ (256#9).toNat ≤ 256 := by decide

theorem witness_StepRunsTheDecodedCommand :
    ((State.reset.withCommand 1#32 0#32).host = [.command 1#32 0#32] ∧
      decode 1#32 0#32 = .instr .nop ∧ State.reset.err = false) ∧
    ((latched.withCommand 2#32 0#32).host = [.command 2#32 0#32] ∧
      decode 2#32 0#32 = .instr .errClear ∧ (latched.withCommand 2#32 0#32).err = true) ∧
    State.reset.host = [] := by
  refine ⟨⟨rfl, ?_, rfl⟩, ⟨rfl, ?_, rfl⟩, rfl⟩ <;> decide

theorem witness_LatchedErrorRejects :
    (latched.withCommand 0x102#32 0#32).err = true ∧ 0x102#32 ≠ 0x00000002#32 ∧
    (latched.withCommand 0x102#32 0#32).host = [.command 0x102#32 0#32] :=
  ⟨rfl, by decide, rfl⟩

theorem witness_ResetGivesTheResetTable :
    (latched.setHost [.reset ⟨[true], []⟩]).host = [.reset ⟨[true], []⟩] ∧
    (latched.setHost [.resetDuring 0x15#32 0#32 ⟨[], [(0, .fail)]⟩]).host =
      [.resetDuring 0x15#32 0#32 ⟨[], [(0, .fail)]⟩] := ⟨rfl, rfl⟩

theorem witness_EveryCommandGetsOneResponse :
    completes (step (State.reset.withCommand 1#32 0#32)) = true ∧
    completes (step (State.reset.withCommand 0#32 0#32)) = true ∧
    completes (step (latched.withCommand 1#32 0#32)) = true ∧
    (State.reset.withCommand 1#32 0#32).host = [.command 1#32 0#32] := by
  refine ⟨?_, ?_, ?_, rfl⟩ <;> decide

theorem witness_ErrorEntryLatchesAndCloses :
    State.reset.CloseAnswered ∧ latched.CloseAnswered ∧
    (answering .silent).outOpen = true ∧ (answering .silent).answer = .silent :=
  ⟨closeAnswered_of_none rfl, .inl rfl, rfl, rfl⟩

/-- A command, a state it raises in, and the error. -/
def raises (i : Instr) (s : State) (e : ErrCode) : Prop :=
  s.err = false ∧ exec i s = .next (after (exec i s)) ∧ (after (exec i s)).err = true ∧
    (after (exec i s)).errCode = e

theorem raises_intro {i : Instr} {s : State} {e : ErrCode} (h : s.err = false)
    (hc : completes (exec i s) = true) (he : (after (exec i s)).err = true)
    (hk : (after (exec i s)).errCode = e) : raises i s e := ⟨h, next_after hc, he, hk⟩

theorem witness_EveryErrorTakesTheEntry :
    raises .decBit (walking (aabCodes State.reset)) .truncatedStream ∧
    raises .decBit State.reset .notReady ∧ raises .encEos State.reset .notReady ∧
    raises .headerRead State.reset .hdrEoi := by
  refine ⟨raises_intro rfl ?_ ?_ ?_, raises_intro rfl ?_ ?_ ?_, raises_intro rfl ?_ ?_ ?_,
    raises_intro rfl ?_ ?_ ?_⟩ <;> decide

/-- The clauses of the transactions: a command that completes after one, a failed read, a failed write with the
output open, and another error after accepted reads. -/
theorem witness_EveryErrorTakesTheEntry_channels :
    (State.reset.err = false ∧ completes (exec .magicWrite State.reset) = true ∧
      (after (exec .magicWrite State.reset)).err = false) ∧
    raises .freqCountStream (answering .fail) .ioReadFail ∧
    raises (.encSymbol 0x41#8) (aabCodes (answering .fail)) .ioWriteFail ∧
    raises .headerRead (withInput [true]) .hdrEoi ∧
    Instr.freqCountStream ≠ .outClose := by
  refine ⟨⟨rfl, ?_, ?_⟩, raises_intro rfl ?_ ?_ ?_, raises_intro rfl ?_ ?_ ?_,
    raises_intro rfl ?_ ?_ ?_, ?_⟩ <;> decide

theorem witness_ErrorsFollowTheErrorTable :
    raises (.freqRead 257#9) State.reset .illegalCommand ∧
    raises .outClose (answering .fail) .ioWriteFail ∧
    raises .magicRead (withInput (bin 1#32)) .hdrBadMagic ∧
    raises .encStream (aabCodes (withInput (bytes [0x43#8]))) .noCode ∧
    raises .decStart (oneLeaf 0x41) .degenerateTree := by
  refine ⟨raises_intro rfl ?_ ?_ ?_, raises_intro rfl ?_ ?_ ?_, raises_intro rfl ?_ ?_ ?_,
    raises_intro rfl ?_ ?_ ?_, raises_intro rfl ?_ ?_ ?_⟩ <;> decide

theorem witness_EarlyErrorsHaveNoOtherEffect :
    raises .treeBuild State.reset .construction ∧
    raises (.nodeRead 5#32) (aabTree State.reset) .badOperand ∧
    raises .encEos ((aabCodes State.reset).setEnded true) .streamEnded := by
  refine ⟨raises_intro rfl ?_ ?_ ?_, raises_intro rfl ?_ ?_ ?_, raises_intro rfl ?_ ?_ ?_⟩ <;> decide

theorem witness_ChannelControlCommands :
    State.reset.answer = .accept ∧ State.reset.outOpen = true ∧
    (answering .fail).answer = .fail ∧ (answering .fail).outOpen = true ∧
    ({ answering .fail with txCount := 1 } : State).CloseAnswered ∧
    (answering .silent).answer = .silent ∧ (answering .silent).outOpen = true ∧
    latched.outOpen = false :=
  ⟨rfl, rfl, rfl, rfl, .inr (by decide), rfl, rfl, rfl⟩

theorem witness_FrequencyTableCommands :
    (256#9).toNat ≤ 256 ∧ 256 < (257#9).toNat ∧ symbolOf 256#9 = some 256 ∧
    symbolOf 0#9 = some 0 := by decide

theorem witness_FreqCountCountsOrOverflows :
    ((State.reset.setCount 0xFF 0xFFFFFFFE#32).count (byteSymbol 0xFF#8)).toNat < 2 ^ 32 - 1 ∧
    (State.reset.setCount 0xFF 0xFFFFFFFF#32).count (byteSymbol 0xFF#8) = 0xFFFFFFFF#32 ∧
    (State.reset.setCount 0xFF 0xFFFFFFFF#32).CloseAnswered := by
  refine ⟨?_, ?_, closeAnswered_of_none rfl⟩ <;> decide

theorem witness_FreqCountStreamCountsTheInput :
    (withInput (bytes [0x41#8, 0x41#8, 0x42#8])).Quiet ∧
    (withInput (bytes [0x41#8, 0x41#8, 0x42#8])).inExhausted = false ∧
    ∀ b : Byte, (wholeBytes (withInput (bytes [0x41#8, 0x41#8, 0x42#8])).restBits).count b < 2 ^ 32 :=
  ⟨quiet_reset _, rfl, fun b => by
    have h : (wholeBytes (withInput (bytes [0x41#8, 0x41#8, 0x42#8])).restBits).length = 3 := by
      decide
    have := List.count_le_length (a := b)
      (l := wholeBytes (withInput (bytes [0x41#8, 0x41#8, 0x42#8])).restBits)
    omega⟩

theorem witness_FreqCountStreamErrors :
    (({ State.reset with inExhausted := true } : State).inExhausted = true ∧
      ({ State.reset with inExhausted := true } : State).CloseAnswered) ∧
    (raises .freqCountStream (answering .fail) .ioReadFail ∧
      (answering .fail).inExhausted = false) :=
  ⟨⟨rfl, closeAnswered_of_none rfl⟩,
    raises_intro rfl (by decide) (by decide) (by decide), rfl⟩

/-- For TreeBuildHoldsTheCountedTree and TreeBuildSeedsAndMerges. -/
theorem witness_TreeBuildHoldsTheCountedTree :
    (∃ x, (counted State.reset).count x ≠ 0#32) ∧
    ∃ x, (State.reset.setCount 256 1#32).count x ≠ 0#32 :=
  ⟨⟨0x41, by decide⟩, ⟨256, by decide⟩⟩

theorem witness_BuiltTreeIsOptimal :
    (counted State.reset).err = false ∧
    exec .treeBuild (counted State.reset) = .next (after (exec .treeBuild (counted State.reset))) ∧
    (after (exec .treeBuild (counted State.reset))).err = false ∧
    (after (exec .treeBuild (counted State.reset))).heldTree = some aab ∧
    (Shape.node (.node (.leaf 0x41) (.leaf 0x42)) (.leaf 256)).symbols.Perm aab.symbols :=
  ⟨rfl, next_after (by decide), by decide, by decide, by decide⟩

theorem witness_PopMinRemovesTheLeast :
    [(⟨2#41, 0⟩ : Live)] ≠ [] ∧ popMin [⟨2#41, 0⟩, ⟨1#41, 1⟩, ⟨1#41, 2⟩] =
      some (⟨1#41, 1⟩, [⟨2#41, 0⟩, ⟨1#41, 2⟩]) := by decide

theorem witness_TwoLeafTreeForEveryCount :
    ((State.reset.setCount 0x41 7#32).setCount 256 1#32).count (byteSymbol 0x41#8) ≠ 0#32 ∧
    ((State.reset.setCount 0x41 7#32).setCount 256 1#32).count sentinel = 1#32 ∧
    ∀ x, x ≠ byteSymbol 0x41#8 → x ≠ sentinel →
      ((State.reset.setCount 0x41 7#32).setCount 256 1#32).count x = 0#32 := by
  refine ⟨?_, ?_, ?_⟩ <;> decide

theorem witness_EmptyTableRaisesConstruction :
    (∀ x, State.reset.count x = 0#32) ∧ State.reset.CloseAnswered :=
  ⟨by decide, closeAnswered_of_none rfl⟩

theorem witness_TreeInspectionCommands :
    (aabTree State.reset).treeValid = true ∧ (aabTree State.reset).treeSrc = .built ∧
    (0#32).toNat < (aabTree State.reset).nodeCount.toNat ∧
    nodeAt (aabTree State.reset).nodes (0#32).toNat = some (.leaf 256 (some 1#41)) ∧
    (4#32).toNat < (aabTree State.reset).nodeCount.toNat ∧
    nodeAt (aabTree State.reset).nodes (4#32).toNat = some (.internal 3#10 2#10 (some 4#41)) ∧
    (Node.internal 3#10 2#10 (some 4#41)).weight = some 4#41 ∧
    State.reset.treeValid = false ∧ State.reset.CloseAnswered ∧
    (handTree State.reset).treeSrc = .header ∧ (handTree State.reset).CloseAnswered ∧
    (aabTree State.reset).nodeCount.toNat ≤ (5#32).toNat ∧ (aabTree State.reset).CloseAnswered := by
  refine ⟨rfl, rfl, ?_, ?_, ?_, ?_, rfl, rfl, closeAnswered_of_none rfl, rfl,
    closeAnswered_of_none rfl, ?_, closeAnswered_of_none rfl⟩ <;> decide

theorem witness_CodesBuildRecordsTheLeafPaths :
    (aabTree State.reset).TreeInv ∧ (aabTree State.reset).treeValid = true ∧
    (oneLeaf 256).heldTree = some (.leaf 0 256 none) ∧ (oneLeaf 256).treeValid = true ∧
    State.reset.treeValid = false ∧ State.reset.CloseAnswered :=
  ⟨aab_treeInv _, rfl, by decide, rfl, rfl, closeAnswered_of_none rfl⟩

/-- For CodesArePrefixFree and CodesMeetKraftEquality. -/
theorem witness_CodesArePrefixFree :
    (aabCodes State.reset).TreeInv ∧ (aabCodes State.reset).CodesInv ∧
    (aabCodes State.reset).codesValid = true ∧ (0x41 : Symbol) ≠ 0x42 ∧
    (aabCodes State.reset).HasCode 0x41 [true] ∧
    (aabCodes State.reset).HasCode 0x42 [false, false] :=
  ⟨aabCodes_treeInv _, aabCodes_codesInv _, rfl, by decide, (aab_codes _).1, (aab_codes _).2.1⟩

theorem witness_CodeInspectionCommands :
    symbolOf 0x43#9 = some 0x43 ∧ (aabCodes State.reset).codesValid = true ∧
    (aabCodes State.reset).codePresent[(0x43 : Symbol).val] = some false ∧
    symbolOf 256#9 = some 256 ∧
    (aabCodes State.reset).codePresent[(256 : Symbol).val] = some true ∧
    (aabCodes State.reset).codeLen[(256 : Symbol).val] = some 2#9 ∧
    (aabCodes State.reset).codeBits[(256 : Symbol).val] = some 1#256 ∧
    (3#32).toNat ≤ 3 ∧ 3 < (4#32).toNat ∧ (256#9).toNat ≤ 256 ∧
    State.reset.codesValid = false ∧ State.reset.CloseAnswered ∧
    (aabCodes State.reset).CloseAnswered := by
  refine ⟨?_, rfl, ?_, ?_, ?_, ?_, ?_, ?_, ?_, ?_, rfl, closeAnswered_of_none rfl,
    closeAnswered_of_none rfl⟩ <;> decide

theorem witness_MagicWriteAppendsTheMagic :
    State.reset.outOpen = true ∧ State.reset.answer = .accept ∧ latched.outOpen = false ∧
    (answering .fail).outOpen = true ∧ (answering .fail).answer = .fail ∧
    ({ answering .fail with txCount := 1 } : State).CloseAnswered ∧
    (answering .silent).outOpen = true ∧ (answering .silent).answer = .silent :=
  ⟨rfl, rfl, rfl, rfl, rfl, .inr (by decide), rfl, rfl⟩

theorem witness_MagicReadChecksTheMagic :
    (withInput (bin 0xFACE8201#32)).answer = .accept ∧
    (withInput (bin 0xFACE8201#32)).restBits = bin 0xFACE8201#32 ++ [] ∧
    0xFACE8201#32 = (withInput (bin 0xFACE8201#32)).magic ∧
    (withInput (bin 0xFACE8200#32)).restBits = bin 0xFACE8200#32 ++ [] ∧
    0xFACE8200#32 ≠ (withInput (bin 0xFACE8200#32)).magic ∧
    ({ withInput (bin 0xFACE8200#32) with txCount := 1 } : State).CloseAnswered ∧
    (withInput (List.replicate 31 true)).restBits.length < 32 ∧
    (answering .fail).answer = .fail ∧
    ({ answering .fail with txCount := 1 } : State).CloseAnswered ∧
    (answering .silent).answer = .silent := by
  refine ⟨rfl, ?_, rfl, ?_, ?_, closeAnswered_of_none rfl, ?_, rfl, .inr ?_, rfl⟩ <;> decide

theorem witness_HeaderWriteAppendsThePreorder :
    (aabTree State.reset).Quiet ∧ (aabTree State.reset).outOpen = true ∧
    (aabTree State.reset).treeValid = true ∧ (aabTree State.reset).heldTree = some aab ∧
    State.reset.treeValid = false ∧ State.reset.CloseAnswered :=
  ⟨quiet_of_none rfl, rfl, rfl, aab_held _, rfl, closeAnswered_of_none rfl⟩

/-- The second of the seven writes of the header fails. -/
theorem witness_HeaderWriteAppendsThePreorder_fail :
    (aabTree (failing 1 [])).outOpen = true ∧ (aabTree (failing 1 [])).treeValid = true ∧
    (aabTree (failing 1 [])).heldTree = some aab ∧ 1 < aab.shape.writes.length ∧
    (aabTree (failing 1 [])).failsAfter 1 ∧
    ((aabTree (failing 1 [])).moved 0 (aab.shape.writes.take 1).flatten 2).CloseAnswered :=
  ⟨rfl, rfl, aab_held _, by decide, failsAfter_of_one (n := 1) rfl (by decide),
    closeAnswered_of_one rfl⟩

theorem witness_HeaderReadHoldsTheTree :
    (withInput handHeader).Quiet ∧
    (withInput handHeader).restBits = (Shape.node (.leaf 0x41) (.leaf 256)).header ++ [] ∧
    (Shape.node (.leaf 0x41) (.leaf 256)).symbols.Nodup :=
  ⟨quiet_reset _, by decide, by decide⟩

theorem witness_HeaderRoundTrip :
    (handTree State.reset).TreeInv ∧ (handTree State.reset).treeValid = true ∧
    (handTree State.reset).heldTree = some hand ∧ (handTree State.reset).Quiet ∧
    (handTree State.reset).outOpen = true ∧
    exec .headerWrite (handTree State.reset) =
      .next (after (exec .headerWrite (handTree State.reset))) ∧
    (after (exec .headerWrite (handTree State.reset))).outBits =
      (handTree State.reset).outBits ++ handHeader ∧
    (withInput handHeader).Quiet ∧ (withInput handHeader).restBits = handHeader ++ [] :=
  ⟨hand_treeInv _, rfl, hand_held _, quiet_of_none rfl, rfl, next_after (by decide), by decide,
    quiet_reset _, by decide⟩

theorem witness_HeaderReadErrorHoldsNoTree : raises .headerRead (handTree State.reset) .hdrEoi :=
  raises_intro rfl (by decide) (by decide) (by decide)

/-- The header up to the second leaf of a two-leaf tree whose first leaf is 0x41. -/
def lead41 : Lead := ⟨false :: true :: bin 0x41#9, [0x41], 2⟩

theorem lead41_mem : lead41 ∈ (Shape.node (.leaf 0x41) (.leaf 256)).leads := by decide

/-- A lead with the most nodes a header may begin, 513 0 bits: the shape is a chain to the left. -/
def chain : Nat → Shape
  | 0 => .leaf 0
  | n + 1 => .node (chain n) (.leaf 0)

theorem chain_lead (n : Nat) : (⟨List.replicate n false, [], n⟩ : Lead) ∈ (chain n).leads := by
  induction n with
  | zero => decide
  | succ n ih =>
    simp only [chain, Shape.leads, List.mem_append, List.mem_map]
    exact .inl ⟨_, ih, by simp [List.replicate_succ]⟩

theorem witness_MalformedHeadersAreRefused :
    (withInput []).Quiet ∧ State.reset.err = false ∧
    lead41 ∈ (Shape.node (.leaf 0x41) (.leaf 256)).leads ∧ lead41.symbols.Nodup ∧
    lead41.nodes < 513 ∧
    (withInput lead41.bits).restBits = lead41.bits ∧
    (withInput (lead41.bits ++ true :: List.replicate 8 false)).restBits =
      lead41.bits ++ true :: List.replicate 8 false ∧
    256 < (257#9).toNat ∧
    (withInput (lead41.bits ++ true :: bin 257#9)).restBits =
      lead41.bits ++ true :: bin 257#9 ++ [] ∧
    (0x41 : Symbol) ∈ lead41.symbols ∧ symbolOf 0x41#9 = some 0x41 ∧
    (withInput (lead41.bits ++ true :: bin 0x41#9)).restBits =
      lead41.bits ++ true :: bin 0x41#9 ++ [] :=
  ⟨quiet_reset _, rfl, lead41_mem, by decide, by decide, by decide, by decide, by decide,
    by decide, by decide, by decide, by decide⟩

theorem witness_MalformedHeadersAreRefused_size :
    (⟨List.replicate 513 false, [], 513⟩ : Lead) ∈ (chain 513).leads ∧
    (withInput (List.replicate 513 false)).restBits = List.replicate 513 false ∧
    (withInput (List.replicate 514 false)).restBits = List.replicate 513 false ++ false :: [] ∧
    (withInput (List.replicate 514 false)).restBits = List.replicate 514 false ++ [] := by
  refine ⟨chain_lead 513, ?_, ?_, ?_⟩
  · simp [State.restBits, withInput, State.reset]
  · simp only [State.restBits, withInput, State.reset, List.drop_zero]
    exact List.replicate_succ'
  · simp [State.restBits, withInput, State.reset]

theorem witness_MalformedHeadersAreRefused_cut :
    (Shape.node (.leaf 0x41) (.leaf 256)).header =
      (withInput (bits [0, 1, 0])).restBits ++ handHeader.drop 3 ∧ handHeader.drop 3 ≠ [] ∧
    (Shape.node (.leaf 0x41) (.leaf 256)).symbols.Nodup := by
  decide

theorem witness_EncoderAppendsTheCode :
    (aabCodes State.reset).Quiet ∧ (aabCodes State.reset).outOpen = true ∧
    (aabCodes State.reset).codesValid = true ∧ (aabCodes State.reset).encEnded = false ∧
    (aabCodes State.reset).HasCode (byteSymbol 0x42#8) [false, false] ∧
    (aabCodes State.reset).HasCode sentinel [false, true] :=
  ⟨quiet_of_none rfl, rfl, rfl, rfl, (aab_codes _).2.1, (aab_codes _).2.2⟩

/-- The first conjunct of `EncodeErrors` (no code), its write that fails, and its closed output. -/
theorem witness_EncoderAppendsTheCode_errors :
    (aabCodes (failing 1 [])).codesValid = true ∧ (aabCodes (failing 1 [])).encEnded = false ∧
    (aabCodes (failing 1 [])).codePresent[(byteSymbol 0x43#8).val] = some false ∧
    (aabCodes (failing 1 [])).CloseAnswered ∧
    (aabCodes (failing 1 [])).HasCode (byteSymbol 0x42#8) [false, false] ∧
    (aabCodes (failing 1 [])).outOpen = true ∧ 1 < [false, false].length ∧
    (aabCodes (failing 1 [])).failsAfter 1 ∧
    ((aabCodes (failing 1 [])).moved 0 [false] 2).CloseAnswered ∧
    (aabCodes latched).outOpen = false ∧ (aabCodes latched).codesValid = true ∧
    (aabCodes latched).HasCode sentinel [false, true] :=
  ⟨rfl, rfl, by decide, closeAnswered_of_one rfl, (aab_codes _).2.1, rfl, by decide,
    failsAfter_of_one (n := 1) rfl (by decide), closeAnswered_of_one rfl, rfl, rfl,
    (aab_codes _).2.2⟩

theorem witness_EncoderChecksInOrder :
    (State.reset.CloseAnswered ∧ State.reset.codesValid = false) ∧
    (((aabCodes State.reset).setEnded true).CloseAnswered ∧
      ((aabCodes State.reset).setEnded true).codesValid = true ∧
      ((aabCodes State.reset).setEnded true).encEnded = true) ∧
    ((aabCodes State.reset).CloseAnswered ∧ (aabCodes State.reset).codesValid = true ∧
      (aabCodes State.reset).encEnded = false ∧
      (aabCodes State.reset).codePresent[(byteSymbol 0x43#8).val] = some false) ∧
    ((oneLeaf 0x41).setCodes true (codesOf (.leaf 0 0x41 none))).codePresent[sentinel.val] =
      some false ∧
    ({ aabCodes State.reset with inExhausted := true } : State).inExhausted = true := by
  refine ⟨⟨closeAnswered_of_none rfl, rfl⟩, ⟨closeAnswered_of_none rfl, rfl, rfl⟩,
    ⟨closeAnswered_of_none rfl, rfl, rfl, ?_⟩, ?_, rfl⟩ <;> decide

/-- The code of V-TB-1's symbols, as a function. -/
def aabCode (x : Symbol) : List Bool :=
  if x = 0x41 then [true] else if x = 0x42 then [false, false] else [false, true]

theorem witness_EncStreamAppendsTheBody :
    (aabCodes (withInput (bytes [0x41#8, 0x42#8]))).Quiet ∧
    (aabCodes (withInput (bytes [0x41#8, 0x42#8]))).outOpen = true ∧
    (aabCodes (withInput (bytes [0x41#8, 0x42#8]))).codesValid = true ∧
    (aabCodes (withInput (bytes [0x41#8, 0x42#8]))).encEnded = false ∧
    (aabCodes (withInput (bytes [0x41#8, 0x42#8]))).inExhausted = false ∧
    (∀ b ∈ wholeBytes (aabCodes (withInput (bytes [0x41#8, 0x42#8]))).restBits,
      (aabCodes (withInput (bytes [0x41#8, 0x42#8]))).HasCode (byteSymbol b)
        (aabCode (byteSymbol b))) ∧
    (aabCodes (withInput (bytes [0x41#8, 0x42#8]))).HasCode sentinel (aabCode sentinel) := by
  refine ⟨quiet_of_none rfl, rfl, rfl, rfl, rfl, fun b hb => ?_, (aab_codes _).2.2⟩
  have hw : wholeBytes (aabCodes (withInput (bytes [0x41#8, 0x42#8]))).restBits =
      [0x41#8, 0x42#8] := by decide
  rw [hw] at hb
  simp only [List.mem_cons, List.not_mem_nil, or_false] at hb
  rcases hb with rfl | rfl
  · exact (aab_codes _).1
  · exact (aab_codes _).2.1

/-- The codes of V-TB-1, an input of 0x41 and 0x42, and transaction n failing. -/
def encFailing (n : Nat) : State := aabCodes (failing n (bytes [0x41#8, 0x42#8]))

/-- After the one byte 0x41: the next read fails (2), the second write of 0x42's code fails (4), or the second
write of the sentinel's code after both bytes (7). -/
theorem witness_EncStreamAppendsTheBody_errors (n : Nat) :
    (encFailing n).codesValid = true ∧ (encFailing n).encEnded = false ∧
    (encFailing n).inExhausted = false ∧
    wholeBytes (encFailing n).restBits = [0x41#8, 0x42#8] ∧
    (∀ b ∈ [0x41#8, 0x42#8], (encFailing n).HasCode (byteSymbol b) (aabCode (byteSymbol b))) ∧
    ([0x41#8].flatMap fun b => aabCode (byteSymbol b)) = [true] ∧
    ([0x41#8, 0x42#8].flatMap fun b => aabCode (byteSymbol b)) = [true, false, false] ∧
    (encFailing n).outOpen = true ∧ (encFailing n).CloseAnswered ∧
    (encFailing 2).failsAfter (1 + 1) ∧
    ((encFailing 4).moved 16 [true] 3).failsAfter 1 ∧
    ((encFailing 4).moved 16 [true] 3).HasCode (byteSymbol 0x42#8) [false, false] ∧
    (encFailing 4).acceptedBefore (0 + 3) ∧
    ((encFailing 7).moved 16 [true, false, false] 6).failsAfter 1 ∧
    (encFailing 7).acceptedBefore (0 + 6) := by
  refine ⟨rfl, rfl, rfl, ?_, fun b hb => ?_, by decide, by decide, rfl, closeAnswered_of_one rfl,
    failsAfter_of_one (n := 2) rfl (by decide), failsAfter_of_one (n := 4) rfl (by decide),
    (aab_codes (failing 4 (bytes [0x41#8, 0x42#8]))).2.1, fun k hk hn => ?_,
    failsAfter_of_one (n := 7) rfl (by decide),
    fun k hk hn => ?_⟩
  · exact show wholeBytes (bytes [0x41#8, 0x42#8]) = _ by decide
  · simp only [List.mem_cons, List.not_mem_nil, or_false] at hb
    rcases hb with rfl | rfl
    · exact (aab_codes (failing n (bytes [0x41#8, 0x42#8]))).1
    · exact (aab_codes (failing n (bytes [0x41#8, 0x42#8]))).2.1
  · exact (failsAfter_of_one (s := encFailing 4) (n := 4) rfl (by decide)).1 k hk
      (Nat.lt_of_lt_of_le hn (by decide))
  · exact (failsAfter_of_one (s := encFailing 7) (n := 7) rfl (by decide)).1 k hk
      (Nat.lt_of_lt_of_le hn (by decide))

/-- The codes of the one-leaf tree of 0x41, the output closed, an input of 0x41 and 0x43: the first byte has the
empty code and the second none. -/
def encShut : State :=
  ({ oneLeaf 0x41 with outOpen := false, inBits := bytes [0x41#8, 0x43#8] }).setCodes true
    (codesOf (.leaf 0 0x41 none))

theorem witness_EncStreamAppendsTheBody_closed :
    encShut.codesValid = true ∧ encShut.encEnded = false ∧ encShut.inExhausted = false ∧
    wholeBytes encShut.restBits = [0x41#8, 0x43#8] ∧ encShut.HasCode (byteSymbol 0x41#8) [] ∧
    encShut.outOpen = false ∧ encShut.CloseAnswered ∧ encShut.acceptedBefore 2 ∧
    encShut.codePresent[(byteSymbol 0x43#8).val] = some false := by
  refine ⟨rfl, rfl, rfl, ?_, ⟨0#9, 0#256, ?_, ?_, ?_, rfl⟩, rfl, closeAnswered_of_none rfl,
    acceptedBefore_of_none rfl 2, ?_⟩ <;> decide

theorem witness_NothingIsEncodedAfterTheSentinel :
    ((aabCodes State.reset).setEnded true).encEnded = true ∧
    completes (exec .encStream ((aabCodes State.reset).setEnded true)) = true ∧
    completes (exec .nop ((aabCodes State.reset).setEnded true)) = true ∧
    Instr.nop ∉ [Instr.treeBuild, .headerRead, .codesBuild, .headerWrite] := by
  refine ⟨rfl, ?_, ?_, ?_⟩ <;> decide

/-- The four commands that clear ENC_ENDED, and HEADER_READ where it raises. -/
theorem witness_NothingIsEncodedAfterTheSentinel_cleared :
    (completes (exec .codesBuild ((aabTree State.reset).setEnded true)) = true ∧
      (after (exec .codesBuild ((aabTree State.reset).setEnded true))).err = false) ∧
    (completes (exec .headerWrite ((aabTree State.reset).setEnded true)) = true ∧
      (after (exec .headerWrite ((aabTree State.reset).setEnded true))).err = false) ∧
    raises .headerRead ((aabCodes State.reset).setEnded true) .hdrEoi := by
  refine ⟨⟨?_, ?_⟩, ⟨?_, ?_⟩, raises_intro rfl ?_ ?_ ?_⟩ <;> decide

theorem witness_NothingIsEncodedAfterTheSentinel_errors :
    ((aabCodes State.reset).err = false ∧ (aabCodes State.reset).encEnded = false ∧
      completes (exec .encEos (aabCodes State.reset)) = true ∧
      (after (exec .encEos (aabCodes State.reset))).encEnded = true) ∧
    raises .encEos (aabCodes (answering .fail)) .ioWriteFail ∧
    raises .headerWrite ((aabCodes (answering .fail)).setEnded true) .ioWriteFail := by
  refine ⟨⟨rfl, rfl, ?_, ?_⟩, raises_intro rfl ?_ ?_ ?_, raises_intro rfl ?_ ?_ ?_⟩ <;> decide

theorem witness_DecStartByTheRoot :
    ((aabTree State.reset).treeValid = true ∧
      nodeAt (aabTree State.reset).nodes (aabTree State.reset).root.toNat =
        some (.internal 3#10 2#10 (some 4#41))) ∧
    ((oneLeaf 256).treeValid = true ∧
      nodeAt (oneLeaf 256).nodes (oneLeaf 256).root.toNat = some (.leaf sentinel none)) ∧
    ((oneLeaf 255).treeValid = true ∧ (oneLeaf 255).CloseAnswered ∧
      nodeAt (oneLeaf 255).nodes (oneLeaf 255).root.toNat =
        some (.leaf (byteSymbol 255#8) none)) ∧
    (State.reset.treeValid = false ∧ State.reset.CloseAnswered) := by
  refine ⟨⟨rfl, ?_⟩, ⟨rfl, ?_⟩, ⟨rfl, closeAnswered_of_none rfl, ?_⟩, rfl,
    closeAnswered_of_none rfl⟩ <;> decide

theorem witness_DecBitTakesOneStep :
    (walking (aabCodes State.reset)).Quiet ∧
    (walking (aabCodes State.reset)).decState = .walking ∧
    (walking (aabCodes State.reset)).decCur = some 4#10 ∧
    nodeAt (walking (aabCodes State.reset)).nodes (4#10).toNat =
      some (.internal 3#10 2#10 (some 4#41)) ∧
    (walking (aabCodes State.reset)).restBits = [] ∧
    (walking (aabCodes (withInput [false]))).restBits = [false] ∧
    nodeAt (walking (aabCodes State.reset)).nodes (3#10).toNat =
      some (.internal 1#10 0#10 (some 2#41)) ∧
    (walking (aabCodes State.reset)).outOpen = true ∧
    nodeAt (walking (aabCodes State.reset)).nodes (2#10).toNat =
      some (.leaf (byteSymbol 0x41#8) (some 2#41)) ∧
    ((aabCodes State.reset).setDec .walking (some 3#10)).decCur = some 3#10 ∧
    nodeAt (aabCodes State.reset).nodes (0#10).toNat = some (.leaf sentinel (some 1#41)) := by
  refine ⟨quiet_of_none rfl, rfl, rfl, ?_, rfl, rfl, ?_, rfl, ?_, rfl, ?_⟩ <;> decide

theorem witness_DecSymbolFollowsThePath :
    (walking (aabCodes (withInput [false, true, true]))).Quiet ∧
    (walking (aabCodes (withInput [false, true, true]))).outOpen = true ∧
    (walking (aabCodes (withInput [false, true, true]))).decState = .walking ∧
    (walking (aabCodes (withInput [false, true, true]))).decCur = some 4#10 ∧
    (∃ l r w, nodeAt (walking (aabCodes (withInput [false, true, true]))).nodes (4#10).toNat =
      some (.internal l r w)) ∧
    readTree (walking (aabCodes (withInput [false, true, true]))).nodes Config.nodeCap
      (4#10).toNat = some aab ∧
    (sentinel, [false, true]) ∈ aab.paths ∧ (byteSymbol 0x41#8, [true]) ∈ aab.paths ∧
    (walking (aabCodes (withInput [false, true, true]))).restBits = [false, true] ++ [true] := by
  refine ⟨quiet_of_none rfl, rfl, rfl, rfl, ⟨_, _, _, aab_root (withInput [false, true, true])⟩, aab_held (withInput [false, true, true]), ?_, ?_, rfl⟩ <;>
    decide

/-- The input ends within the sentinel's path. -/
theorem witness_DecSymbolFollowsThePath_truncated :
    (walking (aabCodes (withInput [false]))).Quiet ∧
    (sentinel, [false, true]) ∈ aab.paths ∧ [true] ≠ [] ∧
    [false, true] = (walking (aabCodes (withInput [false]))).restBits ++ [true] := by
  refine ⟨quiet_of_none rfl, ?_, ?_, rfl⟩ <;> decide

theorem witness_DecStreamDecodesTheBody :
    (walking (aabCodes (withInput (bits [1, 0, 0, 0, 1, 1])))).Quiet ∧
    (walking (aabCodes (withInput (bits [1, 0, 0, 0, 1, 1])))).outOpen = true ∧
    (walking (aabCodes (withInput (bits [1, 0, 0, 0, 1, 1])))).decState = .walking ∧
    (walking (aabCodes (withInput (bits [1, 0, 0, 0, 1, 1])))).decCur =
      some (walking (aabCodes (withInput (bits [1, 0, 0, 0, 1, 1])))).root ∧
    (∃ l r w, nodeAt (walking (aabCodes (withInput (bits [1, 0, 0, 0, 1, 1])))).nodes
      (walking (aabCodes (withInput (bits [1, 0, 0, 0, 1, 1])))).root.toNat =
        some (.internal l r w)) ∧
    (walking (aabCodes (withInput (bits [1, 0, 0, 0, 1, 1])))).heldTree = some aab ∧
    (∀ b ∈ [0x41#8, 0x42#8], (byteSymbol b, aabCode (byteSymbol b)) ∈ aab.paths) ∧
    (sentinel, aabCode sentinel) ∈ aab.paths ∧
    (walking (aabCodes (withInput (bits [1, 0, 0, 0, 1, 1])))).restBits =
      ([0x41#8, 0x42#8].flatMap fun b => aabCode (byteSymbol b)) ++ aabCode sentinel ++ [true] := by
  refine ⟨quiet_of_none rfl, rfl, rfl, rfl, ⟨_, _, _, aab_root (withInput (bits [1, 0, 0, 0, 1, 1]))⟩, aab_held (withInput (bits [1, 0, 0, 0, 1, 1])), ?_, ?_, ?_⟩ <;>
    decide

theorem witness_DecStreamEndsDoneOrTruncated :
    (walking (aabCodes State.reset)).TreeInv ∧ (walking (aabCodes State.reset)).DecInv ∧
    (walking (aabCodes State.reset)).Quiet ∧ (walking (aabCodes State.reset)).outOpen = true ∧
    (walking (aabCodes State.reset)).err = false ∧
    (walking (aabCodes State.reset)).decState = .walking :=
  ⟨walking_aab_treeInv State.reset, walking_aab_decInv State.reset, quiet_of_none rfl, rfl, rfl, rfl⟩

/-- The walk of V-TB-1 at the root, an input attached, and transaction n failing. -/
def decFailing (n : Nat) (l : List Bool) : State := walking (aabCodes (failing n l))

/-- After the one byte 0x41, which takes transactions 0 and 1: the input ends within the path 00 of 0x42, the
read after the first bit of it fails (3), or the write of 0x42 fails (4). -/
theorem witness_DecStreamEndsDoneOrTruncated_errors (n : Nat) (l : List Bool) :
    (decFailing n l).decState = .walking ∧ (decFailing n l).decCur = some 4#10 ∧
    (∃ x y w, nodeAt (decFailing n l).nodes (4#10).toNat = some (.internal x y w)) ∧
    readTree (decFailing n l).nodes Config.nodeCap (4#10).toNat = some aab ∧
    (decFailing n l).heldTree = some aab ∧ (decFailing n l).root = 4#10 ∧
    aab.spells aab [0x41#8] [true] ∧ aab.placeAfter aab [0x41#8] = aab ∧
    (byteSymbol 0x42#8, [false, false]) ∈ aab.paths ∧
    (decFailing n l).outOpen = true ∧ (decFailing n l).CloseAnswered ∧
    (decFailing 9 [true, false]).restBits = [true] ++ [false] ∧
    (decFailing 9 [true, false]).acceptedBefore 4 ∧
    (decFailing 3 [true, false, false]).restBits = [true] ++ [false] ++ [false] ∧
    (decFailing 3 [true, false, false]).failsAfter (1 + 1 + 1) ∧
    (decFailing 4 [true, false, false]).restBits = [true] ++ [false, false] ++ [] ∧
    (decFailing 4 [true, false, false]).failsAfter (1 + 1 + 2) := by
  refine ⟨rfl, rfl, ⟨_, _, _, aab_root (failing n l)⟩, aab_held (failing n l),
    aab_held (failing n l), rfl, ⟨[true], [], rfl, by decide, rfl⟩, rfl, by decide, rfl,
    closeAnswered_of_one rfl, rfl, fun k hk hn => ?_, rfl,
    failsAfter_of_one (n := 3) rfl (by decide), rfl, failsAfter_of_one (n := 4) rfl (by decide)⟩
  exact (failsAfter_of_one (s := decFailing 9 [true, false]) (n := 9) rfl (by decide)).1 k hk
    (Nat.lt_of_lt_of_le hn (by decide))

/-- DEC_BIT and DEC_SYMBOL, before any byte: the walk spells nothing, and the first bit fails to come. -/
theorem witness_DecStreamEndsDoneOrTruncated_first :
    aab.spells aab [] [] ∧ aab.placeAfter aab [] = aab ∧
    (decFailing 0 [true]).failsAfter (0 + 0 + 0) ∧ (byteSymbol 0x41#8, [true]) ∈ aab.paths ∧
    (decFailing 1 [true]).failsAfter (0 + 0 + 1) :=
  ⟨rfl, rfl, failsAfter_of_one (n := 0) rfl (by decide), by decide,
    failsAfter_of_one (n := 1) rfl (by decide)⟩

theorem witness_DoneAbsorbsAndIdleIsNotReady :
    (State.reset.setDec .done none).decState = .done ∧ State.reset.decState = .idle ∧
    State.reset.CloseAnswered ∧ (State.reset.setDec .error none).decState = .error ∧
    (State.reset.setDec .error none).CloseAnswered :=
  ⟨rfl, rfl, closeAnswered_of_none rfl, rfl, closeAnswered_of_none rfl⟩

theorem witness_DecoderInvertsEncoder :
    (aabCodes (withInput (bytes [0x42#8]))).TreeInv ∧
    (aabCodes (withInput (bytes [0x42#8]))).CodesInv ∧
    (aabCodes (withInput (bytes [0x42#8]))).Quiet ∧
    (aabCodes (withInput (bytes [0x42#8]))).err = false ∧
    exec .encStream (aabCodes (withInput (bytes [0x42#8]))) =
      .next (after (exec .encStream (aabCodes (withInput (bytes [0x42#8]))))) ∧
    (after (exec .encStream (aabCodes (withInput (bytes [0x42#8]))))).err = false ∧
    (aabCodes (withInput (bytes [0x42#8]))).heldTree = some aab ∧
    (walking (aabCodes (withInput (bits [0, 0, 0, 1])))).heldTree = some aab ∧
    (walking (aabCodes (withInput (bits [0, 0, 0, 1])))).TreeInv ∧
    (walking (aabCodes (withInput (bits [0, 0, 0, 1])))).DecInv ∧
    (walking (aabCodes (withInput (bits [0, 0, 0, 1])))).Quiet ∧
    (walking (aabCodes (withInput (bits [0, 0, 0, 1])))).outOpen = true ∧
    (walking (aabCodes (withInput (bits [0, 0, 0, 1])))).decState = .walking ∧
    (walking (aabCodes (withInput (bits [0, 0, 0, 1])))).decCur =
      some (walking (aabCodes (withInput (bits [0, 0, 0, 1])))).root ∧
    (walking (aabCodes (withInput (bits [0, 0, 0, 1])))).restBits =
      (after (exec .encStream (aabCodes (withInput (bytes [0x42#8]))))).outBits.drop 0 ++ [] :=
  ⟨aabCodes_treeInv _, aabCodes_codesInv _, quiet_of_none rfl, rfl, next_after (by decide),
    by decide, aab_held (withInput (bytes [0x42#8])), aab_held (withInput (bits [0, 0, 0, 1])), walking_aab_treeInv (withInput (bits [0, 0, 0, 1])), walking_aab_decInv (withInput (bits [0, 0, 0, 1])),
    quiet_of_none rfl, rfl, rfl, rfl, by decide⟩

/-- A state that meets the whole invariant, holds a tree and codes, and decodes. -/
theorem walking_aab_inv (l : List Bool) : (walking (aabCodes (withInput l))).Inv where
  tree := walking_aab_treeInv (withInput l)
  codes := walking_aab_codesInv (withInput l)
  dec := walking_aab_decInv (withInput l)
  ended := fun h => nomatch (show false = true from h)
  err := by
    refine ⟨fun _ => ⟨rfl, rfl⟩, fun h => ?_⟩
    exact nomatch (show false = true from h)
  chan := by
    refine ⟨Nat.zero_le _, fun h => ?_, fun _ => rfl, rfl, fun h => ?_⟩
    · exact nomatch (show false = true from h)
    · exact nomatch (show false = true from h)

/-- For the five statements that a step keeps a part of the invariant: a state with a command to come. -/
theorem witness_StepKeepsTheInvariant :
    ((walking (aabCodes (withInput [true]))).withCommand 0x61#32 0#32).TreeInv ∧
    ((walking (aabCodes (withInput [true]))).withCommand 0x61#32 0#32).CodesInv ∧
    ((walking (aabCodes (withInput [true]))).withCommand 0x61#32 0#32).DecInv ∧
    ((walking (aabCodes (withInput [true]))).withCommand 0x61#32 0#32).EndInv ∧
    ((walking (aabCodes (withInput [true]))).withCommand 0x61#32 0#32).ErrInv ∧
    ((walking (aabCodes (withInput [true]))).withCommand 0x61#32 0#32).ChanInv ∧
    completes (step ((walking (aabCodes (withInput [true]))).withCommand 0x61#32 0#32)) = true :=
  ⟨(walking_aab_treeInv (withInput [true])).congr rfl rfl rfl rfl rfl rfl, walking_aab_codesInv (withInput [true]),
    walking_aab_decInv (withInput [true]), (walking_aab_inv [true]).ended, (walking_aab_inv [true]).err,
    (walking_aab_inv [true]).chan, by decide⟩

theorem witness_StepReadsNothingAbsent :
    (walking (aabCodes (withInput [true]))).Inv ∧ (walking (aabCodes (withInput [true]))).Answers ∧
    ∃ f, step ((answering .silent).withCommand 3#32 0#32) = .fault f :=
  ⟨walking_aab_inv _, fun k => by rw [quiet_of_none rfl k]; decide, .channelSilent, rfl⟩

/-- For CommandsKeepToTheAccessTable and OutputOnlyGrowsAndStaysClosed. -/
theorem witness_CommandsKeepToTheAccessTable :
    completes (exec .decSymbol (walking (aabCodes (withInput [true])))) = true ∧
    completes (exec .headerRead (withInput handHeader)) = true ∧
    completes (exec .magicWrite latched) = true ∧ latched.outOpen = false ∧
    (after (exec .nop latched)).responses = latched.responses ++ [⟨0x00020003#32, 0#64⟩] ∧
    (0x00020003#32).getLsbD 0 = true := by
  refine ⟨?_, ?_, ?_, rfl, ?_, ?_⟩ <;> decide

theorem witness_OutputOnlyGrowsAndStaysClosed_header :
    (aabTree latched).outOpen = false ∧ (aabTree latched).treeValid = true ∧
    (aabTree latched).heldTree = some aab := ⟨rfl, rfl, aab_held latched⟩

/-- The codes, with the output closed and an input attached. -/
def shutCodes (l : List Bool) : State := aabCodes { withInput l with outOpen := false }

theorem witness_OutputOnlyGrowsAndStaysClosed_codes :
    (shutCodes (bytes [0x42#8])).outOpen = false ∧ (shutCodes (bytes [0x42#8])).codesValid = true ∧
    (shutCodes (bytes [0x42#8])).encEnded = false ∧ [false, false] ≠ [] ∧
    (shutCodes (bytes [0x42#8])).HasCode (byteSymbol 0x42#8) [false, false] ∧
    (shutCodes (bytes [0x42#8])).inExhausted = false ∧
    (shutCodes (bytes [0x42#8])).answer = .accept ∧
    (shutCodes (bytes [0x42#8])).restBits = bin 0x42#8 ++ [] ∧
    (shutCodes (List.replicate 7 true)).HasCode sentinel [false, true] ∧
    (shutCodes (List.replicate 7 true)).restBits.length < 8 :=
  ⟨rfl, rfl, rfl, by decide, (aab_codes _).2.1, rfl, rfl, by decide, (aab_codes _).2.2, by decide⟩

theorem witness_OutputOnlyGrowsAndStaysClosed_decoder :
    (walking (shutCodes [true, false])).outOpen = false ∧
    (walking (shutCodes [true, false])).Quiet ∧
    (walking (shutCodes [true, false])).decState = .walking ∧
    (walking (shutCodes [true, false])).decCur = some 4#10 ∧
    (∃ l r w, nodeAt (walking (shutCodes [true, false])).nodes (4#10).toNat =
      some (.internal l r w)) ∧
    readTree (walking (shutCodes [true, false])).nodes Config.nodeCap (4#10).toNat = some aab ∧
    (byteSymbol 0x41#8, [true]) ∈ aab.paths ∧
    (walking (shutCodes [true, false])).restBits = [true] ++ [false] ∧ [true].length = 1 := by
  refine ⟨rfl, quiet_of_none rfl, rfl, rfl,
    ⟨_, _, _, aab_root { withInput [true, false] with outOpen := false }⟩,
    aab_held { withInput [true, false] with outOpen := false }, ?_, rfl, rfl⟩
  decide

theorem witness_InspectionHasNoSideEffect :
    inspects (.nodeRead 4#32) = true ∧ (aabTree State.reset).err = false ∧
    completes (exec (.nodeRead 4#32) (aabTree State.reset)) = true ∧
    (after (exec (.nodeRead 4#32) (aabTree State.reset))).err = false := by
  refine ⟨rfl, rfl, ?_, ?_⟩ <;> decide

end Sys2Proof.Tests
end

namespace Sys2Proof.Machine

/-! ### One step by the next act of the host -/

/-- R138: with no act left the block waits. -/
theorem step_of_host_nil {s : State} (h : s.host = []) : step s = .next s := by
  simp only [step, takeAct, h]

/-- R18: a command at the head of the host's list is taken from it and issued. -/
theorem step_of_host_command {s : State} {w arg : Word} {rest : List HostAct}
    (h : s.host = .command w arg :: rest) : step s = issue w arg (s.setHost rest) := by
  simp only [step, takeAct, h]

/-- R126 step 1: what lets a command word through. -/
theorem rejects_eq_false_iff {w : Word} {s : State} :
    rejects w s = false ↔ s.err = false ∨ w = 0x00000002#32 := by
  simp only [rejects, Bool.and_eq_false_iff, bne_eq_false_iff_eq]

/-- R126: a word that is let through and decodes to `i` runs `i`. -/
theorem issue_of_decode {w arg : Word} {s : State} {i : Instr} (hr : rejects w s = false)
    (hd : decode w arg = .instr i) : issue w arg s = exec i s := by
  simp [issue, hr, hd]

/-- Settles O7: taking the act leaves the error latch as it was, so the word is let through and its command runs. -/
theorem stepRunsTheDecodedCommand : Obligations.StepRunsTheDecodedCommand := by
  refine ⟨fun s w arg rest i hhost hdec hpass => ?_, fun s hnil => step_of_host_nil hnil⟩
  have hr : rejects w (s.setHost rest) = false := rejects_eq_false_iff.mpr hpass
  calc step s = issue w arg (s.setHost rest) := step_of_host_command hhost
    _ = exec i { s with host := rest } := issue_of_decode hr hdec

end Sys2Proof.Machine

namespace Sys2Proof.Machine

/-! ### The updates a command is made of -/

/-- One update of the state that command `i` may make by its row of the access table (R41), with what holds
of the state in which it is made. -/
inductive Update (i : Instr) : State → State → Prop
  | setFreq (s : State) (f : FreqTable) (h : writesFreq i = true) : Update i s (s.setFreq f)
  | buildTree (s : State) (h : i = .treeBuild) (hne : seeds s.freq ≠ []) : Update i s (buildTree s)
  | beginHeader (s : State) (h : i = .headerRead) : Update i s (beginHeaderRead s)
  | holdHeader (u s : State) (r : Nat × Parse) (h : i = .headerRead) (hv : s.treeValid = false)
      (hp : parse 514 Parse.start u = .ok r s) :
      Update i s (s.holdTree .header r.2.nodes (BitVec.ofNat 10 r.1) r.2.n r.2.leaves)
  | loseNodes (s : State) (h : i = .headerRead) (hv : s.treeValid = false) : Update i s s.loseNodes
  | buildCodes (s : State) (t : Tree) (h : i = .codesBuild) (hv : s.treeValid = true)
      (ht : s.heldTree = some t) : Update i s ((s.setCodes true (codesOf t)).setEnded false)
  | setEnded (s : State) (b : Bool) (h : writesEnded i = true) (hb : b = true → s.codesValid = true) :
      Update i s (s.setEnded b)
  | startWalk (s : State) (l r : NodeIdx) (w : Option Weight) (h : isDecoder i = true)
      (hv : s.treeValid = true) (hn : nodeAt s.nodes s.root.toNat = some (.internal l r w)) :
      Update i s (s.setDec .walking (some s.root))
  | endWalk (s : State) (h : isDecoder i = true) : Update i s (s.setDec .done none)
  | descend (s : State) (cur c l r l' r' : NodeIdx) (w w' : Option Weight) (h : isDecoder i = true)
      (hc : s.decCur = some cur) (hn : nodeAt s.nodes cur.toNat = some (.internal l r w))
      (hlr : c = l ∨ c = r) (hi : nodeAt s.nodes c.toNat = some (.internal l' r' w')) :
      Update i s (s.setDec s.decState (some c))
  | restart (s : State) (cur l r : NodeIdx) (w : Option Weight) (h : isDecoder i = true)
      (hc : s.decCur = some cur) (hn : nodeAt s.nodes cur.toNat = some (.internal l r w)) :
      Update i s (s.setDec s.decState (some s.root))
  | countTx (s : State) : Update i s s.countTx
  | acceptRead (s : State) (n : Nat) (h : usesInput i = true) (hl : s.inPos + n ≤ s.inBits.length) :
      Update i s (s.acceptRead n)
  | exhaust (s : State) (h : usesInput i = true) : Update i s s.exhaust
  | rewind (s : State) (h : usesInput i = true) : Update i s s.rewind
  | acceptWrite (s : State) (bits : List Bool) (h : writesOutput i = true) :
      Update i s (s.acceptWrite bits)
  | unlatch (s : State) (h : i = .errClear) : Update i s s.unlatch
  | shutOut (s : State) (h : i = .outClose) : Update i s s.shutOut
  | closeChannel (s : State) (h : i = .outClose) (ho : s.outOpen = false) : Update i s s.closeChannel

/-- What command `i` has made of state `s` after some of its updates. -/
abbrev Updates (i : Instr) : State → State → Prop := Relation.ReflTransGen (Update i)

theorem Update.single {i : Instr} {s t : State} (h : Update i s t) : Updates i s t :=
  Relation.ReflTransGen.single h

/-- What every update keeps, the updates together keep. -/
theorem Updates.keeps {i : Instr} {P : State → Prop} (hP : ∀ s t, P s → Update i s t → P t)
    {s t : State} (h : Updates i s t) (hs : P s) : P t := by
  induction h with
  | refl => exact hs
  | tail _ hu ih => exact hP _ _ ih hu

/-- A part of the state that no update of the command writes stays as it was. -/
theorem Updates.unchanged {i : Instr} {α : Type} {f : State → α}
    (hf : ∀ s t, Update i s t → f t = f s) {s t : State} (h : Updates i s t) : f t = f s :=
  h.keeps (P := fun u => f u = f s) (fun u v hu huv => (hf u v huv).trans hu) rfl

/-! ### Where the model stops -/

/-- NODE or DEC_CUR does not give what a command needs of it. -/
inductive State.Broken (s : State) : Prop
  | held (hv : s.treeValid = true) (h : s.heldTree = none)
  | root (hv : s.treeValid = true) (h : nodeAt s.nodes s.root.toNat = none)
  | entry (j : Nat) (hv : s.treeValid = true) (hj : j < s.nodeCount.toNat) (h : nodeAt s.nodes j = none)
  | weight (j : Nat) (hv : s.treeValid = true) (hs : s.treeSrc = .built) (hj : j < s.nodeCount.toNat)
      (h : (nodeAt s.nodes j).bind Node.weight = none)
  | cursor (cur : NodeIdx) (hd : s.decState = .walking) (hc : s.decCur = some cur)
      (h : ∀ l r w, nodeAt s.nodes cur.toNat ≠ some (.internal l r w))
  | child (cur c l r : NodeIdx) (w : Option Weight) (hd : s.decState = .walking)
      (hc : s.decCur = some cur) (hn : nodeAt s.nodes cur.toNat = some (.internal l r w))
      (hlr : c = l ∨ c = r) (h : nodeAt s.nodes c.toNat = none)

/-- Symbol x has no entry in the code table, or a code without its length or its bits. -/
def State.CodeAbsent (s : State) (x : Symbol) : Prop :=
  s.codePresent[x.val] = none ∨
    (s.codePresent[x.val] = some true ∧ (s.codeLen[x.val] = none ∨ s.codeBits[x.val] = none))

/-- What is so of a state in which the model stops, by the reason it gives (R21, R49). -/
def State.StopsFor (s : State) : Fault → Prop
  | .channelSilent => s.answer = .silent
  | .absentCode => s.codesValid = true ∧ ∃ x, s.CodeAbsent x
  | .absentCursor => s.decState = .walking ∧ s.decCur = none
  | .brokenTree => s.Broken
  | .noProgress => False

/-! ### Pseudocode that only makes a command's updates -/

/-- The pseudocode, started in `s`, ends in a state that updates of command `i` lead to; what it raises is an
error; and it stops only in such a state, for the reason it gives. -/
def Res.Traced {α : Type} (i : Instr) (s : State) (r : Res α) : Prop :=
  r.Ends (fun _ t => Updates i s t) (fun e _ t => Updates i s t ∧ e ≠ .none)
    (fun f => ∃ t, Updates i s t ∧ t.StopsFor f)

/-- What holds of every way to end holds of the way that was taken. -/
theorem Res.Ends.of_ok {α : Type} {r : Res α} {Q : α → State → Prop}
    {E : ErrCode → DWord → State → Prop} {F : Fault → Prop} (h : r.Ends Q E F) {a : α} {t : State}
    (hr : r = .ok a t) : Q a t := by
  rw [hr] at h; exact h

section
variable {i : Instr} {α β : Type}

theorem Res.Traced.ok {s t : State} (a : α) (h : Updates i s t) : (Res.ok a t).Traced i s := h

theorem Res.Traced.raise {s t : State} {e : ErrCode} (info : DWord) (he : e ≠ .none)
    (h : Updates i s t) : (Res.raise e info t : Res α).Traced i s := ⟨h, he⟩

theorem Res.Traced.stop {s : State} {f : Fault} (h : s.StopsFor f) :
    (Res.stop f : Res α).Traced i s := ⟨s, .refl, h⟩

/-- Updates made before the pseudocode count as the command's too. -/
theorem Res.Traced.after {r : Res α} {s t : State} (h : Updates i s t) (hr : r.Traced i t) :
    r.Traced i s :=
  Res.Ends.mono hr (fun _ _ hu => h.trans hu) (fun _ _ _ hu => ⟨h.trans hu.1, hu.2⟩)
    (fun _ ⟨u, hu, hf⟩ => ⟨u, h.trans hu, hf⟩)

theorem Res.Traced.bind {r : Res α} {f : α → State → Res β} {s : State} (hr : r.Traced i s)
    (hf : ∀ a t, r = .ok a t → Updates i s t → (f a t).Traced i t) : (r.bind f).Traced i s := by
  cases r with
  | ok a t => exact Res.Traced.after hr (hf a t rfl hr)
  | raise e info t => exact hr
  | stop x => exact hr

/-! ### The channel operations -/

theorem readBits_traced (n : Nat) (s : State) (hi : usesInput i = true) :
    (readBits n s).Traced i s := by
  have hc : Updates i s s.countTx := (Update.countTx s).single
  cases h : readBits n s with
  | ok v t =>
    obtain ⟨_, ⟨hl, _, rfl⟩ | ⟨_, _, rfl⟩⟩ := readBits_eq_ok h
    · exact .ok _ (hc.tail (.acceptRead _ n hi hl))
    · exact .ok _ (hc.tail (.exhaust _ hi))
  | raise e info t =>
    obtain ⟨_, rfl, _, rfl⟩ := readBits_eq_raise h
    exact .raise _ (by decide) hc
  | stop x =>
    obtain ⟨ha, rfl⟩ := readBits_eq_stop h
    exact .stop ha

theorem writeBits_traced {n : Nat} (v : BitVec n) (s : State) (hi : writesOutput i = true) :
    (writeBits v s).Traced i s := by
  have hc : Updates i s s.countTx := (Update.countTx s).single
  cases h : writeBits v s with
  | ok u t =>
    obtain ⟨_, _, rfl⟩ := writeBits_eq_ok h
    exact .ok _ (hc.tail (.acceptWrite _ _ hi))
  | raise e info t =>
    obtain ⟨_, ⟨_, rfl, rfl⟩ | ⟨_, _, rfl, rfl⟩⟩ := writeBits_eq_raise h
    · exact .raise _ (by decide) .refl
    · exact .raise _ (by decide) hc
  | stop x =>
    obtain ⟨_, ha, rfl⟩ := writeBits_eq_stop h
    exact .stop ha

/-- After a delivered read the bound of a loop has one turn less to cover. -/
theorem bound_after_read {n bound : Nat} {s t : State} {b : BitVec n} (hn : 0 < n)
    (h : readBits n s = .ok (some b) t) (hb : s.inBits.length - s.inPos < bound + 1) :
    t.inBits.length - t.inPos < bound := by
  obtain ⟨_, ⟨hl, _, rfl⟩ | ⟨_, hv, _⟩⟩ := readBits_eq_ok h
  · show s.inBits.length - (s.inPos + n) < bound
    omega
  · cases hv

/-! ### Counting -/

theorem setCount_update (s : State) (x : Symbol) (v : Word) (hi : writesFreq i = true) :
    Update i s (s.setCount x v) := .setFreq s _ hi

theorem countByte_traced (b : Byte) (s : State) (hi : writesFreq i = true) :
    (countByte b s).Traced i s := by
  rcases countByte_cases b s with ⟨_, hc⟩ | ⟨_, hc⟩ <;> rw [hc]
  · exact .raise _ (by decide) .refl
  · exact .ok _ (setCount_update s _ _ hi).single

/-- Counting a byte leaves the input alone. -/
theorem countByte_ok_input {b : Byte} {s t : State} {c : Word} (h : countByte b s = .ok c t) :
    t.inBits = s.inBits ∧ t.inPos = s.inPos := by
  rcases countByte_cases b s with ⟨_, hc⟩ | ⟨_, hc⟩ <;> rw [hc] at h
  · cases h
  · cases h; exact ⟨rfl, rfl⟩

theorem countLoop_traced (bound n : Nat) (s : State) (hf : writesFreq i = true)
    (hi : usesInput i = true) (hb : s.inBits.length - s.inPos < bound) :
    (countLoop bound n s).Traced i s := by
  induction bound generalizing n s with
  | zero => omega
  | succ bound ih =>
    refine (readBits_traced 8 s hi).bind fun v t hr _ => ?_
    cases v with
    | none => exact .ok _ .refl
    | some b =>
      refine (countByte_traced b t hf).bind fun c u hc _ => ih (n + 1) u ?_
      obtain ⟨hbits, hpos⟩ := countByte_ok_input hc
      rw [hbits, hpos]
      exact bound_after_read (by decide) hr hb

/-! ### Codes -/

theorem emitBits_traced (bits : BitVec 256) (j : Nat) (s : State) (hi : writesOutput i = true) :
    (emitBits bits j s).Traced i s := by
  induction j generalizing s with
  | zero => exact .ok _ .refl
  | succ j ih => exact (writeBits_traced _ s hi).bind fun _ t _ _ => ih t

theorem codePresentAt_traced (s : State) (x : Symbol) (hv : s.codesValid = true) :
    (codePresentAt s x).Traced i s := by
  unfold codePresentAt
  split
  · exact .ok _ .refl
  · rename_i hp
    exact .stop ⟨hv, x, .inl hp⟩

theorem codePresentAt_eq_ok {s t : State} {x : Symbol} {p : Bool}
    (h : codePresentAt s x = .ok p t) : s.codePresent[x.val] = some p ∧ t = s := by
  unfold codePresentAt at h
  split at h
  · rename_i q hq
    cases h
    exact ⟨hq, rfl⟩
  · cases h

theorem codeAt_traced (s : State) (x : Symbol) (hv : s.codesValid = true)
    (hp : s.codePresent[x.val] = some true) : (codeAt s x).Traced i s := by
  unfold codeAt
  cases hl : s.codeLen[x.val] with
  | none => exact .stop ⟨hv, x, .inr ⟨hp, .inl hl⟩⟩
  | some l =>
    cases hb : s.codeBits[x.val] with
    | none => exact .stop ⟨hv, x, .inr ⟨hp, .inr hb⟩⟩
    | some b => exact .ok _ .refl

theorem emitSymbol_traced (x : Symbol) (s : State) (hi : writesOutput i = true)
    (hv : s.codesValid = true) : (emitSymbol x s).Traced i s := by
  refine (codePresentAt_traced s x hv).bind fun p t hp _ => ?_
  obtain ⟨hp, rfl⟩ := codePresentAt_eq_ok hp
  cases p with
  | false => exact .raise _ (by decide) .refl
  | true =>
    refine (codeAt_traced t x hv hp).bind fun c u _ _ => ?_
    exact (emitBits_traced c.2 c.1.toNat u hi).bind fun _ v _ _ => .ok _ .refl

end

/-- CODES_VALID is written by its own commands only. -/
theorem Update.codesValid {i : Instr} {s t : State} (h : Update i s t)
    (hi : writesCodesValid i = false) : t.codesValid = s.codesValid := by
  cases h with
  | buildTree _ h => simp [h, writesCodesValid] at hi
  | beginHeader _ h => simp [h, writesCodesValid] at hi
  | buildCodes _ _ h => simp [h, writesCodesValid] at hi
  | _ => rfl

theorem Updates.codesValid {i : Instr} {s t : State} (h : Updates i s t)
    (hi : writesCodesValid i = false) : t.codesValid = s.codesValid :=
  h.unchanged fun _ _ hu => hu.codesValid hi

section
variable {i : Instr}

theorem encodeLoop_traced (bound n : Nat) (s : State) (hr : usesInput i = true)
    (hw : writesOutput i = true) (hc : writesCodesValid i = false) (hv : s.codesValid = true)
    (hb : s.inBits.length - s.inPos < bound) : (encodeLoop bound n s).Traced i s := by
  induction bound generalizing n s with
  | zero => omega
  | succ bound ih =>
    refine (readBits_traced 8 s hr).bind fun v t hread hst => ?_
    cases v with
    | none => exact .ok _ .refl
    | some b =>
      have hvt : t.codesValid = true := (hst.codesValid hc).trans hv
      refine (emitSymbol_traced (byteSymbol b) t hw hvt).bind fun l u hemit htu => ?_
      refine ih (n + 1) u ((htu.codesValid hc).trans hvt) ?_
      obtain ⟨hframe, hpos⟩ := (emitSymbol_ends (byteSymbol b) t).of_ok hemit
      rw [hframe.inBits, hpos]
      exact bound_after_read (by decide) hread hb

/-! ### The tree header -/

theorem emitTree_traced (t : Tree) (s : State) (hi : writesOutput i = true) :
    (emitTree t s).Traced i s := by
  induction t generalizing s with
  | leaf j x w => exact (writeBits_traced _ s hi).bind fun _ t _ _ => writeBits_traced _ t hi
  | node j w l r ihl ihr =>
    exact (writeBits_traced _ s hi).bind fun _ t _ _ => (ihl t).bind fun _ u _ _ => ihr u

theorem parseLeaf_traced (j : Nat) (p : Parse) (s : State) (hi : usesInput i = true) :
    (parseLeaf j p s).Traced i s := by
  refine (readBits_traced 9 s hi).bind fun v t _ _ => ?_
  cases v with
  | none => exact .raise _ (by decide) .refl
  | some f =>
    dsimp only
    split
    · exact .raise _ (by decide) .refl
    · split
      · exact .raise _ (by decide) .refl
      · exact .ok _ .refl

theorem parse_traced (d : Nat) (p : Parse) (s : State) (hi : usesInput i = true)
    (hd : 514 ≤ d + p.n) (hn : p.n ≤ 513) : (parse d p s).Traced i s := by
  induction d generalizing p s with
  | zero => omega
  | succ d ih =>
    refine (readBits_traced 1 s hi).bind fun v t _ _ => ?_
    cases v with
    | none => exact .raise _ (by decide) .refl
    | some tag =>
      dsimp only
      split
      · exact .raise _ (by decide) .refl
      · rename_i hne
        have hd' : 514 ≤ d + p.take.n := by simp only [Parse.take]; omega
        have hn' : p.take.n ≤ 513 := by simp only [Parse.take]; omega
        split
        · refine (ih p.take t hd' hn').bind fun l u hl _ => ?_
          obtain ⟨_, _, hlt, hle⟩ := (parse_ends d p.take t hd' hn').of_ok hl
          refine (ih l.2 u ?_ hle).bind fun r w _ _ => .ok _ .refl
          omega
        · exact parseLeaf_traced p.n p.take t hi

end

/-! ### The decoder -/

section
variable {i : Instr}

/-- A read leaves DEC_STATE. -/
theorem readBits_ok_decState {n : Nat} {s t : State} {v : Option (BitVec n)}
    (h : readBits n s = .ok v t) : t.decState = s.decState := by
  obtain ⟨⟨_, _, _, _, _, _, rfl⟩, _⟩ := (readBits_ends n s).of_ok h
  rfl

theorem childOfCursor_traced (right : Bool) (s : State) (hd : s.decState = .walking) :
    (childOfCursor right s).Traced i s := by
  unfold childOfCursor
  split
  · rename_i hc
    exact .stop ⟨hd, hc⟩
  · rename_i cur hc
    split
    · exact .ok _ .refl
    · rename_i hn
      exact .stop (.cursor cur hd hc (by simp [hn]))
    · rename_i hn
      exact .stop (.cursor cur hd hc (by simp [hn]))

/-- The child that is found is one of the internal node at DEC_CUR. -/
theorem childOfCursor_eq_ok {right : Bool} {s t : State} {c : NodeIdx}
    (h : childOfCursor right s = .ok c t) :
    t = s ∧ ∃ cur l r w, s.decCur = some cur ∧
      nodeAt s.nodes cur.toNat = some (.internal l r w) ∧ (c = l ∨ c = r) := by
  unfold childOfCursor at h
  split at h
  · cases h
  · rename_i cur hc
    split at h
    · rename_i l r w hn
      cases h
      refine ⟨rfl, cur, l, r, w, hc, hn, ?_⟩
      cases right
      · exact .inl rfl
      · exact .inr rfl
    · cases h
    · cases h

theorem arrive_traced {s : State} {cur c l r : NodeIdx} {w : Option Weight}
    (hi : isDecoder i = true) (hw : writesOutput i = true) (hd : s.decState = .walking)
    (hc : s.decCur = some cur) (hn : nodeAt s.nodes cur.toNat = some (.internal l r w))
    (hlr : c = l ∨ c = r) : (arrive c s).Traced i s := by
  unfold arrive
  split
  · rename_i hnone
    exact .stop (.child cur c l r w hd hc hn hlr hnone)
  · rename_i l' r' w' hin
    exact .ok _ (Update.descend s cur c l r l' r' w w' hi hc hn hlr hin).single
  · split
    · exact .ok _ (Update.endWalk s hi).single
    · refine (writeBits_traced _ s hw).bind fun _ t ht _ => ?_
      obtain ⟨_, _, rfl⟩ := writeBits_eq_ok ht
      exact .ok _ (Update.restart (s.countTx.acceptWrite _) cur l r w hi hc hn).single

theorem decStep_traced (s : State) (hi : isDecoder i = true) (hr : usesInput i = true)
    (hw : writesOutput i = true) (hd : s.decState = .walking) : (decStep s).Traced i s := by
  refine (readBits_traced 1 s hr).bind fun v t hread _ => ?_
  have hdt : t.decState = .walking := (readBits_ok_decState hread).trans hd
  cases v with
  | none => exact .raise _ (by decide) .refl
  | some b =>
    refine (childOfCursor_traced (b == 1#1) t hdt).bind fun c u hchild _ => ?_
    obtain ⟨rfl, cur, l, r, w, hc, hn, hlr⟩ := childOfCursor_eq_ok hchild
    exact arrive_traced hi hw hdt hc hn hlr

/-- A byte's step code is not 0: its bit 0 is set (R111). -/
theorem byteCode_ne_zero (x : Symbol) : byteCode x ≠ 0#64 := fun h => by
  have hbit := congrArg (fun d => BitVec.getLsbD d 0) h
  simp [byteCode] at hbit

/-- Only the step that answers 0 or a byte goes on, and it keeps DEC_STATE. -/
theorem arrive_zero_decState {c : NodeIdx} {s t : State} (h : arrive c s = .ok 0#64 t) :
    t.decState = s.decState := by
  unfold arrive at h
  split at h
  · cases h
  · cases h; rfl
  · split at h
    · simp only [Res.ok.injEq] at h
      exact absurd h.1 (by decide)
    · obtain ⟨_, u, _, hu⟩ := Res.bind_eq_ok h
      simp only [Res.ok.injEq] at hu
      exact absurd hu.1 (byteCode_ne_zero _)

theorem decStep_zero_decState {s t : State} (h : decStep s = .ok 0#64 t) :
    t.decState = s.decState := by
  obtain ⟨v, u, hread, h⟩ := Res.bind_eq_ok h
  cases v with
  | none => cases h
  | some b =>
    obtain ⟨c, u', hchild, harrive⟩ := Res.bind_eq_ok h
    obtain ⟨rfl, _⟩ := childOfCursor_eq_ok hchild
    exact (arrive_zero_decState harrive).trans (readBits_ok_decState hread)

/-- After a step of the walk the bound of a loop has one turn less to cover. -/
theorem bound_after_decStep {bound : Nat} {s t : State} {r : DWord} (h : decStep s = .ok r t)
    (hb : s.inBits.length - s.inPos < bound + 1) : t.inBits.length - t.inPos < bound := by
  obtain ⟨hframe, hpos, hlen⟩ := (decStep_ends s).of_ok h
  rw [hframe.inBits, hpos]
  omega

theorem symbolLoop_traced (bound : Nat) (s : State) (hi : isDecoder i = true)
    (hr : usesInput i = true) (hw : writesOutput i = true) (hd : s.decState = .walking)
    (hb : s.inBits.length - s.inPos < bound) : (symbolLoop bound s).Traced i s := by
  induction bound generalizing s with
  | zero => omega
  | succ bound ih =>
    refine (decStep_traced s hi hr hw hd).bind fun r t hstep _ => ?_
    split
    · rename_i hzero
      subst hzero
      exact ih t ((decStep_zero_decState hstep).trans hd) (bound_after_decStep hstep hb)
    · exact .ok _ .refl

theorem streamLoop_traced (bound n : Nat) (s : State) (hi : isDecoder i = true)
    (hr : usesInput i = true) (hw : writesOutput i = true)
    (hb : s.inBits.length - s.inPos < bound) : (streamLoop bound n s).Traced i s := by
  induction bound generalizing n s with
  | zero => omega
  | succ bound ih =>
    unfold streamLoop
    split
    · rename_i hd
      exact (decStep_traced s hi hr hw hd).bind fun r t hstep _ =>
        ih _ t (bound_after_decStep hstep hb)
    · exact .ok _ .refl

/-- Only WALKING lets a decoder command go on (R113 to R115). -/
theorem whenWalking_traced (j : Instr) (s : State) (doneResult : DWord) {k : Res DWord}
    (hk : s.decState = .walking → k.Traced i s) : (whenWalking j s doneResult k).Traced i s := by
  unfold whenWalking
  split
  · exact .raise _ (by decide) .refl
  · exact .raise _ (by decide) .refl
  · exact .ok _ .refl
  · rename_i hd
    exact hk hd

/-! ### Every command -/

/-- An operand that names no symbol raises ILLEGAL_COMMAND. -/
theorem withSymbol_traced (j : Instr) (sym : SymField) (s : State) {k : Symbol → Res DWord}
    (hk : ∀ x, (k x).Traced i s) : (withSymbol j sym s k).Traced i s := by
  unfold withSymbol
  split
  · exact hk _
  · exact .raise _ (by decide) .refl

/-- A precondition of the command: NOT_READY where it fails (R124). -/
theorem ready_traced {α : Type} (j : Instr) (s : State) (b : Bool) {k : Res α}
    (hk : b = true → k.Traced i s) : (if b then k else notReady j s).Traced i s := by
  cases b with
  | false => exact .raise _ (by decide) .refl
  | true => exact hk rfl

theorem encReady_traced {α : Type} (j : Instr) (s : State) {k : Res α}
    (hk : s.codesValid = true → k.Traced i s) : (encReady j s k).Traced i s := by
  refine ready_traced j s s.codesValid fun hv => ?_
  split
  · exact .raise _ (by decide) .refl
  · exact hk hv

theorem withHeldTree_traced {α : Type} (s : State) {k : Tree → Res α} (hv : s.treeValid = true)
    (hk : ∀ t, s.heldTree = some t → (k t).Traced i s) : (withHeldTree s k).Traced i s := by
  unfold withHeldTree
  split
  · rename_i t ht
    exact hk t ht
  · rename_i hnone
    exact .stop (.held hv hnone)

end

/-- The kind of a command in the error entry (R127). -/
def kindOf (i : Instr) : CmdKind := if isDecoder i then .decoder else .other

/-- The command is pseudocode that only makes the command's updates, and then the end of a command. -/
def Runs (i : Instr) (s : State) : Prop :=
  ∃ r, exec i s = finish (kindOf i) r ∧ r.Traced i s

theorem inReset_runs (s : State) : Runs .inReset s := by
  refine ⟨_, rfl, ?_⟩
  have hc : Updates .inReset s s.countTx := (Update.countTx s).single
  rcases chanReset_cases s with ⟨_, h⟩ | ⟨_, h⟩ | ⟨ha, h⟩ <;> rw [h]
  · exact .ok _ (hc.tail (.rewind _ rfl))
  · exact .raise _ (by decide) hc
  · exact .stop ha

theorem outClose_runs (s : State) : Runs .outClose s := by
  have hc : Updates .outClose s s.shutOut.countTx :=
    (Update.shutOut s rfl).single.tail (.countTx _)
  rcases chanClose_cases s with ⟨_, h⟩ | ⟨_, _, h⟩ | ⟨_, _, h⟩ | ⟨_, ha, h⟩
  · refine ⟨.ok s.outBitsWritten s, ?_, .ok _ .refl⟩
    simp only [exec, execOutClose, h]; rfl
  · refine ⟨.ok s.outBitsWritten s.shutOut.countTx.closeChannel, ?_,
      .ok _ (hc.tail (.closeChannel _ rfl rfl))⟩
    simp only [exec, execOutClose, h]; rfl
  · refine ⟨.raise .ioWriteFail s.outBitsWritten s.shutOut.countTx, ?_, .raise _ (by decide) hc⟩
    simp only [exec, execOutClose, h]; rfl
  · refine ⟨.stop .channelSilent, ?_, .stop ha⟩
    simp only [exec, execOutClose, h]; rfl

theorem freqCount_runs (b : Byte) (s : State) : Runs (.freqCount b) s :=
  ⟨_, rfl, (countByte_traced b s rfl).bind fun _ _ _ _ => .ok _ .refl⟩

theorem freqCountStream_runs (s : State) : Runs .freqCountStream s := by
  refine ⟨_, rfl, ?_⟩
  split
  · exact .raise _ (by decide) .refl
  · have hf : Updates .freqCountStream s (s.setFreq zeroFreq) := (Update.setFreq s _ rfl).single
    refine .after hf ((countLoop_traced _ 0 (s.setFreq zeroFreq) rfl rfl
      (inputBound_enough s)).bind fun n t _ _ => ?_)
    exact .ok _ (setCount_update t sentinel 1#32 rfl).single

theorem treeBuild_runs (s : State) : Runs .treeBuild s := by
  refine ⟨_, rfl, ?_⟩
  split
  · exact .raise _ (by decide) .refl
  · rename_i hne
    exact .ok _ (Update.buildTree s rfl (by simpa using hne)).single

theorem nodeRead_runs (index : Word) (s : State) : Runs (.nodeRead index) s := by
  refine ⟨_, rfl, ready_traced _ s _ fun hv => ?_⟩
  split
  · rename_i hidx
    split
    · exact .ok _ .refl
    · rename_i hnone
      exact .stop (.entry index.toNat hv (by simpa [nodeIndexOk] using hidx) hnone)
  · exact .raise _ (by decide) .refl

theorem nodeWeightRead_runs (index : Word) (s : State) : Runs (.nodeWeightRead index) s := by
  refine ⟨_, rfl, ready_traced _ s _ fun hv => ?_⟩
  obtain ⟨hv, hs⟩ : s.treeValid = true ∧ s.treeSrc = .built := by simpa using hv
  split
  · rename_i hidx
    split
    · exact .ok _ .refl
    · rename_i hnone
      exact .stop (.weight index.toNat hv hs (by simpa [nodeIndexOk] using hidx) hnone)
  · exact .raise _ (by decide) .refl

theorem codesBuild_runs (s : State) : Runs .codesBuild s :=
  ⟨_, rfl, ready_traced _ s _ fun hv => withHeldTree_traced s hv fun t ht =>
    .ok _ (Update.buildCodes s t rfl hv ht).single⟩

/-- The two reads of the code table: CODE_PRESENT, and the code where there is one (R98, R99). -/
theorem codeRead_traced {i : Instr} (s : State) (x : Symbol) (hv : s.codesValid = true)
    (f : BitVec 9 × BitVec 256 → DWord) :
    ((codePresentAt s x).bind fun p t =>
      if p then (codeAt t x).bind fun c u => .ok (f c) u else .ok 0#64 t).Traced i s := by
  refine (codePresentAt_traced s x hv).bind fun p t hp _ => ?_
  obtain ⟨hp, rfl⟩ := codePresentAt_eq_ok hp
  cases p with
  | false => exact .ok _ .refl
  | true => exact (codeAt_traced t x hv hp).bind fun _ _ _ _ => .ok _ .refl

theorem codeLenRead_runs (sym : SymField) (s : State) : Runs (.codeLenRead sym) s :=
  ⟨_, rfl, withSymbol_traced _ sym s fun x => ready_traced _ s _ fun hv => codeRead_traced s x hv _⟩

theorem codeBitsRead_runs (sym : SymField) (k : Word) (s : State) : Runs (.codeBitsRead sym k) s := by
  refine ⟨_, rfl, withSymbol_traced _ sym s fun x => ready_traced _ s _ fun hv => ?_⟩
  split
  · exact codeRead_traced s x hv _
  · exact .raise _ (by decide) .refl

theorem magicWrite_runs (s : State) : Runs .magicWrite s :=
  ⟨_, rfl, (writeBits_traced _ s rfl).bind fun _ _ _ _ => .ok _ .refl⟩

theorem magicRead_runs (s : State) : Runs .magicRead s := by
  refine ⟨_, rfl, (readBits_traced 32 s rfl).bind fun v t _ _ => ?_⟩
  cases v with
  | none => exact .raise _ (by decide) .refl
  | some m =>
    dsimp only
    split
    · exact .ok _ .refl
    · exact .raise _ (by decide) .refl

theorem headerWrite_runs (s : State) : Runs .headerWrite s :=
  ⟨_, rfl, ready_traced _ s _ fun hv => withHeldTree_traced s hv fun t _ =>
    (emitTree_traced t s rfl).bind fun _ u _ _ =>
      .ok _ (Update.setEnded u false rfl (by simp)).single⟩

/-- HEADER_READ clears TREE_VALID first and its pass leaves it so; NODE is lost on an error (R104). -/
theorem headerRead_runs (s : State) : Runs .headerRead s := by
  refine ⟨_, rfl, ?_⟩
  have hbegin : Updates .headerRead s (beginHeaderRead s) := (Update.beginHeader s rfl).single
  have hpass := parse_traced (i := .headerRead) 514 Parse.start (beginHeaderRead s) rfl
    (by decide) (by decide)
  have hframe := parse_ends 514 Parse.start (beginHeaderRead s) (by decide) (by decide)
  cases hp : parse 514 Parse.start (beginHeaderRead s) with
  | ok r t =>
    rw [hp] at hpass hframe
    obtain ⟨⟨_, _, _, _, _, _, rfl⟩, _⟩ := hframe
    exact .ok _ ((hbegin.trans hpass).tail (.holdHeader _ _ r rfl rfl hp))
  | raise e info t =>
    rw [hp] at hpass hframe
    obtain ⟨⟨_, _, _, _, _, _, rfl⟩, _⟩ := hframe
    exact .raise _ hpass.2 ((hbegin.trans hpass.1).tail (.loseNodes _ rfl rfl))
  | stop x =>
    rw [hp] at hpass
    exact Res.Traced.after (r := .stop x) hbegin hpass

theorem encSymbol_runs (b : Byte) (s : State) : Runs (.encSymbol b) s :=
  ⟨_, rfl, encReady_traced _ s fun hv =>
    (emitSymbol_traced _ s rfl hv).bind fun _ _ _ _ => .ok _ .refl⟩

theorem encEos_runs (s : State) : Runs .encEos s :=
  ⟨_, rfl, encReady_traced _ s fun hv =>
    (emitSymbol_traced _ s rfl hv).bind fun _ t _ ht =>
      .ok _ (Update.setEnded t true rfl fun _ => (ht.codesValid rfl).trans hv).single⟩

theorem encStream_runs (s : State) : Runs .encStream s := by
  refine ⟨_, rfl, encReady_traced _ s fun hv => ?_⟩
  split
  · exact .raise _ (by decide) .refl
  · refine (encodeLoop_traced _ 0 s rfl rfl rfl hv (inputBound_enough s)).bind fun n t _ ht => ?_
    have hvt : t.codesValid = true := (ht.codesValid rfl).trans hv
    refine (emitSymbol_traced sentinel t rfl hvt).bind fun _ u _ hu => ?_
    exact .ok _ (Update.setEnded u true rfl fun _ => (hu.codesValid rfl).trans hvt).single

theorem decStart_runs (s : State) : Runs .decStart s := by
  refine ⟨_, rfl, ready_traced _ s _ fun hv => ?_⟩
  split
  · rename_i hnone
    exact .stop (.root hv hnone)
  · rename_i l r w hn
    exact .ok _ (Update.startWalk s l r w rfl hv hn).single
  · split
    · exact .ok _ (Update.endWalk s rfl).single
    · exact .raise _ (by decide) .refl

theorem decBit_runs (s : State) : Runs .decBit s :=
  ⟨_, rfl, whenWalking_traced _ s _ fun hd => decStep_traced s rfl rfl rfl hd⟩

theorem decSymbol_runs (s : State) : Runs .decSymbol s :=
  ⟨_, rfl, whenWalking_traced _ s _ fun hd =>
    symbolLoop_traced _ s rfl rfl rfl hd (inputBound_enough s)⟩

theorem decStream_runs (s : State) : Runs .decStream s :=
  ⟨_, rfl, whenWalking_traced _ s _ fun _ =>
    (streamLoop_traced _ 0 s rfl rfl rfl (inputBound_enough s)).bind fun _ _ _ _ => .ok _ .refl⟩

/-- R41: every command is made of the updates its row allows, and of the end of a command. -/
theorem exec_runs (i : Instr) (s : State) : Runs i s := by
  cases i with
  | nop => exact ⟨_, rfl, .ok _ .refl⟩
  | errClear => exact ⟨_, rfl, .ok _ (Update.unlatch s rfl).single⟩
  | inReset => exact inReset_runs s
  | outClose => exact outClose_runs s
  | cntRead sel => exact ⟨_, rfl, .ok _ .refl⟩
  | freqClear => exact ⟨_, rfl, .ok _ (Update.setFreq s zeroFreq rfl).single⟩
  | freqCount b => exact freqCount_runs b s
  | freqSetEos => exact ⟨_, rfl, .ok _ (setCount_update s sentinel 1#32 rfl).single⟩
  | freqWrite sym count =>
    exact ⟨_, rfl, withSymbol_traced _ sym s fun x => .ok _ (setCount_update s x count rfl).single⟩
  | freqRead sym => exact ⟨_, rfl, withSymbol_traced _ sym s fun _ => .ok _ .refl⟩
  | freqCountStream => exact freqCountStream_runs s
  | treeBuild => exact treeBuild_runs s
  | treeInfo => exact ⟨_, rfl, ready_traced _ s _ fun _ => .ok _ .refl⟩
  | nodeRead index => exact nodeRead_runs index s
  | nodeWeightRead index => exact nodeWeightRead_runs index s
  | codesBuild => exact codesBuild_runs s
  | codeLenRead sym => exact codeLenRead_runs sym s
  | codeBitsRead sym k => exact codeBitsRead_runs sym k s
  | magicWrite => exact magicWrite_runs s
  | magicRead => exact magicRead_runs s
  | headerWrite => exact headerWrite_runs s
  | headerRead => exact headerRead_runs s
  | encSymbol b => exact encSymbol_runs b s
  | encEos => exact encEos_runs s
  | encStream => exact encStream_runs s
  | decStart => exact decStart_runs s
  | decBit => exact decBit_runs s
  | decSymbol => exact decSymbol_runs s
  | decStream => exact decStream_runs s

/-! ### The error entry as one state -/

/-- The registers the error entry writes first, field by field (R127). -/
theorem latchError_eq (u : CmdKind) (e : ErrCode) (info : DWord) (s : State) :
    latchError u e info s =
      { s with
        err := true, errCode := e, errInfo := info,
        decState := if decide (u = .decoder ∧ e ≠ .notReady) then .error else s.decState,
        decCur := if decide (u = .decoder ∧ e ≠ .notReady) then none else s.decCur } := by
  unfold latchError
  by_cases h : u = .decoder ∧ e ≠ .notReady
  · rw [if_pos h, decide_eq_true h]; rfl
  · rw [if_neg h, decide_eq_false h]; rfl

/-- Latching an error asks no channel. -/
theorem latchError_answer (u : CmdKind) (e : ErrCode) (info : DWord) (s : State) :
    (latchError u e info s).answer = s.answer := by
  rw [latchError_eq]; rfl

/-- What an answered close leaves, field by field (R51). -/
theorem chanClose_answered {s t : State} {ok : Bool} (h : chanClose s = .answered ok t) :
    t = { s with
      outOpen := false, outClosed := s.outClosed || (s.outOpen && s.answer == .accept),
      txCount := if s.outOpen then s.txCount + 1 else s.txCount } := by
  rcases chanClose_cases s with ⟨ho, hc⟩ | ⟨ho, ha, hc⟩ | ⟨ho, ha, hc⟩ | ⟨_, _, hc⟩ <;>
    rw [hc] at h <;> cases h
  · cases s
    cases ho
    simp
  · simp [State.shutOut, State.countTx, State.closeChannel, ho, ha]
  · have hne : (Answer.fail == Answer.accept) = false := rfl
    simp [State.shutOut, State.countTx, ho, ha, hne]

/-- Where the error entry gives a next state, it is the one of the table (R127). -/
theorem enterError_next {u : CmdKind} {e : ErrCode} {info : DWord} {s t : State}
    (h : enterError u e info s = .next t) :
    t = s.afterError (decide (u = .decoder ∧ e ≠ .notReady)) e info := by
  obtain ⟨ok, c, hc, rfl⟩ := enterError_eq_next h
  rw [chanClose_answered hc, latchError_eq]
  rfl

/-- The error entry stops only where its close is never answered. -/
theorem enterError_fault {u : CmdKind} {e : ErrCode} {info : DWord} {s : State} {f : Fault}
    (h : enterError u e info s = .fault f) : s.StopsFor f := by
  unfold enterError at h
  rcases chanClose_cases (latchError u e info s) with
    ⟨_, hcc⟩ | ⟨_, _, hcc⟩ | ⟨_, _, hcc⟩ | ⟨_, ha, hcc⟩ <;> rw [hcc] at h <;> cases h
  exact (latchError_answer u e info s).symm.trans ha

/-! ### What a command and a step can do -/

/-- R123: a command that gives a next state has made some of its updates and then completed, or raised an error. -/
theorem exec_next {i : Instr} {s t : State} (h : exec i s = .next t) :
    ∃ u, Updates i s u ∧
      ((∃ v, t = u.respond true false v) ∨
       (∃ e info, e ≠ .none ∧
         t = u.afterError (decide (kindOf i = .decoder ∧ e ≠ .notReady)) e info)) := by
  obtain ⟨r, hr, htr⟩ := exec_runs i s
  rw [hr] at h
  obtain ⟨v, u, rfl, rfl⟩ | ⟨e, info, u, rfl, he⟩ := finish_eq_next h
  · exact ⟨u, htr, .inl ⟨v, rfl⟩⟩
  · exact ⟨u, htr.1, .inr ⟨e, info, htr.2, enterError_next he⟩⟩

/-- R21, R49: a command stops only in a state its updates lead to, for the reason it gives. -/
theorem exec_fault {i : Instr} {s : State} {f : Fault} (h : exec i s = .fault f) :
    ∃ u, Updates i s u ∧ u.StopsFor f := by
  obtain ⟨r, hr, htr⟩ := exec_runs i s
  rw [hr] at h
  cases r with
  | ok v u => cases h
  | raise e info u => exact ⟨u, htr.1, enterError_fault h⟩
  | stop x => cases h; exact htr

theorem exec_ne_refused (i : Instr) (s : State) (r : Refusal) : exec i s ≠ .refused r := by
  obtain ⟨_, hr, _⟩ := exec_runs i s
  rw [hr]
  exact finish_ne_refused

/-- Everything the block can do with a command on its port (R126). -/
theorem issue_cases (w arg : Word) (s : State) :
    issue w arg s = .next (reject s) ∨ issue w arg s = raiseIllegal w s ∨
      ∃ i, issue w arg s = exec i s := by
  unfold issue
  split
  · exact .inl rfl
  · split
    · exact .inr (.inl rfl)
    · exact .inr (.inr ⟨_, rfl⟩)

/-- Everything a step can do: wait, take a reset, or issue a command. -/
theorem step_cases (s : State) :
    step s = .next s ∨ (∃ fresh rest, step s = .next (s.afterReset fresh rest)) ∨
      ∃ w arg rest, step s = issue w arg (s.setHost rest) := by
  unfold step takeAct
  split
  · exact .inl rfl
  · exact .inr (.inr ⟨_, _, _, rfl⟩)
  · exact .inr (.inl ⟨_, _, rfl⟩)
  · exact .inr (.inl ⟨_, _, rfl⟩)

/-- An invariant of steps: it holds after every reset, it does not depend on the host's acts and the responses,
and the updates of the commands and the error entry keep it. -/
structure StepInvariant (P : State → Prop) : Prop where
  afterReset : ∀ (s : State) fresh rest, P (s.afterReset fresh rest)
  setHost : ∀ (s : State) rest, P s → P (s.setHost rest)
  respond : ∀ (s : State) ok rejected v, P s → P (s.respond ok rejected v)
  afterError : ∀ (s : State) b e info, e ≠ .none → P s → P (s.afterError b e info)
  update : ∀ i s t, P s → Update i s t → P t

theorem StepInvariant.exec {P : State → Prop} (hP : StepInvariant P) {i : Instr} {s t : State}
    (hs : P s) (h : exec i s = .next t) : P t := by
  obtain ⟨u, hu, ⟨v, rfl⟩ | ⟨e, info, he, rfl⟩⟩ := exec_next h
  · exact hP.respond _ _ _ _ (hu.keeps (hP.update i) hs)
  · exact hP.afterError _ _ _ _ he (hu.keeps (hP.update i) hs)

/-- Every step keeps an invariant of steps. -/
theorem StepInvariant.step {P : State → Prop} (hP : StepInvariant P) {s t : State}
    (hs : P s) (h : step s = .next t) : P t := by
  rcases step_cases s with hw | ⟨fresh, rest, hr⟩ | ⟨w, arg, rest, hi⟩
  · rw [hw] at h; cases h; exact hs
  · rw [hr] at h; cases h; exact hP.afterReset _ _ _
  · have hh : P (s.setHost rest) := hP.setHost _ _ hs
    rw [hi] at h
    rcases issue_cases w arg (s.setHost rest) with hj | hj | ⟨i, hj⟩ <;> rw [hj] at h
    · cases h; exact hP.respond _ _ _ _ hh
    · rw [enterError_next h]; exact hP.afterError _ _ _ _ (by decide) hh
    · exact hP.exec hh h

/-- A step that stops does so in a state that updates of one command lead to, for the reason it gives. -/
theorem step_fault {s : State} {f : Fault} (h : step s = .fault f) :
    ∃ i rest u, Updates i (s.setHost rest) u ∧ u.StopsFor f := by
  rcases step_cases s with hw | ⟨fresh, rest, hr⟩ | ⟨w, arg, rest, hi⟩
  · rw [hw] at h; cases h
  · rw [hr] at h; cases h
  · rw [hi] at h
    rcases issue_cases w arg (s.setHost rest) with hj | hj | ⟨i, hj⟩ <;> rw [hj] at h
    · cases h
    · exact ⟨.nop, rest, _, .refl, enterError_fault h⟩
    · obtain ⟨u, hu, hf⟩ := exec_fault h
      exact ⟨i, rest, u, hu, hf⟩

theorem step_ne_refused (s : State) (r : Refusal) : step s ≠ .refused r := by
  rcases step_cases s with hw | ⟨fresh, rest, hr⟩ | ⟨w, arg, rest, hi⟩
  · simp [hw]
  · simp [hr]
  · rw [hi]
    rcases issue_cases w arg (s.setHost rest) with hj | hj | ⟨i, hj⟩ <;> rw [hj]
    · simp
    · exact enterError_ne_refused
    · exact exec_ne_refused i _ r

/-! ### The state after reset -/

/-- The state after reset meets the whole invariant, whatever the fresh channels (R142, R143). -/
theorem afterReset_inv (s : State) (fresh : Channels) (rest : List HostAct) :
    (s.afterReset fresh rest).Inv where
  tree := fun h => absurd h Bool.false_ne_true
  codes := fun h => absurd h Bool.false_ne_true
  dec := ⟨fun _ => rfl, fun h => nomatch (show DecState.idle = .walking from h)⟩
  ended := fun h => absurd h Bool.false_ne_true
  err := ⟨fun _ => ⟨rfl, rfl⟩, fun h => absurd h Bool.false_ne_true⟩
  chan := ⟨Nat.zero_le _, fun h => absurd h Bool.false_ne_true, fun _ => rfl, rfl,
    fun h => absurd h Bool.false_ne_true⟩

/-- Settles O51: the state after reset is what a reset with an empty input leaves. -/
theorem resetMeetsTheInvariant : Obligations.ResetMeetsTheInvariant :=
  afterReset_inv State.reset ⟨[], []⟩ []

/-! ### The error registers -/

/-- ERR_CLEAR clears the registers together, and no other update writes them or opens the output. -/
theorem Update.errInv {i : Instr} {s t : State} (hs : s.ErrInv) (h : Update i s t) : t.ErrInv := by
  cases h with
  | unlatch => exact ⟨fun _ => ⟨rfl, rfl⟩, fun h => absurd h Bool.false_ne_true⟩
  | shutOut => exact ⟨hs.1, fun h => ⟨(hs.2 h).1, rfl⟩⟩
  | _ => exact hs

theorem errInv_stepInvariant : StepInvariant State.ErrInv where
  afterReset s fresh rest := (afterReset_inv s fresh rest).err
  setHost _ _ hs := hs
  respond _ _ _ _ hs := hs
  afterError _ _ _ _ he _ := ⟨fun h => absurd h.symm Bool.false_ne_true, fun _ => ⟨he, rfl⟩⟩
  update _ _ _ hs h := h.errInv hs

/-- Settles O55: the error entry latches a code and closes the output, and ERR_CLEAR is the only update of the
error registers. -/
theorem stepKeepsTheErrorInvariant : Obligations.StepKeepsTheErrorInvariant :=
  fun _ _ hs h => errInv_stepInvariant.step hs h

/-! ### The channels' flags and counters, and ENC_ENDED -/

theorem acceptRead_chanInv {s : State} {n : Nat} (hs : s.ChanInv)
    (hl : s.inPos + n ≤ s.inBits.length) : (s.acceptRead n).ChanInv := by
  obtain ⟨_, hend, hread, hout, hclosed⟩ := hs
  refine ⟨hl, fun hx => ?_, fun hx => ?_, hout, hclosed⟩
  · have := hend hx
    show s.inPos + n = s.inBits.length
    omega
  · show s.inBitsRead + BitVec.ofNat 64 n = BitVec.ofNat 64 (s.inPos + n)
    rw [hread hx, BitVec.ofNat_add]

theorem acceptWrite_chanInv {s : State} (bits : List Bool) (hs : s.ChanInv) :
    (s.acceptWrite bits).ChanInv := by
  obtain ⟨hpos, hend, hread, hout, hclosed⟩ := hs
  refine ⟨hpos, hend, hread, ?_, hclosed⟩
  show s.outBitsWritten + BitVec.ofNat 64 bits.length = BitVec.ofNat 64 (s.outBits ++ bits).length
  rw [hout, List.length_append, BitVec.ofNat_add]

theorem Update.chanInv {i : Instr} {s t : State} (hs : s.ChanInv) (h : Update i s t) :
    t.ChanInv := by
  obtain ⟨hpos, hend, hread, hout, hclosed⟩ := id hs
  cases h with
  | acceptRead _ n _ hl => exact acceptRead_chanInv hs hl
  | exhaust =>
    exact ⟨Nat.le_refl _, fun _ => rfl, fun h => absurd h.symm Bool.false_ne_true, hout, hclosed⟩
  | rewind =>
    exact ⟨Nat.zero_le _, fun h => absurd h Bool.false_ne_true, fun _ => rfl, hout, hclosed⟩
  | acceptWrite _ bits => exact acceptWrite_chanInv bits hs
  | shutOut => exact ⟨hpos, hend, hread, hout, fun _ => rfl⟩
  | closeChannel _ _ ho => exact ⟨hpos, hend, hread, hout, fun _ => ho⟩
  | _ => exact hs

/-- The commands that drop the codes clear ENC_ENDED with them; it is set under valid codes only. -/
theorem Update.endInv {i : Instr} {s t : State} (hs : s.EndInv) (h : Update i s t) : t.EndInv := by
  cases h with
  | buildTree => exact fun h => absurd h Bool.false_ne_true
  | beginHeader => exact fun h => absurd h Bool.false_ne_true
  | buildCodes => exact fun _ => rfl
  | setEnded _ b _ hb => exact hb
  | _ => exact hs

theorem chanInv_endInv_stepInvariant : StepInvariant fun s => s.ChanInv ∧ s.EndInv where
  afterReset s fresh rest := ⟨(afterReset_inv s fresh rest).chan, (afterReset_inv s fresh rest).ended⟩
  setHost _ _ hs := hs
  respond _ _ _ _ hs := hs
  afterError _ _ _ _ _ hs := by
    obtain ⟨⟨hpos, hend, hread, hout, _⟩, hended⟩ := hs
    exact ⟨⟨hpos, hend, hread, hout, fun _ => rfl⟩, hended⟩
  update _ _ _ hs h := ⟨h.chanInv hs.1, h.endInv hs.2⟩

/-- Settles O56: each channel update moves its counter with it. -/
theorem stepKeepsTheChannelInvariant : Obligations.StepKeepsTheChannelInvariant :=
  fun _ _ hc he h => chanInv_endInv_stepInvariant.step ⟨hc, he⟩ h

/-! ### The code table -/

/-- The table is built from the held tree, and what replaces the tree drops the codes first. -/
theorem Update.codesInv {i : Instr} {s t : State} (hs : s.CodesInv) (h : Update i s t) :
    t.CodesInv := by
  cases h with
  | buildTree => exact fun h => absurd h Bool.false_ne_true
  | beginHeader => exact fun h => absurd h Bool.false_ne_true
  | holdHeader _ _ _ _ hv =>
    exact fun hc => absurd ((hs hc).1.symm.trans hv) (by decide)
  | loseNodes _ _ hv => exact fun hc => absurd ((hs hc).1.symm.trans hv) (by decide)
  | buildCodes _ tree _ hv ht => exact fun _ => ⟨hv, tree, ht, rfl⟩
  | _ => exact hs

theorem codesInv_stepInvariant : StepInvariant State.CodesInv where
  afterReset s fresh rest := (afterReset_inv s fresh rest).codes
  setHost _ _ hs := hs
  respond _ _ _ _ hs := hs
  afterError _ _ _ _ _ hs := hs
  update _ _ _ hs h := h.codesInv hs

/-- Settles O53: only CODES_BUILD sets CODES_VALID, from the held tree, and no tree is replaced under it. -/
theorem stepKeepsTheCodesOfTheTree : Obligations.StepKeepsTheCodesOfTheTree :=
  fun _ _ hs h => codesInv_stepInvariant.step hs h

/-! ### The STATUS word -/

/-- STATUS by its bits: the fields from bit 0 up, each by its width (R35). -/
theorem statusWord_getLsbD (ok rejected : Bool) (s : State) (k : Nat) :
    (statusWord ok rejected s).getLsbD k =
      if k < 1 then ok
      else if k < 2 then s.err
      else if k < 3 then rejected
      else if k < 4 then s.treeValid
      else if k < 5 then s.treeSrc.code.getLsbD (k - 4)
      else if k < 6 then s.codesValid
      else if k < 7 then s.encEnded
      else if k < 8 then s.outOpen
      else if k < 10 then s.decState.code.getLsbD (k - 8)
      else if k < 11 then s.inExhausted
      else if k < 16 then false
      else s.errCode.code.getLsbD (k - 16) := by
  unfold statusWord
  simp only [BitVec.getLsbD_append]
  rcases Nat.lt_or_ge k 24 with hk | hk
  · interval_cases k <;> simp
  · simp (disch := omega) only [if_neg, BitVec.getLsbD_zero, BitVec.getLsbD_of_ge]

/-- Settles O10: each bit is found by its place in `statusWord_getLsbD`. -/
theorem statusWordFields : Obligations.StatusWordFields := by
  refine ⟨by decide, by decide, fun ok rejected s => ?_⟩
  have hsrc : s.treeSrc.code.getLsbD 0 = decide (s.treeSrc = .header) := by
    cases s.treeSrc <;> rfl
  refine ⟨?_, ?_, ?_, ?_, hsrc ▸ ?_, ?_, ?_, ?_, ?_, ?_, ?_, ?_, ?_⟩
  case refine_9 | refine_11 | refine_12 | refine_13 =>
    refine BitVec.eq_of_getLsbD_eq fun k hk => ?_
    rw [BitVec.getLsbD_extractLsb', statusWord_getLsbD]
    simp (disch := omega) [hk, if_neg, if_pos, BitVec.getLsbD_of_ge]
  all_goals rw [statusWord_getLsbD]; rfl

/-! ### The access table -/

/-- NODE and the tree registers, with the count of free values that NODE takes (R25, R26). -/
def State.treePart (s : State) : NodeTable × Bool × TreeSrc × NodeIdx × NodeIdx × NodeIdx × Nat :=
  (s.nodes, s.treeValid, s.treeSrc, s.root, s.nodeCount, s.leafCount, s.freeDraws)

/-- The decoder's registers (R31). -/
def State.decPart (s : State) : DecState × Option NodeIdx := (s.decState, s.decCur)

/-- The position, flag and counter of the input channel (R33, R34, R45). -/
def State.inputPart (s : State) : Nat × Bool × DWord := (s.inPos, s.inExhausted, s.inBitsRead)

/-- The bits and the counter of the output channel (R34, R45). -/
def State.outputPart (s : State) : List Bool × DWord := (s.outBits, s.outBitsWritten)

/-- Whether the output is open, for the block and for the channel (R33, R45). -/
def State.closedPart (s : State) : Bool × Bool := (s.outOpen, s.outClosed)

/-- The error registers (R32). -/
def State.errPart (s : State) : Bool × ErrCode × DWord := (s.err, s.errCode, s.errInfo)

/-- The parameter and what the environment attaches (R40, R45, R139). -/
def State.envPart (s : State) : Word × List Bool × List (Nat × Answer) × List HostAct :=
  (s.magic, s.inBits, s.txAnswers, s.host)

section
variable {i : Instr} {s t : State}

theorem Update.freq (h : Update i s t) (hi : writesFreq i = false) : t.freq = s.freq := by
  cases h with
  | setFreq _ f h => exact absurd (h.symm.trans hi) (by decide)
  | _ => rfl

theorem Update.treePart (h : Update i s t) (hi : writesTree i = false) :
    t.treePart = s.treePart := by
  cases h with
  | buildTree _ h => rw [h] at hi; cases hi
  | beginHeader _ h => rw [h] at hi; cases hi
  | holdHeader _ _ _ h => rw [h] at hi; cases hi
  | loseNodes _ h => rw [h] at hi; cases hi
  | _ => rfl

theorem Update.codes (h : Update i s t) (hb : i ≠ .treeBuild) (hc : i ≠ .codesBuild) :
    t.codes = s.codes := by
  cases h with
  | buildTree _ h => exact absurd h hb
  | buildCodes _ _ h => exact absurd h hc
  | _ => rfl

theorem Update.encEnded (h : Update i s t) (hi : writesEnded i = false) :
    t.encEnded = s.encEnded := by
  cases h with
  | buildTree _ h => rw [h] at hi; cases hi
  | beginHeader _ h => rw [h] at hi; cases hi
  | buildCodes _ _ h => rw [h] at hi; cases hi
  | setEnded _ _ h => exact absurd (h.symm.trans hi) (by decide)
  | _ => rfl

/-- The decoder commands write the decoder's registers (R41). -/
theorem writesDec_of_isDecoder (h : isDecoder i = true) : writesDec i = true := by
  cases i <;> simp [isDecoder, writesDec] at h ⊢

theorem Update.decPart (h : Update i s t) (hi : writesDec i = false) :
    t.decPart = s.decPart := by
  have hdec : isDecoder i ≠ true := fun hd => by rw [writesDec_of_isDecoder hd] at hi; cases hi
  cases h with
  | buildTree _ h => rw [h] at hi; cases hi
  | beginHeader _ h => rw [h] at hi; cases hi
  | startWalk _ _ _ _ h => exact absurd h hdec
  | endWalk _ h => exact absurd h hdec
  | descend _ _ _ _ _ _ _ _ _ h => exact absurd h hdec
  | restart _ _ _ _ _ h => exact absurd h hdec
  | _ => rfl

theorem Update.inputPart (h : Update i s t) (hi : usesInput i = false) :
    t.inputPart = s.inputPart := by
  cases h with
  | acceptRead _ _ h => exact absurd (h.symm.trans hi) (by decide)
  | exhaust _ h => exact absurd (h.symm.trans hi) (by decide)
  | rewind _ h => exact absurd (h.symm.trans hi) (by decide)
  | _ => rfl

theorem Update.outputPart (h : Update i s t) (hi : writesOutput i = false) :
    t.outputPart = s.outputPart := by
  cases h with
  | acceptWrite _ _ h => exact absurd (h.symm.trans hi) (by decide)
  | _ => rfl

theorem Update.closedPart (h : Update i s t) (hi : i ≠ .outClose) :
    t.closedPart = s.closedPart := by
  cases h with
  | shutOut _ h => exact absurd h hi
  | closeChannel _ h => exact absurd h hi
  | _ => rfl

theorem Update.errPart (h : Update i s t) (hi : i ≠ .errClear) : t.errPart = s.errPart := by
  cases h with
  | unlatch _ h => exact absurd h hi
  | _ => rfl

theorem Update.envPart (h : Update i s t) : t.envPart = s.envPart := by
  cases h <;> rfl

/-- Responses come at the end of a command only. -/
theorem Update.responses (h : Update i s t) : t.responses = s.responses := by
  cases h <;> rfl

end

/-- The rows of the access table (R41): what command i's updates leave of state s. -/
structure Leaves (i : Instr) (s t : State) : Prop where
  freq : writesFreq i = false → t.freq = s.freq
  tree : writesTree i = false → t.nodes = s.nodes ∧ t.treeValid = s.treeValid ∧
    t.treeSrc = s.treeSrc ∧ t.root = s.root ∧ t.nodeCount = s.nodeCount ∧
    t.leafCount = s.leafCount ∧ t.freeDraws = s.freeDraws
  codes : i ≠ .treeBuild → i ≠ .codesBuild → t.codes = s.codes
  codesValid : writesCodesValid i = false → t.codesValid = s.codesValid
  encEnded : writesEnded i = false → t.encEnded = s.encEnded
  dec : writesDec i = false → t.decState = s.decState ∧ t.decCur = s.decCur
  input : usesInput i = false →
    t.inPos = s.inPos ∧ t.inExhausted = s.inExhausted ∧ t.inBitsRead = s.inBitsRead
  output : writesOutput i = false → t.outBits = s.outBits ∧ t.outBitsWritten = s.outBitsWritten
  outOpen : i ≠ .outClose → t.outOpen = s.outOpen ∧ t.outClosed = s.outClosed
  errRegs : i ≠ .errClear → t.err = s.err ∧ t.errCode = s.errCode ∧ t.errInfo = s.errInfo
  environment : t.magic = s.magic ∧ t.inBits = s.inBits ∧ t.txAnswers = s.txAnswers ∧
    t.host = s.host
  responses : t.responses = s.responses

theorem Updates.leaves {i : Instr} {s t : State} (h : Updates i s t) : Leaves i s t where
  freq hi := h.unchanged fun _ _ hu => hu.freq hi
  tree hi := by simpa [State.treePart] using h.unchanged fun _ _ hu => hu.treePart hi
  codes hb hc := h.unchanged fun _ _ hu => hu.codes hb hc
  codesValid hi := h.codesValid hi
  encEnded hi := h.unchanged fun _ _ hu => hu.encEnded hi
  dec hi := by simpa [State.decPart] using h.unchanged fun _ _ hu => hu.decPart hi
  input hi := by simpa [State.inputPart] using h.unchanged fun _ _ hu => hu.inputPart hi
  output hi := by simpa [State.outputPart] using h.unchanged fun _ _ hu => hu.outputPart hi
  outOpen hi := by simpa [State.closedPart] using h.unchanged fun _ _ hu => hu.closedPart hi
  errRegs hi := by simpa [State.errPart] using h.unchanged fun _ _ hu => hu.errPart hi
  environment := by simpa [State.envPart] using h.unchanged fun _ _ hu => hu.envPart
  responses := h.unchanged fun _ _ hu => hu.responses

/-- Outside the decoder's commands the error entry leaves the decoder's registers (R127). -/
theorem kindOf_of_writesDec {i : Instr} (hi : writesDec i = false) : kindOf i = .other := by
  cases hd : isDecoder i with
  | false => simp [kindOf, hd]
  | true => rw [writesDec_of_isDecoder hd] at hi; cases hi

/-- Settles O58: the response and the error entry write only what every command may write, and a raised
error's response has OK = 0. -/
theorem commandsKeepToTheAccessTable : Obligations.CommandsKeepToTheAccessTable := by
  intro i s t h
  obtain ⟨u, hu, ⟨v, rfl⟩ | ⟨e, info, _, rfl⟩⟩ := exec_next h
  · have hl := hu.leaves
    exact ⟨hl.freq, hl.tree, hl.codes, hl.codesValid, hl.encEnded, hl.dec, hl.input, hl.output,
      fun _ _ _ => ⟨hl.outOpen, hl.errRegs⟩, hl.environment⟩
  · have hl := hu.leaves
    refine ⟨hl.freq, hl.tree, hl.codes, hl.codesValid, hl.encEnded, fun hi => ?_, hl.input,
      hl.output, fun r hr hok => ?_, hl.environment⟩
    · rw [kindOf_of_writesDec hi]
      exact hl.dec hi
    · rw [← hl.responses] at hr
      obtain ⟨w, hw⟩ : ∃ w : State,
          u.responses ++ [⟨statusWord false false w, info⟩] = u.responses ++ [r] := ⟨_, hr⟩
      obtain rfl := List.singleton_inj.mp (List.append_cancel_left hw)
      rw [statusWord_getLsbD] at hok
      cases hok

/-! ### Trees as they are stored -/

/-- The tree's nodes stand where its indices say. -/
def Tree.StoredIn (nodes : Nat → Option Node) : Tree → Prop
  | .leaf i x w => nodes i = some (.leaf x w)
  | .node i w l r =>
    (∃ a b : NodeIdx, nodes i = some (.internal a b w) ∧ a.toNat = l.idx ∧ b.toNat = r.idx) ∧
      l.StoredIn nodes ∧ r.StoredIn nodes

theorem Tree.idx_mem_indices (t : Tree) : t.idx ∈ t.indices := by
  cases t <;> simp [Tree.idx, Tree.indices]

theorem Tree.symbols_length_le (t : Tree) : t.symbols.length ≤ t.indices.length := by
  induction t with
  | leaf => simp [Tree.symbols, Tree.indices]
  | node i w l r ihl ihr =>
    simp only [Tree.symbols, Tree.indices, List.length_append, List.length_cons]
    omega

/-- Where two tables agree on the tree's indices, both store it or neither does. -/
theorem Tree.StoredIn.congr {f g : Nat → Option Node} {t : Tree} (h : t.StoredIn f)
    (hfg : ∀ j ∈ t.indices, g j = f j) : t.StoredIn g := by
  induction t with
  | leaf i x w => exact (hfg i (by simp [Tree.indices])).trans h
  | node i w l r ihl ihr =>
    obtain ⟨⟨a, b, hi, ha, hb⟩, hl, hr⟩ := h
    simp only [Tree.indices, List.mem_cons, List.mem_append] at hfg
    exact ⟨⟨a, b, (hfg i (.inl rfl)).trans hi, ha, hb⟩,
      ihl hl fun j hj => hfg j (.inr (.inl hj)), ihr hr fun j hj => hfg j (.inr (.inr hj))⟩

/-- A tree that is read is stored. -/
theorem storedIn_of_readTree {nodes : NodeTable} {d i : Nat} {t : Tree}
    (h : readTree nodes d i = some t) : t.StoredIn (nodeAt nodes) := by
  induction d generalizing i t with
  | zero => simp [readTree] at h
  | succ d ih =>
    rw [readTree] at h
    split at h
    · cases h
    · rename_i x w hn
      cases h
      exact hn
    · rename_i l r w hn
      split at h
      · rename_i tl tr hl hr
        cases h
        exact ⟨⟨l, r, hn, (readTree_idx hl).symm, (readTree_idx hr).symm⟩, ih hl, ih hr⟩
      · cases h

/-- A tree that is stored is read, to a depth of as many levels as it has nodes. -/
theorem readTree_of_storedIn {nodes : NodeTable} {d : Nat} {t : Tree}
    (h : t.StoredIn (nodeAt nodes)) (hd : t.indices.length ≤ d) :
    readTree nodes d t.idx = some t := by
  induction t generalizing d with
  | leaf i x w =>
    obtain _ | d := d
    · simp [Tree.indices] at hd
    · have hi : nodeAt nodes i = some (.leaf x w) := h
      simp [readTree, Tree.idx, hi]
  | node i w l r ihl ihr =>
    obtain ⟨⟨a, b, hi, ha, hb⟩, hl, hr⟩ := h
    simp only [Tree.indices, List.length_cons, List.length_append] at hd
    obtain _ | d := d
    · omega
    · have hreadl := ihl (d := d) hl (by omega)
      have hreadr := ihr (d := d) hr (by omega)
      show readTree nodes (d + 1) i = _
      simp [readTree, hi, ha, hb, hreadl, hreadr]

/-- Every index of a stored tree has a node, and an internal node's children are in the tree too. -/
theorem Tree.StoredIn.node_at {f : Nat → Option Node} {t : Tree} (h : t.StoredIn f) {j : Nat}
    (hj : j ∈ t.indices) :
    (∃ x w, f j = some (.leaf x w)) ∨
      ∃ l r w, f j = some (.internal l r w) ∧ l.toNat ∈ t.indices ∧ r.toNat ∈ t.indices := by
  induction t with
  | leaf i x w =>
    obtain rfl : j = i := by simpa [Tree.indices] using hj
    exact .inl ⟨x, w, h⟩
  | node i w l r ihl ihr =>
    obtain ⟨⟨a, b, hi, ha, hb⟩, hl, hr⟩ := h
    simp only [Tree.indices, List.mem_cons, List.mem_append] at hj ⊢
    rcases hj with rfl | hj | hj
    · exact .inr ⟨a, b, w, hi, .inr (.inl (ha ▸ l.idx_mem_indices)),
        .inr (.inr (hb ▸ r.idx_mem_indices))⟩
    · refine (ihl hl hj).imp_right ?_
      rintro ⟨a', b', w', hn, ha', hb'⟩
      exact ⟨a', b', w', hn, .inr (.inl ha'), .inr (.inl hb')⟩
    · refine (ihr hr hj).imp_right ?_
      rintro ⟨a', b', w', hn, ha', hb'⟩
      exact ⟨a', b', w', hn, .inr (.inr ha'), .inr (.inr hb')⟩

/-- Every node of a stored tree with weights has one. -/
theorem Tree.StoredIn.weight_at {f : Nat → Option Node} {t : Tree} (h : t.StoredIn f)
    (hw : t.weighted = true) {j : Nat} (hj : j ∈ t.indices) :
    ∃ v, (f j).bind Node.weight = some v := by
  induction t with
  | leaf i x w =>
    obtain rfl : j = i := by simpa [Tree.indices] using hj
    have hn : f j = some (.leaf x w) := h
    rw [hn]
    exact Option.isSome_iff_exists.mp hw
  | node i w l r ihl ihr =>
    obtain ⟨⟨a, b, hi, _, _⟩, hl, hr⟩ := h
    simp only [Tree.weighted, Bool.and_eq_true] at hw
    obtain ⟨⟨hwl, hwr⟩, hsum⟩ := hw
    simp only [Tree.indices, List.mem_cons, List.mem_append] at hj
    rcases hj with rfl | hj | hj
    · rw [hi]
      cases w with
      | none => cases hsum
      | some v => exact ⟨v, rfl⟩
    · exact ihl hl hwl hj
    · exact ihr hr hwr hj

/-! ### The held tree -/

/-- R27 (a): the indices of the tree are exactly those below NODE_COUNT. -/
theorem Tree.Fills.mem_indices {t : Tree} {s : State} (h : t.Fills s) {j : Nat} :
    j ∈ t.indices ↔ j < s.nodeCount.toNat := by
  have hsub : t.indices.Subperm (List.range s.nodeCount.toNat) :=
    h.once.subperm fun i hi => List.mem_range.mpr (h.below i hi)
  have hperm := hsub.perm_of_length_le (by simp [h.all])
  rw [hperm.mem_iff, List.mem_range]

/-- A held tree is stored in NODE below ROOT, and fills it. -/
theorem State.TreeInv.held {s : State} (h : s.TreeInv) (hv : s.treeValid = true) :
    ∃ t, s.heldTree = some t ∧ t.Fills s ∧ t.StoredIn (nodeAt s.nodes) ∧ t.idx = s.root.toNat := by
  obtain ⟨t, ht, hf⟩ := h hv
  exact ⟨t, ht, hf, storedIn_of_readTree ht, readTree_idx ht⟩

section
variable {s : State} (h : s.TreeInv) (hv : s.treeValid = true)
include h hv

theorem State.TreeInv.root_lt : s.root.toNat < s.nodeCount.toNat := by
  obtain ⟨t, _, hf, _, hidx⟩ := h.held hv
  rw [← hf.mem_indices, ← hidx]
  exact t.idx_mem_indices

theorem State.TreeInv.node_present {j : Nat} (hj : j < s.nodeCount.toNat) :
    nodeAt s.nodes j ≠ none := by
  obtain ⟨t, _, hf, hst, _⟩ := h.held hv
  obtain ⟨x, w, hn⟩ | ⟨l, r, w, hn, _⟩ := hst.node_at (hf.mem_indices.mpr hj) <;> simp [hn]

theorem State.TreeInv.weight_present (hs : s.treeSrc = .built) {j : Nat}
    (hj : j < s.nodeCount.toNat) : (nodeAt s.nodes j).bind Node.weight ≠ none := by
  obtain ⟨t, _, hf, hst, _⟩ := h.held hv
  obtain ⟨v, hw⟩ := hst.weight_at (hf.built hs) (hf.mem_indices.mpr hj)
  simp [hw]

theorem State.TreeInv.child_lt {j : Nat} {c l r : NodeIdx} {w : Option Weight}
    (hj : j < s.nodeCount.toNat) (hn : nodeAt s.nodes j = some (.internal l r w))
    (hlr : c = l ∨ c = r) : c.toNat < s.nodeCount.toNat := by
  obtain ⟨t, _, hf, hst, _⟩ := h.held hv
  obtain ⟨x, w', hn'⟩ | ⟨l', r', w', hn', hl, hr⟩ := hst.node_at (hf.mem_indices.mpr hj)
  · rw [hn] at hn'; cases hn'
  · rw [hn] at hn'
    cases hn'
    rw [← hf.mem_indices]
    rcases hlr with rfl | rfl
    · exact hl
    · exact hr

/-- A tree with an internal node has one at ROOT, since a leaf at ROOT is the only node. -/
theorem State.TreeInv.root_internal {j : Nat} {l r : NodeIdx} {w : Option Weight}
    (hj : j < s.nodeCount.toNat) (hn : nodeAt s.nodes j = some (.internal l r w)) :
    ∃ l r w, nodeAt s.nodes s.root.toNat = some (.internal l r w) := by
  obtain ⟨t, _, hf, hst, hidx⟩ := h.held hv
  cases t with
  | leaf i x w' =>
    have hji : j ∈ (Tree.leaf i x w').indices := hf.mem_indices.mpr hj
    obtain rfl : j = i := by simpa [Tree.indices] using hji
    have hleaf : nodeAt s.nodes j = some (.leaf x w') := hst
    rw [hn] at hleaf
    cases hleaf
  | node i w' tl tr =>
    obtain ⟨⟨a, b, hi, _, _⟩, _, _⟩ := hst
    exact ⟨a, b, w', hidx ▸ hi⟩

end

/-! ### The tree of a header -/

/-- Writing one entry of NODE. -/
theorem nodeAt_setIfInBounds (nodes : NodeTable) {i : Nat} (hi : i < 513) (v : Node) (j : Nat) :
    nodeAt (nodes.setIfInBounds i (some v)) j = if j = i then some v else nodeAt nodes j := by
  rcases eq_or_ne j i with rfl | hne
  · simp [nodeAt, hi]
  · simp [nodeAt, hne, Ne.symm hne]

/-- A table of absent entries has no node. -/
theorem nodeAt_absent (i : Nat) : nodeAt (Vector.replicate 513 none) i = none := by
  simp only [nodeAt, Vector.getElem?_replicate]
  split <;> rfl

/-- What `parse()` has read from p to q: the tree t, in pre-order from index p.n on (R104). -/
structure Parsed (p q : Parse) (t : Tree) : Prop where
  idx : t.idx = p.n
  indices : t.indices = List.range' p.n t.indices.length
  next : q.n = p.n + t.indices.length
  bound : q.n ≤ 513
  stored : t.StoredIn (nodeAt q.nodes)
  other : ∀ j, (j < p.n ∨ q.n ≤ j) → nodeAt q.nodes j = nodeAt p.nodes j
  seen : q.seen = t.symbols.reverse ++ p.seen
  leaves : q.leaves = p.leaves + t.symbols.length
  distinct : p.seen.Nodup → q.seen.Nodup
  unweighted : t.unweighted = true

theorem Parsed.leaf {p : Parse} {x : Symbol} (hn : p.n < 513) (hx : x ∉ p.seen) :
    Parsed p ((p.take.see x).put p.n (.leaf x none)) (.leaf p.n x none) where
  idx := rfl
  indices := rfl
  next := rfl
  bound := hn
  stored := by simp [Tree.StoredIn, Parse.put, nodeAt_setIfInBounds _ hn]
  other j hj := by
    have hj' : j < p.n ∨ p.n + 1 ≤ j := hj
    have hne : j ≠ p.n := by omega
    simp [Parse.put, nodeAt_setIfInBounds _ hn, hne, Parse.see, Parse.take]
  seen := rfl
  leaves := rfl
  distinct hp := List.nodup_cons.mpr ⟨hx, hp⟩
  unweighted := rfl

theorem Parsed.node {p q r : Parse} {tl tr : Tree} (hn : p.n < 513) (hl : Parsed p.take q tl)
    (hr : Parsed q r tr) :
    Parsed p (r.put p.n (.internal (BitVec.ofNat 10 tl.idx) (BitVec.ofNat 10 tr.idx) none))
      (.node p.n none tl tr) := by
  have hlpos : 0 < tl.indices.length := List.length_pos_of_mem tl.idx_mem_indices
  have hrpos : 0 < tr.indices.length := List.length_pos_of_mem tr.idx_mem_indices
  have hq : q.n = p.n + 1 + tl.indices.length := hl.next
  have hrn := hr.next
  have hb := hr.bound
  have hlidx : tl.idx = p.n + 1 := hl.idx
  have hridx := hr.idx
  have hput : ∀ v j, nodeAt (r.put p.n v).nodes j = if j = p.n then some v else nodeAt r.nodes j :=
    fun v j => nodeAt_setIfInBounds _ hn v j
  have hlind : ∀ j ∈ tl.indices, p.n + 1 ≤ j ∧ j < q.n := fun j hj => by
    rw [hl.indices, List.mem_range'_1] at hj
    exact ⟨hj.1, by rw [hl.next]; exact hj.2⟩
  have hrind : ∀ j ∈ tr.indices, q.n ≤ j := fun j hj => by
    rw [hr.indices, List.mem_range'_1] at hj
    exact hj.1
  refine
    { idx := rfl, indices := ?_, next := ?_, bound := hb, stored := ⟨?_, ?_, ?_⟩, other := ?_,
      seen := ?_, leaves := ?_, distinct := fun hp => hr.distinct (hl.distinct hp),
      unweighted := ?_ }
  · have hleft : List.range' (p.n + 1) tl.indices.length = tl.indices := hl.indices.symm
    have hright : List.range' (p.n + 1 + tl.indices.length) tr.indices.length = tr.indices :=
      hq ▸ hr.indices.symm
    simp only [Tree.indices, List.length_cons, List.length_append]
    rw [List.range'_succ, ← List.range'_append_1, hleft, hright]
  · simp only [Tree.indices, List.length_cons, List.length_append, Parse.put]
    omega
  · refine ⟨_, _, by rw [hput, if_pos rfl], ?_, ?_⟩ <;>
      rw [BitVec.toNat_ofNat, Nat.mod_eq_of_lt (by omega)]
  · refine hl.stored.congr fun j hj => ?_
    obtain ⟨hge, hlt⟩ := hlind j hj
    rw [hput, if_neg (by omega), hr.other j (.inl hlt)]
  · refine hr.stored.congr fun j hj => ?_
    have := hrind j hj
    rw [hput, if_neg (by omega)]
  · intro j hj
    have hj' : j < p.n ∨ r.n ≤ j := hj
    rw [hput, if_neg (by omega), hr.other j (by omega), hl.other j (by simp only [Parse.take]; omega)]
    rfl
  · simp [Parse.put, Tree.symbols, hr.seen, hl.seen, Parse.take]
  · simp [Parse.put, Tree.symbols, hr.leaves, hl.leaves, Parse.take, Nat.add_assoc]
  · simp [Tree.unweighted, hl.unweighted, hr.unweighted]

theorem parseLeaf_eq_ok {i : Nat} {p : Parse} {s t : State} {r : Nat × Parse}
    (h : parseLeaf i p s = .ok r t) :
    r.1 = i ∧ ∃ x, x ∉ p.seen ∧ r.2 = (p.see x).put i (.leaf x none) := by
  obtain ⟨v, u, _, h⟩ := Res.bind_eq_ok h
  cases v with
  | none => cases h
  | some f =>
    dsimp only at h
    split at h
    · cases h
    · rename_i x _
      split at h
      · cases h
      · rename_i hx
        cases h
        exact ⟨rfl, x, hx, rfl⟩

/-- The pass of HEADER_READ reads a tree (R104). -/
theorem parse_eq_ok {d : Nat} {p : Parse} {s t : State} {r : Nat × Parse}
    (h : parse d p s = .ok r t) (hn : p.n ≤ 513) : ∃ tree, r.1 = tree.idx ∧ Parsed p r.2 tree := by
  induction d generalizing p s t r with
  | zero => cases h
  | succ d ih =>
    obtain ⟨v, u, _, h⟩ := Res.bind_eq_ok h
    cases v with
    | none => cases h
    | some tag =>
      dsimp only at h
      split at h
      · cases h
      · have hlt : p.n < 513 := by omega
        split at h
        · obtain ⟨rl, u', hl, h⟩ := Res.bind_eq_ok h
          obtain ⟨rr, u'', hr, h⟩ := Res.bind_eq_ok h
          cases h
          obtain ⟨tl, hidxl, hpl⟩ := ih hl hlt
          obtain ⟨tr, hidxr, hpr⟩ := ih hr hpl.bound
          exact ⟨.node p.n none tl tr, rfl, hidxl ▸ hidxr ▸ Parsed.node hlt hpl hpr⟩
        · obtain ⟨hi, x, hx, hq⟩ := parseLeaf_eq_ok h
          exact ⟨.leaf p.n x none, hi, hq ▸ Parsed.leaf hlt hx⟩

/-- R104: what HEADER_READ holds is a complete tree without weights. -/
theorem holdHeader_treeInv {s : State} {q : Parse} {tree : Tree} (h : Parsed Parse.start q tree) :
    (s.holdTree .header q.nodes (BitVec.ofNat 10 tree.idx) q.n q.leaves).TreeInv := by
  intro _
  have hidx : tree.idx = 0 := h.idx
  have hb := h.bound
  have hn : q.n = tree.indices.length := by rw [h.next]; simp [Parse.start]
  have hind : tree.indices = List.range q.n := by
    rw [h.indices, ← hn, List.range_eq_range']; rfl
  have hcount : (BitVec.ofNat 10 q.n).toNat = q.n := by
    rw [BitVec.toNat_ofNat, Nat.mod_eq_of_lt (by omega)]
  have hleaves : q.leaves = tree.symbols.length := by rw [h.leaves]; simp [Parse.start]
  have hle := tree.symbols_length_le
  refine ⟨tree, ?_, ?_⟩
  · have hread := readTree_of_storedIn (d := Config.nodeCap) h.stored
      (by rw [← hn]; exact hb)
    rw [hidx] at hread ⊢
    exact hread
  · refine
      { once := hind ▸ List.nodup_range, below := ?_, all := ?_, rest := ?_, leaves := ?_,
        distinct := ?_, built := fun hs => ?_, header := fun _ => h.unweighted }
    · intro i hi
      rw [hind, List.mem_range] at hi
      exact hcount.symm ▸ hi
    · exact hn.symm.trans hcount.symm
    · intro i hi
      have hi' : q.n ≤ i := hcount ▸ hi
      exact (h.other i (.inr hi')).trans (nodeAt_absent i)
    · show _ = (BitVec.ofNat 10 q.leaves).toNat
      rw [BitVec.toNat_ofNat, Nat.mod_eq_of_lt (by omega), hleaves]
    · have hnd := h.distinct List.nodup_nil
      rw [h.seen] at hnd
      simpa [Parse.start] using hnd
    · cases hs

/-! ### The built tree -/

/-- The seeds are symbols below n, each once. -/
theorem seedsBelow_spec (freq : FreqTable) (n : Nat) :
    (seedsBelow freq n).Nodup ∧ ∀ x ∈ seedsBelow freq n, x.val < n := by
  induction n with
  | zero => simp [seedsBelow]
  | succ n ih =>
    obtain ⟨hnd, hlt⟩ := ih
    have hlt' : ∀ x ∈ seedsBelow freq n, x.val < n + 1 := fun x hx => Nat.lt_succ_of_lt (hlt x hx)
    unfold seedsBelow
    split
    · split
      · exact ⟨hnd, hlt'⟩
      · refine ⟨List.nodup_cons.mpr ⟨fun hmem => absurd (hlt _ hmem) (Nat.lt_irrefl n), hnd⟩, ?_⟩
        intro x hx
        rcases List.mem_cons.mp hx with rfl | hx
        · exact Nat.lt_succ_self n
        · exact hlt' x hx
    · exact ⟨hnd, hlt'⟩

theorem seeds_nodup (freq : FreqTable) : (seeds freq).Nodup := (seedsBelow_spec freq 257).1

theorem seeds_length_le (freq : FreqTable) : (seeds freq).length ≤ 257 := by
  simpa using (seeds_nodup freq).length_le_card

/-- PopMin takes one entry out of LIVE and leaves the others (R87). -/
theorem popFrom_perm (a : Live) (rest : List Live) :
    (a :: rest).Perm ((popFrom a rest).1 :: (popFrom a rest).2) := by
  induction rest generalizing a with
  | nil => exact .refl _
  | cons b rest ih =>
    unfold popFrom
    split
    · exact ((ih b).cons a).trans (.swap _ _ _)
    · exact (List.Perm.swap b a rest).trans (((ih a).cons b).trans (.swap _ _ _))

theorem popMin_perm {live rest : List Live} {a : Live} (h : popMin live = some (a, rest)) :
    live.Perm (a :: rest) := by
  cases live with
  | nil => cases h
  | cons b live =>
    simp only [popMin, Option.some.injEq] at h
    have := popFrom_perm b live
    rwa [h] at this

theorem popMin_none {live : List Live} (h : popMin live = none) : live = [] := by
  cases live with
  | nil => rfl
  | cons b live => cases h

/-- An entry of LIVE stands for a tree: the index and the weight of its top node (R87). -/
def Live.Stands (e : Live) (t : Tree) : Prop := t.idx = e.idx ∧ t.weight = some e.weight

/-- LIVE during the merges (R89): its entries stand for the trees of a forest, which is stored in the nodes made so
far, has each of them once, and has the leaves `xs`. -/
structure Forest (xs : List Symbol) (live : List Live) (nodes : List Node) (trees : List Tree) :
    Prop where
  stands : List.Forall₂ Live.Stands live trees
  stored : ∀ t ∈ trees, t.StoredIn (nodes[·]?)
  weighted : ∀ t ∈ trees, t.weighted = true
  indices : (trees.flatMap Tree.indices).Perm (List.range nodes.length)
  symbols : (trees.flatMap Tree.symbols).Perm xs
  room : nodes.length + live.length ≤ 514
  total : (live.map (·.weight.toNat)).sum < 2 ^ 41
  newest : ∃ e ∈ live, e.idx + 1 = nodes.length

/-- The order of the entries does not matter. -/
theorem Forest.perm {xs : List Symbol} {live live' : List Live} {nodes : List Node}
    {trees : List Tree} (h : Forest xs live nodes trees) (hp : live'.Perm live) :
    ∃ trees', Forest xs live' nodes trees' := by
  obtain ⟨trees', hst, htp⟩ := List.perm_comp_forall₂ hp h.stands
  refine ⟨trees', ?_⟩
  exact
    { stands := hst
      stored := fun t ht => h.stored t (htp.subset ht)
      weighted := fun t ht => h.weighted t (htp.subset ht)
      indices := (htp.flatMap_right _).trans h.indices
      symbols := (htp.flatMap_right _).trans h.symbols
      room := by rw [hp.length_eq]; exact h.room
      total := by rw [(hp.map _).sum_eq]; exact h.total
      newest := by simpa only [hp.mem_iff] using h.newest }

/-- Every node of the forest is one made so far. -/
theorem Forest.index_lt {xs : List Symbol} {live : List Live} {nodes : List Node}
    {trees : List Tree} (h : Forest xs live nodes trees) {t : Tree} (ht : t ∈ trees) {j : Nat}
    (hj : j ∈ t.indices) : j < nodes.length :=
  List.mem_range.mp (h.indices.subset (List.mem_flatMap.mpr ⟨t, ht, hj⟩))

/-- One merge (R88, R89) joins two trees of the forest. -/
theorem Forest.merge {xs : List Symbol} {a b : Live} {live : List Live} {nodes : List Node}
    {trees : List Tree} (h : Forest xs (a :: b :: live) nodes trees) :
    ∃ trees', Forest xs (live ++ [⟨a.weight + b.weight, nodes.length⟩]) (nodes ++ [mergeNode a b])
      trees' := by
  obtain ⟨hstands, hstored, hweighted, hindices, hsymbols, hroom, htotal, _⟩ := id h
  cases hstands with
  | cons hta hrest =>
  cases hrest with
  | cons htb hrest =>
  rename_i ta tb trees
  obtain ⟨haidx, haw⟩ := hta
  obtain ⟨hbidx, hbw⟩ := htb
  have hma : ta ∈ ta :: tb :: trees := by simp
  have hmb : tb ∈ ta :: tb :: trees := by simp
  have halt : ta.idx < nodes.length := h.index_lt hma ta.idx_mem_indices
  have hblt : tb.idx < nodes.length := h.index_lt hmb tb.idx_mem_indices
  simp only [List.length_cons] at hroom
  simp only [List.map_cons, List.sum_cons] at htotal
  have hsum : (a.weight + b.weight).toNat = a.weight.toNat + b.weight.toNat := by
    rw [BitVec.toNat_add, Nat.mod_eq_of_lt (by omega)]
  have hgrow : ∀ t ∈ ta :: tb :: trees, t.StoredIn ((nodes ++ [mergeNode a b])[·]?) := fun t ht =>
    (hstored t ht).congr fun j hj => List.getElem?_append_left (h.index_lt ht hj)
  refine ⟨trees ++ [.node nodes.length (some (a.weight + b.weight)) tb ta], ?_⟩
  refine
    { stands := ?_, stored := ?_, weighted := ?_, indices := ?_, symbols := ?_, room := ?_,
      total := ?_, newest := ?_ }
  · exact List.rel_append hrest (.cons ⟨rfl, rfl⟩ .nil)
  · intro t ht
    rcases List.mem_append.mp ht with ht | ht
    · exact hgrow t (by simp [ht])
    · obtain rfl := List.mem_singleton.mp ht
      refine ⟨⟨_, _, List.getElem?_concat_length, ?_, ?_⟩, hgrow tb hmb, hgrow ta hma⟩
      · rw [BitVec.toNat_ofNat, ← hbidx, Nat.mod_eq_of_lt (by omega)]
      · rw [BitVec.toNat_ofNat, ← haidx, Nat.mod_eq_of_lt (by omega)]
  · intro t ht
    rcases List.mem_append.mp ht with ht | ht
    · exact hweighted t (by simp [ht])
    · obtain rfl := List.mem_singleton.mp ht
      simp [Tree.weighted, hweighted tb hmb, hweighted ta hma, hbw, haw, hsum, Nat.add_comm]
  · rw [List.perm_iff_count] at hindices ⊢
    intro j
    have hj := hindices j
    simp only [List.flatMap_append, List.flatMap_cons, List.flatMap_nil, List.append_nil,
      Tree.indices, List.length_append, List.length_singleton, List.range_succ, List.count_append,
      List.count_cons, List.count_nil] at hj ⊢
    omega
  · rw [List.perm_iff_count] at hsymbols ⊢
    intro x
    have hx := hsymbols x
    simp only [List.flatMap_append, List.flatMap_cons, List.flatMap_nil, List.append_nil,
      Tree.symbols, List.count_append] at hx ⊢
    omega
  · simp only [List.length_append, List.length_singleton]
    omega
  · simp only [List.map_append, List.sum_append, List.map_cons, List.map_nil, List.sum_cons,
      List.sum_nil, hsum]
    omega
  · exact ⟨⟨a.weight + b.weight, nodes.length⟩, by simp, by simp⟩

/-- The merge loop (R89) ends in a single tree. -/
theorem mergeLoop_forest {xs : List Symbol} (turns : Nat) {live : List Live} {nodes : List Node}
    {trees : List Tree} (h : Forest xs live nodes trees) (hne : live ≠ [])
    (ht : live.length ≤ turns) :
    ∃ e t, Forest xs [e] (mergeLoop turns live nodes) [t] := by
  induction turns generalizing live nodes trees with
  | zero => exact absurd (List.length_eq_zero_iff.mp (Nat.le_zero.mp ht)) hne
  | succ turns ih =>
    unfold mergeLoop
    split
    · rename_i hnone
      exact absurd (popMin_none hnone) hne
    · rename_i a live1 ha
      have hpa := popMin_perm ha
      split
      · rename_i hnone
        obtain rfl := popMin_none hnone
        obtain ⟨trees', hf⟩ := h.perm hpa.symm
        obtain ⟨t, rfl⟩ := List.length_eq_one_iff.mp hf.stands.length_eq.symm
        exact ⟨a, t, hf⟩
      · rename_i b live2 hb
        have hpab : live.Perm (a :: b :: live2) := hpa.trans ((popMin_perm hb).cons a)
        obtain ⟨trees', hf⟩ := h.perm hpab.symm
        obtain ⟨trees'', hm⟩ := hf.merge
        have hlen := hpab.length_eq
        simp only [List.length_cons] at hlen
        exact ih hm (by simp) (by simp only [List.length_append, List.length_singleton]; omega)

/-- The leaf at place k of the seeds. -/
def seedTree (freq : FreqTable) (p : Symbol × Nat) : Tree :=
  .leaf p.2 p.1 (some ((freq[p.1.val]).setWidth 41))

/-- The seeds are a forest of leaves (R86, R89). -/
theorem seeds_forest {freq : FreqTable} {xs : List Symbol} (hne : xs ≠ []) (hlen : xs.length ≤ 257) :
    Forest xs (seedLive freq xs) (xs.map (seedLeaf freq)) (xs.zipIdx.map (seedTree freq)) where
  stands := by
    rw [seedLive, List.forall₂_map_left_iff, List.forall₂_map_right_iff, List.forall₂_same]
    exact fun p _ => ⟨rfl, rfl⟩
  stored := by
    intro t ht
    obtain ⟨p, hp, rfl⟩ := List.mem_map.mp ht
    have hat : xs[p.2]? = some p.1 := List.mem_zipIdx_iff_getElem?.mp hp
    show (xs.map (seedLeaf freq))[p.2]? = _
    rw [List.getElem?_map, hat]
    rfl
  weighted := by
    intro t ht
    obtain ⟨p, _, rfl⟩ := List.mem_map.mp ht
    rfl
  indices := by
    have : (xs.zipIdx.map (seedTree freq)).flatMap Tree.indices = xs.zipIdx.map Prod.snd := by
      rw [List.flatMap_map, List.map_eq_flatMap]; rfl
    rw [this, List.zipIdx_map_snd, List.length_map, List.range_eq_range']
  symbols := by
    have : (xs.zipIdx.map (seedTree freq)).flatMap Tree.symbols = xs.zipIdx.map Prod.fst := by
      rw [List.flatMap_map, List.map_eq_flatMap]; rfl
    rw [this, List.zipIdx_map_fst]
  room := by
    simp only [seedLive, List.length_map, List.length_zipIdx]
    omega
  total := by
    have hle := List.sum_le_card_nsmul ((seedLive freq xs).map (·.weight.toNat)) (2 ^ 32)
      fun v hv => by
        obtain ⟨e, he, rfl⟩ := List.mem_map.mp hv
        obtain ⟨p, _, rfl⟩ := List.mem_map.mp he
        have := (freq[p.1.val]).isLt
        simp only [BitVec.toNat_setWidth]
        omega
    simp only [seedLive, List.length_map, List.length_zipIdx, smul_eq_mul] at hle ⊢
    omega
  newest := by
    obtain ⟨ys, x, rfl⟩ := (List.eq_nil_or_concat xs).resolve_left hne
    refine ⟨⟨(freq[x.val]).setWidth 41, ys.length⟩, ?_, ?_⟩
    · exact List.mem_map.mpr ⟨(x, ys.length), by simp [List.zipIdx_append], rfl⟩
    · simp

/-- The nodes of a built tree are a forest of one tree. -/
theorem builtNodes_forest {freq : FreqTable} (hne : seeds freq ≠ []) :
    ∃ e t, Forest (seeds freq) [e] (builtNodes freq) [t] := by
  have hlen : (seedLive freq (seeds freq)).length = (seeds freq).length := by simp [seedLive]
  exact mergeLoop_forest _ (seeds_forest hne (seeds_length_le freq))
    (fun h => hne (by simpa [h] using hlen.symm)) hlen.le

/-- R89: what TREE_BUILD holds is a complete tree with its weights. -/
theorem buildTree_treeInv {s : State} (hne : seeds s.freq ≠ []) : (buildTree s).TreeInv := by
  intro _
  obtain ⟨e, t, hf⟩ := builtNodes_forest hne
  obtain ⟨hidx, _⟩ : e.Stands t := by simpa using hf.stands
  have hroom : (builtNodes s.freq).length + 1 ≤ 514 := hf.room
  have hnew : e.idx + 1 = (builtNodes s.freq).length := by simpa using hf.newest
  have hperm : t.indices.Perm (List.range (builtNodes s.freq).length) := by simpa using hf.indices
  have hsyms : t.symbols.Perm (seeds s.freq) := by simpa using hf.symbols
  have hlen : t.indices.length = (builtNodes s.freq).length := by simpa using hperm.length_eq
  have hseeds := seeds_length_le s.freq
  have hnode : ∀ j, nodeAt (packNodes (builtNodes s.freq)) j = (builtNodes s.freq)[j]? :=
    nodeAt_packNodes _ (by omega)
  have hcount : (buildTree s).nodeCount.toNat = (builtNodes s.freq).length := by
    show (BitVec.ofNat 10 _).toNat = _
    rw [BitVec.toNat_ofNat, Nat.mod_eq_of_lt (by omega)]
  have hroot : (buildTree s).root.toNat = t.idx := by
    show (BitVec.ofNat 10 ((builtNodes s.freq).length - 1)).toNat = _
    rw [BitVec.toNat_ofNat, Nat.mod_eq_of_lt (by omega), hidx]
    omega
  have hst : t.StoredIn (nodeAt (packNodes (builtNodes s.freq))) :=
    (hf.stored t (by simp)).congr fun j _ => hnode j
  refine ⟨t, ?_, ?_⟩
  · rw [State.heldTree, hroot]
    exact readTree_of_storedIn hst (by rw [hlen, Config.nodeCap]; omega)
  · exact
      { once := hperm.nodup_iff.mpr List.nodup_range
        below := fun i hi => hcount ▸ List.mem_range.mp (hperm.subset hi)
        all := hlen.trans hcount.symm
        rest := fun i hi => (hnode i).trans (List.getElem?_eq_none (hcount ▸ hi))
        leaves := by
          show _ = (BitVec.ofNat 10 (seeds s.freq).length).toNat
          rw [BitVec.toNat_ofNat, Nat.mod_eq_of_lt (by omega), hsyms.length_eq]
        distinct := hsyms.nodup_iff.mpr (seeds_nodup _)
        built := fun _ => hf.weighted t (by simp)
        header := fun hs => nomatch (show TreeSrc.built = .header from hs) }

/-! ### The tree invariant -/

theorem Update.treeInv {i : Instr} {s t : State} (hs : s.TreeInv) (h : Update i s t) :
    t.TreeInv := by
  cases h with
  | buildTree _ _ hne => exact buildTree_treeInv hne
  | beginHeader => exact fun hv => absurd hv Bool.false_ne_true
  | holdHeader u _ r _ _ hp =>
    obtain ⟨tree, hidx, hparsed⟩ := parse_eq_ok hp (by decide)
    rw [hidx]
    exact holdHeader_treeInv hparsed
  | loseNodes _ _ hv => exact fun hv' => absurd (hv'.symm.trans hv) (by decide)
  | _ => exact hs.congr rfl rfl rfl rfl rfl rfl

theorem treeInv_stepInvariant : StepInvariant State.TreeInv where
  afterReset s fresh rest := (afterReset_inv s fresh rest).tree
  setHost _ _ hs := hs.congr rfl rfl rfl rfl rfl rfl
  respond _ _ _ _ hs := hs.congr rfl rfl rfl rfl rfl rfl
  afterError _ _ _ _ _ hs := hs.congr rfl rfl rfl rfl rfl rfl
  update _ _ _ hs h := h.treeInv hs

/-- Settles O52: TREE_BUILD and HEADER_READ hold complete trees, and no other command writes one. -/
theorem stepKeepsTheTreeInvariant : Obligations.StepKeepsTheTreeInvariant :=
  fun _ _ hs h => treeInv_stepInvariant.step hs h

/-! ### The decoder's cursor -/

/-- DEC_CUR is present only while walking, and then it is a node of the held tree. -/
theorem State.DecInv.at_cursor {s : State} (h : s.DecInv) {cur : NodeIdx}
    (hc : s.decCur = some cur) :
    s.decState = .walking ∧ s.treeValid = true ∧ cur.toNat < s.nodeCount.toNat := by
  have hd : s.decState = .walking := by
    by_contra hne
    rw [h.1 hne] at hc
    cases hc
  obtain ⟨hv, c, _, _, _, hcur, hlt, _⟩ := h.2 hd
  rw [hcur] at hc
  cases hc
  exact ⟨hd, hv, hlt⟩

/-- Placing the cursor on an internal node of the held tree. -/
theorem setDec_walking_decInv {s : State} {c l r : NodeIdx} {w : Option Weight}
    (hv : s.treeValid = true) (hlt : c.toNat < s.nodeCount.toNat)
    (hn : nodeAt s.nodes c.toNat = some (.internal l r w)) :
    (s.setDec .walking (some c)).DecInv :=
  ⟨fun h => absurd rfl h, fun _ => ⟨hv, c, l, r, w, rfl, hlt, hn⟩⟩

/-- Taking the cursor away. -/
theorem decInv_of_none {s : State} (hd : s.decState ≠ .walking) (hc : s.decCur = none) : s.DecInv :=
  ⟨fun _ => hc, fun h => absurd h hd⟩

theorem Update.decInv {i : Instr} {s t : State} (ht : s.TreeInv) (hs : s.DecInv)
    (h : Update i s t) : t.DecInv := by
  cases h with
  | buildTree => exact decInv_of_none (by simp [Machine.buildTree]) rfl
  | beginHeader => exact decInv_of_none (by simp [beginHeaderRead]) rfl
  | holdHeader _ _ _ _ hv =>
    have hd : s.decState ≠ .walking := fun hd => by simp [(hs.2 hd).1] at hv
    exact decInv_of_none hd (hs.1 hd)
  | loseNodes _ _ hv =>
    have hd : s.decState ≠ .walking := fun hd => by simp [(hs.2 hd).1] at hv
    exact decInv_of_none hd (hs.1 hd)
  | startWalk _ l r w _ hv hn => exact setDec_walking_decInv hv (ht.root_lt hv) hn
  | endWalk => exact decInv_of_none (by simp) rfl
  | descend _ cur c l r l' r' w w' _ hc hn hlr hi =>
    obtain ⟨hd, hv, hlt⟩ := hs.at_cursor hc
    rw [hd]
    exact setDec_walking_decInv hv (ht.child_lt hv hlt hn hlr) hi
  | restart _ cur l r w _ hc hn =>
    obtain ⟨hd, hv, hlt⟩ := hs.at_cursor hc
    obtain ⟨_, _, _, hroot⟩ := ht.root_internal hv hlt hn
    rw [hd]
    exact setDec_walking_decInv hv (ht.root_lt hv) hroot
  | _ => exact hs

theorem afterError_decInv {s : State} (hs : s.DecInv) (b : Bool) (e : ErrCode) (info : DWord) :
    (s.afterError b e info).DecInv := by
  cases b with
  | false => exact hs
  | true => exact decInv_of_none (by simp [State.afterError]) rfl

theorem treeInv_decInv_stepInvariant : StepInvariant fun s => s.TreeInv ∧ s.DecInv where
  afterReset s fresh rest := ⟨(afterReset_inv s fresh rest).tree, (afterReset_inv s fresh rest).dec⟩
  setHost _ rest hs := ⟨treeInv_stepInvariant.setHost _ rest hs.1, hs.2⟩
  respond _ _ _ _ hs := ⟨treeInv_stepInvariant.respond _ _ _ _ hs.1, hs.2⟩
  afterError _ _ _ _ he hs :=
    ⟨treeInv_stepInvariant.afterError _ _ _ _ he hs.1, afterError_decInv hs.2 _ _ _⟩
  update _ _ _ hs h := ⟨h.treeInv hs.1, h.decInv hs.1 hs.2⟩

/-- Settles O54: within a complete tree the walk only reaches nodes of it. -/
theorem stepKeepsTheCursorInTheTree : Obligations.StepKeepsTheCursorInTheTree :=
  fun _ _ ht hd h => (treeInv_decInv_stepInvariant.step ⟨ht, hd⟩ h).2

/-! ### What a step reads -/

/-- Every symbol is present or not in the table, and one that is present has a length and bits (R28). -/
def CodeTable.Whole (c : CodeTable) : Prop :=
  ∀ x : Symbol, c.present[x.val] ≠ none ∧
    (c.present[x.val] = some true → c.len[x.val] ≠ none ∧ c.bits[x.val] ≠ none)

theorem emptyCodes_whole : emptyCodes.Whole := fun x => by
  simp [emptyCodes]

theorem CodeTable.Whole.put {c : CodeTable} (h : c.Whole) (x : Symbol) (len val : Nat) :
    (c.put x len val).Whole := fun y => by
  rcases eq_or_ne x.val y.val with hxy | hxy
  · simp [CodeTable.put, hxy]
  · simpa [CodeTable.put, Vector.getElem_set_ne, hxy] using h y

theorem visit_whole {c : CodeTable} (h : c.Whole) (t : Tree) (len val : Nat) :
    (visit t len val c).Whole := by
  induction t generalizing len val c with
  | leaf i x w => exact h.put x len val
  | node i w l r ihl ihr => exact ihr (ihl h _ _) _ _

/-- Under valid codes no entry of the code table that a command reads is absent. -/
theorem State.CodesInv.not_codeAbsent {s : State} (h : s.CodesInv) (hv : s.codesValid = true)
    (x : Symbol) : ¬ s.CodeAbsent x := by
  obtain ⟨_, t, _, hcodes⟩ := h hv
  have hwhole : s.codes.Whole := hcodes ▸ visit_whole emptyCodes_whole t 0 0
  obtain ⟨hpres, hcode⟩ := hwhole x
  rintro (hnone | ⟨htrue, hnone | hnone⟩)
  · exact hpres hnone
  · exact (hcode htrue).1 hnone
  · exact (hcode htrue).2 hnone

/-- NODE and DEC_CUR give a command all it needs of them. -/
theorem not_broken {s : State} (ht : s.TreeInv) (hd : s.DecInv) : ¬ s.Broken := by
  intro h
  cases h with
  | held hv hnone =>
    obtain ⟨t, hsome, _⟩ := ht hv
    rw [hnone] at hsome
    cases hsome
  | root hv hnone => exact ht.node_present hv (ht.root_lt hv) hnone
  | entry j hv hj hnone => exact ht.node_present hv hj hnone
  | weight j hv hsrc hj hnone => exact ht.weight_present hv hsrc hj hnone
  | cursor cur hw hc hnot =>
    obtain ⟨_, c, l, r, w, hcur, _, hn⟩ := hd.2 hw
    rw [hc] at hcur
    cases hcur
    exact hnot l r w hn
  | child cur c l r w _ hc hn hlr hnone =>
    obtain ⟨_, hv, hlt⟩ := hd.at_cursor hc
    exact ht.node_present hv (ht.child_lt hv hlt hn hlr) hnone

/-- The parts of the invariant that a command's reads lean on. -/
structure State.Readable (s : State) : Prop where
  tree : s.TreeInv
  codes : s.CodesInv
  dec : s.DecInv

theorem Update.readable {i : Instr} {s t : State} (hs : s.Readable) (h : Update i s t) :
    t.Readable where
  tree := h.treeInv hs.tree
  codes := h.codesInv hs.codes
  dec := h.decInv hs.tree hs.dec

/-- R21: the model stops in such a state only where a transaction is never answered. -/
theorem State.Readable.stops {s : State} (hs : s.Readable) {f : Fault} (h : s.StopsFor f) :
    f = .channelSilent := by
  cases f with
  | channelSilent => rfl
  | absentCode =>
    obtain ⟨hv, x, hx⟩ := h
    exact absurd hx (hs.codes.not_codeAbsent hv x)
  | absentCursor =>
    obtain ⟨hd, hnone⟩ := h
    obtain ⟨_, c, _, _, _, hc, _⟩ := hs.dec.2 hd
    rw [hnone] at hc
    cases hc
  | brokenTree => exact absurd h (not_broken hs.tree hs.dec)
  | noProgress => exact h.elim

/-- Channels that answer everything from here on go on to do so. -/
theorem Update.answers {i : Instr} {s t : State} (hs : s.Answers) (h : Update i s t) :
    t.Answers := by
  cases h with
  | countTx =>
    intro k
    have := hs (k + 1)
    simpa [State.answerAt, Nat.add_comm, Nat.add_left_comm] using this
  | _ => exact hs

/-- A step from the invariant stops only where a transaction is never answered. -/
theorem step_fault_silent {s : State} {f : Fault} (hs : s.Inv) (h : step s = .fault f) :
    f = .channelSilent := by
  obtain ⟨i, rest, u, hu, hstop⟩ := step_fault h
  have hr : (s.setHost rest).Readable :=
    ⟨treeInv_stepInvariant.setHost _ _ hs.tree, hs.codes, hs.dec⟩
  exact (hu.keeps (fun _ _ hP hup => hup.readable hP) hr).stops hstop

/-- With channels that answer, no step waits for one that does not. -/
theorem step_ne_silent {s : State} (ha : s.Answers) : step s ≠ .fault .channelSilent := by
  intro h
  obtain ⟨i, rest, u, hu, hstop⟩ := step_fault h
  have hr : (s.setHost rest).Answers := ha
  exact hu.keeps (fun _ _ hP hup => hup.answers hP) hr 0 hstop

/-- Settles O57: what stops a step is a silent channel, and channels that answer leave a next state only. -/
theorem stepReadsNothingAbsent : Obligations.StepReadsNothingAbsent := by
  refine ⟨fun s f hs h => step_fault_silent hs h, step_ne_refused, fun s hs ha => ?_⟩
  cases h : step s with
  | next t => exact ⟨t, rfl⟩
  | fault f =>
    rw [step_fault_silent hs h] at h
    exact absurd h (step_ne_silent ha)
  | refused r => exact absurd h (step_ne_refused s r)

end Sys2Proof.Machine

namespace Sys2Proof.Machine

/-! ### Pseudocode that keeps a property of the state -/

/-- Where the pseudocode ends with a value or raises, the state has property `P`. -/
def Res.Keeps {α : Type} (P : State → Prop) (r : Res α) : Prop :=
  r.Ends (fun _ t => P t) (fun _ _ t => P t) (fun _ => True)

section
variable {P : State → Prop} {α β : Type}

theorem Res.Keeps.ok {s : State} (a : α) (h : P s) : (Res.ok a s).Keeps P := h

theorem Res.Keeps.raise {s : State} (e : ErrCode) (info : DWord) (h : P s) :
    (Res.raise e info s : Res α).Keeps P := h

theorem Res.Keeps.stop (f : Fault) : (Res.stop f : Res α).Keeps P := trivial

theorem Res.Keeps.bind {r : Res α} {f : α → State → Res β} (hr : r.Keeps P)
    (hf : ∀ a t, P t → (f a t).Keeps P) : (r.bind f).Keeps P :=
  Res.Ends.bind hr hf

theorem withHeldTree_keeps {s : State} {k : Tree → Res α} (hk : ∀ t, (k t).Keeps P) :
    (withHeldTree s k).Keeps P := by
  unfold withHeldTree
  split
  · exact hk _
  · exact .stop _

variable {s : State} (hs : P s)
include hs

/-- A precondition of a command raises before anything changes (R126). -/
theorem ready_keeps (i : Instr) (b : Bool) {k : Res α} (hk : k.Keeps P) :
    (if b then k else notReady i s).Keeps P := by
  cases b with
  | false => exact .raise _ _ hs
  | true => exact hk

theorem withSymbol_keeps (i : Instr) (sym : SymField) {k : Symbol → Res DWord}
    (hk : ∀ x, (k x).Keeps P) : (withSymbol i sym s k).Keeps P := by
  unfold withSymbol
  split
  · exact hk _
  · exact .raise _ _ hs

theorem codePresentAt_keeps (x : Symbol) : (codePresentAt s x).Keeps P := by
  unfold codePresentAt
  split
  · exact .ok _ hs
  · exact .stop _

theorem codeAt_keeps (x : Symbol) : (codeAt s x).Keeps P := by
  unfold codeAt
  split
  · exact .ok _ hs
  · exact .stop _

/-- The two reads of the code table (R98, R99). -/
theorem codeRead_keeps (x : Symbol) (f : BitVec 9 × BitVec 256 → DWord) :
    ((codePresentAt s x).bind fun p t =>
      if p then (codeAt t x).bind fun c u => .ok (f c) u else .ok 0#64 t).Keeps P := by
  refine (codePresentAt_keeps hs x).bind fun p t ht => ?_
  cases p with
  | false => exact .ok _ ht
  | true => exact (codeAt_keeps ht x).bind fun _ _ hu => .ok _ hu

/-- A node index that is out of range raises before anything changes (R93, R94). -/
theorem nodeIndex_keeps (index : Word) {k : Res α} (hk : k.Keeps P) :
    (if nodeIndexOk index s then k else badOperand index s).Keeps P := by
  split
  · exact hk
  · exact .raise _ _ hs

theorem encReady_keeps (i : Instr) {k : Res α} (hk : k.Keeps P) : (encReady i s k).Keeps P := by
  refine ready_keeps hs i _ ?_
  split
  · exact .raise _ _ hs
  · exact hk

theorem whenWalking_keeps (i : Instr) (doneResult : DWord) {k : Res DWord} (hk : k.Keeps P) :
    (whenWalking i s doneResult k).Keeps P := by
  unfold whenWalking
  split
  · exact .raise _ _ hs
  · exact .raise _ _ hs
  · exact .ok _ hs
  · exact hk

end

/-! ### The inspection commands -/

/-- R58: an inspection command's pseudocode leaves the state as it is, whether it answers or raises. -/
theorem exec_of_inspects {i : Instr} (hi : inspects i = true) (s : State) :
    ∃ r : Res DWord, exec i s = finish .other r ∧ r.Keeps (Eq s) := by
  cases i with
  | nop => exact ⟨_, rfl, .ok _ rfl⟩
  | cntRead sel => exact ⟨_, rfl, .ok _ rfl⟩
  | freqRead sym => exact ⟨_, rfl, withSymbol_keeps rfl _ _ fun _ => .ok _ rfl⟩
  | treeInfo => exact ⟨_, rfl, ready_keeps rfl _ _ (.ok _ rfl)⟩
  | nodeRead index =>
    refine ⟨_, rfl, ready_keeps rfl _ _ (nodeIndex_keeps rfl index ?_)⟩
    split
    · exact .ok _ rfl
    · exact .stop _
  | nodeWeightRead index =>
    refine ⟨_, rfl, ready_keeps rfl _ _ (nodeIndex_keeps rfl index ?_)⟩
    split
    · exact .ok _ rfl
    · exact .stop _
  | codeLenRead sym =>
    exact ⟨_, rfl, withSymbol_keeps rfl _ _ fun x => ready_keeps rfl _ _ (codeRead_keeps rfl x _)⟩
  | codeBitsRead sym k =>
    refine ⟨_, rfl, withSymbol_keeps rfl _ _ fun x => ready_keeps rfl _ _ ?_⟩
    split
    · exact codeRead_keeps rfl x _
    · exact .raise _ _ rfl
  | _ => cases hi

/-- Settles O60: such a command ends in the state it started in, and a raise would have latched an error. -/
theorem inspectionHasNoSideEffect : Obligations.InspectionHasNoSideEffect := by
  intro i s t hi _ h herr
  obtain ⟨r, hr, hkeeps⟩ := exec_of_inspects hi s
  rw [hr] at h
  obtain ⟨v, u, rfl, rfl⟩ | ⟨e, info, u, rfl, he⟩ := finish_eq_next h
  · obtain rfl : s = u := hkeeps
    rfl
  · rw [enterError_next he] at herr
    cases herr

/-! ### A closed output -/

/-- The output is closed, and its bits and their counter have these values (R33, R34, R45). -/
def ShutAt (o : List Bool × DWord) (s : State) : Prop := s.outOpen = false ∧ s.outputPart = o

theorem ChanFrame.outOpen {s t : State} (h : ChanFrame s t) : t.outOpen = s.outOpen := by
  obtain ⟨_, _, _, _, _, _, rfl⟩ := h; rfl

/-- A write on a closed output raises OUTPUT_CLOSED and is no transaction (R47, log 10). -/
theorem writeBits_of_shut {n : Nat} (v : BitVec n) {s : State} (ho : s.outOpen = false) :
    writeBits v s = .raise .outputClosed s.outBitsWritten s := by
  simp [writeBits, ho]

/-- Writing a header begins with a write (R102). -/
theorem emitTree_of_shut (t : Tree) {s : State} (ho : s.outOpen = false) :
    emitTree t s = .raise .outputClosed s.outBitsWritten s := by
  cases t with
  | leaf | node => rw [emitTree, writeBits_of_shut _ ho, Res.bind_raise]

section
variable {o : List Bool × DWord} {s : State} (hs : ShutAt o s)
include hs

theorem readBits_shut (n : Nat) : (readBits n s).Keeps (ShutAt o) := by
  obtain ⟨hopen, hout⟩ := hs
  refine (readBits_ends n s).mono ?_ ?_ (fun _ _ => trivial)
  · rintro v t ⟨hf, hbits, hcount, _⟩
    refine ⟨hf.outOpen.trans hopen, ?_⟩
    rw [← hout, State.outputPart, State.outputPart, hbits, hcount]
  · rintro e info t ⟨_, _, rfl⟩
    exact ⟨hopen, hout⟩

theorem writeBits_shut {n : Nat} (v : BitVec n) : (writeBits v s).Keeps (ShutAt o) := by
  rw [writeBits_of_shut v hs.1]
  exact .raise _ _ hs

theorem emitBits_shut (bits : BitVec 256) (j : Nat) : (emitBits bits j s).Keeps (ShutAt o) := by
  induction j generalizing s with
  | zero => exact .ok _ hs
  | succ j ih => exact (writeBits_shut hs _).bind fun _ _ ht => ih ht

theorem emitSymbol_shut (x : Symbol) : (emitSymbol x s).Keeps (ShutAt o) := by
  refine (codePresentAt_keeps hs x).bind fun p t ht => ?_
  cases p with
  | false => exact .raise _ _ ht
  | true =>
    exact (codeAt_keeps ht x).bind fun c u hu =>
      (emitBits_shut hu c.2 c.1.toNat).bind fun _ _ hv => .ok _ hv

theorem encodeLoop_shut (bound n : Nat) : (encodeLoop bound n s).Keeps (ShutAt o) := by
  induction bound generalizing n s with
  | zero => exact .stop _
  | succ bound ih =>
    refine (readBits_shut hs 8).bind fun v t ht => ?_
    cases v with
    | none => exact .ok _ ht
    | some b => exact (emitSymbol_shut ht (byteSymbol b)).bind fun _ _ hu => ih hu (n + 1)

theorem emitTree_shut (t : Tree) : (emitTree t s).Keeps (ShutAt o) := by
  rw [emitTree_of_shut t hs.1]
  exact .raise _ _ hs

theorem childOfCursor_shut (right : Bool) : (childOfCursor right s).Keeps (ShutAt o) := by
  unfold childOfCursor
  split
  · exact .stop _
  · split
    · exact .ok _ hs
    · exact .stop _
    · exact .stop _

theorem arrive_shut (c : NodeIdx) : (arrive c s).Keeps (ShutAt o) := by
  unfold arrive
  split
  · exact .stop _
  · exact .ok _ hs
  · split
    · exact .ok _ hs
    · exact (writeBits_shut hs _).bind fun _ _ ht => .ok _ ht

theorem decStep_shut : (decStep s).Keeps (ShutAt o) := by
  refine (readBits_shut hs 1).bind fun v t ht => ?_
  cases v with
  | none => exact .raise _ _ ht
  | some b => exact (childOfCursor_shut ht _).bind fun c _ hu => arrive_shut hu c

theorem symbolLoop_shut (bound : Nat) : (symbolLoop bound s).Keeps (ShutAt o) := by
  induction bound generalizing s with
  | zero => exact .stop _
  | succ bound ih =>
    refine (decStep_shut hs).bind fun r t ht => ?_
    split
    · exact ih ht
    · exact .ok _ ht

theorem streamLoop_shut (bound n : Nat) : (streamLoop bound n s).Keeps (ShutAt o) := by
  induction bound generalizing n s with
  | zero => exact .stop _
  | succ bound ih =>
    unfold streamLoop
    split
    · exact (decStep_shut hs).bind fun _ _ ht => ih ht _
    · exact .ok _ hs

end

/-- R47, R152: the pseudocode of a command that writes to the output leaves a closed one as it is. -/
theorem exec_of_writesOutput {i : Instr} (hi : writesOutput i = true) {o : List Bool × DWord}
    {s : State} (hs : ShutAt o s) :
    ∃ r, exec i s = finish (kindOf i) r ∧ r.Keeps (ShutAt o) := by
  cases i with
  | magicWrite => exact ⟨_, rfl, (writeBits_shut hs _).bind fun _ _ ht => .ok _ ht⟩
  | headerWrite =>
    exact ⟨_, rfl, ready_keeps hs _ _ (withHeldTree_keeps fun t =>
      (emitTree_shut hs t).bind fun _ _ hu => .ok _ hu)⟩
  | encSymbol b =>
    exact ⟨_, rfl, encReady_keeps hs _ ((emitSymbol_shut hs _).bind fun _ _ ht => .ok _ ht)⟩
  | encEos =>
    exact ⟨_, rfl, encReady_keeps hs _ ((emitSymbol_shut hs _).bind fun _ _ ht => .ok _ ht)⟩
  | encStream =>
    refine ⟨_, rfl, encReady_keeps hs _ ?_⟩
    split
    · exact .raise _ _ hs
    · exact (encodeLoop_shut hs _ 0).bind fun _ _ ht =>
        (emitSymbol_shut ht sentinel).bind fun _ _ hu => .ok _ hu
  | decBit => exact ⟨_, rfl, whenWalking_keeps hs _ _ (decStep_shut hs)⟩
  | decSymbol => exact ⟨_, rfl, whenWalking_keeps hs _ _ (symbolLoop_shut hs _)⟩
  | decStream =>
    exact ⟨_, rfl, whenWalking_keeps hs _ _
      ((streamLoop_shut hs _ 0).bind fun _ _ ht => .ok _ ht)⟩
  | _ => cases hi

/-- R152: no update opens the output again. -/
theorem Updates.outOpen_eq_false {i : Instr} {s t : State} (h : Updates i s t)
    (hs : s.outOpen = false) : t.outOpen = false := by
  refine h.keeps (P := fun u => u.outOpen = false) (fun u v hu huv => ?_) hs
  cases huv with
  | shutOut => rfl
  | _ => exact hu

/-- R60, R152: a closed output stays as it is. -/
theorem exec_shutAt {i : Instr} {s t : State} {o : List Bool × DWord} (hs : ShutAt o s)
    (h : exec i s = .next t) : ShutAt o t := by
  cases hi : writesOutput i with
  | true =>
    obtain ⟨r, hr, hkeeps⟩ := exec_of_writesOutput hi hs
    rw [hr] at h
    obtain ⟨v, u, rfl, rfl⟩ | ⟨e, info, u, rfl, he⟩ := finish_eq_next h
    · exact hkeeps
    · rw [enterError_next he]
      exact ⟨rfl, hkeeps.2⟩
  | false =>
    obtain ⟨u, hu, hend⟩ := exec_next h
    have hout : u.outputPart = o := (hu.unchanged fun _ _ hup => hup.outputPart hi).trans hs.2
    obtain ⟨v, rfl⟩ | ⟨e, info, _, rfl⟩ := hend
    · exact ⟨hu.outOpen_eq_false hs.1, hout⟩
    · exact ⟨rfl, hout⟩

/-- R47: a write appends, and nothing else touches the bits that were accepted. -/
theorem Updates.outBits_prefix {i : Instr} {s t : State} (h : Updates i s t) :
    s.outBits <+: t.outBits := by
  refine h.keeps (P := fun u => s.outBits <+: u.outBits) (fun u v hu huv => ?_)
    (List.prefix_refl _)
  cases huv with
  | acceptWrite _ bits => exact hu.trans (List.prefix_append _ bits)
  | _ => exact hu

theorem exec_outBits_prefix {i : Instr} {s t : State} (h : exec i s = .next t) :
    s.outBits <+: t.outBits := by
  obtain ⟨u, hu, ⟨v, rfl⟩ | ⟨e, info, _, rfl⟩⟩ := exec_next h
  · exact hu.outBits_prefix
  · exact hu.outBits_prefix

/-! ### OUTPUT_CLOSED -/

/-- Where the close in the error entry is answered, the entry gives the state of the table (R127). -/
theorem enterError_of_closeAnswered {s : State} (h : s.CloseAnswered) (k : CmdKind) (e : ErrCode)
    (info : DWord) :
    enterError k e info s = .next (s.afterError (decide (k = .decoder ∧ e ≠ .notReady)) e info) := by
  have hopen : (latchError k e info s).outOpen = s.outOpen := by rw [latchError_eq]
  obtain ⟨t, ht⟩ : ∃ t, enterError k e info s = .next t := by
    unfold enterError
    rcases chanClose_cases (latchError k e info s) with
      ⟨_, hc⟩ | ⟨_, _, hc⟩ | ⟨_, _, hc⟩ | ⟨ho, ha, _⟩
    · exact ⟨_, by rw [hc]⟩
    · exact ⟨_, by rw [hc]⟩
    · exact ⟨_, by rw [hc]⟩
    · rw [latchError_answer] at ha
      rcases h with hclosed | hne
      · exact absurd (ho.symm.trans (hopen.trans hclosed)) (by decide)
      · exact absurd ha hne
  rw [ht, enterError_next ht]

/-- A command other than the decoder's that raises with the output closed. -/
theorem finish_raise_of_shut {s : State} (ho : s.outOpen = false) (e : ErrCode) (info : DWord) :
    finish .other (.raise e info s) = .next (s.afterError false e info) :=
  enterError_of_closeAnswered (.inl ho) .other e info

/-- A decoder command that raises with the output closed, its preconditions met. -/
theorem finish_decoder_raise_of_shut {s : State} (ho : s.outOpen = false) {e : ErrCode}
    (he : e ≠ .notReady) (info : DWord) :
    finish .decoder (.raise e info s) = .next (s.afterError true e info) := by
  rw [finish, enterError_of_closeAnswered (.inl ho), decide_eq_true ⟨rfl, he⟩]

/-- The error entry of a decoder command forgets where the walk stood (R127). -/
theorem State.setDec_afterError (s : State) (d : DecState) (c : Option NodeIdx) (e : ErrCode)
    (info : DWord) : (s.setDec d c).afterError true e info = s.afterError true e info := rfl

theorem headerWrite_of_shut {s : State} {tree : Tree} (ho : s.outOpen = false)
    (hv : s.treeValid = true) (ht : s.heldTree = some tree) :
    exec .headerWrite s = .next (s.afterError false .outputClosed s.outBitsWritten) := by
  rw [exec, execHeaderWrite, if_pos hv, withHeldTree, ht]
  dsimp only
  rw [emitTree_of_shut tree ho, Res.bind_raise, finish_raise_of_shut ho]

/-- Encoding a symbol that has a code writes the code's bits (R106, R107). -/
theorem emitSymbol_of_hasCode {s : State} {x : Symbol} {c : List Bool} (h : s.HasCode x c) :
    ∃ (l : BitVec 9) (b : BitVec 256), c = codeString l.toNat b ∧
      emitSymbol x s = (emitBits b l.toNat s).bind fun _ u => .ok l u := by
  obtain ⟨l, b, hp, hl, hb, hc⟩ := h
  exact ⟨l, b, hc, by simp [emitSymbol, codePresentAt, emitCode, codeAt, hp, hl, hb]⟩

theorem emitSymbol_of_shut {s : State} {x : Symbol} {c : List Bool} (ho : s.outOpen = false)
    (hc : s.HasCode x c) (hne : c ≠ []) :
    emitSymbol x s = .raise .outputClosed s.outBitsWritten s := by
  obtain ⟨l, b, rfl, hemit⟩ := emitSymbol_of_hasCode hc
  obtain ⟨j, hj⟩ : ∃ j, l.toNat = j + 1 := Nat.exists_eq_succ_of_ne_zero fun hz =>
    hne (by rw [hz]; rfl)
  rw [hemit, hj, emitBits, writeBits_of_shut _ ho, Res.bind_raise, Res.bind_raise]

/-- The preconditions of an ENC_* command hold (R107 to R109). -/
theorem encReady_of_ready {α : Type} {s : State} (hv : s.codesValid = true)
    (he : s.encEnded = false) (i : Instr) (k : Res α) : encReady i s k = k := by
  simp [encReady, hv, he]

section
variable {s : State} {c : List Bool} (ho : s.outOpen = false) (hv : s.codesValid = true)
  (he : s.encEnded = false) (hne : c ≠ [])
include ho hv he hne

theorem encSymbol_of_shut {b : Byte} (hc : s.HasCode (byteSymbol b) c) :
    exec (.encSymbol b) s = .next (s.afterError false .outputClosed s.outBitsWritten) := by
  rw [exec, execEncSymbol, encReady_of_ready hv he, emitSymbol_of_shut ho hc hne, Res.bind_raise,
    finish_raise_of_shut ho]

theorem encEos_of_shut (hc : s.HasCode sentinel c) :
    exec .encEos s = .next (s.afterError false .outputClosed s.outBitsWritten) := by
  rw [exec, execEncEos, encReady_of_ready hv he, emitSymbol_of_shut ho hc hne, Res.bind_raise,
    finish_raise_of_shut ho]

end

/-! ### Bits that are read -/

/-- A bit string's number, with one bit more at its end (R12). -/
theorem bitsToNat_concat (bits : List Bool) (b : Bool) :
    bitsToNat (bits ++ [b]) = 2 * bitsToNat bits + b.toNat := by
  simp [bitsToNat, List.foldl_append]

/-- The bits of a value with one bit more at its end. -/
theorem bin_concat {w : Nat} (v : BitVec w) (b : Bool) : bin (v.concat b) = bin v ++ [b] := by
  rw [bin, List.range_succ, List.map_append, List.map_singleton, BitVec.getMsbD_concat]
  congr 1
  · refine List.map_congr_left fun k hk => ?_
    rw [BitVec.getMsbD_concat, if_pos (List.mem_range.mp hk)]
  · simp

/-- A value's bits spell the value (R12). -/
theorem bitsToNat_bin {w : Nat} (v : BitVec w) : bitsToNat (bin v) = v.toNat := by
  induction v using BitVec.concat_induction with
  | nil => rfl
  | concat v b ih => rw [bin_concat, bitsToNat_concat, ih, BitVec.toNat_concat, Nat.mul_comm]

theorem State.restBits_length (s : State) : s.restBits.length = s.inBits.length - s.inPos :=
  List.length_drop

/-- A read within the input delivers the value that the next bits spell (R46, R53). -/
theorem readBits_of_restBits {n : Nat} {s : State} {v : BitVec n} {rest : List Bool}
    (hn : 0 < n) (ha : s.answer = .accept) (hrest : s.restBits = bin v ++ rest) :
    readBits n s = .ok (some v) (s.moved n [] 1) := by
  have hlen := s.restBits_length
  rw [hrest, List.length_append, bin_length] at hlen
  have hpeek : s.peekBits n = v := by
    have htake : (s.inBits.drop s.inPos).take n = bin v := by
      show s.restBits.take n = _
      rw [hrest, List.take_left' (bin_length v)]
    rw [State.peekBits, htake, bitsToNat_bin, BitVec.ofNat_toNat, BitVec.setWidth_eq]
  rw [readBits_some ha (by omega), hpeek, State.acceptRead_eq_moved]

/-- What accepted reads alone have moved. -/
theorem State.moved_reads (s : State) (n k : Nat) :
    s.moved n [] k =
      { s with
        inPos := s.inPos + n, inBitsRead := s.inBitsRead + BitVec.ofNat 64 n,
        txCount := s.txCount + k } := by
  simp [State.moved]

@[simp] theorem State.moved_reads_outBitsWritten (s : State) (n k : Nat) :
    (s.moved n [] k).outBitsWritten = s.outBitsWritten := by
  simp [State.moved]

section
variable {s : State} {c : List Bool} (ho : s.outOpen = false) (hv : s.codesValid = true)
  (he : s.encEnded = false) (hne : c ≠ []) (hx : s.inExhausted = false) (ha : s.answer = .accept)
include ho hv he hne hx ha

/-- ENC_STREAM at its first byte (R109). -/
theorem encStream_byte_of_shut {b : Byte} {rest : List Bool} (hc : s.HasCode (byteSymbol b) c)
    (hrest : s.restBits = bin b ++ rest) :
    exec .encStream s =
      .next ((s.moved 8 [] 1).afterError false .outputClosed s.outBitsWritten) := by
  have hcode : (s.moved 8 [] 1).HasCode (byteSymbol b) c := hc
  have hloop : encodeLoop (inputBound s) 0 s =
      .raise .outputClosed (s.moved 8 [] 1).outBitsWritten (s.moved 8 [] 1) := by
    rw [inputBound, encodeLoop, readBits_of_restBits (by decide) ha hrest]
    simp only [Res.bind_ok, emitSymbol_of_shut (s := s.moved 8 [] 1) ho hcode hne, Res.bind_raise]
  rw [exec, execEncStream, encReady_of_ready hv he, if_neg (by simp [hx]), hloop, Res.bind_raise,
    finish_raise_of_shut (s := s.moved 8 [] 1) ho, State.moved_reads_outBitsWritten]

/-- ENC_STREAM at the sentinel, with no whole byte left (R109). -/
theorem encStream_sentinel_of_shut (hc : s.HasCode sentinel c) (hrest : s.restBits.length < 8) :
    exec .encStream s =
      .next (s.countTx.exhaust.afterError false .outputClosed s.outBitsWritten) := by
  have hend : s.inBits.length < s.inPos + 8 := by
    rw [State.restBits_length] at hrest
    omega
  have hcode : s.countTx.exhaust.HasCode sentinel c := hc
  have hloop : encodeLoop (inputBound s) 0 s = .ok 0 s.countTx.exhaust := by
    rw [inputBound, encodeLoop, readBits_end ha hend, Res.bind_ok]
  rw [exec, execEncStream, encReady_of_ready hv he, if_neg (by simp [hx]), hloop, Res.bind_ok,
    emitSymbol_of_shut (s := s.countTx.exhaust) ho hcode hne, Res.bind_raise,
    finish_raise_of_shut (s := s.countTx.exhaust) ho]
  rfl

end

/-! ### The walk to a leaf -/

/-- k steps of the walk that reach no leaf (R111). -/
inductive Descends : (k : Nat) → State → State → Prop
  | refl (s : State) : Descends 0 s s
  | step {k : Nat} {s t u : State} (h : decStep s = .ok 0#64 t) (ht : Descends k t u) :
      Descends (k + 1) s u

theorem Descends.decState {k : Nat} {s u : State} (h : Descends k s u) :
    u.decState = s.decState := by
  induction h with
  | refl => rfl
  | step h _ ih => exact ih.trans (decStep_zero_decState h)

/-- DEC_SYMBOL goes on while no leaf is reached (R114). -/
theorem Descends.symbolLoop {k : Nat} {s u : State} (h : Descends k s u) (bound : Nat) :
    symbolLoop (bound + k) s = symbolLoop bound u := by
  induction h with
  | refl => rfl
  | step h _ ih => rw [← ih, ← Nat.add_assoc, Machine.symbolLoop, h, Res.bind_ok, if_pos rfl]

/-- DEC_STREAM counts no byte before a leaf is reached (R115). -/
theorem Descends.streamLoop {k : Nat} {s u : State} (h : Descends k s u)
    (hd : s.decState = .walking) (bound n : Nat) :
    streamLoop (bound + k) n s = streamLoop bound n u := by
  induction h with
  | refl => rfl
  | step h _ ih =>
    rw [← ih ((decStep_zero_decState h).trans hd), ← Nat.add_assoc, Machine.streamLoop, if_pos hd,
      h, Res.bind_ok]
    rfl

/-- A step from an internal node takes one bit to the child that the bit selects (R111). -/
theorem decStep_of_internal {s : State} {b : Bool} {rest : List Bool} {cur l r : NodeIdx}
    {w : Option Weight} (ha : s.answer = .accept) (hrest : s.restBits = b :: rest)
    (hc : s.decCur = some cur) (hn : nodeAt s.nodes cur.toNat = some (.internal l r w)) :
    decStep s = arrive (if b then r else l) (s.moved 1 [] 1) := by
  have hbin : bin (BitVec.ofBool b) = [b] := by cases b <;> rfl
  have hread : readBits 1 s = .ok (some (BitVec.ofBool b)) (s.moved 1 [] 1) :=
    readBits_of_restBits (by decide) ha (by rw [hbin]; exact hrest)
  have hchild : childOfCursor (BitVec.ofBool b == 1#1) (s.moved 1 [] 1) =
      .ok (if b then r else l) (s.moved 1 [] 1) := by
    have hc' : (s.moved 1 [] 1).decCur = some cur := hc
    have hn' : nodeAt (s.moved 1 [] 1).nodes cur.toNat = some (.internal l r w) := hn
    have hbit : (BitVec.ofBool b == 1#1) = b := by cases b <;> rfl
    simp [childOfCursor, hc', hn', hbit]
  rw [decStep, hread, Res.bind_ok]
  dsimp only
  rw [hchild, Res.bind_ok]

theorem arrive_of_internal {s : State} {c l r : NodeIdx} {w : Option Weight}
    (hn : nodeAt s.nodes c.toNat = some (.internal l r w)) :
    arrive c s = .ok 0#64 (s.setDec s.decState (some c)) := by
  rw [arrive, hn]

/-- Below an internal node of a stored tree each bit leads to a child. -/
theorem Tree.StoredIn.child {f : Nat → Option Node} {i : Nat} {w : Option Weight} {tl tr : Tree}
    (h : (Tree.node i w tl tr).StoredIn f) :
    ∃ l r : NodeIdx, f i = some (.internal l r w) ∧ ∀ b : Bool,
      (if b then tr else tl).StoredIn f ∧
        (if b then tr else tl).idx = (if b then r else l).toNat := by
  obtain ⟨⟨l, r, hi, hl, hr⟩, hstl, hstr⟩ := h
  refine ⟨l, r, hi, fun b => ?_⟩
  cases b
  · exact ⟨hstl, hl.symm⟩
  · exact ⟨hstr, hr.symm⟩

/-- A path of no edge ends at its tree's top, a leaf (R95). -/
theorem Tree.eq_leaf_of_mem_paths {t : Tree} {x : Symbol} (h : (x, []) ∈ t.paths) :
    ∃ i w, t = .leaf i x w := by
  cases t with
  | leaf i y w =>
    obtain rfl : x = y := by simpa [Tree.paths] using h
    exact ⟨i, w, rfl⟩
  | node => simp [Tree.paths] at h

/-- A path's first bit selects the child that the path goes on below (R95). -/
theorem Tree.eq_node_of_mem_paths {t : Tree} {x : Symbol} {b : Bool} {path : List Bool}
    (h : (x, b :: path) ∈ t.paths) :
    ∃ i w l r, t = .node i w l r ∧ (x, path) ∈ (if b then r else l).paths := by
  cases t with
  | leaf => simp [Tree.paths] at h
  | node i w l r =>
    refine ⟨i, w, l, r, rfl, ?_⟩
    cases b <;> simpa [Tree.paths] using h

/-- The walk stands at the top of a stored tree, which has a path to symbol x; the input goes on with the path's
bits and then `rest`, and the channels accept everything (R111). -/
structure OnPath (s : State) (tree : Tree) (x : Symbol) (path rest : List Bool) : Prop where
  quiet : s.Quiet
  cursor : ∃ cur, s.decCur = some cur ∧ tree.idx = cur.toNat
  stored : tree.StoredIn (nodeAt s.nodes)
  mem : (x, path) ∈ tree.paths
  input : s.restBits = path ++ rest

/-- The first step on a path reaches the child that its first bit selects. -/
theorem OnPath.decStep {s : State} {tree : Tree} {x : Symbol} {b : Bool} {path rest : List Bool}
    (h : OnPath s tree x (b :: path) rest) :
    ∃ (c : NodeIdx) (sub : Tree), decStep s = arrive c (s.moved 1 [] 1) ∧
      sub.idx = c.toNat ∧ sub.StoredIn (nodeAt s.nodes) ∧ (x, path) ∈ sub.paths := by
  obtain ⟨hq, ⟨cur, hc, hidx⟩, hst, hmem, hrest⟩ := h
  obtain ⟨i, w, tl, tr, rfl, hsub⟩ := Tree.eq_node_of_mem_paths hmem
  obtain ⟨l, r, hn, hchild⟩ := hst.child
  obtain ⟨hstb, hidxb⟩ := hchild b
  obtain rfl : i = cur.toNat := hidx
  exact ⟨_, _, decStep_of_internal hq.answer hrest hc hn, hidxb, hstb, hsub⟩

/-- A path that is followed (R111): all its steps but the last reach internal nodes, and the last one reaches
the leaf at its end. -/
theorem OnPath.descends {s : State} {tree : Tree} {x : Symbol} {b : Bool} {path rest : List Bool}
    (h : OnPath s tree x (b :: path) rest) :
    ∃ u leaf w c, Descends path.length s u ∧
      Machine.decStep u = arrive leaf
        ((s.moved (path.length + 1) [] (path.length + 1)).setDec s.decState c) ∧
      nodeAt s.nodes leaf.toNat = some (.leaf x w) := by
  obtain ⟨c, sub, hstep, hidx, hst, hmem⟩ := h.decStep
  induction path generalizing s tree b c sub with
  | nil =>
    obtain ⟨j, v, rfl⟩ := Tree.eq_leaf_of_mem_paths hmem
    exact ⟨s, c, v, s.decCur, .refl s, hstep, hidx ▸ hst⟩
  | cons b' path ih =>
    obtain ⟨j, v, tl, tr, rfl, -⟩ := Tree.eq_node_of_mem_paths hmem
    obtain ⟨l, r, hn, -⟩ := hst.child
    obtain rfl : j = c.toNat := hidx
    have hdown : Machine.decStep s = .ok 0#64 ((s.moved 1 [] 1).setDec s.decState (some c)) :=
      hstep.trans (arrive_of_internal hn)
    have hnext : OnPath ((s.moved 1 [] 1).setDec s.decState (some c)) (.node c.toNat v tl tr) x
        (b' :: path) rest :=
      { quiet := h.quiet.countTx.congr rfl rfl
        cursor := ⟨c, rfl, rfl⟩
        stored := hst
        mem := hmem
        input := by
          show (s.moved 1 [] 1).restBits = _
          rw [State.moved_restBits, h.input]; rfl }
    obtain ⟨c', sub', hstep', hidx', hst', hmem'⟩ := hnext.decStep
    obtain ⟨u, leaf, w, cur, hdesc, hlast, hleaf⟩ := ih hnext c' sub' hstep' hidx' hst' hmem'
    refine ⟨u, leaf, w, cur, .step hdown hdesc, hlast.trans ?_, hleaf⟩
    show arrive leaf (((s.moved 1 [] 1).moved (path.length + 1) [] (path.length + 1)).setDec
      s.decState cur) = _
    rw [State.moved_moved, Nat.add_comm 1]
    rfl

/-- A byte is not the sentinel (R15). -/
theorem byteSymbol_ne_sentinel (b : Byte) : byteSymbol b ≠ sentinel := fun h =>
  absurd (congrArg Fin.val h) (Nat.ne_of_lt b.isLt)

/-- A byte's leaf is reached with the output closed (R111). -/
theorem arrive_byte_of_shut {s : State} {leaf : NodeIdx} {b : Byte} {w : Option Weight}
    (ho : s.outOpen = false) (hn : nodeAt s.nodes leaf.toNat = some (.leaf (byteSymbol b) w)) :
    arrive leaf s = .raise .outputClosed s.outBitsWritten s := by
  rw [arrive, hn]
  dsimp only
  rw [if_neg (byteSymbol_ne_sentinel b), writeBits_of_shut _ ho, Res.bind_raise]

theorem whenWalking_of_walking {i : Instr} {s : State} (hd : s.decState = .walking)
    (doneResult : DWord) (k : Res DWord) : whenWalking i s doneResult k = k := by
  simp [whenWalking, hd]

section
variable {s : State} {tree : Tree} {b : Byte} {path rest : List Bool} (ho : s.outOpen = false)
  (hd : s.decState = .walking) (h : OnPath s tree (byteSymbol b) path rest) (hne : path ≠ [])
include ho h hne

/-- A closed output where the walk reaches its first byte (R111): how the last step raises. -/
theorem OnPath.raises :
    ∃ k u c, path.length = k + 1 ∧ Descends k s u ∧
      Machine.decStep u = .raise .outputClosed s.outBitsWritten
        ((s.moved path.length [] path.length).setDec s.decState c) := by
  cases path with
  | nil => exact absurd rfl hne
  | cons bit path =>
    obtain ⟨u, leaf, w, c, hdesc, hstep, hleaf⟩ := h.descends
    refine ⟨path.length, u, c, rfl, hdesc, hstep.trans ?_⟩
    rw [arrive_byte_of_shut
      (s := (s.moved (path.length + 1) [] (path.length + 1)).setDec s.decState c) ho hleaf]
    simp

include hd

/-- DEC_BIT, DEC_SYMBOL and DEC_STREAM raise OUTPUT_CLOSED at the first byte's leaf (R111, R113 to R115). -/
theorem OnPath.exec_of_shut {i : Instr}
    (hi : i = .decSymbol ∨ i = .decStream ∨ (i = .decBit ∧ path.length = 1)) :
    exec i s = .next ((s.moved path.length [] path.length).afterError true .outputClosed
      s.outBitsWritten) := by
  obtain ⟨k, u, c, hk, hdesc, hstep⟩ := h.raises ho hne
  have hlen : path.length ≤ s.inBits.length - s.inPos := by
    rw [← State.restBits_length, h.input, List.length_append]
    omega
  obtain ⟨m, hm⟩ : ∃ m, inputBound s = m + 1 + k :=
    ⟨s.inBits.length - s.inPos - k, by rw [inputBound]; omega⟩
  have hraise : exec i s = finish .decoder (.raise .outputClosed s.outBitsWritten
      ((s.moved path.length [] path.length).setDec s.decState c)) := by
    rcases hi with rfl | rfl | ⟨rfl, hone⟩
    · rw [exec, execDecSymbol, whenWalking_of_walking hd, hm, hdesc.symbolLoop, symbolLoop, hstep,
        Res.bind_raise]
    · rw [exec, execDecStream, whenWalking_of_walking hd, hm, hdesc.streamLoop hd, streamLoop,
        if_pos (hdesc.decState.trans hd), hstep, Res.bind_raise, Res.bind_raise]
    · obtain rfl : k = 0 := by omega
      cases hdesc
      rw [exec, execDecBit, whenWalking_of_walking hd, hstep]
  rw [hraise, finish_decoder_raise_of_shut (s := (s.moved path.length [] path.length).setDec _ c) ho
    (by decide), State.setDec_afterError]

end

/-- Settles O59: with the output closed no write reaches the channel, and each writing command raises at its
first write. -/
theorem outputOnlyGrowsAndStaysClosed : Obligations.OutputOnlyGrowsAndStaysClosed := by
  refine ⟨fun i s t h => ⟨exec_outBits_prefix h, fun ho => ?_⟩,
    fun s tree ho hv ht => headerWrite_of_shut ho hv ht, fun s c ho hv he hne => ?_,
    fun s c sub b path rest ho hq hd hc hn hsub hmem hrest i hi => ?_⟩
  · obtain ⟨hopen, hout⟩ := exec_shutAt (o := s.outputPart) ⟨ho, rfl⟩ h
    obtain ⟨hbits, hcount⟩ := Prod.mk.inj hout
    exact ⟨hbits, hcount, hopen⟩
  · refine ⟨fun b hc => encSymbol_of_shut ho hv he hne hc, encEos_of_shut ho hv he hne,
      fun hx ha => ⟨fun b rest hc hrest => ?_, encStream_sentinel_of_shut ho hv he hne hx ha⟩⟩
    rw [encStream_byte_of_shut ho hv he hne hx ha hc hrest, State.moved_reads]
  · have hpath : OnPath s sub (byteSymbol b) path rest :=
      ⟨hq, ⟨c, hc, readTree_idx hsub⟩, storedIn_of_readTree hsub, hmem, hrest⟩
    have hne : path ≠ [] := by
      rintro rfl
      obtain ⟨j, w, rfl⟩ := Tree.eq_leaf_of_mem_paths hmem
      obtain ⟨l, r, v, hn⟩ := hn
      have hleaf : nodeAt s.nodes j = some (.leaf (byteSymbol b) w) := storedIn_of_readTree hsub
      have hj : j = c.toNat := readTree_idx hsub
      rw [hj, hn] at hleaf
      cases hleaf
    rw [hpath.exec_of_shut ho hd hne hi, State.moved_reads]

end Sys2Proof.Machine

namespace Sys2Proof.Machine

/-! ### The fields of a command word -/

/-- R65, R75: a command word decodes by its two fields. -/
theorem decode_commandWord (opc : BitVec 8) (sym : SymField) (arg : Word) :
    decode (commandWord opc sym) arg = decodeFields opc sym arg := by
  obtain ⟨hopc, hsym, hres⟩ := Laws.WordFields.fields_of_word sym opc
  rw [decode, commandWord, hopc, hsym, hres, if_pos rfl]

/-- R65: a word is its reserved bits, its SYM and its OPC. -/
theorem append_fields (w : Word) : reservedField w ++ symField w ++ opcField w = w := by
  rw [reservedField, symField, opcField,
    BitVec.extractLsb'_append_extractLsb'_eq_extractLsb' (by rfl),
    BitVec.extractLsb'_append_extractLsb'_eq_extractLsb' (by rfl)]
  exact BitVec.extractLsb'_eq_self

/-- R65: a word is given by its fields. -/
theorem word_eq_iff {w v : Word} :
    w = v ↔ opcField w = opcField v ∧ symField w = symField v ∧
      reservedField w = reservedField v := by
  refine ⟨fun h => h ▸ ⟨rfl, rfl, rfl⟩, fun ⟨hopc, hsym, hres⟩ => ?_⟩
  rw [← append_fields w, ← append_fields v, hopc, hsym, hres]

/-- R65, R75: a word with no reserved bit set is the command word of its fields. -/
theorem commandWord_fields {w : Word} (h : reservedField w = 0#15) :
    commandWord (opcField w) (symField w) = w := by
  obtain ⟨hopc, hsym, hres⟩ := Laws.WordFields.fields_of_word (symField w) (opcField w)
  exact word_eq_iff.mpr ⟨hopc, hsym, hres.trans h.symm⟩

/-! ### The classes of SYM -/

/-- A byte comes back from the SYM field it is put in (R67). -/
theorem takeByte_setWidth (b : Byte) (f : Byte → Instr) :
    takeByte (b.setWidth 9) f = .instr (f b) := by
  have hle : (b.setWidth 9).toNat ≤ 255 := by rw [BitVec.toNat_setWidth]; omega
  have hbyte : (b.setWidth 9).extractLsb' 0 8 = b := by
    rw [BitVec.extractLsb'_setWidth_of_le (by decide), BitVec.extractLsb'_eq_self]
  rw [takeByte, if_pos hle, hbyte]

/-- A selector comes back from the SYM field it is put in (R67). -/
theorem takeSel_setWidth (sel : BitVec 1) (f : BitVec 1 → Instr) :
    takeSel (sel.setWidth 9) f = .instr (f sel) := by
  have hle : (sel.setWidth 9).toNat ≤ 1 := by rw [BitVec.toNat_setWidth]; omega
  have hsel : (sel.setWidth 9).extractLsb' 0 1 = sel := by
    rw [BitVec.extractLsb'_setWidth_of_le (by decide), BitVec.extractLsb'_eq_self]
  rw [takeSel, if_pos hle, hsel]

theorem takeSym_of_inRange {sym : SymField} (h : symInRange sym = true) (f : SymField → Instr) :
    takeSym sym f = .instr (f sym) := if_pos (of_decide_eq_true h)

/-- A field that fits in its n low bits is those bits. -/
theorem setWidth_extractLsb'_of_lt {n : Nat} {sym : SymField} (h : sym.toNat < 2 ^ n) :
    (sym.extractLsb' 0 n).setWidth 9 = sym := by
  apply BitVec.eq_of_toNat_eq
  simp only [BitVec.toNat_setWidth, BitVec.extractLsb'_toNat, Nat.shiftRight_zero]
  rw [Nat.mod_eq_of_lt h, Nat.mod_eq_of_lt sym.isLt]

/-! ### Decoding what was encoded -/

/-- R69: the fields of a command's words decode to the command. -/
theorem decodeFields_encode {i : Instr} (h : i.wellFormed = true) :
    decodeFields (opcode i) (encodeSym i) (encodeArg i) = .instr i := by
  cases i with
  | cntRead sel => exact takeSel_setWidth sel .cntRead
  | freqCount b => exact takeByte_setWidth b .freqCount
  | encSymbol b => exact takeByte_setWidth b .encSymbol
  | freqWrite sym count => exact takeSym_of_inRange h (.freqWrite · count)
  | freqRead sym => exact takeSym_of_inRange h .freqRead
  | codeLenRead sym => exact takeSym_of_inRange h .codeLenRead
  | codeBitsRead sym k => exact takeSym_of_inRange h (.codeBitsRead · k)
  | _ => rfl

/-- Settles O1: the command word shows OPC and SYM, and each class of SYM takes the field back to the operand. -/
theorem decodeOfEncodeIsIdentity : Obligations.DecodeOfEncodeIsIdentity := fun i h =>
  (decode_commandWord (opcode i) (encodeSym i) (encodeArg i)).trans (decodeFields_encode h)

/-- Settles O6: the decoder computes on each fixed word. -/
theorem encodingExamplesDecode : Obligations.EncodingExamplesDecode :=
  ⟨fun _ => rfl, rfl, rfl, rfl, rfl, rfl, rfl, rfl, fun _ => rfl, fun _ => rfl, fun _ => rfl⟩

/-! ### What every pair of words decodes to -/

/-- The fields, and the ARG where it is an operand, are those of command `i` (R65, R66). -/
structure Encodes (opc : BitVec 8) (sym : SymField) (arg : Word) (i : Instr) : Prop where
  wellFormed : i.wellFormed = true
  opcode : opcode i = opc
  sym : encodeSym i = sym
  arg : encodeArg i = if opc ∈ argOpcodes then arg else 0#32

/-- By its row, an opcode's SYM is in its class and the fields are a command's, or SYM is out of its class (R68). -/
def RowDecodes (opc : BitVec 8) (sym : SymField) (arg : Word) (d : Decoded) : Prop :=
  ∃ r ∈ opcodeMap, r.opc = opc ∧
    ((legalSym r.cls sym ∧ ∃ i, d = .instr i ∧ Encodes opc sym arg i) ∨
     (¬ legalSym r.cls sym ∧ d = .illegal .symOutOfClass))

section
variable {opc : BitVec 8} (sym : SymField) {arg : Word}

theorem takeNone_decodes {i : Instr} (hr : ⟨opc, .noSym⟩ ∈ opcodeMap) (hi : Encodes opc 0#9 arg i) :
    RowDecodes opc sym arg (takeNone sym i) := by
  refine ⟨_, hr, rfl, ?_⟩
  by_cases h : sym = 0#9
  · subst h
    exact .inl ⟨rfl, i, rfl, hi⟩
  · exact .inr ⟨fun hl => h (BitVec.eq_of_toNat_eq hl), if_neg h⟩

theorem takeByte_decodes {f : Byte → Instr} (hr : ⟨opc, .byte⟩ ∈ opcodeMap)
    (hf : ∀ b : Byte, Encodes opc (b.setWidth 9) arg (f b)) :
    RowDecodes opc sym arg (takeByte sym f) := by
  refine ⟨_, hr, rfl, ?_⟩
  by_cases h : sym.toNat ≤ 255
  · have hi := hf (sym.extractLsb' 0 8)
    rw [setWidth_extractLsb'_of_lt (Nat.lt_succ_of_le h)] at hi
    exact .inl ⟨h, _, if_pos h, hi⟩
  · exact .inr ⟨h, if_neg h⟩

theorem takeSel_decodes {f : BitVec 1 → Instr} (hr : ⟨opc, .sel⟩ ∈ opcodeMap)
    (hf : ∀ b : BitVec 1, Encodes opc (b.setWidth 9) arg (f b)) :
    RowDecodes opc sym arg (takeSel sym f) := by
  refine ⟨_, hr, rfl, ?_⟩
  by_cases h : sym.toNat ≤ 1
  · have hi := hf (sym.extractLsb' 0 1)
    rw [setWidth_extractLsb'_of_lt (Nat.lt_succ_of_le h)] at hi
    exact .inl ⟨h, _, if_pos h, hi⟩
  · exact .inr ⟨h, if_neg h⟩

theorem takeSym_decodes {f : SymField → Instr} (hr : ⟨opc, .sym⟩ ∈ opcodeMap)
    (hf : ∀ x : SymField, symInRange x = true → Encodes opc x arg (f x)) :
    RowDecodes opc sym arg (takeSym sym f) := by
  refine ⟨_, hr, rfl, ?_⟩
  by_cases h : sym.toNat ≤ 256
  · exact .inl ⟨h, _, if_pos h, hf sym (decide_eq_true h)⟩
  · exact .inr ⟨h, if_neg h⟩

end

/-- The match of `decodeFields` is on the opcode's number. -/
theorem opc_eq_ofNat {opc : BitVec 8} {n : Nat} (h : opc.toNat = n) : opc = BitVec.ofNat 8 n := by
  rw [← h, BitVec.ofNat_toNat, BitVec.setWidth_eq]

/-- Everything the opcode map can answer (R68 to R70): by the opcode's row, or that the opcode has none. -/
theorem decodeFields_cases (opc : BitVec 8) (sym : SymField) (arg : Word) :
    RowDecodes opc sym arg (decodeFields opc sym arg) ∨
      ((∀ r ∈ opcodeMap, r.opc ≠ opc) ∧ decodeFields opc sym arg = .illegal .reservedOpcode) := by
  fun_cases decodeFields opc sym arg
  case case30 =>
    refine .inr ⟨fun r hr ho => ?_, rfl⟩
    subst ho
    -- the row's opcode is one of those the match names
    fin_cases hr <;> exact absurd rfl ‹_›
  all_goals
    left
    obtain rfl := opc_eq_ofNat ‹opc.toNat = _›
  case case5 => exact takeSel_decodes sym (by decide) fun _ => ⟨rfl, rfl, rfl, rfl⟩
  case case7 | case23 => exact takeByte_decodes sym (by decide) fun _ => ⟨rfl, rfl, rfl, rfl⟩
  case case9 | case10 | case17 | case18 =>
    exact takeSym_decodes sym (by decide) fun _ hx => ⟨hx, rfl, rfl, rfl⟩
  all_goals exact takeNone_decodes sym (by decide) ⟨rfl, rfl, rfl, rfl⟩

/-- R70: the rows differ in OPC. -/
theorem row_eq_of_opc_eq {r q : Row} (hr : r ∈ opcodeMap) (hq : q ∈ opcodeMap)
    (h : r.opc = q.opc) : r = q :=
  List.inj_on_of_nodup_map (by decide : (opcodeMap.map Row.opc).Nodup) hr hq h

/-- What a legal word decodes to: the command of its fields, by the row of its opcode (R65, R66, R71). -/
theorem encodes_of_decode {w arg : Word} {i : Instr} (h : decode w arg = .instr i) :
    reservedField w = 0#15 ∧ Encodes (opcField w) (symField w) arg i ∧
      ∃ r ∈ opcodeMap, r.opc = opcField w ∧ legalSym r.cls (symField w) := by
  unfold decode at h
  split at h
  · rename_i hres
    rcases decodeFields_cases (opcField w) (symField w) arg with
      ⟨r, hr, hopc, ⟨hlegal, j, hj, henc⟩ | ⟨_, hill⟩⟩ | ⟨_, hill⟩
    · rw [hj] at h
      cases h
      exact ⟨hres, henc, r, hr, hopc, hlegal⟩
    · rw [hill] at h; cases h
    · rw [hill] at h; cases h
  · cases h

/-- R68, R70: a word is legal by a row of the opcode map. -/
theorem exists_decode_of_row {w : Word} {r : Row} (hr : r ∈ opcodeMap) (hres : reservedField w = 0#15)
    (hopc : r.opc = opcField w) (hlegal : legalSym r.cls (symField w)) (arg : Word) :
    ∃ i, decode w arg = .instr i := by
  rw [decode, if_pos hres]
  rcases decodeFields_cases (opcField w) (symField w) arg with
    ⟨q, hq, hqopc, ⟨_, i, hi, _⟩ | ⟨hnot, _⟩⟩ | ⟨hnone, _⟩
  · exact ⟨i, hi⟩
  · exact absurd (row_eq_of_opc_eq hq hr (hqopc.trans hopc.symm) ▸ hlegal) hnot
  · exact absurd hopc (hnone r hr)

/-- R70: a word decodes to a command or is illegal. -/
theorem decode_cases (w arg : Word) :
    (∃ i, decode w arg = .instr i) ∨ ∃ y, decode w arg = .illegal y := by
  cases decode w arg with
  | instr i => exact .inl ⟨i, rfl⟩
  | illegal y => exact .inr ⟨y, rfl⟩

/-- R70: an illegal word decodes to no command. -/
theorem isIllegal_iff {w arg : Word} :
    (∃ y, decode w arg = .illegal y) ↔ ¬ ∃ i, decode w arg = .instr i := by
  cases decode w arg <;> simp

/-- R66: an opcode that takes no ARG decodes alike with any. -/
theorem decode_of_arg_ignored {w : Word} (h : opcField w ∉ argOpcodes) (a b : Word) :
    decode w a = decode w b := by
  unfold decode
  split
  · unfold decodeFields
    split
    case h_9 hopc | h_14 hopc | h_15 hopc | h_18 hopc =>
      rw [opc_eq_ofNat hopc] at h
      exact absurd (by decide) h
    all_goals rfl
  · rfl

/-- Settles O2: the fields of a legal word are those of the command it decodes to. -/
theorem legalWordIsItsEncoding : Obligations.LegalWordIsItsEncoding := by
  intro w arg i h
  obtain ⟨hres, ⟨hwf, hopc, hsym, harg⟩, _⟩ := encodes_of_decode h
  have hword : encodeWord i = w := by
    show commandWord (opcode i) (encodeSym i) = w
    rw [hopc, hsym, commandWord_fields hres]
  rw [hopc]
  refine ⟨hwf, hword, fun hmem => ?_, fun hnot => ⟨?_, fun other => ?_⟩⟩
  · rw [harg, if_pos hmem]
  · rw [harg, if_neg hnot]
  · rw [decode_of_arg_ignored hnot other arg, h]

/-! ### Match and mask -/

/-- How many low bits of SYM the mask of a class leaves free (R70): `mask_fields` ties it to the mask. -/
def freeBits : SymClass → Nat
  | .noSym => 0
  | .byte => 8
  | .sym => 9
  | .sel => 1

/-- R70: a mask asks for all of OPC, the bits of SYM that are not free, and all reserved bits. -/
theorem mask_fields (c : SymClass) :
    opcField c.mask = BitVec.allOnes 8 ∧ symField c.mask = BitVec.allOnes 9 <<< freeBits c ∧
      reservedField c.mask = BitVec.allOnes 15 := by
  cases c <;> decide

/-- A mask of the bits from k up asks for a value below 2^k. -/
theorem and_high_eq_zero_iff {w : Nat} (x : BitVec w) (k : Nat) :
    x &&& (BitVec.allOnes w <<< k) = 0#w ↔ x.toNat < 2 ^ k := by
  constructor
  · intro h
    refine Nat.lt_pow_two_of_testBit _ fun j hj => ?_
    have hbit := congrArg (fun y => BitVec.getLsbD y j) h
    by_cases hjw : j < w
    · simpa [hjw, hj, hj.not_gt, show j - k < w by omega, BitVec.getLsbD] using hbit
    · exact BitVec.getLsbD_of_ge x j (by omega)
  · intro h
    refine BitVec.eq_of_getLsbD_eq fun j hjw => ?_
    by_cases hj : j < k
    · simp [hj]
    · have hbit : x.getLsbD j = false :=
        Nat.testBit_lt_two_pow (h.trans_le (Nat.pow_le_pow_right (by decide) (Nat.le_of_not_lt hj)))
      simp [hbit]

/-- The fields of a masked word are compared one by one. -/
theorem masked_eq_iff (c : SymClass) (opc : BitVec 8) (w : Word) :
    w &&& c.mask = opc.setWidth 32 ↔
      opcField w = opc ∧ (symField w).toNat < 2 ^ freeBits c ∧ reservedField w = 0#15 := by
  obtain ⟨hopc, hsym, hres⟩ := Laws.WordFields.fields_of_word 0#9 opc
  obtain ⟨hmopc, hmsym, hmres⟩ := mask_fields c
  have hword : opc.setWidth 32 = (0#9).setWidth 32 <<< 8 ||| opc.setWidth 32 := by simp
  have hand : ∀ start len, (w &&& c.mask).extractLsb' start len =
      w.extractLsb' start len &&& c.mask.extractLsb' start len := fun _ _ => BitVec.extractLsb'_and
  have hopcand : opcField (w &&& c.mask) = opcField w := by
    rw [opcField, hand, ← opcField, ← opcField, hmopc, BitVec.and_allOnes]
  have hresand : reservedField (w &&& c.mask) = reservedField w := by
    rw [reservedField, hand, ← reservedField, ← reservedField, hmres, BitVec.and_allOnes]
  have hsymand : symField (w &&& c.mask) = symField w &&& (BitVec.allOnes 9 <<< freeBits c) := by
    rw [symField, hand, ← symField, ← symField, hmsym]
  rw [hword, word_eq_iff, hopc, hsym, hres, hopcand, hresand, hsymand, and_high_eq_zero_iff]

/-- R67, R70: what a row's mask, match and test on SYM ask of a word. -/
theorem selects_iff (r : Row) (w : Word) :
    r.selects w = true ↔
      reservedField w = 0#15 ∧ r.opc = opcField w ∧ legalSym r.cls (symField w) := by
  obtain ⟨opc, cls⟩ := r
  have hlt := (symField w).isLt
  rw [Row.selects, Bool.and_eq_true, beq_iff_eq, masked_eq_iff, eq_comm (a := opcField w)]
  cases cls <;> simp only [freeBits, legalSym, decide_eq_true_eq] <;> grind

/-- Settles O3: a row selects a word exactly when its opcode is the word's, the reserved bits are 0 and SYM is in
its class, which is when the word is legal; and the rows differ in OPC. -/
theorem matchMaskRowsDecideLegality : Obligations.MatchMaskRowsDecideLegality := by
  refine ⟨fun w arg r hr => ?_, fun w r hr q hq hsr hsq => ?_, fun w arg => ?_⟩
  · rw [selects_iff]
    constructor
    · rintro ⟨hres, hopc, hlegal⟩
      obtain ⟨i, hi⟩ := exists_decode_of_row hr hres hopc hlegal arg
      obtain ⟨_, henc, _⟩ := encodes_of_decode hi
      exact ⟨i, hi, henc.opcode.trans hopc.symm⟩
    · rintro ⟨i, hi, hopc⟩
      obtain ⟨hres, henc, q, hq, hqopc, hlegal⟩ := encodes_of_decode hi
      have hrow : r.opc = opcField w := hopc.symm.trans henc.opcode
      obtain rfl := row_eq_of_opc_eq hr hq (hrow.trans hqopc.symm)
      exact ⟨hres, hrow, hlegal⟩
  · obtain ⟨_, hropc, _⟩ := (selects_iff r w).mp hsr
    obtain ⟨_, hqopc, _⟩ := (selects_iff q w).mp hsq
    exact row_eq_of_opc_eq hr hq (hropc.trans hqopc.symm)
  · refine (decode_cases w arg).imp_left fun ⟨i, hi⟩ => ?_
    obtain ⟨hres, _, r, hr, hrow⟩ := encodes_of_decode hi
    exact ⟨r, hr, (selects_iff r w).mpr ⟨hres, hrow⟩⟩

/-! ### Issuing a word -/

/-- R126 step 2: an illegal word that is let through raises ILLEGAL_COMMAND. -/
theorem issue_of_illegal {w arg : Word} {s : State} {y : Illegal} (hr : rejects w s = false)
    (hd : decode w arg = .illegal y) : issue w arg s = raiseIllegal w s := by
  simp [issue, hr, hd]

/-- R68, R127: where its close is answered, an illegal word leaves the state of the error entry. -/
theorem raiseIllegal_of_closeAnswered (w : Word) {s : State} (h : s.CloseAnswered) :
    raiseIllegal w s = .next (s.afterError false .illegalCommand (w.setWidth 64)) :=
  enterError_of_closeAnswered h .other .illegalCommand (w.setWidth 64)

/-- R68, R70: an illegal word has no row of its opcode, a reserved bit, or SYM out of its row's class. -/
theorem illegal_iff {w arg : Word} :
    (∃ y, decode w arg = .illegal y) ↔
      ((∀ r ∈ opcodeMap, r.opc ≠ opcField w) ∨ reservedField w ≠ 0#15 ∨
        ∃ r ∈ opcodeMap, r.opc = opcField w ∧ ¬ legalSym r.cls (symField w)) := by
  rw [isIllegal_iff]
  constructor
  · intro hnot
    by_cases hres : reservedField w = 0#15
    · by_cases hrow : ∃ r ∈ opcodeMap, r.opc = opcField w
      · obtain ⟨r, hr, hopc⟩ := hrow
        exact .inr (.inr ⟨r, hr, hopc, fun hlegal =>
          hnot (exists_decode_of_row hr hres hopc hlegal arg)⟩)
      · exact .inl fun r hr hopc => hrow ⟨r, hr, hopc⟩
    · exact .inr (.inl hres)
  · rintro hor ⟨i, hi⟩
    obtain ⟨hres, _, q, hq, hqopc, hlegal⟩ := encodes_of_decode hi
    rcases hor with hnone | hbits | ⟨r, hr, hopc, hnot⟩
    · exact hnone q hq hqopc
    · exact hbits hres
    · exact hnot (row_eq_of_opc_eq hr hq (hopc.trans hqopc.symm) ▸ hlegal)

/-- Settles O4: which words are illegal is `illegal_iff`, and the error entry's close is answered. -/
theorem illegalWordsRaiseIllegalCommand : Obligations.IllegalWordsRaiseIllegalCommand := by
  refine ⟨fun w arg => illegal_iff, fun w arg s rest hill herr hclose hhost => ?_⟩
  obtain ⟨y, hy⟩ := hill
  have hr : rejects w (s.setHost rest) = false := rejects_eq_false_iff.mpr (.inl herr)
  have hc : (s.setHost rest).CloseAnswered := hclose
  calc step s = issue w arg (s.setHost rest) := step_of_host_command hhost
    _ = raiseIllegal w (s.setHost rest) := issue_of_illegal hr hy
    _ = .next ((s.setHost rest).afterError false .illegalCommand (w.setWidth 64)) :=
      raiseIllegal_of_closeAnswered w hc

/-- Settles O5: the operand is taken from ARG by four opcodes, and no other word decodes by it. -/
theorem unusedArgHasNoEffect : Obligations.UnusedArgHasNoEffect := by
  refine ⟨fun sym arg hsym => ⟨?_, ?_⟩, fun arg => ⟨rfl, rfl⟩, fun w a b s h => ?_⟩
  · exact (decode_commandWord 0x13#8 sym arg).trans (if_pos hsym)
  · exact (decode_commandWord 0x32#8 sym arg).trans (if_pos hsym)
  · rw [issue, issue, decode_of_arg_ignored h a b]

/-! ### The response of a command -/

/-- What a command on the port can leave (R126): rejected under a latched error, ILLEGAL_COMMAND, or what its
command leaves. -/
theorem issue_eq_next {w arg : Word} {s t : State} (h : issue w arg s = .next t) :
    (s.err = true ∧ t = reject s) ∨ t = s.afterError false .illegalCommand (w.setWidth 64) ∨
      ∃ i, rejects w s = false ∧ decode w arg = .instr i ∧ exec i s = .next t := by
  cases hr : rejects w s with
  | true =>
    rw [issue, if_pos hr] at h
    cases h
    exact .inl ⟨Bool.and_elim_left hr, rfl⟩
  | false =>
    rcases decode_cases w arg with ⟨i, hd⟩ | ⟨y, hd⟩
    · rw [issue_of_decode hr hd] at h
      exact .inr (.inr ⟨i, rfl, hd, h⟩)
    · rw [issue_of_illegal hr hd] at h
      exact .inr (.inl (enterError_next h))

/-- R126 step 1: under a latched error only ERR_CLEAR is let through. -/
theorem errClear_of_not_rejected {w arg : Word} {s : State} {i : Instr} (hr : rejects w s = false)
    (hd : decode w arg = .instr i) : i = .errClear ∨ s.err = false := by
  rcases rejects_eq_false_iff.mp hr with herr | rfl
  · exact .inr herr
  · cases hd
    exact .inl rfl

/-- R119, R129: a command that completes leaves no error latched. -/
theorem err_of_completes {i : Instr} {s u : State} {v : DWord} (hi : i = .errClear ∨ s.err = false)
    (hu : Updates i s u) (h : exec i s = .next (u.respond true false v)) : u.err = false := by
  by_cases hc : i = .errClear
  · subst hc
    have hclear : exec .errClear s =
        .next (s.unlatch.respond true false (s.errCode.code.setWidth 64)) := rfl
    rw [hclear] at h
    exact (congrArg State.err (Host.Outcome.next.inj h)).symm
  · obtain ⟨herr, _⟩ := hu.leaves.errRegs hc
    exact herr.trans (hi.resolve_left hc)

/-- Settles O11: rejection, the error entry and completion each append one response with their STATUS, and the
updates of a command append none. -/
theorem everyCommandGetsOneResponse : Obligations.EveryCommandGetsOneResponse := by
  intro s t w arg rest hhost h
  rw [step_of_host_command hhost] at h
  rcases issue_eq_next h with ⟨herr, rfl⟩ | rfl | ⟨i, hr, hd, hexec⟩
  · exact ⟨false, true, 0#64, rfl, .inr (.inr ⟨rfl, rfl, herr, herr, rfl⟩)⟩
  · exact ⟨false, false, _, rfl, .inr (.inl ⟨rfl, rfl, rfl, rfl⟩)⟩
  · obtain ⟨u, hu, ⟨v, rfl⟩ | ⟨e, info, _, rfl⟩⟩ := exec_next hexec
    · have hresp : u.responses = s.responses := hu.leaves.responses
      have herr : u.err = false := err_of_completes (errClear_of_not_rejected hr hd) hu hexec
      exact ⟨true, false, v, congrArg (· ++ _) hresp, .inl ⟨rfl, rfl, herr⟩⟩
    · have hresp : u.responses = s.responses := hu.leaves.responses
      exact ⟨false, false, info, congrArg (· ++ _) hresp, .inr (.inl ⟨rfl, rfl, rfl, rfl⟩)⟩

/-! ### Reading a header -/

/-- A command of class `none`, by the row of its opcode (R67, R69). -/
theorem encodedNone_of_takeNone {opc : BitVec 8} {f : Word → Instr}
    (h : ∀ sym arg, decodeFields opc sym arg = takeNone sym (f arg)) : EncodedNone opc f := by
  refine ⟨fun arg => ?_, fun sym arg hne => ?_⟩
  · rw [decode_commandWord, h, takeNone, if_pos rfl]
  · rw [decode_commandWord, h, takeNone, if_neg hne]

/-- R15: the 9-bit field of a symbol names it. -/
theorem symbolOf_symbolField (x : Symbol) : symbolOf (symbolField x) = some x := by
  have hval : (symbolField x).toNat = x.val := by
    rw [symbolField, BitVec.toNat_ofNat, Nat.mod_eq_of_lt (by omega)]
  simp [symbolOf, hval]

theorem Tree.symbols_shape (t : Tree) : t.shape.symbols = t.symbols := by
  induction t with
  | leaf => rfl
  | node i w l r ihl ihr => simp [Tree.shape, Shape.symbols, Tree.symbols, ihl, ihr]

theorem Shape.symbols_length_pos (sh : Shape) : 0 < sh.symbols.length := by
  induction sh with
  | leaf => exact Nat.one_pos
  | node l r ihl _ => simp [Shape.symbols, ihl]

/-- A tree has one internal node less than leaves (R91). -/
theorem Tree.indices_length (t : Tree) : t.indices.length + 1 = 2 * t.symbols.length := by
  induction t with
  | leaf => rfl
  | node i w l r ihl ihr =>
    simp only [Tree.indices, Tree.symbols, List.length_cons, List.length_append]
    omega

theorem State.Quiet.moved {s : State} (h : s.Quiet) (n : Nat) (out : List Bool) (k : Nat) :
    (s.moved n out k).Quiet := fun j => by
  have := h (k + j)
  rwa [← Nat.add_assoc] at this

/-- A read of one bit delivers the next bit (R46). -/
theorem readBits_one {s : State} {b : Bool} {rest : List Bool} (ha : s.answer = .accept)
    (hrest : s.restBits = b :: rest) :
    readBits 1 s = .ok (some (BitVec.ofBool b)) (s.moved 1 [] 1) := by
  have hbin : bin (BitVec.ofBool b) = [b] := by cases b <;> rfl
  exact readBits_of_restBits (by decide) ha (by rw [hbin]; exact hrest)

/-- A leaf's field with a symbol that is not seen yet (R104). -/
theorem parseLeaf_of_restBits {p : Parse} {s : State} {x : Symbol} {rest : List Bool} (i : Nat)
    (ha : s.answer = .accept) (hrest : s.restBits = bin (symbolField x) ++ rest) (hx : x ∉ p.seen) :
    parseLeaf i p s = .ok (i, (p.see x).put i (.leaf x none)) (s.moved 9 [] 1) := by
  rw [parseLeaf, readBits_of_restBits (by decide) ha hrest, Res.bind_ok]
  simp only [symbolOf_symbolField, if_neg hx]

/-- The pass of HEADER_READ on the header of a shape whose symbols are new, with indices enough left (R104): it
reads a tree of that shape and just the header's bits. -/
theorem parse_header (sh : Shape) {d : Nat} {p : Parse} {s : State} {rest : List Bool}
    (hq : s.Quiet) (hrest : s.restBits = sh.header ++ rest)
    (hnew : (sh.symbols.reverse ++ p.seen).Nodup) (hn : p.n + 2 * sh.symbols.length ≤ 514)
    (hd : 514 ≤ d + p.n) :
    ∃ q tree k, parse d p s = .ok (tree.idx, q) (s.moved sh.header.length [] k) ∧
      Parsed p q tree ∧ tree.shape = sh := by
  induction sh generalizing d p s rest with
  | leaf x =>
    simp only [Shape.symbols, List.length_singleton] at hn
    obtain ⟨d, rfl⟩ : ∃ m, d = m + 1 := ⟨d - 1, by omega⟩
    have hx : x ∉ p.seen := (List.nodup_cons.mp hnew).1
    have hfield : (s.moved 1 [] 1).restBits = bin (symbolField x) ++ rest := by
      rw [State.moved_restBits, hrest]; rfl
    have hleaf := parseLeaf_of_restBits (p := p.take) p.n (hq.moved 1 [] 1).answer hfield hx
    refine ⟨_, .leaf p.n x none, 2, ?_, Parsed.leaf (by omega) hx, rfl⟩
    rw [parse, readBits_one hq.answer hrest, Res.bind_ok]
    dsimp only
    rw [if_neg (by omega), if_neg (by decide), hleaf, State.moved_moved]
    simp [Shape.header, Tree.idx]
  | node l r ihl ihr =>
    simp only [Shape.symbols, List.length_append, List.reverse_append, List.append_assoc] at hn hnew
    have hlpos := l.symbols_length_pos
    have hrpos := r.symbols_length_pos
    obtain ⟨d, rfl⟩ : ∃ m, d = m + 1 := ⟨d - 1, by omega⟩
    have htake : p.take.n = p.n + 1 := rfl
    have hrestl : (s.moved 1 [] 1).restBits = l.header ++ (r.header ++ rest) := by
      rw [State.moved_restBits, hrest]; simp [Shape.header]
    obtain ⟨ql, tl, kl, hl, hpl, rfl⟩ := ihl (d := d) (p := p.take) (hq.moved 1 [] 1) hrestl
      (List.nodup_append.mp hnew).2.1 (by omega) (by omega)
    have hlen := tl.indices_length
    have hnext := hpl.next
    rw [tl.symbols_shape] at hn hnew
    obtain ⟨qr, tr, kr, hr, hpr, rfl⟩ := ihr (d := d) (p := ql)
      ((hq.moved 1 [] 1).moved tl.shape.header.length [] kl)
      (by rw [State.moved_restBits, hrestl, List.drop_left]) (by rw [hpl.seen]; exact hnew)
      (by omega) (by omega)
    have hbits : (Shape.node tl.shape tr.shape).header.length =
        1 + (tl.shape.header.length + tr.shape.header.length) := by
      simp only [Shape.header, List.length_cons, List.length_append]
      omega
    refine ⟨_, .node p.n none tl tr, 1 + (kl + kr), ?_, Parsed.node (by omega) hpl hpr, rfl⟩
    rw [parse, readBits_one hq.answer hrest, Res.bind_ok]
    dsimp only
    rw [if_neg (by omega), if_pos (by decide), hl, Res.bind_ok, hr, Res.bind_ok,
      State.moved_moved, State.moved_moved, hbits]
    rfl

/-- R15: no more symbols than there are. -/
theorem symbols_length_le_of_nodup {xs : List Symbol} (h : xs.Nodup) : xs.length ≤ 257 := by
  simpa using h.length_le_card

/-- R104: what HEADER_READ holds is the tree that its pass has read. -/
theorem holdHeader_fills {s : State} {q : Parse} {tree : Tree} (h : Parsed Parse.start q tree) :
    let t := s.holdTree .header q.nodes (BitVec.ofNat 10 tree.idx) q.n q.leaves
    t.heldTree = some tree ∧ tree.Fills t := by
  intro t
  have hb := h.bound
  have hn : q.n = 0 + tree.indices.length := h.next
  have hidx : tree.idx = 0 := h.idx
  have hheld : t.heldTree = some tree := by
    have hread := readTree_of_storedIn (d := Config.nodeCap) h.stored
      (by rw [Config.nodeCap]; omega)
    have hroot : t.root.toNat = tree.idx := by
      show (BitVec.ofNat 10 tree.idx).toNat = _
      rw [hidx]; rfl
    rw [State.heldTree, hroot]
    exact hread
  obtain ⟨tree', hheld', hfills⟩ := holdHeader_treeInv (s := s) h rfl
  obtain rfl : tree = tree' := Option.some.inj (hheld.symm.trans hheld')
  exact ⟨hheld, hfills⟩

/-- HEADER_READ on a header (R104): the tree it holds, and just the header's bits read. -/
theorem headerRead_of_header {s : State} {sh : Shape} {rest : List Bool} (hq : s.Quiet)
    (hrest : s.restBits = sh.header ++ rest) (hnd : sh.symbols.Nodup) :
    ∃ q tree k, Parsed Parse.start q tree ∧ tree.shape = sh ∧
      exec .headerRead s = .next ((((beginHeaderRead s).moved sh.header.length [] k).holdTree .header
        q.nodes (BitVec.ofNat 10 tree.idx) q.n q.leaves).respond true false (BitVec.ofNat 64 q.n)) := by
  have hcard := symbols_length_le_of_nodup hnd
  have hbegin : (beginHeaderRead s).Quiet := hq
  obtain ⟨q, tree, k, hparse, hp, hshape⟩ := parse_header sh (d := 514) (p := Parse.start) hbegin hrest
    (by simpa [Parse.start] using hnd) (by simp only [Parse.start]; omega) (by decide)
  refine ⟨q, tree, k, hp, hshape, ?_⟩
  rw [exec, execHeaderRead, hparse]
  rfl

/-- Settles O36: the pass reads the header's tree, and what it does not hold or clear stays. -/
theorem headerReadHoldsTheTree : Obligations.HeaderReadHoldsTheTree := by
  refine ⟨encodedNone_of_takeNone fun _ _ => rfl, fun s sh rest hq hrest hnd => ?_⟩
  obtain ⟨q, tree, k, hp, rfl, hexec⟩ := headerRead_of_header hq hrest hnd
  obtain ⟨hheld, hfills⟩ := holdHeader_fills
    (s := (beginHeaderRead s).moved tree.shape.header.length [] k) hp
  have hlen := tree.indices_length
  have hn : q.n = 2 * tree.shape.symbols.length - 1 := by
    have hnext : q.n = 0 + tree.indices.length := hp.next
    rw [tree.symbols_shape]
    omega
  have hleaves : q.leaves = tree.shape.symbols.length := by
    rw [hp.leaves, tree.symbols_shape]
    exact Nat.zero_add _
  have hidx : tree.idx = 0 := hp.idx
  have hind : tree.indices = List.range (2 * tree.shape.symbols.length - 1) := by
    have hrange : tree.indices = List.range' 0 tree.indices.length := hp.indices
    rw [hrange, List.range_eq_range', tree.symbols_shape]
    congr 1
    omega
  refine ⟨_, tree, hexec, hheld, rfl, hfills.congr rfl rfl rfl rfl, hind, ?_⟩
  rw [hn, hleaves, hidx, State.moved_reads]
  rfl

end Sys2Proof.Machine

namespace Sys2Proof.Machine

/-! ### The counts of FREQ -/

theorem byteSymbol_inj {a b : Byte} : byteSymbol a = byteSymbol b ↔ a = b :=
  ⟨fun h => BitVec.eq_of_toNat_eq (congrArg (fun x : Symbol => x.val) h), congrArg byteSymbol⟩

/-- The count that is written is the count read back. -/
@[simp] theorem State.count_setCount_same (s : State) (x : Symbol) (v : Word) :
    (s.setCount x v).count x = v := by simp [State.count]

/-- Writing one count leaves the others. -/
theorem State.count_setCount_of_ne (s : State) {x y : Symbol} (v : Word) (h : y ≠ x) :
    (s.setCount x v).count y = s.count y := by
  have hne : x.val ≠ y.val := fun hv => h (Fin.ext hv.symm)
  simp [State.count, Vector.getElem_set_ne _ _ hne]

/-- The table of all zeros counts nothing (R79). -/
@[simp] theorem State.count_setFreq_zero (s : State) (x : Symbol) :
    (s.setFreq zeroFreq).count x = 0#32 := by simp [State.count, zeroFreq]

/-- A byte's count goes up by one (R80). -/
def State.tally (s : State) (b : Byte) : State :=
  s.setCount (byteSymbol b) (s.count (byteSymbol b) + 1#32)

/-- Below its maximum the count of the byte goes up by one as a number (R80). -/
theorem State.tally_count_same {s : State} {b : Byte} (h : s.count (byteSymbol b) ≠ maxCount) :
    ((s.tally b).count (byteSymbol b)).toNat = (s.count (byteSymbol b)).toNat + 1 := by
  unfold maxCount at h
  rw [State.tally, State.count_setCount_same]
  bv_omega

theorem State.tally_count_of_ne (s : State) {b : Byte} {y : Symbol} (h : y ≠ byteSymbol b) :
    (s.tally b).count y = s.count y := s.count_setCount_of_ne _ h

theorem countByte_of_ne_max {b : Byte} {s : State} (h : s.count (byteSymbol b) ≠ maxCount) :
    countByte b s = .ok ((s.tally b).count (byteSymbol b)) (s.tally b) := by
  rw [State.tally, State.count_setCount_same]
  exact ((countByte_cases b s).resolve_left fun hm => h hm.1).2

theorem countByte_of_max {b : Byte} {s : State} (h : s.count (byteSymbol b) = maxCount) :
    countByte b s = .raise .countOverflow (b.setWidth 64) s :=
  ((countByte_cases b s).resolve_right fun hm => hm.1 h).2

/-! ### The commands on single counts -/

/-- A command of class `byte`, by the row of its opcode (R67, R69). -/
theorem encodedByte_of_takeByte {opc : BitVec 8} {f : Byte → Instr}
    (h : ∀ sym arg, decodeFields opc sym arg = takeByte sym f) : EncodedByte opc f := by
  refine ⟨fun b arg => ?_, fun sym arg hgt => ?_⟩
  · rw [decode_commandWord, h, takeByte_setWidth]
  · rw [decode_commandWord, h, takeByte, if_neg (Nat.not_le.mpr hgt)]

/-- A command of class `sym`, by the row of its opcode (R67, R69). -/
theorem encodedSym_of_takeSym {opc : BitVec 8} {f : SymField → Word → Instr}
    (h : ∀ sym arg, decodeFields opc sym arg = takeSym sym (f · arg)) : EncodedSym opc f := by
  refine fun sym arg => ⟨fun hle => ?_, fun hgt => ?_⟩
  · rw [decode_commandWord, h, takeSym, if_pos hle]
  · rw [decode_commandWord, h, takeSym, if_neg (Nat.not_le.mpr hgt)]

/-- A legal `sym` operand is the symbol it names (R67). -/
theorem withSymbol_of_symbolOf {sym : SymField} {x : Symbol} (h : symbolOf sym = some x) (i : Instr)
    (s : State) (k : Symbol → Res DWord) : withSymbol i sym s k = k x := by
  simp only [withSymbol, h]

theorem freqWrite_of_symbolOf {sym : SymField} {x : Symbol} (h : symbolOf sym = some x) (s : State)
    (count : Word) :
    exec (.freqWrite sym count) s = .next ((s.setCount x count).respond true false 0#64) := by
  rw [exec, execFreqWrite, withSymbol_of_symbolOf h, finish]

theorem freqRead_of_symbolOf {sym : SymField} {x : Symbol} (h : symbolOf sym = some x) (s : State) :
    exec (.freqRead sym) s = .next (s.respond true false ((s.count x).setWidth 64)) := by
  rw [exec, execFreqRead, withSymbol_of_symbolOf h, finish]

/-- Settles O18: each command writes the counts it names and nothing but FREQ. -/
theorem frequencyTableCommands : Obligations.FrequencyTableCommands := by
  refine ⟨encodedNone_of_takeNone fun _ _ => rfl, encodedNone_of_takeNone fun _ _ => rfl,
    encodedSym_of_takeSym fun _ _ => rfl, encodedSym_of_takeSym fun _ _ => rfl,
    fun s => ?clear, fun s => ?eos, fun s sym x count hx => ?write,
    fun s sym x hx => freqRead_of_symbolOf hx s⟩
  case clear => exact ⟨_, rfl, s.count_setFreq_zero, rfl⟩
  case eos =>
    exact ⟨_, rfl, s.count_setCount_same sentinel _, fun _ hne => s.count_setCount_of_ne _ hne, rfl⟩
  case write =>
    exact ⟨_, freqWrite_of_symbolOf hx s count, s.count_setCount_same x count,
      fun _ hne => s.count_setCount_of_ne _ hne, rfl⟩

/-- FREQ_COUNT below the maximum (R80). -/
theorem freqCount_of_ne_max {b : Byte} {s : State} (h : s.count (byteSymbol b) ≠ maxCount) :
    exec (.freqCount b) s =
      .next ((s.tally b).respond true false
        (((s.tally b).count (byteSymbol b)).setWidth 64)) := by
  rw [exec, execFreqCount, countByte_of_ne_max h, Res.bind_ok, finish]

/-- FREQ_COUNT at the maximum (R80). -/
theorem freqCount_of_max {b : Byte} {s : State} (h : s.count (byteSymbol b) = maxCount)
    (hc : s.CloseAnswered) :
    exec (.freqCount b) s = .next (s.afterError false .countOverflow (b.setWidth 64)) := by
  rw [exec, execFreqCount, countByte_of_max h, Res.bind_raise, finish]
  exact enterError_of_closeAnswered hc .other .countOverflow (b.setWidth 64)

/-- Settles O19: the count goes up by one below the maximum, and at the maximum the error entry is all. -/
theorem freqCountCountsOrOverflows : Obligations.FreqCountCountsOrOverflows := by
  refine ⟨encodedByte_of_takeByte fun _ _ => rfl, fun s b hlt => ?_,
    fun s b hmax hc => freqCount_of_max hmax hc⟩
  have hne : s.count (byteSymbol b) ≠ maxCount := fun hm => by
    rw [hm] at hlt
    exact absurd hlt (by decide)
  exact ⟨_, freqCount_of_ne_max hne, State.tally_count_same hne,
    fun _ hy => s.tally_count_of_ne hy, rfl⟩

/-! ### The whole bytes of the input -/

/-- The first of the whole bytes is the value of the first 8 bits (R46, R53). -/
theorem wholeBytes_eq_cons {bits : List Bool} {b : Byte} {rest : List Byte}
    (h : wholeBytes bits = b :: rest) :
    8 ≤ bits.length ∧ BitVec.ofNat 8 (bitsToNat (bits.take 8)) = b ∧ wholeBytes (bits.drop 8) = rest := by
  unfold wholeBytes at h
  split at h
  · obtain ⟨hb, hrest⟩ := List.cons.inj h
    exact ⟨Nat.le_add_left 8 _, hb, hrest⟩
  · cases h

/-- Only fewer than 8 bits hold no whole byte (R46). -/
theorem wholeBytes_eq_nil {bits : List Bool} (h : wholeBytes bits = []) : bits.length < 8 := by
  rcases bits with _ | ⟨_, _ | ⟨_, _ | ⟨_, _ | ⟨_, _ | ⟨_, _ | ⟨_, _ | ⟨_, _ | ⟨_, _⟩⟩⟩⟩⟩⟩⟩⟩
  case cons.cons.cons.cons.cons.cons.cons.cons => cases h
  all_goals simp

theorem wholeBytes_length_le (bits : List Bool) : (wholeBytes bits).length ≤ bits.length := by
  fun_induction wholeBytes bits with
  | case1 => simp only [List.length_cons]; omega
  | case2 => exact Nat.zero_le _

/-- A read of 8 bits delivers the next whole byte (R46, R84). -/
theorem readBits_of_wholeBytes_cons {s : State} {b : Byte} {rest : List Byte}
    (ha : s.answer = .accept) (h : wholeBytes s.restBits = b :: rest) :
    readBits 8 s = .ok (some b) (s.moved 8 [] 1) := by
  obtain ⟨hlen, hb, _⟩ := wholeBytes_eq_cons h
  rw [State.restBits_length] at hlen
  have hpeek : s.peekBits 8 = b := hb
  rw [readBits_some ha (by omega), hpeek, State.acceptRead_eq_moved]

/-- After that read the other whole bytes are still to come. -/
theorem State.wholeBytes_moved {s : State} {b : Byte} {rest : List Byte}
    (h : wholeBytes s.restBits = b :: rest) : wholeBytes (s.moved 8 [] 1).restBits = rest := by
  rw [State.moved_restBits, (wholeBytes_eq_cons h).2.2]

/-- A read of 8 bits with no whole byte left gives END (R46, R84). -/
theorem readBits_of_wholeBytes_nil {s : State} (ha : s.answer = .accept)
    (h : wholeBytes s.restBits = []) : readBits 8 s = .ok none s.countTx.exhaust := by
  have hlen := wholeBytes_eq_nil h
  rw [State.restBits_length] at hlen
  exact readBits_end ha (by omega)

/-! ### The counting loop -/

/-- The counting loop of FREQ_COUNT_STREAM, started in `s`, has counted the bytes `seen` when it is in state `u`
(R84). -/
structure Counted (s : State) (seen : List Byte) (u : State) : Prop where
  /-- they are the first whole bytes of the input, and the others are still to be read -/
  input : wholeBytes s.restBits = seen ++ wholeBytes u.restBits
  /-- FREQ holds their numbers of occurrences -/
  bytes : ∀ b : Byte, (u.count (byteSymbol b)).toNat = seen.count b
  /-- the sentinel has not been counted -/
  eos : u.count sentinel = 0#32
  /-- one transaction has read each of them, and only FREQ has changed besides -/
  frame : u = (s.moved (8 * seen.length) [] seen.length).setFreq u.freq

theorem Counted.start (s : State) : Counted s [] (s.setFreq zeroFreq) where
  input := rfl
  bytes b := by simp
  eos := s.count_setFreq_zero sentinel
  frame := by simp

section
variable {s u : State} {seen : List Byte}

/-- The transaction that reads the next byte is the one after those of the bytes counted. -/
theorem Counted.answer (h : Counted s seen u) : u.answer = s.answerAt (s.txCount + seen.length) := by
  rw [h.frame]
  rfl

/-- What the read of one more byte leaves (R46). -/
theorem Counted.read (h : Counted s seen u) : u.moved 8 [] 1 =
    (s.moved (8 * (seen.length + 1)) [] (seen.length + 1)).setFreq u.freq := by
  have hmoved : u.moved 8 [] 1 =
      ((s.moved (8 * seen.length) [] seen.length).moved 8 [] 1).setFreq u.freq :=
    congrArg (·.moved 8 [] 1) h.frame
  rw [hmoved, State.moved_moved, Nat.mul_succ]
  rfl

/-- What a failed read leaves (R48). -/
theorem Counted.failedRead (h : Counted s seen u) : u.countTx =
    (s.moved (8 * seen.length) [] (seen.length + 1)).setFreq u.freq := congrArg State.countTx h.frame

/-- The next byte is read and counted (R84). -/
theorem Counted.next (h : Counted s seen u) {b : Byte} {rest : List Byte}
    (hrest : wholeBytes u.restBits = b :: rest) (hne : u.count (byteSymbol b) ≠ maxCount) :
    Counted s (seen ++ [b]) ((u.moved 8 [] 1).tally b) where
  input := by
    rw [h.input, hrest, List.append_assoc, ← State.wholeBytes_moved hrest]
    rfl
  bytes c := by
    rw [List.count_append, ← h.bytes c]
    by_cases hc : c = b
    · subst hc
      rw [State.tally_count_same (s := u.moved 8 [] 1) hne, List.count_singleton_self]
      rfl
    · rw [State.tally_count_of_ne _ (mt byteSymbol_inj.mp hc), List.count_singleton,
        if_neg (by simpa using Ne.symm hc)]
      rfl
  eos := by
    rw [State.tally_count_of_ne _ (byteSymbol_ne_sentinel b).symm]
    exact h.eos
  frame := by
    rw [List.length_append, List.length_singleton]
    exact congrArg (·.tally b) h.read

/-- How the counting loop started in `s` raises: a read fails, or the next byte's count is at its maximum
(R84). -/
def CountRaises (s : State) (e : ErrCode) (info : DWord) (t : State) : Prop :=
  ∃ seen u bits, Counted s seen u ∧ t = (s.moved bits [] (seen.length + 1)).setFreq u.freq ∧
    ((e = .ioReadFail ∧ bits = 8 * seen.length ∧ s.answerAt (s.txCount + seen.length) = .fail) ∨
     (e = .countOverflow ∧ bits = 8 * (seen.length + 1) ∧ ∃ b rest,
        wholeBytes u.restBits = b :: rest ∧ u.count (byteSymbol b) = maxCount ∧ info = b.setWidth 64))

/-- Everything the counting loop can do (R84): it counts all the whole bytes and then gets END, it raises, or
some transaction is never answered. -/
theorem countLoop_counted {bound : Nat} (h : Counted s seen u)
    (hb : (wholeBytes u.restBits).length < bound) :
    (countLoop bound seen.length u).Ends
      (fun n t => n = (wholeBytes s.restBits).length ∧
        ∃ v, Counted s (wholeBytes s.restBits) v ∧ t = v.countTx.exhaust)
      (CountRaises s)
      (fun _ => ∃ k, s.answerAt (s.txCount + k) = .silent) := by
  induction bound generalizing seen u with
  | zero => omega
  | succ bound ih =>
    unfold countLoop
    cases ha : u.answer with
    | silent =>
      simp only [readBits, ha]
      exact ⟨seen.length, h.answer.symm.trans ha⟩
    | fail =>
      simp only [readBits, ha]
      exact ⟨seen, u, _, h, h.failedRead, .inl ⟨rfl, rfl, h.answer.symm.trans ha⟩⟩
    | accept =>
      cases hrest : wholeBytes u.restBits with
      | nil =>
        have hall : wholeBytes s.restBits = seen := by rw [h.input, hrest, List.append_nil]
        rw [readBits_of_wholeBytes_nil ha hrest, hall]
        exact ⟨rfl, u, h, rfl⟩
      | cons b rest =>
        rw [readBits_of_wholeBytes_cons ha hrest, Res.bind_ok]
        dsimp only
        by_cases hmax : u.count (byteSymbol b) = maxCount
        · rw [countByte_of_max (s := u.moved 8 [] 1) hmax, Res.bind_raise]
          exact ⟨seen, u, _, h, h.read, .inr ⟨rfl, rfl, b, rest, hrest, hmax, rfl⟩⟩
        · rw [countByte_of_ne_max (s := u.moved 8 [] 1) hmax, Res.bind_ok]
          have hleft : (wholeBytes ((u.moved 8 [] 1).tally b).restBits).length < bound := by
            have hrest' : wholeBytes ((u.moved 8 [] 1).tally b).restBits = rest :=
              State.wholeBytes_moved hrest
            rw [hrest, List.length_cons] at hb
            rw [hrest']
            omega
          have hloop := ih (h.next hrest hmax) hleft
          rwa [List.length_append] at hloop

end

/-! ### FREQ_COUNT_STREAM -/

section
variable {s : State}

/-- Everything FREQ_COUNT_STREAM can do on an input that is not exhausted (R84): it completes with all the whole
bytes counted, it takes the error entry where the loop raises, or a transaction is never answered. -/
theorem freqCountStream_cases (hx : s.inExhausted = false) :
    (∃ v, Counted s (wholeBytes s.restBits) v ∧
      exec .freqCountStream s = .next ((v.countTx.exhaust.setCount sentinel 1#32).respond true false
        (BitVec.ofNat 64 (wholeBytes s.restBits).length))) ∨
    (∃ e info u, CountRaises s e info u ∧ exec .freqCountStream s = enterError .other e info u) ∨
    (∃ k f, s.answerAt (s.txCount + k) = .silent ∧ exec .freqCountStream s = .fault f) := by
  have hbound : (wholeBytes s.restBits).length < inputBound s :=
    Nat.lt_succ_of_le ((wholeBytes_length_le _).trans s.restBits_length.le)
  have hloop := countLoop_counted (Counted.start s) hbound
  rw [exec, execFreqCountStream, if_neg (by simp [hx])]
  generalize countLoop (inputBound s) 0 (s.setFreq zeroFreq) = r at hloop
  cases r with
  | ok n t =>
    obtain ⟨rfl, v, hv, rfl⟩ := hloop
    exact .inl ⟨v, hv, rfl⟩
  | raise e info u => exact .inr (.inl ⟨e, info, u, hloop, rfl⟩)
  | stop f =>
    obtain ⟨k, hk⟩ := hloop
    exact .inr (.inr ⟨k, f, hk, rfl⟩)

/-- The loop raises nothing where no transaction fails and no byte occurs 2^32 times. -/
theorem not_countRaises (hq : s.Quiet) (hb : ∀ b : Byte, (wholeBytes s.restBits).count b < 2 ^ 32)
    {e : ErrCode} {info : DWord} {t : State} : ¬ CountRaises s e info t := by
  rintro ⟨seen, u, bits, h, -, ⟨-, -, hfail⟩ | ⟨-, -, b, rest, hrest, hmax, -⟩⟩
  · exact absurd ((hq seen.length).symm.trans hfail) (by decide)
  · have hseen : seen.count b = 2 ^ 32 - 1 := by rw [← h.bytes b, hmax]; rfl
    have hlt := hb b
    rw [h.input, hrest, List.count_append, List.count_cons_self, hseen] at hlt
    omega

/-- What the read that answers END leaves, field by field (R46). -/
theorem Counted.exhaust {seen : List Byte} {v : State} (h : Counted s seen v) :
    v.countTx.exhaust = { s with
      freq := v.freq, inPos := s.inBits.length, inExhausted := true,
      inBitsRead := s.inBitsRead + BitVec.ofNat 64 (8 * seen.length),
      txCount := s.txCount + seen.length + 1 } := by
  have hexhaust := congrArg (·.countTx.exhaust) h.frame
  rw [State.moved_reads] at hexhaust
  exact hexhaust

end

/-- Settles O20: on quiet channels the loop cannot raise, so it counts every whole byte and reaches the end. -/
theorem freqCountStreamCountsTheInput : Obligations.FreqCountStreamCountsTheInput := by
  intro s hq hx hb
  obtain ⟨v, hv, hexec⟩ | ⟨e, info, u, hraise, -⟩ | ⟨k, f, hsilent, -⟩ := freqCountStream_cases hx
  · rw [hv.exhaust] at hexec
    refine ⟨_, hexec, fun b => ?_, State.count_setCount_same _ sentinel _, rfl⟩
    exact (congrArg BitVec.toNat
      (State.count_setCount_of_ne _ 1#32 (byteSymbol_ne_sentinel b))).trans (hv.bytes b)
  · exact absurd hraise (not_countRaises hq hb)
  · exact absurd ((hq k).symm.trans hsilent) (by decide)

/-- FREQ_COUNT_STREAM on an exhausted input (R84). -/
theorem freqCountStream_of_exhausted {s : State} (hx : s.inExhausted = true) (hc : s.CloseAnswered) :
    exec .freqCountStream s = .next (s.afterError false .notReady 0x15#64) := by
  rw [exec, execFreqCountStream, if_pos hx]
  exact enterError_of_closeAnswered hc .other .notReady 0x15#64

/-- The error entry after accepted reads and a change of FREQ, with the fields it leaves alone (R127, R130). -/
theorem afterError_of_reads (s : State) (n k : Nat) (f : FreqTable) (e : ErrCode) (info : DWord) :
    let t := ((s.moved n [] k).setFreq f).afterError false e info
    t = { s with
      freq := f, inPos := s.inPos + n, inBitsRead := s.inBitsRead + BitVec.ofNat 64 n,
      err := true, errCode := e, errInfo := info, outOpen := false,
      outClosed := t.outClosed, txCount := t.txCount, responses := t.responses } := by
  rw [State.moved_reads]
  rfl

/-- Settles O21: an error of the loop finds the first bytes counted, and the error entry leaves FREQ and the input
as the loop has left them. -/
theorem freqCountStreamErrors : Obligations.FreqCountStreamErrors := by
  refine ⟨fun s hx hc => freqCountStream_of_exhausted hx hc, fun s t herr hx hexec hterr => ?_⟩
  obtain ⟨v, hv, hok⟩ | ⟨e, info, w, hraise, hentry⟩ | ⟨k, f, -, hfault⟩ := freqCountStream_cases hx
  · have ht : t.err = s.err := by
      rw [hok, hv.exhaust] at hexec
      cases hexec
      rfl
    rw [ht, herr] at hterr
    cases hterr
  · obtain ⟨seen, u, bits, h, rfl, hcause⟩ := hraise
    obtain rfl := enterError_next (hentry.symm.trans hexec)
    have hframe := afterError_of_reads s bits (seen.length + 1) u.freq e info
    refine ⟨⟨seen.length, ?_, fun b => ?_, ?_⟩, h.eos, hframe⟩
    · rw [h.input, List.length_append]
      exact Nat.le_add_right _ _
    · rw [h.input, List.take_left]
      exact h.bytes b
    · obtain ⟨rfl, rfl, hfail⟩ | ⟨rfl, rfl, b, rest, hrest, hmax, rfl⟩ := hcause
      · exact .inl ⟨rfl, hfail, rfl, rfl⟩
      · refine .inr ⟨rfl, rfl, rfl, b, ?_, hmax, rfl⟩
        simp [h.input, hrest]
  · rw [hfault] at hexec
    cases hexec

end Sys2Proof.Machine

namespace Sys2Proof.Machine

/-! ### The seeds of TREE_BUILD -/

/-- R86: the seeds are the symbols of positive count. -/
theorem mem_seedsBelow {freq : FreqTable} {n : Nat} {x : Symbol} :
    x ∈ seedsBelow freq n ↔ x.val < n ∧ freq[x.val] ≠ 0#32 := by
  induction n with
  | zero => simp [seedsBelow]
  | succ n ih =>
    have hnext : x.val < n + 1 ↔ x.val < n ∨ x.val = n := by omega
    unfold seedsBelow
    split
    · rename_i hn
      have hx : x = ⟨n, hn⟩ ↔ x.val = n := Fin.ext_iff
      split
      · rename_i hzero
        rw [ih, hnext]
        refine ⟨fun h => ⟨.inl h.1, h.2⟩, fun ⟨hlt, hpos⟩ => ⟨hlt.resolve_right fun he => ?_, hpos⟩⟩
        subst he
        exact hpos hzero
      · rename_i hpos
        rw [List.mem_cons, ih, hx, hnext]
        refine ⟨?_, fun h => h.1.symm.imp id fun hlt => ⟨hlt, h.2⟩⟩
        rintro (rfl | h)
        · exact ⟨.inr rfl, hpos⟩
        · exact ⟨.inl h.1, h.2⟩
    · have := x.isLt
      rw [ih, hnext]
      constructor <;> rintro ⟨h, hpos⟩ <;> exact ⟨by omega, hpos⟩

/-- R86: the seeds stand in descending order. -/
theorem seedsBelow_descending (freq : FreqTable) (n : Nat) : (seedsBelow freq n).Pairwise (· > ·) := by
  induction n with
  | zero => exact .nil
  | succ n ih =>
    unfold seedsBelow
    split
    · split
      · exact ih
      · exact .cons (fun x hx => (mem_seedsBelow.mp hx).1) ih
    · exact ih

theorem mem_seeds {s : State} {x : Symbol} : x ∈ seeds s.freq ↔ s.count x ≠ 0#32 :=
  mem_seedsBelow.trans (and_iff_right x.isLt)

/-- A descending list of the symbols of positive count is the list of seeds. -/
theorem seeds_eq_of_descending {s : State} {xs : List Symbol} (hd : xs.Pairwise (· > ·))
    (hmem : ∀ x, x ∈ xs ↔ s.count x ≠ 0#32) : seeds s.freq = xs := by
  have hnd : xs.Nodup := hd.imp fun h => h.ne'
  have hperm : (seeds s.freq).Perm xs :=
    (List.perm_ext_iff_of_nodup (seeds_nodup _) hnd).mpr fun x => mem_seeds.trans (hmem x).symm
  exact hperm.eq_of_pairwise (fun _ _ _ _ h h' => absurd h (lt_asymm h'))
    (seedsBelow_descending _ _) hd

theorem seeds_eq_positiveDescending (s : State) : seeds s.freq = s.positiveDescending := by
  refine seeds_eq_of_descending (.filter _ ?_) fun x => ?_
  · exact List.pairwise_reverse.mpr (List.pairwise_lt_finRange 257)
  · simp [State.positiveDescending]

theorem seeds_ne_nil {s : State} (h : ∃ x, s.count x ≠ 0#32) : seeds s.freq ≠ [] := by
  obtain ⟨x, hx⟩ := h
  exact List.ne_nil_of_mem (mem_seeds.mpr hx)

/-- A command other than the decoder's that raises, with the close of the error entry answered (R127). -/
theorem finish_raise_of_closeAnswered {s : State} (hc : s.CloseAnswered) (e : ErrCode) (info : DWord) :
    finish .other (.raise e info s) = .next (s.afterError false e info) :=
  enterError_of_closeAnswered hc .other e info

/-! ### TREE_BUILD completes or raises CONSTRUCTION -/

theorem treeBuild_of_seeds {s : State} (h : seeds s.freq ≠ []) :
    exec .treeBuild s =
      .next ((buildTree s).respond true false ((builtWeight s.freq).setWidth 64)) := by
  rw [exec, execTreeBuild, if_neg (by simpa using h)]
  rfl

/-- Settles O27: without seeds the error entry is all, and its close is answered. -/
theorem emptyTableRaisesConstruction : Obligations.EmptyTableRaisesConstruction := by
  intro s hzero hc
  have hnil : seeds s.freq = [] :=
    List.eq_nil_iff_forall_not_mem.mpr fun x hx => mem_seeds.mp hx (hzero x)
  rw [exec, execTreeBuild, if_pos (by rw [hnil]; rfl)]
  exact finish_raise_of_closeAnswered hc .construction 0#64

/-! ### The inspection of a held tree -/

/-- TREE_INFO's word by its bits: the fields from bit 0 up, each by its width (R92). -/
theorem treeInfoWord_getLsbD (s : State) (k : Nat) :
    (treeInfoWord s).getLsbD k =
      if k < 10 then s.root.getLsbD k
      else if k < 20 then s.nodeCount.getLsbD (k - 10)
      else if k < 30 then s.leafCount.getLsbD (k - 20)
      else s.treeSrc.code.getLsbD (k - 30) := by
  simp only [treeInfoWord, BitVec.getLsbD_or, BitVec.getLsbD_shiftLeft, BitVec.getLsbD_setWidth]
  rcases Nat.lt_or_ge k 31 with hk | hk
  · interval_cases k <;> simp
  · simp (disch := omega) [BitVec.getLsbD_of_ge]

/-- R92: TREE_INFO's fields. -/
theorem treeInfoWord_fields (s : State) :
    (treeInfoWord s).extractLsb' 0 10 = s.root ∧ (treeInfoWord s).extractLsb' 10 10 = s.nodeCount ∧
    (treeInfoWord s).extractLsb' 20 10 = s.leafCount ∧
    (treeInfoWord s).getLsbD 30 = decide (s.treeSrc = .header) ∧
    (treeInfoWord s).extractLsb' 31 33 = 0#33 := by
  have hsrc : s.treeSrc.code.getLsbD 0 = decide (s.treeSrc = .header) := by
    cases s.treeSrc <;> rfl
  refine ⟨?_, ?_, ?_, ?_, ?_⟩
  case refine_4 => rw [treeInfoWord_getLsbD]; exact hsrc
  all_goals
    refine BitVec.eq_of_getLsbD_eq fun k hk => ?_
    rw [BitVec.getLsbD_extractLsb', treeInfoWord_getLsbD]
    simp (disch := omega) [hk, if_neg, if_pos, BitVec.getLsbD_of_ge]

/-- R93: NODE_READ's word for a leaf. -/
theorem nodeWord_leaf (x : Symbol) (w : Option Weight) :
    nodeWord (.leaf x w) = BitVec.ofNat 64 (1 + 2 * x.val) := by
  have hor : 2 ^ 1 * x.val + 1 = 2 ^ 1 * x.val ||| 1 :=
    Nat.two_pow_add_eq_or_of_lt (by decide) x.val
  apply BitVec.eq_of_toNat_eq
  simp (disch := omega) only [nodeWord, symbolField, BitVec.toNat_or, BitVec.toNat_shiftLeft,
    BitVec.toNat_setWidth, BitVec.toNat_ofNat, Nat.shiftLeft_eq, Nat.mod_eq_of_lt]
  rw [Nat.or_comm, Nat.mul_comm, ← hor, Nat.add_comm, Nat.pow_one]

/-- R93: NODE_READ's word for an internal node. -/
theorem nodeWord_internal (l r : NodeIdx) (w : Option Weight) :
    nodeWord (.internal l r w) = BitVec.ofNat 64 (2 ^ 10 * l.toNat + 2 ^ 20 * r.toNat) := by
  have hl := l.isLt
  have hor : 2 ^ 20 * r.toNat + 2 ^ 10 * l.toNat = 2 ^ 20 * r.toNat ||| 2 ^ 10 * l.toNat :=
    Nat.two_pow_add_eq_or_of_lt (by omega) r.toNat
  apply BitVec.eq_of_toNat_eq
  simp (disch := omega) only [nodeWord, BitVec.toNat_or, BitVec.toNat_shiftLeft,
    BitVec.toNat_setWidth, BitVec.toNat_ofNat, Nat.shiftLeft_eq, Nat.mod_eq_of_lt]
  rw [Nat.or_comm, Nat.mul_comm, Nat.mul_comm l.toNat, ← hor, Nat.add_comm]

section
variable {s : State} (hv : s.treeValid = true) {i : Word}
include hv

theorem nodeRead_of_node {n : Node} (hi : i.toNat < s.nodeCount.toNat)
    (hn : nodeAt s.nodes i.toNat = some n) :
    exec (.nodeRead i) s = .next (s.respond true false (nodeWord n)) := by
  simp [exec, execNodeRead, nodeIndexOk, hv, hi, hn, finish]

theorem nodeRead_of_le (hi : s.nodeCount.toNat ≤ i.toNat) (hc : s.CloseAnswered) :
    exec (.nodeRead i) s = .next (s.afterError false .badOperand (i.setWidth 64)) := by
  rw [exec, execNodeRead, if_pos hv, if_neg (by simpa [nodeIndexOk] using hi)]
  exact finish_raise_of_closeAnswered hc .badOperand (i.setWidth 64)

theorem nodeWeightRead_of_weight {n : Node} {w : Weight} (hs : s.treeSrc = .built)
    (hi : i.toNat < s.nodeCount.toNat) (hn : nodeAt s.nodes i.toNat = some n)
    (hw : n.weight = some w) :
    exec (.nodeWeightRead i) s = .next (s.respond true false (w.setWidth 64)) := by
  simp [exec, execNodeWeightRead, nodeIndexOk, hv, hs, hi, hn, hw, finish]

theorem nodeWeightRead_of_le (hs : s.treeSrc = .built) (hi : s.nodeCount.toNat ≤ i.toNat)
    (hc : s.CloseAnswered) :
    exec (.nodeWeightRead i) s = .next (s.afterError false .badOperand (i.setWidth 64)) := by
  rw [exec, execNodeWeightRead, if_pos (by simp [hv, hs]), if_neg (by simpa [nodeIndexOk] using hi)]
  exact finish_raise_of_closeAnswered hc .badOperand (i.setWidth 64)

end

theorem wordInfo_nodeRead (i : Word) : wordInfo (.nodeRead i) = 0x22#64 := by
  simp [wordInfo, encodeWord, encodeSym, opcode]

theorem wordInfo_nodeWeightRead (i : Word) : wordInfo (.nodeWeightRead i) = 0x23#64 := by
  simp [wordInfo, encodeWord, encodeSym, opcode]

/-- R94: NODE_WEIGHT_READ needs a built tree. -/
theorem nodeWeightRead_of_not_built {s : State} {i : Word}
    (h : (s.treeValid && s.treeSrc == .built) = false) (hc : s.CloseAnswered) :
    exec (.nodeWeightRead i) s = .next (s.afterError false .notReady 0x23#64) := by
  rw [exec, execNodeWeightRead, if_neg (by rw [h]; decide), ← wordInfo_nodeWeightRead i]
  exact finish_raise_of_closeAnswered hc .notReady _

/-- Settles O28: each command is its word on a held tree, and the error entry where its preconditions fail. -/
theorem treeInspectionCommands : Obligations.TreeInspectionCommands := by
  refine ⟨encodedNone_of_takeNone fun _ _ => rfl, encodedNone_of_takeNone fun _ _ => rfl,
    encodedNone_of_takeNone fun _ _ => rfl, fun s hv => ?_, fun s i x w hv hi hn => ?_,
    fun s i l r w hv hi hn => ?_, fun s i n w hv hs hi hn hw => ?_, fun s i hv hc => ⟨?_, ?_, ?_⟩,
    fun s i hs hc => ?_, fun s i hv hi hc => ⟨?_, fun hs => ?_⟩⟩
  · refine ⟨treeInfoWord s, ?_, treeInfoWord_fields s⟩
    rw [exec, execTreeInfo, if_pos hv]
    rfl
  · rw [nodeRead_of_node hv hi hn, nodeWord_leaf]
  · rw [nodeRead_of_node hv hi hn, nodeWord_internal]
  · exact nodeWeightRead_of_weight hv hs hi hn hw
  · rw [exec, execTreeInfo, if_neg (by simp [hv])]
    exact finish_raise_of_closeAnswered hc .notReady 0x21#64
  · rw [exec, execNodeRead, if_neg (by simp [hv]), ← wordInfo_nodeRead i]
    exact finish_raise_of_closeAnswered hc .notReady _
  · exact nodeWeightRead_of_not_built (by simp [hv]) hc
  · exact nodeWeightRead_of_not_built (by simp [hs]) hc
  · exact nodeRead_of_le hv hi hc
  · exact nodeWeightRead_of_le hv hs hi hc

/-! ### PopMin's order -/

/-- `a` leaves LIVE no later than `b`: by weight, then by index (R87). -/
def Live.NoLater (a b : Live) : Prop :=
  a.weight.toNat < b.weight.toNat ∨ (a.weight = b.weight ∧ a.idx ≤ b.idx)

theorem Live.noLater_iff {a b : Live} : a.NoLater b ↔
    a.weight.toNat < b.weight.toNat ∨ (a.weight.toNat = b.weight.toNat ∧ a.idx ≤ b.idx) := by
  rw [Live.NoLater, BitVec.toNat_inj]

theorem Live.NoLater.trans {a b c : Live} (hab : a.NoLater b) (hbc : b.NoLater c) : a.NoLater c := by
  rw [noLater_iff] at *
  omega

theorem Live.NoLater.weight_le {a b : Live} (h : a.NoLater b) : a.weight.toNat ≤ b.weight.toNat := by
  rw [noLater_iff] at h
  omega

theorem Live.noLater_of_before {a b : Live} (h : a.before b = true) : a.NoLater b :=
  (of_decide_eq_true h).imp_right fun ⟨hw, hi⟩ => ⟨hw, hi.le⟩

theorem Live.noLater_of_not_before {a b : Live} (h : ¬ b.before a = true) : a.NoLater b := by
  have hlt := of_decide_eq_false (Bool.not_eq_true _ ▸ h)
  rw [← BitVec.toNat_inj] at hlt
  rw [noLater_iff]
  omega

/-- The entry taken out leaves no later than the one the search starts from, and no later than the others (R87). -/
theorem popFrom_noLater (a : Live) (rest : List Live) :
    (popFrom a rest).1.NoLater a ∧ ∀ b ∈ (popFrom a rest).2, (popFrom a rest).1.NoLater b := by
  induction rest generalizing a with
  | nil => exact ⟨.inr ⟨rfl, le_rfl⟩, fun b hb => absurd hb List.not_mem_nil⟩
  | cons c rest ih =>
    unfold popFrom
    split
    · rename_i hbefore
      obtain ⟨hc, hrest⟩ := ih c
      have ha := hc.trans (Live.noLater_of_before hbefore)
      exact ⟨ha, List.forall_mem_cons.mpr ⟨ha, hrest⟩⟩
    · rename_i hbefore
      obtain ⟨ha, hrest⟩ := ih a
      exact ⟨ha, List.forall_mem_cons.mpr
        ⟨ha.trans (Live.noLater_of_not_before hbefore), hrest⟩⟩

theorem popMin_noLater {live rest : List Live} {a : Live} (h : popMin live = some (a, rest)) :
    ∀ b ∈ rest, a.NoLater b := by
  cases live with
  | nil => cases h
  | cons c live =>
    have hpop : popFrom c live = (a, rest) := Option.some.inj h
    have hleast := (popFrom_noLater c live).2
    rwa [hpop] at hleast

/-- Settles O25: the entry PopMin takes out leaves no later than any other. -/
theorem popMinRemovesTheLeast : Obligations.PopMinRemovesTheLeast := by
  refine ⟨fun live hne => ?_, fun live rest a h => ⟨(popMin_perm h).symm, popMin_noLater h⟩⟩
  obtain ⟨a, rest, rfl⟩ := List.exists_cons_of_ne_nil hne
  exact ⟨_, _, rfl⟩

/-! ### The nodes of the built tree -/

/-- One turn of the merge loop (R89): with one entry or none in LIVE it ends; otherwise it takes the two that leave
first and appends their parent. -/
theorem mergeLoop_succ (turns : Nat) (live : List Live) (nodes : List Node) :
    (live.length ≤ 1 ∧ mergeLoop (turns + 1) live nodes = nodes) ∨
    ∃ a b rest, live.Perm (a :: b :: rest) ∧ a.NoLater b ∧ (∀ e ∈ rest, b.NoLater e) ∧
      mergeLoop (turns + 1) live nodes = mergeLoop turns
        (rest ++ [⟨a.weight + b.weight, nodes.length⟩]) (nodes ++ [mergeNode a b]) := by
  rw [mergeLoop]
  cases ha : popMin live with
  | none => exact .inl ⟨by simp [popMin_none ha], rfl⟩
  | some p =>
    obtain ⟨a, live1⟩ := p
    have hpa := popMin_perm ha
    dsimp only
    cases hb : popMin live1 with
    | none =>
      obtain rfl := popMin_none hb
      exact .inl ⟨hpa.length_eq.le, rfl⟩
    | some q =>
      obtain ⟨b, rest⟩ := q
      have hpb := popMin_perm hb
      exact .inr ⟨a, b, rest, hpa.trans (hpb.cons a),
        popMin_noLater ha b (hpb.symm.subset List.mem_cons_self), popMin_noLater hb, rfl⟩

/-- R86, R89: the merge loop keeps the nodes it starts from, and makes internal nodes only. -/
theorem mergeLoop_appends (turns : Nat) (live : List Live) (nodes : List Node) :
    ∃ made, mergeLoop turns live nodes = nodes ++ made ∧
      ∀ n ∈ made, ∃ l r w, n = .internal l r w := by
  induction turns generalizing live nodes with
  | zero => exact ⟨[], (List.append_nil _).symm, fun _ h => absurd h List.not_mem_nil⟩
  | succ turns ih =>
    obtain ⟨-, hstop⟩ | ⟨a, b, rest, -, -, -, hturn⟩ := mergeLoop_succ turns live nodes
    · exact ⟨[], by rw [hstop, List.append_nil], fun _ h => absurd h List.not_mem_nil⟩
    · obtain ⟨made, hmade, hint⟩ := ih (rest ++ [⟨a.weight + b.weight, nodes.length⟩])
        (nodes ++ [mergeNode a b])
      refine ⟨mergeNode a b :: made, by rw [hturn, hmade, List.append_assoc]; rfl, ?_⟩
      exact List.forall_mem_cons.mpr ⟨⟨_, _, _, rfl⟩, hint⟩

/-- The first nodes of a built tree are the leaves of the seeds, and the others are internal (R86, R89). -/
theorem builtNodes_eq (freq : FreqTable) :
    ∃ made, builtNodes freq = (seeds freq).map (seedLeaf freq) ++ made ∧
      ∀ n ∈ made, ∃ l r w, n = .internal l r w :=
  mergeLoop_appends _ _ _

/-- Every leaf of a built tree has its symbol's count as its weight (R89). -/
theorem builtNodes_leaf {freq : FreqTable} {i : Nat} {x : Symbol} {w : Option Weight}
    (h : (builtNodes freq)[i]? = some (.leaf x w)) : w = some ((freq[x.val]).setWidth 41) := by
  obtain ⟨made, hnodes, hint⟩ := builtNodes_eq freq
  have hmem := List.mem_of_getElem? h
  rw [hnodes, List.mem_append] at hmem
  rcases hmem with hmem | hmem
  · obtain ⟨y, _, hy⟩ := List.mem_map.mp hmem
    cases hy
    rfl
  · obtain ⟨_, _, _, hn⟩ := hint _ hmem
    cases hn

/-- What is true of every stored leaf is true of a stored tree's leaves. -/
theorem Tree.StoredIn.leafWeights {f : Nat → Option Node} {P : Symbol → Option Weight → Prop}
    (hf : ∀ i x w, f i = some (.leaf x w) → P x w) {t : Tree} (h : t.StoredIn f) :
    ∀ p ∈ t.leafWeights, P p.1 p.2 := by
  induction t with
  | leaf i x w =>
    intro p hp
    obtain rfl := List.mem_singleton.mp hp
    exact hf i x w h
  | node i w l r ihl ihr =>
    obtain ⟨-, hl, hr⟩ := h
    exact fun p hp => (List.mem_append.mp hp).elim (ihl hl p) (ihr hr p)

/-- The weight stored at a tree's top. -/
theorem Tree.StoredIn.weight_top {f : Nat → Option Node} {t : Tree} (h : t.StoredIn f) :
    (f t.idx).bind Node.weight = t.weight := by
  cases t with
  | leaf i x w => exact congrArg (·.bind Node.weight) (show f i = some (.leaf x w) from h)
  | node i w l r =>
    obtain ⟨⟨a, b, hi, -, -⟩, -, -⟩ := h
    exact congrArg (·.bind Node.weight) hi

/-- The tree that TREE_BUILD makes of the counts of s (R89, R91 (a), (b)). -/
structure Tree.BuiltFrom (t : Tree) (s : State) : Prop where
  stored : t.StoredIn ((builtNodes s.freq)[·]?)
  weighted : t.weighted = true
  indices : t.indices.Perm (List.range (builtNodes s.freq).length)
  symbols : t.symbols.Perm (seeds s.freq)
  leaves : ∀ p ∈ t.leafWeights, p.2 = some ((s.count p.1).setWidth 41)
  last : t.idx + 1 = (builtNodes s.freq).length
  size : (builtNodes s.freq).length ≤ 513

theorem exists_builtFrom {s : State} (hne : seeds s.freq ≠ []) : ∃ t : Tree, t.BuiltFrom s := by
  obtain ⟨e, t, hf⟩ := builtNodes_forest hne
  obtain ⟨hidx, -⟩ : e.Stands t := by simpa using hf.stands
  have hnew : e.idx + 1 = (builtNodes s.freq).length := by simpa using hf.newest
  have hst := hf.stored t (by simp)
  exact ⟨t,
    { stored := hst
      weighted := hf.weighted t (by simp)
      indices := by simpa using hf.indices
      symbols := by simpa using hf.symbols
      leaves := hst.leafWeights (P := fun x w => w = some ((s.count x).setWidth 41))
        fun _ _ _ => builtNodes_leaf
      last := by rw [hidx, hnew]
      size := Nat.le_of_succ_le_succ hf.room }⟩

/-- LEAF_COUNT is the number of seeds (R89). -/
theorem buildTree_leafCount (s : State) : (buildTree s).leafCount.toNat = (seeds s.freq).length := by
  have := seeds_length_le s.freq
  show (BitVec.ofNat 10 _).toNat = _
  rw [BitVec.toNat_ofNat, Nat.mod_eq_of_lt (by omega)]

section
variable {s : State} {t : Tree} (h : t.BuiltFrom s)
include h

theorem Tree.BuiltFrom.nodeAt (j : Nat) :
    nodeAt (buildTree s).nodes j = (builtNodes s.freq)[j]? :=
  nodeAt_packNodes _ h.size j

theorem Tree.BuiltFrom.nodeCount : (buildTree s).nodeCount.toNat = (builtNodes s.freq).length := by
  have := h.size
  show (BitVec.ofNat 10 _).toNat = _
  rw [BitVec.toNat_ofNat, Nat.mod_eq_of_lt (by omega)]

theorem Tree.BuiltFrom.root : (buildTree s).root.toNat = t.idx := by
  have := h.size
  have := h.last
  show (BitVec.ofNat 10 ((builtNodes s.freq).length - 1)).toNat = _
  rw [BitVec.toNat_ofNat, Nat.mod_eq_of_lt (by omega)]
  omega

theorem Tree.BuiltFrom.held : (buildTree s).heldTree = some t := by
  have hlen : t.indices.length = (builtNodes s.freq).length := by simpa using h.indices.length_eq
  rw [State.heldTree, h.root]
  exact readTree_of_storedIn (h.stored.congr fun j _ => h.nodeAt j) (hlen ▸ h.size)

theorem Tree.BuiltFrom.seeds_ne_nil : seeds s.freq ≠ [] := by
  have hpos := t.shape.symbols_length_pos
  rw [t.symbols_shape, h.symbols.length_eq] at hpos
  exact List.ne_nil_of_length_pos hpos

theorem Tree.BuiltFrom.fills : t.Fills (buildTree s) := by
  obtain ⟨t', hheld, hfills⟩ := buildTree_treeInv h.seeds_ne_nil rfl
  obtain rfl : t = t' := Option.some.inj (h.held.symm.trans hheld)
  exact hfills

/-- RESULT's word is the weight of the tree's top (R89). -/
theorem Tree.BuiltFrom.builtWeight : builtWeight s.freq = t.weight.getD 0#41 := by
  rw [Machine.builtWeight, List.getLast?_eq_getElem?, ← h.stored.weight_top, ← h.last]
  rfl

end

/-! ### The weights of the built tree -/

theorem Tree.weighted_node {i : Nat} {w : Option Weight} {l r : Tree}
    (h : (Tree.node i w l r).weighted = true) :
    l.weighted = true ∧ r.weighted = true ∧ ∃ v a b, w = some v ∧ l.weight = some a ∧
      r.weight = some b ∧ v.toNat = a.toNat + b.toNat := by
  simp only [Tree.weighted, Bool.and_eq_true] at h
  obtain ⟨⟨hl, hr⟩, hsum⟩ := h
  split at hsum
  · rename_i v a b ha hb
    exact ⟨hl, hr, v, a, b, rfl, ha, hb, of_decide_eq_true hsum⟩
  · cases hsum

/-- A tree's weight is the sum of its leaves' weights (R27 (d)). -/
theorem Tree.weight_of_leaves {t : Tree} {weight : Symbol → Weight} (hw : t.weighted = true)
    (hl : ∀ p ∈ t.leafWeights, p.2 = some (weight p.1)) :
    ∃ v, t.weight = some v ∧ v.toNat = (t.symbols.map fun x => (weight x).toNat).sum := by
  induction t with
  | leaf i x w => exact ⟨weight x, hl (x, w) (List.mem_singleton_self _), by simp [Tree.symbols]⟩
  | node i w l r ihl ihr =>
    obtain ⟨hwl, hwr, v, a, b, hv, ha, hb, hsum⟩ := Tree.weighted_node hw
    obtain ⟨a', ha', hsuml⟩ := ihl hwl fun p hp => hl p (List.mem_append_left _ hp)
    obtain ⟨b', hb', hsumr⟩ := ihr hwr fun p hp => hl p (List.mem_append_right _ hp)
    obtain rfl := Option.some.inj (ha.symm.trans ha')
    obtain rfl := Option.some.inj (hb.symm.trans hb')
    refine ⟨v, hv, ?_⟩
    rw [hsum, hsuml, hsumr, Tree.symbols, List.map_append, List.sum_append]

theorem toNat_setWidth_count (s : State) (x : Symbol) :
    ((s.count x).setWidth 41).toNat = (s.count x).toNat := by
  rw [BitVec.toNat_setWidth, Nat.mod_eq_of_lt (by omega)]

/-- The sum of all counts is that of the positive ones (R89). -/
theorem sum_seeds (s : State) :
    ((seeds s.freq).map fun x => (s.count x).toNat).sum = countSum s.freq := by
  have hall : s.freq.toList.map BitVec.toNat = List.ofFn fun x : Symbol => (s.count x).toNat := by
    refine List.ext_getElem ?_ fun i _ _ => ?_
    · rw [List.length_map, Vector.length_toList, List.length_ofFn]
    · rw [List.getElem_map, Vector.getElem_toList, List.getElem_ofFn]
      rfl
  rw [countSum, hall, List.sum_ofFn, ← List.sum_toFinset _ (seeds_nodup _)]
  refine Finset.sum_subset (Finset.subset_univ _) fun x _ hx => ?_
  have hzero : s.count x = 0#32 := by
    by_contra hne
    exact hx (List.mem_toFinset.mpr (mem_seeds.mpr hne))
  rw [hzero]
  rfl

theorem Tree.BuiltFrom.weight_eq {s : State} {t : Tree} (h : t.BuiltFrom s) :
    ∃ v, t.weight = some v ∧ v.toNat = countSum s.freq := by
  obtain ⟨v, hv, hsum⟩ := Tree.weight_of_leaves (weight := fun x => (s.count x).setWidth 41)
    h.weighted h.leaves
  refine ⟨v, hv, ?_⟩
  simp only [toNat_setWidth_count] at hsum
  rw [hsum, (h.symbols.map _).sum_eq, sum_seeds]

/-- TREE_BUILD's RESULT is the sum of all counts (R89). -/
theorem builtWeight_eq {s : State} (hne : seeds s.freq ≠ []) :
    (builtWeight s.freq).setWidth 64 = BitVec.ofNat 64 (countSum s.freq) := by
  obtain ⟨t, h⟩ := exists_builtFrom hne
  obtain ⟨v, hv, hsum⟩ := h.weight_eq
  rw [h.builtWeight, hv, ← hsum]
  exact (BitVec.ofNat_toNat 64 v).symm

/-- Settles O22: the merges end in one tree, which fills NODE and has the counts as its leaves' weights. -/
theorem treeBuildHoldsTheCountedTree : Obligations.TreeBuildHoldsTheCountedTree := by
  intro s hpos
  have hne := seeds_ne_nil hpos
  obtain ⟨tree, h⟩ := exists_builtFrom hne
  have hfills := h.fills
  have hlen := tree.indices_length
  rw [hfills.all, hfills.leaves] at hlen
  have hexec := treeBuild_of_seeds hne
  rw [builtWeight_eq hne] at hexec
  refine ⟨_, tree, hexec, h.held, hfills.congr rfl rfl rfl rfl,
    fun x => h.symbols.mem_iff.trans mem_seeds, h.leaves, ?_, hlen, rfl⟩
  exact (congrArg (· + 1) h.root).trans (h.last.trans h.nodeCount.symm)

/-! ### The two-leaf tree -/

/-- R86: the byte stands after the sentinel, whose symbol is higher. -/
theorem seeds_byte_and_sentinel {s : State} {b : Byte} (hb : s.count (byteSymbol b) ≠ 0#32)
    (hs : s.count sentinel = 1#32)
    (hzero : ∀ x, x ≠ byteSymbol b → x ≠ sentinel → s.count x = 0#32) :
    seeds s.freq = [sentinel, byteSymbol b] := by
  have hlt : byteSymbol b < sentinel := Fin.lt_def.mpr b.isLt
  refine seeds_eq_of_descending (by simpa using hlt) fun x => ?_
  simp only [List.mem_cons, List.not_mem_nil, or_false]
  constructor
  · rintro (rfl | rfl)
    · rw [hs]; decide
    · exact hb
  · intro hx
    by_contra hne
    exact hx (hzero x (fun h => hne (.inr h)) fun h => hne (.inl h))

/-- R87: of two entries the one that has neither the greater weight nor the greater index is removed. -/
theorem popMin_pair {a b : Live} (hw : a.weight.toNat ≤ b.weight.toNat) (hi : a.idx ≤ b.idx) :
    popMin [a, b] = some (a, [b]) := by
  have hbefore : ¬ b.before a = true := by
    rw [Live.before, decide_eq_true_iff, ← BitVec.toNat_inj]
    omega
  rw [popMin, popFrom, if_neg hbefore]
  rfl

/-- R88, R89: two seeds, the first of the lesser weight, are merged into one tree. -/
theorem builtNodes_pair {s : State} {x y : Symbol} (hseeds : seeds s.freq = [x, y])
    (hle : (s.count x).toNat ≤ (s.count y).toNat) :
    ∃ w, builtNodes s.freq = [seedLeaf s.freq x, seedLeaf s.freq y, .internal 1#10 0#10 w] := by
  rw [← toNat_setWidth_count, ← toNat_setWidth_count] at hle
  have hpop := popMin_pair (a := ⟨(s.count x).setWidth 41, 0⟩) (b := ⟨(s.count y).setWidth 41, 1⟩)
    hle (Nat.zero_le 1)
  have hlive : seedLive s.freq [x, y] = [⟨(s.count x).setWidth 41, 0⟩, ⟨(s.count y).setWidth 41, 1⟩] :=
    rfl
  refine ⟨some ((s.count x).setWidth 41 + (s.count y).setWidth 41), ?_⟩
  rw [builtNodes, hseeds, hlive]
  show mergeLoop 2 _ _ = _
  rw [mergeLoop, hpop]
  rfl

/-- A stored tree whose top is stored as a leaf is that leaf. -/
theorem Tree.StoredIn.shape_of_leaf {f : Nat → Option Node} {t : Tree} (h : t.StoredIn f) {x : Symbol}
    {w : Option Weight} (ht : f t.idx = some (.leaf x w)) : t.shape = .leaf x := by
  cases t with
  | leaf i y v =>
    have hi : f i = some (.leaf y v) := h
    cases hi.symm.trans ht
    rfl
  | node i v l r =>
    obtain ⟨⟨a, b, hi, -, -⟩, -, -⟩ := h
    cases hi.symm.trans ht

/-- A stored tree whose top is stored as an internal node has its children's trees below it. -/
theorem Tree.StoredIn.shape_of_internal {f : Nat → Option Node} {t : Tree} (h : t.StoredIn f)
    {a b : NodeIdx} {w : Option Weight} (ht : f t.idx = some (.internal a b w)) :
    ∃ l r : Tree, t.shape = .node l.shape r.shape ∧ l.StoredIn f ∧ r.StoredIn f ∧
      l.idx = a.toNat ∧ r.idx = b.toNat := by
  cases t with
  | leaf i y v =>
    have hi : f i = some (.leaf y v) := h
    cases hi.symm.trans ht
  | node i v l r =>
    obtain ⟨⟨a', b', hi, ha, hb⟩, hl, hr⟩ := h
    cases hi.symm.trans ht
    exact ⟨l, r, rfl, hl, hr, ha.symm, hb.symm⟩

/-- The tree stored in those nodes (R88). -/
theorem Tree.BuiltFrom.shape_pair {s : State} {t : Tree} (h : t.BuiltFrom s) {x y : Symbol}
    {w : Option Weight}
    (hnodes : builtNodes s.freq = [seedLeaf s.freq x, seedLeaf s.freq y, .internal 1#10 0#10 w]) :
    t.shape = .node (.leaf y) (.leaf x) := by
  have hst := h.stored
  have hidx : t.idx = 2 := Nat.succ.inj (h.last.trans (congrArg List.length hnodes))
  rw [hnodes] at hst
  obtain ⟨l, r, hshape, hl, hr, hlidx, hridx⟩ :=
    hst.shape_of_internal (a := 1#10) (b := 0#10) (w := w) (by rw [hidx]; rfl)
  rw [hshape, hl.shape_of_leaf (x := y) (by rw [hlidx]; rfl),
    hr.shape_of_leaf (x := x) (by rw [hridx]; rfl)]

/-- Settles O26: the sentinel's count is the least there is, so it is removed first. -/
theorem twoLeafTreeForEveryCount : Obligations.TwoLeafTreeForEveryCount := by
  intro s b hb hs hzero
  have hseeds := seeds_byte_and_sentinel hb hs hzero
  have hle : (s.count sentinel).toNat ≤ (s.count (byteSymbol b)).toNat := by
    rw [hs]
    exact Nat.pos_of_ne_zero fun h => hb (BitVec.eq_of_toNat_eq h)
  obtain ⟨w, hnodes⟩ := builtNodes_pair hseeds hle
  have hne : seeds s.freq ≠ [] := hseeds ▸ List.cons_ne_nil _ _
  obtain ⟨tree, h⟩ := exists_builtFrom hne
  refine ⟨_, tree, treeBuild_of_seeds hne, h.held, h.shape_pair hnodes, ?_, ?_, ?_⟩
  · refine (h.nodeAt 0).trans ?_
    rw [hnodes, seedLeaf, show s.freq[sentinel.val] = 1#32 from hs]
    rfl
  · refine (h.nodeAt 1).trans ?_
    rw [hnodes]
    rfl
  · have hidx : tree.idx + 1 = 3 := h.last.trans (congrArg List.length hnodes)
    exact BitVec.eq_of_toNat_eq (h.root.trans (Nat.succ.inj hidx))

/-! ### The merges, by the nodes they leave -/

/-- Every entry of LIVE is a node made already, with that node's weight (R87, R89). -/
theorem Forest.entry {xs : List Symbol} {live : List Live} {nodes : List Node} {trees : List Tree}
    (h : Forest xs live nodes trees) {e : Live} (he : e ∈ live) :
    e.idx < nodes.length ∧ (nodes[e.idx]?).bind Node.weight = some e.weight := by
  obtain ⟨k, hk, rfl⟩ := List.getElem_of_mem he
  have hk' : k < trees.length := h.stands.length_eq ▸ hk
  obtain ⟨hidx, hweight⟩ := h.stands.get hk hk'
  have ht := List.getElem_mem hk'
  have htop := (h.stored _ ht).weight_top
  simp only [List.get_eq_getElem] at hidx hweight
  rw [hidx, hweight] at htop
  exact ⟨hidx ▸ h.index_lt ht (Tree.idx_mem_indices _), htop⟩

/-- The children of the nodes made so far are among them. -/
theorem Forest.child_lt {xs : List Symbol} {live : List Live} {nodes : List Node} {trees : List Tree}
    (h : Forest xs live nodes trees) {k : Nat} {l r : NodeIdx} {w : Option Weight}
    (hk : nodes[k]? = some (.internal l r w)) : l.toNat < nodes.length ∧ r.toNat < nodes.length := by
  have hlt : k < nodes.length := (List.getElem?_eq_some_iff.mp hk).1
  obtain ⟨t, ht, hkt⟩ := List.mem_flatMap.mp (h.indices.symm.subset (List.mem_range.mpr hlt))
  obtain ⟨x, v, hn⟩ | ⟨l', r', v, hn, hl, hr⟩ := (h.stored t ht).node_at hkt
  · cases hk.symm.trans hn
  · cases hk.symm.trans hn
    exact ⟨h.index_lt ht hl, h.index_lt ht hr⟩

/-- Two entries' weights do not overflow when they are added (R10). -/
theorem Forest.weight_add {xs : List Symbol} {a b : Live} {live : List Live} {nodes : List Node}
    {trees : List Tree} (h : Forest xs (a :: b :: live) nodes trees) :
    (a.weight + b.weight).toNat = a.weight.toNat + b.weight.toNat := by
  have htotal := h.total
  simp only [List.map_cons, List.sum_cons] at htotal
  rw [BitVec.toNat_add, Nat.mod_eq_of_lt (by omega)]

/-- `live` holds, each once, the indices that are in LIVE when node n is about to be made, as the nodes of t tell
it (R89). -/
structure State.LiveAt (t : State) (n : Nat) (live : List Live) : Prop where
  mem : ∀ j, j ∈ live.map Live.idx ↔ t.LiveBefore n j
  nodup : (live.map Live.idx).Nodup

/-- Node i is made of the two least of LIVE, as R87 and R88 say. -/
def State.MergedAt (t : State) (i : Nat) : Prop :=
  ∃ (l r : NodeIdx) (w : Weight), nodeAt t.nodes i = some (.internal l r (some w)) ∧
    t.LiveBefore i l.toNat ∧ t.LiveBefore i r.toNat ∧ t.First r.toNat l.toNat ∧
    (∀ j, t.LiveBefore i j → j ≠ l.toNat → j ≠ r.toNat → t.First l.toNat j) ∧
    w.toNat = t.weightAt l.toNat + t.weightAt r.toNat

theorem State.LiveAt.perm {t : State} {n : Nat} {live live' : List Live} (h : t.LiveAt n live)
    (hp : live.Perm live') : t.LiveAt n live' where
  mem j := (hp.map Live.idx).mem_iff.symm.trans (h.mem j)
  nodup := (hp.map Live.idx).nodup_iff.mp h.nodup

/-- Making node n takes its two children out of LIVE and puts n in (R89). -/
theorem State.LiveAt.merge {t : State} {n : Nat} {a b : Live} {live : List Live} {l r : NodeIdx}
    {w : Option Weight} (v : Weight) (h : t.LiveAt n (a :: b :: live))
    (hn : nodeAt t.nodes n = some (.internal l r w)) (hl : l.toNat = b.idx) (hr : r.toNat = a.idx)
    (hchild : ∀ k l r w, k < n → nodeAt t.nodes k = some (.internal l r w) →
      l.toNat < n ∧ r.toNat < n) :
    t.LiveAt (n + 1) (live ++ [⟨v, n⟩]) := by
  have hnd := h.nodup
  simp only [List.map_cons, List.nodup_cons, List.mem_cons, not_or] at hnd
  obtain ⟨⟨hab, ha⟩, hb, hlive⟩ := hnd
  have hmem : ∀ j, (j = a.idx ∨ j = b.idx ∨ j ∈ live.map Live.idx) ↔ t.LiveBefore n j := fun j => by
    simpa using h.mem j
  have halt : a.idx < n := ((hmem _).mp (.inl rfl)).1
  have hblt : b.idx < n := ((hmem _).mp (.inr (.inl rfl))).1
  have hidx : (live ++ [(⟨v, n⟩ : Live)]).map Live.idx = live.map Live.idx ++ [n] := by simp
  have hlt : ∀ j ∈ live.map Live.idx, j < n := fun j hj => ((hmem j).mp (.inr (.inr hj))).1
  refine ⟨fun j => ?_, ?_⟩
  · rw [hidx, List.mem_append, List.mem_singleton]
    constructor
    · rintro (hj | rfl)
      · obtain ⟨hjn, hparent⟩ := (hmem j).mp (.inr (.inr hj))
        refine ⟨by omega, fun k l' r' w' hk hnode => ?_⟩
        rcases Nat.lt_succ_iff_lt_or_eq.mp hk with hk | rfl
        · exact hparent k l' r' w' hk hnode
        · cases hn.symm.trans hnode
          rw [hl, hr]
          exact ⟨fun he => hb (he ▸ hj), fun he => ha (he ▸ hj)⟩
      · refine ⟨Nat.lt_succ_self _, fun k l' r' w' hk hnode => ?_⟩
        rcases Nat.lt_succ_iff_lt_or_eq.mp hk with hk | rfl
        · obtain ⟨hl', hr'⟩ := hchild k l' r' w' hk hnode
          omega
        · cases hn.symm.trans hnode
          omega
    · rintro ⟨hj, hparent⟩
      rcases Nat.lt_succ_iff_lt_or_eq.mp hj with hj | rfl
      · obtain ⟨hjl, hjr⟩ := hparent n l r w (Nat.lt_succ_self n) hn
        have hbefore : t.LiveBefore n j :=
          ⟨hj, fun k l' r' w' hk hnode => hparent k l' r' w' (by omega) hnode⟩
        rw [← hmem, ← hl, ← hr] at hbefore
        exact .inl ((hbefore.resolve_left hjr).resolve_left hjl)
      · exact .inr rfl
  · rw [hidx]
    exact List.nodup_append.mpr ⟨hlive, List.nodup_singleton n, fun j hj m hm => by
      rw [List.mem_singleton.mp hm]
      exact (hlt j hj).ne⟩

/-- PopMin's order, by the nodes of t: it is strict where the indices differ (R87). -/
theorem State.First.of_noLater {t : State} {a b : Live} (h : a.NoLater b) (hne : a.idx ≠ b.idx)
    (ha : t.weightAt a.idx = a.weight.toNat) (hb : t.weightAt b.idx = b.weight.toNat) :
    t.First a.idx b.idx := by
  rw [Live.noLater_iff] at h
  rw [State.First, ha, hb]
  omega

/-- The two entries that PopMin removes make a node as R87 to R89 say. -/
theorem State.LiveAt.mergedAt {t : State} {n : Nat} {a b : Live} {live : List Live} {l r : NodeIdx}
    {w : Weight} (h : t.LiveAt n (a :: b :: live))
    (hweight : ∀ e ∈ a :: b :: live, t.weightAt e.idx = e.weight.toNat)
    (hab : a.NoLater b) (hleast : ∀ e ∈ live, b.NoLater e)
    (hn : nodeAt t.nodes n = some (.internal l r (some w))) (hl : l.toNat = b.idx)
    (hr : r.toNat = a.idx) (hw : w.toNat = a.weight.toNat + b.weight.toNat) : t.MergedAt n := by
  have hnd := h.nodup
  simp only [List.map_cons, List.nodup_cons, List.mem_cons, not_or] at hnd
  obtain ⟨⟨hne, -⟩, -, -⟩ := hnd
  simp only [List.forall_mem_cons] at hweight
  obtain ⟨hwa, hwb, hwlive⟩ := hweight
  refine ⟨l, r, w, hn, ?_⟩
  rw [hl, hr]
  refine ⟨?_, ?_, ?_, fun j hj hjl hjr => ?_, ?_⟩
  · exact (h.mem _).mp (by simp)
  · exact (h.mem _).mp (by simp)
  · exact .of_noLater hab hne hwa hwb
  · have hmem := (h.mem j).mpr hj
    simp only [List.map_cons, List.mem_cons] at hmem
    obtain ⟨e, he, rfl⟩ := List.mem_map.mp ((hmem.resolve_left hjr).resolve_left hjl)
    exact .of_noLater (hleast e he) (Ne.symm hjl) hwb (hwlive e he)
  · rw [hw, hwa, hwb, Nat.add_comm]

/-- Every node that the merge loop makes is made of the two least of LIVE (R87 to R89). -/
theorem mergeLoop_mergedAt {t : State} {xs : List Symbol} (turns : Nat) {live : List Live}
    {nodes : List Node} {trees : List Tree} (h : Forest xs live nodes trees)
    (hlive : t.LiveAt nodes.length live)
    (hfin : ∀ j, nodeAt t.nodes j = (mergeLoop turns live nodes)[j]?) {i : Nat}
    (hi : nodes.length ≤ i) (hlt : i < (mergeLoop turns live nodes).length) : t.MergedAt i := by
  induction turns generalizing live nodes trees with
  | zero => exact absurd hlt (Nat.not_lt.mpr hi)
  | succ turns ih =>
    obtain ⟨-, hstop⟩ | ⟨a, b, rest, hp, hab, hleast, hturn⟩ := mergeLoop_succ turns live nodes
    · rw [hstop] at hlt
      exact absurd hlt (Nat.not_lt.mpr hi)
    · rw [hturn] at hfin hlt
      obtain ⟨trees', hf⟩ := h.perm hp.symm
      obtain ⟨trees'', hmerge⟩ := hf.merge
      obtain ⟨made, hmade, -⟩ := mergeLoop_appends turns
        (rest ++ [⟨a.weight + b.weight, nodes.length⟩]) (nodes ++ [mergeNode a b])
      have hold : ∀ j < nodes.length, nodeAt t.nodes j = nodes[j]? := fun j hj => by
        rw [hfin, hmade, List.append_assoc, List.getElem?_append_left hj]
      have hnew : nodeAt t.nodes nodes.length = some (mergeNode a b) := by
        rw [hfin, hmade, List.append_assoc, List.getElem?_append_right le_rfl, Nat.sub_self]
        rfl
      have hweight : ∀ e ∈ a :: b :: rest, t.weightAt e.idx = e.weight.toNat := fun e he => by
        obtain ⟨helt, hw⟩ := hf.entry he
        rw [State.weightAt, hold _ helt, hw]
      have hroom := hf.room
      simp only [List.length_cons] at hroom
      have hidx : ∀ e ∈ a :: b :: rest, (BitVec.ofNat 10 e.idx).toNat = e.idx := fun e he => by
        have helt := (hf.entry he).1
        rw [BitVec.toNat_ofNat, Nat.mod_eq_of_lt (by omega)]
      have hlive' := hlive.perm hp
      rcases Nat.lt_or_eq_of_le hi with hi | rfl
      · refine ih hmerge ?_ hfin (by simpa using hi) hlt
        rw [List.length_append, List.length_singleton]
        exact hlive'.merge _ hnew (hidx b (by simp)) (hidx a (by simp)) fun k l r w hk hnode =>
          hf.child_lt ((hold k hk).symm.trans hnode)
      · exact hlive'.mergedAt hweight hab hleast hnew (hidx b (by simp)) (hidx a (by simp))
          hf.weight_add

/-- Before the first merge LIVE is all the leaves (R89). -/
theorem State.liveAt_seeds {t : State} {freq : FreqTable} {xs : List Symbol}
    (hleaf : ∀ k < xs.length, ∃ x w, nodeAt t.nodes k = some (.leaf x w)) :
    t.LiveAt xs.length (seedLive freq xs) := by
  have hidx : (seedLive freq xs).map Live.idx = List.range xs.length := by
    rw [seedLive, List.map_map, List.range_eq_range', ← List.zipIdx_map_snd]
    rfl
  refine ⟨fun j => ?_, hidx ▸ List.nodup_range⟩
  rw [hidx, List.mem_range]
  refine ⟨fun hj => ⟨hj, fun k l r w hk hn => ?_⟩, fun hj => hj.1⟩
  obtain ⟨x, v, hx⟩ := hleaf k hk
  cases hx.symm.trans hn

/-- R86: node k is the leaf of seed k. -/
theorem builtNodes_seed {s : State} {xs : List Symbol} (hxs : seeds s.freq = xs) {k : Nat}
    (hk : k < xs.length) :
    (builtNodes s.freq)[k]? = some (.leaf xs[k] (some ((s.count xs[k]).setWidth 41))) := by
  subst hxs
  obtain ⟨made, hnodes, -⟩ := builtNodes_eq s.freq
  rw [hnodes, List.getElem?_append_left (by simpa using hk), List.getElem?_map,
    List.getElem?_eq_getElem hk]
  rfl

/-- Settles O24: the seeds are the first nodes, and each turn of the merge loop makes the next one. -/
theorem treeBuildSeedsAndMerges : Obligations.TreeBuildSeedsAndMerges := by
  intro s hpos
  have hne := seeds_ne_nil hpos
  obtain ⟨tree, h⟩ := exists_builtFrom hne
  have hseed : ∀ (k : Nat) (hk : k < s.positiveDescending.length), nodeAt (buildTree s).nodes k =
      some (.leaf s.positiveDescending[k]
        (some ((s.count s.positiveDescending[k]).setWidth 41))) := fun k hk =>
    (h.nodeAt k).trans (builtNodes_seed (seeds_eq_positiveDescending s) hk)
  have hcount : (buildTree s).leafCount.toNat = (seeds s.freq).length := buildTree_leafCount s
  refine ⟨_, treeBuild_of_seeds hne, ?_, hseed, fun i hi hlt => ?_⟩
  · exact hcount.trans (congrArg List.length (seeds_eq_positiveDescending s))
  · refine mergeLoop_mergedAt _ (seeds_forest hne (seeds_length_le s.freq)) ?_ h.nodeAt
      ?_ (h.nodeCount ▸ hlt)
    · rw [List.length_map]
      refine State.liveAt_seeds fun k hk => ?_
      rw [seeds_eq_positiveDescending s] at hk
      exact ⟨_, _, hseed k hk⟩
    · rw [List.length_map]
      exact hcount ▸ hi

/-! ### Depths that leaves can have -/

/-- Kraft's inequality on the depths of leaves. Every tree's leaves meet it, and the merge argument needs nothing
else of a tree. -/
def Kraft (depths : List Nat) : Prop := (depths.map fun d => (1 / 2 : ℚ) ^ d).sum ≤ 1

theorem Kraft.perm {ds ds' : List Nat} (h : Kraft ds) (hp : ds.Perm ds') : Kraft ds' := by
  rwa [Kraft, ← (hp.map _).sum_eq]

/-- Scaled by a power of 2 that no depth exceeds, the sum is a whole number. -/
theorem exists_scaled_sum {ds : List Nat} {m : Nat} (h : ∀ d ∈ ds, d ≤ m) :
    ∃ x : Nat, (ds.map fun d => (1 / 2 : ℚ) ^ d).sum * 2 ^ m = x := by
  induction ds with
  | nil => exact ⟨0, by simp⟩
  | cons d ds ih =>
    obtain ⟨hd, hds⟩ := List.forall_mem_cons.mp h
    obtain ⟨x, hx⟩ := ih hds
    obtain ⟨k, rfl⟩ := Nat.exists_eq_add_of_le hd
    refine ⟨2 ^ k + x, ?_⟩
    rw [List.map_cons, List.sum_cons, add_mul, hx, pow_add, ← mul_assoc, ← mul_pow]
    norm_num

/-- The two deepest leaves can be replaced by one a level above the less deep of them: the scaled sum of the
others is whole, so it leaves room for a second leaf of that depth. -/
theorem Kraft.merge {d₁ d₂ : Nat} {ds : List Nat} (h : Kraft (d₁ :: d₂ :: ds))
    (hds : ∀ d ∈ ds, d ≤ d₂) : ∃ e, d₂ = e + 1 ∧ Kraft (e :: ds) := by
  obtain ⟨x, hx⟩ := exists_scaled_sum hds
  have hpos : (0 : ℚ) < 2 ^ d₂ := by positivity
  have hhalf : ((1 / 2 : ℚ) ^ d₂) * 2 ^ d₂ = 1 := by rw [← mul_pow]; norm_num
  have hroom : 2 + x ≤ 2 ^ d₂ := by
    have hlt : (1 + x : ℚ) < 2 ^ d₂ := by
      have hd₁ : (0 : ℚ) < (1 / 2) ^ d₁ := by positivity
      have hscaled := mul_le_mul_of_nonneg_right h hpos.le
      rw [List.map_cons, List.map_cons, List.sum_cons, List.sum_cons, add_mul, add_mul, hhalf, hx,
        one_mul] at hscaled
      have := mul_pos hd₁ hpos
      linarith
    have hlt : 1 + x < 2 ^ d₂ := by exact_mod_cast hlt
    omega
  obtain _ | e := d₂
  · omega
  · refine ⟨e, rfl, ?_⟩
    rw [Kraft, List.map_cons, List.sum_cons]
    refine le_of_mul_le_mul_right ?_ hpos
    rw [add_mul, hx, one_mul, pow_succ, ← mul_assoc, ← mul_pow]
    have : (2 + x : ℚ) ≤ 2 ^ (e + 1) := by exact_mod_cast hroom
    rw [pow_succ] at this
    norm_num
    linarith

/-! ### Weighted leaves -/

/-- The weighted path length of leaves, each with its weight and its depth (R91 (c)). -/
def leavesCost (leaves : List (Nat × Nat)) : Nat := (leaves.map fun p => p.1 * p.2).sum

theorem leavesCost_cons (w d : Nat) (leaves : List (Nat × Nat)) :
    leavesCost ((w, d) :: leaves) = w * d + leavesCost leaves := by
  simp [leavesCost]

theorem leavesCost_perm {ps qs : List (Nat × Nat)} (h : ps.Perm qs) : leavesCost ps = leavesCost qs :=
  (h.map _).sum_eq

/-- A leaf of the least weight can be the deepest: exchanging its depth with a greater one makes the cost no
larger. -/
theorem deepest_of_least {w d : Nat} {ps : List (Nat × Nat)} (hw : ∀ p ∈ ps, w ≤ p.1) :
    ∃ m qs, qs.map Prod.fst = ps.map Prod.fst ∧ (m :: qs.map Prod.snd).Perm (d :: ps.map Prod.snd) ∧
      d ≤ m ∧ (∀ e ∈ qs.map Prod.snd, e ≤ m) ∧
      leavesCost ((w, m) :: qs) ≤ leavesCost ((w, d) :: ps) := by
  induction ps generalizing d with
  | nil => exact ⟨d, [], rfl, .refl _, le_rfl, by simp, le_rfl⟩
  | cons p ps ih =>
    obtain ⟨v, e⟩ := p
    obtain ⟨hv, hps⟩ := List.forall_mem_cons.mp hw
    rcases le_or_gt e d with hed | hde
    · obtain ⟨m, qs, hfst, hsnd, hdm, hle, hcost⟩ := ih (d := d) hps
      refine ⟨m, (v, e) :: qs, by simp [hfst], ?_, hdm, ?_, ?_⟩
      · exact (List.Perm.swap _ _ _).trans ((hsnd.cons e).trans (.swap _ _ _))
      · exact List.forall_mem_cons.mpr ⟨hed.trans hdm, hle⟩
      · simp only [leavesCost_cons] at hcost ⊢
        omega
    · obtain ⟨m, qs, hfst, hsnd, hem, hle, hcost⟩ := ih (d := e) hps
      refine ⟨m, (v, d) :: qs, by simp [hfst], ?_, hde.le.trans hem, ?_, ?_⟩
      · exact (List.Perm.swap _ _ _).trans (hsnd.cons d)
      · exact List.forall_mem_cons.mpr ⟨hde.le.trans hem, hle⟩
      · have hswap : w * e + v * d ≤ w * d + v * e := mul_add_mul_le_mul_add_mul hv hde.le
        simp only [leavesCost_cons] at hcost ⊢
        omega

/-- The same, with the leaf of the least weight anywhere. -/
theorem exists_deepest {w : Nat} {ws : List Nat} {ps : List (Nat × Nat)}
    (hps : (ps.map Prod.fst).Perm (w :: ws)) (hw : ∀ v ∈ ws, w ≤ v) :
    ∃ m qs, (qs.map Prod.fst).Perm ws ∧ (m :: qs.map Prod.snd).Perm (ps.map Prod.snd) ∧
      (∀ e ∈ qs.map Prod.snd, e ≤ m) ∧ leavesCost ((w, m) :: qs) ≤ leavesCost ps := by
  obtain ⟨⟨v, d⟩, hmem, rfl⟩ := List.mem_map.mp (hps.symm.subset List.mem_cons_self)
  have hrest := List.perm_cons_erase hmem
  have hfst : ((ps.erase (v, d)).map Prod.fst).Perm ws :=
    ((hrest.map Prod.fst).symm.trans hps).cons_inv
  obtain ⟨m, qs, hq, hsnd, -, hle, hcost⟩ := deepest_of_least (w := v) (d := d) (ps := ps.erase (v, d))
    fun p hp => hw _ (hfst.subset (List.mem_map_of_mem hp))
  refine ⟨m, qs, hq ▸ hfst, hsnd.trans (hrest.map Prod.snd).symm, hle, ?_⟩
  rw [leavesCost_perm hrest]
  exact hcost

/-- R91 (c): leaves of the two least weights can be merged into one of the sum of their weights, and the cost goes
down by that sum at least. -/
theorem exists_merged_leaves {a b : Nat} {ws : List Nat} {ps : List (Nat × Nat)}
    (hps : (ps.map Prod.fst).Perm (a :: b :: ws)) (hk : Kraft (ps.map Prod.snd)) (hab : a ≤ b)
    (hb : ∀ w ∈ ws, b ≤ w) :
    ∃ qs, (qs.map Prod.fst).Perm ((a + b) :: ws) ∧ Kraft (qs.map Prod.snd) ∧
      leavesCost qs + (a + b) ≤ leavesCost ps := by
  obtain ⟨d₁, qs, hqs, hd₁, hle₁, hcost₁⟩ := exists_deepest hps
    (List.forall_mem_cons.mpr ⟨hab, fun w hw => hab.trans (hb w hw)⟩)
  obtain ⟨d₂, rs, hrs, hd₂, hle₂, hcost₂⟩ := exists_deepest hqs hb
  have hd : d₂ ≤ d₁ := hle₁ _ (hd₂.subset List.mem_cons_self)
  have hkraft : Kraft (d₁ :: d₂ :: rs.map Prod.snd) :=
    hk.perm ((hd₂.cons d₁).trans hd₁).symm
  obtain ⟨e, rfl, hmerged⟩ := hkraft.merge hle₂
  refine ⟨(a + b, e) :: rs, hrs.cons _, hmerged, ?_⟩
  have ha : a * (e + 1) ≤ a * d₁ := Nat.mul_le_mul_left a hd
  simp only [leavesCost_cons] at hcost₁ hcost₂ ⊢
  rw [Nat.mul_succ] at ha hcost₂
  rw [Nat.add_mul]
  omega

/-! ### The cost of what the merge loop makes -/

/-- The weight of an internal node; 0 for a leaf. -/
def Node.inner : Node → Nat
  | .internal _ _ (some w) => w.toNat
  | _ => 0

/-- R91 (c): the internal nodes the merge loop makes weigh no more than any leaves of LIVE's weights cost. -/
theorem mergeLoop_inner_le {xs : List Symbol} (turns : Nat) {live : List Live} {nodes : List Node}
    {trees : List Tree} (h : Forest xs live nodes trees) {ps : List (Nat × Nat)}
    (hps : (ps.map Prod.fst).Perm (live.map (·.weight.toNat))) (hk : Kraft (ps.map Prod.snd)) :
    ((mergeLoop turns live nodes).map Node.inner).sum ≤
      (nodes.map Node.inner).sum + leavesCost ps := by
  induction turns generalizing live nodes trees ps with
  | zero => exact Nat.le_add_right _ _
  | succ turns ih =>
    obtain ⟨-, hstop⟩ | ⟨a, b, rest, hp, hab, hleast, hturn⟩ := mergeLoop_succ turns live nodes
    · rw [hstop]
      exact Nat.le_add_right _ _
    · obtain ⟨trees', hf⟩ := h.perm hp.symm
      obtain ⟨trees'', hmerge⟩ := hf.merge
      have hsum := hf.weight_add
      obtain ⟨qs, hqs, hkq, hcost⟩ := exists_merged_leaves (hps.trans (hp.map _)) hk hab.weight_le
        (List.forall_mem_map.mpr fun e he => (hleast e he).weight_le)
      dsimp only at hcost
      have hlive : (qs.map Prod.fst).Perm
          ((rest ++ [(⟨a.weight + b.weight, nodes.length⟩ : Live)]).map (·.weight.toNat)) := by
        refine hqs.trans ?_
        rw [List.map_append, ← hsum]
        exact List.perm_append_comm (l₁ := [(a.weight + b.weight).toNat])
      have hinner : (mergeNode a b).inner = a.weight.toNat + b.weight.toNat := hsum
      have hloop := ih hmerge hlive hkq
      rw [List.map_append, List.sum_append, List.map_singleton, List.sum_singleton, hinner] at hloop
      rw [hturn]
      omega

/-! ### The cost of a tree -/

/-- The leaves of a shape with their weights and depths, from depth d on. -/
def Shape.weightedLeaves (weight : Symbol → Nat) : Shape → (depth : Nat) → List (Nat × Nat)
  | .leaf x, d => [(weight x, d)]
  | .node l r, d => l.weightedLeaves weight (d + 1) ++ r.weightedLeaves weight (d + 1)

theorem Shape.cost_eq_leavesCost (weight : Symbol → Nat) (sh : Shape) (d : Nat) :
    sh.cost weight d = leavesCost (sh.weightedLeaves weight d) := by
  induction sh generalizing d with
  | leaf x => simp [Shape.cost, Shape.weightedLeaves, leavesCost]
  | node l r ihl ihr =>
    simp [Shape.cost, Shape.weightedLeaves, leavesCost, ihl (d + 1), ihr (d + 1)]

theorem Shape.weightedLeaves_fst (weight : Symbol → Nat) (sh : Shape) (d : Nat) :
    (sh.weightedLeaves weight d).map Prod.fst = sh.symbols.map weight := by
  induction sh generalizing d with
  | leaf x => rfl
  | node l r ihl ihr =>
    simp only [Shape.weightedLeaves, Shape.symbols, List.map_append, ihl (d + 1), ihr (d + 1)]

/-- Below depth d the leaves of a shape take up the room of one node of that depth. -/
theorem Shape.weightedLeaves_kraft (weight : Symbol → Nat) (sh : Shape) (d : Nat) :
    (((sh.weightedLeaves weight d).map Prod.snd).map fun e => (1 / 2 : ℚ) ^ e).sum = (1 / 2) ^ d := by
  induction sh generalizing d with
  | leaf x => simp [Shape.weightedLeaves]
  | node l r ihl ihr =>
    simp only [Shape.weightedLeaves, List.map_append, List.sum_append, ihl (d + 1), ihr (d + 1)]
    ring

theorem Shape.kraft (weight : Symbol → Nat) (sh : Shape) :
    Kraft ((sh.weightedLeaves weight 0).map Prod.snd) :=
  (sh.weightedLeaves_kraft weight 0).trans_le (pow_zero (1 / 2 : ℚ)).le

/-- The cost of a stored tree whose leaves have the given weights: its own weight for each level above it, and the
weights of its internal nodes. -/
theorem Tree.StoredIn.cost_eq {f : Nat → Option Node} {t : Tree} {weight : Symbol → Weight}
    (h : t.StoredIn f) (hw : t.weighted = true) (hl : ∀ p ∈ t.leafWeights, p.2 = some (weight p.1))
    (d : Nat) :
    t.shape.cost (fun x => (weight x).toNat) d =
      (t.symbols.map fun x => (weight x).toNat).sum * d +
        (t.indices.map fun j => (f j).elim 0 Node.inner).sum := by
  induction t generalizing d with
  | leaf i x w =>
    have hi : f i = some (.leaf x w) := h
    simp [Tree.shape, Shape.cost, Tree.symbols, Tree.indices, hi, Node.inner]
  | node i w l r ihl ihr =>
    obtain ⟨v, hv, hsum⟩ := Tree.weight_of_leaves hw hl
    obtain ⟨⟨a, b, hi, -, -⟩, hstl, hstr⟩ := h
    obtain ⟨hwl, hwr, -⟩ := Tree.weighted_node hw
    obtain rfl : w = some v := hv
    have hcostl := ihl hstl hwl (fun p hp => hl p (List.mem_append_left _ hp)) (d + 1)
    have hcostr := ihr hstr hwr (fun p hp => hl p (List.mem_append_right _ hp)) (d + 1)
    simp only [Tree.symbols, List.map_append, List.sum_append] at hsum
    simp only [Tree.shape, Shape.cost, Tree.symbols, Tree.indices, List.map_cons, List.map_append,
      List.sum_cons, List.sum_append, hi, Option.elim_some, Node.inner, hsum, hcostl, hcostr]
    ring

/-- The built tree's cost is what its internal nodes weigh. -/
theorem Tree.BuiltFrom.cost_eq {s : State} {t : Tree} (h : t.BuiltFrom s) :
    t.shape.cost (fun x => (s.count x).toNat) 0 = ((builtNodes s.freq).map Node.inner).sum := by
  have hcost := h.stored.cost_eq (weight := fun x => (s.count x).setWidth 41) h.weighted h.leaves 0
  simp only [toNat_setWidth_count, Nat.mul_zero, Nat.zero_add] at hcost
  rw [hcost, (h.indices.map _).sum_eq]
  congr 1
  refine List.ext_getElem (by simp) fun i _ hi => ?_
  rw [List.length_map] at hi
  rw [List.getElem_map, List.getElem_map, List.getElem_range, List.getElem?_eq_getElem hi]
  rfl

/-- TREE_BUILD that raises no error has found a seed (R89). -/
theorem seeds_ne_nil_of_treeBuild {s t : State} (h : exec .treeBuild s = .next t)
    (herr : t.err = false) : seeds s.freq ≠ [] := by
  intro hnil
  rw [exec, execTreeBuild, if_pos (by rw [hnil]; rfl)] at h
  obtain rfl := enterError_next h
  cases herr

/-- The weights in LIVE at the start are the seeds' counts (R89). -/
theorem seedLive_weights (s : State) (xs : List Symbol) :
    (seedLive s.freq xs).map (·.weight.toNat) = xs.map fun x => (s.count x).toNat := by
  simp only [← toNat_setWidth_count]
  conv_rhs => rw [← List.zipIdx_map_fst 0 xs, List.map_map]
  rw [seedLive, List.map_map]
  rfl

/-- At the start there is no internal node (R89). -/
theorem seedLeaf_inner (freq : FreqTable) (xs : List Symbol) :
    ((xs.map (seedLeaf freq)).map Node.inner).sum = 0 := by
  rw [List.map_map]
  exact List.sum_eq_zero fun v hv => by
    obtain ⟨x, -, rfl⟩ := List.mem_map.mp hv
    rfl

/-- R91 (c): a built tree costs no more than leaves of the counted weights at any depths a tree can have. -/
theorem Tree.BuiltFrom.cost_le {s : State} {t : Tree} (h : t.BuiltFrom s) {other : Shape}
    (hsym : other.symbols.Perm t.symbols) :
    t.shape.cost (fun x => (s.count x).toNat) 0 ≤ other.cost (fun x => (s.count x).toNat) 0 := by
  have hps := (other.weightedLeaves_fst (fun x => (s.count x).toNat) 0).symm ▸
    (hsym.trans h.symbols).map fun x => (s.count x).toNat
  have hle := mergeLoop_inner_le (seeds s.freq).length
    (seeds_forest h.seeds_ne_nil (seeds_length_le s.freq)) (seedLive_weights s _ ▸ hps) (other.kraft _)
  rw [seedLeaf_inner, Nat.zero_add] at hle
  rw [h.cost_eq, Shape.cost_eq_leavesCost]
  exact hle

/-- Settles O23: the other tree's leaves meet Kraft's inequality, so they cost no less than the tree that the merges
end in. -/
theorem builtTreeIsOptimal : Obligations.BuiltTreeIsOptimal := by
  intro s t tree other _ hexec hterr hheld hsym
  have hne := seeds_ne_nil_of_treeBuild hexec hterr
  obtain ⟨built, h⟩ := exists_builtFrom hne
  cases (treeBuild_of_seeds hne).symm.trans hexec
  obtain rfl : built = tree := Option.some.inj (h.held.symm.trans hheld)
  exact h.cost_le hsym

end Sys2Proof.Machine

namespace Sys2Proof.Machine

/-! ### Root-to-leaf paths -/

/-- R95: the paths end at the leaves, one path for each. -/
theorem Tree.paths_fst (t : Tree) : t.paths.map Prod.fst = t.symbols := by
  induction t with
  | leaf => rfl
  | node i w l r ihl ihr =>
    simp only [Tree.paths, Tree.symbols, List.map_append, List.map_map, ← ihl, ← ihr]
    rfl

theorem Tree.mem_symbols_iff {t : Tree} {x : Symbol} :
    x ∈ t.symbols ↔ ∃ path, (x, path) ∈ t.paths := by
  simp [← t.paths_fst]

theorem Tree.symbols_length_pos (t : Tree) : 0 < t.symbols.length :=
  t.symbols_shape ▸ t.shape.symbols_length_pos

/-- Each edge of a path has a leaf of its own beside it, so a path has fewer edges than the tree has leaves. -/
theorem Tree.path_length_lt {t : Tree} {x : Symbol} {path : List Bool} (h : (x, path) ∈ t.paths) :
    path.length < t.symbols.length := by
  induction path generalizing t with
  | nil =>
    obtain ⟨i, w, rfl⟩ := Tree.eq_leaf_of_mem_paths h
    exact Nat.one_pos
  | cons b path ih =>
    obtain ⟨i, w, l, r, rfl, hchild⟩ := Tree.eq_node_of_mem_paths h
    have hl := l.symbols_length_pos
    have hr := r.symbols_length_pos
    rw [Tree.symbols, List.length_append, List.length_cons]
    cases b with
    | false =>
      have hlt : path.length < l.symbols.length := ih hchild
      omega
    | true =>
      have hlt : path.length < r.symbols.length := ih hchild
      omega

/-- R15, R97: with no symbol twice, 256 edges are the most. -/
theorem Tree.path_length_le {t : Tree} (hd : t.symbols.Nodup) {x : Symbol} {path : List Bool}
    (h : (x, path) ∈ t.paths) : path.length ≤ 256 :=
  Nat.le_of_lt_succ ((Tree.path_length_lt h).trans_le (symbols_length_le_of_nodup hd))

/-- R97 (b): a path that begins another one ends at the same leaf. -/
theorem Tree.symbol_eq_of_path_prefix {t : Tree} {x y : Symbol} {c d : List Bool}
    (hx : (x, c) ∈ t.paths) (hy : (y, d) ∈ t.paths) (h : c <+: d) : x = y := by
  induction c generalizing t d with
  | nil =>
    obtain ⟨i, w, rfl⟩ := Tree.eq_leaf_of_mem_paths hx
    simp only [Tree.paths, List.mem_singleton, Prod.mk.injEq] at hy
    exact hy.1.symm
  | cons b c ih =>
    obtain ⟨rest, rfl⟩ := h
    obtain ⟨i, w, l, r, rfl, hchild⟩ := Tree.eq_node_of_mem_paths hx
    obtain ⟨_, _, l', r', heq, hchild'⟩ := Tree.eq_node_of_mem_paths hy
    cases heq
    exact ih hchild hchild' (List.prefix_append c rest)

/-- R97 (c): the paths of a tree within n levels share out 2^n, each edge taking half. -/
theorem Tree.sum_paths {t : Tree} {n : Nat} (h : ∀ p ∈ t.paths, p.2.length ≤ n) :
    (t.paths.map fun p => 2 ^ (n - p.2.length)).sum = 2 ^ n := by
  induction t generalizing n with
  | leaf => simp [Tree.paths]
  | node i w l r ihl ihr =>
    simp only [Tree.paths, List.forall_mem_append, List.forall_mem_map, List.length_cons] at h
    obtain ⟨hl, hr⟩ := h
    obtain ⟨m, rfl⟩ : ∃ m, n = m + 1 := by
      obtain ⟨path, hpath⟩ := Tree.mem_symbols_iff.mp (List.getElem_mem l.symbols_length_pos)
      exact Nat.exists_eq_succ_of_ne_zero fun hz => by simpa [hz] using hl _ hpath
    have hsuml := ihl fun p hp => Nat.le_of_succ_le_succ (hl p hp)
    have hsumr := ihr fun p hp => Nat.le_of_succ_le_succ (hr p hp)
    simp only [Tree.paths, List.map_append, List.map_map, List.sum_append, Function.comp_def,
      List.length_cons, Nat.add_sub_add_right, hsuml, hsumr]
    rw [Nat.pow_succ, Nat.mul_two]

/-! ### The code table of a tree -/

/-- The three entries of symbol x (R28). -/
def CodeTable.entry (c : CodeTable) (x : Symbol) :
    Option Bool × Option (BitVec 9) × Option (BitVec 256) :=
  (c.present[x.val], c.len[x.val], c.bits[x.val])

/-- The entries of a symbol whose path is `path` (R95). -/
def codeEntry (path : List Bool) : Option Bool × Option (BitVec 9) × Option (BitVec 256) :=
  (some true, some (BitVec.ofNat 9 path.length), some (BitVec.ofNat 256 (bitsToNat path)))

theorem emptyCodes_entry (x : Symbol) : emptyCodes.entry x = (some false, none, none) := by
  simp [emptyCodes, CodeTable.entry]

theorem CodeTable.put_entry_same (c : CodeTable) (x : Symbol) (len val : Nat) :
    (c.put x len val).entry x =
      (some true, some (BitVec.ofNat 9 len), some (BitVec.ofNat 256 val)) := by
  simp [CodeTable.put, CodeTable.entry]

theorem CodeTable.put_entry_of_ne (c : CodeTable) {x y : Symbol} (h : y ≠ x) (len val : Nat) :
    (c.put x len val).entry y = c.entry y := by
  have hne : x.val ≠ y.val := fun he => h (Fin.ext he.symm)
  simp [CodeTable.put, CodeTable.entry, Vector.getElem_set_ne, hne]

/-- A visit records nothing for a symbol that is no leaf of the tree (R95). -/
theorem visit_entry_of_not_mem {t : Tree} {x : Symbol} (h : x ∉ t.symbols) (len val : Nat)
    (c : CodeTable) : (visit t len val c).entry x = c.entry x := by
  induction t generalizing len val c with
  | leaf i y w => exact c.put_entry_of_ne (by simpa [Tree.symbols] using h) len val
  | node i w l r ihl ihr =>
    rw [Tree.symbols, List.mem_append, not_or] at h
    rw [visit, ihr h.2, ihl h.1]

/-- A visit that has come down `pre` goes on with the path to each child (R95). -/
theorem visit_node (i : Nat) (w : Option Weight) (l r : Tree) (pre : List Bool) (c : CodeTable) :
    visit (.node i w l r) pre.length (bitsToNat pre) c =
      visit r (pre ++ [true]).length (bitsToNat (pre ++ [true]))
        (visit l (pre ++ [false]).length (bitsToNat (pre ++ [false])) c) := by
  simp [visit, bitsToNat_concat]

/-- A visit that has come down `pre` records for each leaf `pre` and the leaf's path from there (R95). -/
theorem visit_entry_of_path {t : Tree} (hd : t.symbols.Nodup) {x : Symbol} {path : List Bool}
    (h : (x, path) ∈ t.paths) (pre : List Bool) (c : CodeTable) :
    (visit t pre.length (bitsToNat pre) c).entry x = codeEntry (pre ++ path) := by
  induction path generalizing t pre c with
  | nil =>
    obtain ⟨i, w, rfl⟩ := Tree.eq_leaf_of_mem_paths h
    rw [List.append_nil]
    exact c.put_entry_same x _ _
  | cons b path ih =>
    obtain ⟨i, w, l, r, rfl, hchild⟩ := Tree.eq_node_of_mem_paths h
    obtain ⟨hdl, hdr, hdisj⟩ := List.nodup_append'.mp hd
    rw [visit_node, List.append_cons pre b path]
    cases b with
    | false =>
      have hnot : x ∉ r.symbols := hdisj (Tree.mem_symbols_iff.mpr ⟨path, hchild⟩)
      rw [visit_entry_of_not_mem hnot]
      exact ih hdl hchild (pre ++ [false]) c
    | true => exact ih hdr hchild (pre ++ [true]) _

/-- R95: a leaf's code is its path from the root. -/
theorem codesOf_entry_of_path {t : Tree} (hd : t.symbols.Nodup) {x : Symbol} {path : List Bool}
    (h : (x, path) ∈ t.paths) : (codesOf t).entry x = codeEntry path :=
  visit_entry_of_path hd h [] emptyCodes

/-- R95: a symbol that is no leaf has no code. -/
theorem codesOf_entry_of_not_mem {t : Tree} {x : Symbol} (h : x ∉ t.symbols) :
    (codesOf t).entry x = (some false, none, none) :=
  (visit_entry_of_not_mem h 0 0 emptyCodes).trans (emptyCodes_entry x)

/-! ### Codes as bit strings -/

/-- R96: the number of a path of at most 256 edges gives the path back. -/
theorem codeString_bitsToNat {path : List Bool} (h : path.length ≤ 256) :
    codeString path.length (BitVec.ofNat 256 (bitsToNat path)) = path := by
  induction path using List.reverseRecOn with
  | nil => rfl
  | append_singleton path b ih =>
    rw [List.length_append, List.length_singleton] at h ⊢
    have hhalf : (2 * bitsToNat path + b.toNat) / 2 = bitsToNat path := by
      have := b.toNat_lt
      omega
    rw [codeString, List.range_succ, List.map_append, List.map_singleton, bitsToNat_concat]
    congr 1
    · conv_rhs => rw [← ih (by omega), codeString]
      refine List.map_congr_left fun k hk => ?_
      obtain ⟨j, hj⟩ : ∃ j, path.length - k = j + 1 :=
        Nat.exists_eq_succ_of_ne_zero (Nat.sub_ne_zero_of_lt (List.mem_range.mp hk))
      have hj' : path.length - 1 - k = j := by omega
      have hlt : j + 1 < 256 := by omega
      rw [Nat.add_sub_cancel, hj, hj', BitVec.getLsbD_ofNat, BitVec.getLsbD_ofNat, Nat.testBit_succ,
        hhalf, decide_eq_true hlt, decide_eq_true (Nat.lt_of_succ_lt hlt)]
    · rw [Nat.add_sub_cancel, Nat.sub_self, BitVec.getLsbD_ofNat]
      cases b <;> simp

/-- The code that an entry of the table stands for (R96). -/
theorem State.hasCode_iff_of_entry {s : State} {x : Symbol} {path c : List Bool}
    (h : s.codes.entry x = codeEntry path) (hle : path.length ≤ 256) : s.HasCode x c ↔ c = path := by
  simp only [CodeTable.entry, codeEntry, State.codes, Prod.mk.injEq] at h
  obtain ⟨hp, hl, hb⟩ := h
  have hlen : (BitVec.ofNat 9 path.length).toNat = path.length := by
    rw [BitVec.toNat_ofNat, Nat.mod_eq_of_lt (by omega)]
  simp [State.HasCode, hp, hl, hb, hlen, codeString_bitsToNat hle]

section
variable {s : State} {t : Tree} {x : Symbol} (hc : s.codes = codesOf t)
include hc

theorem State.codePresent_of_not_mem (h : x ∉ t.symbols) : s.codePresent[x.val] = some false := by
  have hentry := hc ▸ codesOf_entry_of_not_mem h
  exact congrArg Prod.fst hentry

variable (hd : t.symbols.Nodup)
include hd

theorem State.entry_of_path {path : List Bool} (h : (x, path) ∈ t.paths) :
    s.codes.entry x = codeEntry path :=
  hc ▸ codesOf_entry_of_path hd h

/-- R95, R96: under the codes of a tree, a symbol's code is its path. -/
theorem State.hasCode_iff_mem_paths {c : List Bool} : s.HasCode x c ↔ (x, c) ∈ t.paths := by
  have hcode {path : List Bool} (h : (x, path) ∈ t.paths) : s.HasCode x c ↔ c = path :=
    State.hasCode_iff_of_entry (entry_of_path hc hd h) (Tree.path_length_le hd h)
  refine ⟨fun h => ?_, fun h => (hcode h).mpr rfl⟩
  by_cases hx : x ∈ t.symbols
  · obtain ⟨path, hpath⟩ := Tree.mem_symbols_iff.mp hx
    exact (hcode hpath).mp h ▸ hpath
  · obtain ⟨l, b, hp, -⟩ := h
    rw [codePresent_of_not_mem hc hx] at hp
    cases hp

/-- A leaf's term of the Kraft sum (R97 (c)). -/
theorem State.kraftTerm_of_path {path : List Bool} (h : (x, path) ∈ t.paths) :
    s.kraftTerm x = 2 ^ (256 - path.length) := by
  have hentry := entry_of_path hc hd h
  simp only [CodeTable.entry, codeEntry, State.codes, Prod.mk.injEq] at hentry
  have hle := Tree.path_length_le hd h
  simp (disch := omega) [State.kraftTerm, hentry, Nat.mod_eq_of_lt]

/-- R97 (c): the Kraft sum over all symbols is the one over the leaves' paths, and so is 1. -/
theorem State.sum_kraftTerm : ((List.finRange 257).map s.kraftTerm).sum = 2 ^ 256 := by
  have hleaves : ((List.finRange 257).map s.kraftTerm).sum = (t.symbols.map s.kraftTerm).sum := by
    rw [← Fin.sum_univ_def, ← List.sum_toFinset _ hd]
    refine (Finset.sum_subset (Finset.subset_univ _) fun x _ hx => ?_).symm
    rw [State.kraftTerm, codePresent_of_not_mem hc fun hmem => hx (List.mem_toFinset.mpr hmem)]
  have hpaths : t.paths.map (s.kraftTerm ∘ Prod.fst) = t.paths.map fun p => 2 ^ (256 - p.2.length) :=
    List.map_congr_left fun _ hp => kraftTerm_of_path hc hd hp
  rw [hleaves, ← t.paths_fst, List.map_map, hpaths]
  exact Tree.sum_paths fun _ hp => Tree.path_length_le hd hp

end

/-- Under valid codes the code table is that of the held tree, which has no symbol twice (R27, R28). -/
theorem State.CodesInv.tree {s : State} (h : s.CodesInv) (ht : s.TreeInv) (hv : s.codesValid = true) :
    ∃ t, s.codes = codesOf t ∧ t.symbols.Nodup := by
  obtain ⟨htv, t, hheld, hcodes⟩ := h hv
  obtain ⟨t', hheld', hfills⟩ := ht htv
  obtain rfl : t = t' := Option.some.inj (hheld.symm.trans hheld')
  exact ⟨t, hcodes, hfills.distinct⟩

/-- Settles O30: the codes are paths of one tree, and a path that begins another one ends at the same leaf. -/
theorem codesArePrefixFree : Obligations.CodesArePrefixFree := by
  intro s ht hc hv x y c d hne hx hy hprefix
  obtain ⟨t, hcodes, hd⟩ := hc.tree ht hv
  rw [State.hasCode_iff_mem_paths hcodes hd] at hx hy
  exact hne (Tree.symbol_eq_of_path_prefix hx hy hprefix)

/-- Settles O31: the codes are the paths of a tree, whose edges halve the sum at every node. -/
theorem codesMeetKraftEquality : Obligations.CodesMeetKraftEquality := by
  intro s ht hc hv
  obtain ⟨t, hcodes, hd⟩ := hc.tree ht hv
  exact State.sum_kraftTerm hcodes hd

/-! ### CODES_BUILD -/

theorem codesBuild_of_heldTree {s : State} {t : Tree} (hv : s.treeValid = true)
    (ht : s.heldTree = some t) :
    exec .codesBuild s =
      .next (((s.setCodes true (codesOf t)).setEnded false).respond true false
        (s.leafCount.setWidth 64)) := by
  rw [exec, execCodesBuild, if_pos hv, withHeldTree, ht]
  rfl

/-- Settles O29: the table that CODES_BUILD leaves is that of the held tree, whose entries are its paths. -/
theorem codesBuildRecordsTheLeafPaths : Obligations.CodesBuildRecordsTheLeafPaths := by
  refine ⟨encodedNone_of_takeNone fun _ _ => rfl, fun s hinv hv => ?_, fun s hv hc => ?_⟩
  · obtain ⟨t, ht, hfills⟩ := hinv hv
    refine ⟨_, codesBuild_of_heldTree hv ht, fun tree hheld => ?_, rfl⟩
    obtain rfl : t = tree := Option.some.inj (ht.symm.trans hheld)
    refine ⟨fun p hp => ?_, fun x hx => ?_⟩
    · have hentry := codesOf_entry_of_path hfills.distinct hp
      simp only [CodeTable.entry, codeEntry, Prod.mk.injEq] at hentry
      obtain ⟨hpres, hlen, hbits⟩ := hentry
      exact ⟨hpres, hlen, hbits, Tree.path_length_le hfills.distinct hp,
        (State.hasCode_iff_mem_paths rfl hfills.distinct).mpr hp⟩
    · have hentry := codesOf_entry_of_not_mem hx
      simp only [CodeTable.entry, Prod.mk.injEq] at hentry
      exact hentry
  · rw [exec, execCodesBuild, if_neg (by simp [hv])]
    exact finish_raise_of_closeAnswered hc .notReady 0x30#64

/-! ### The inspection of a code -/

/-- A 9-bit field of at most 256 names a symbol (R67). -/
theorem exists_symbolOf {sym : SymField} (h : sym.toNat ≤ 256) : ∃ x, symbolOf sym = some x :=
  ⟨_, dif_pos (Nat.lt_succ_of_le h)⟩

/-- R98: the length with bit 9 set. -/
theorem codeLenWord_eq (l : BitVec 9) :
    l.setWidth 64 ||| (1#64 <<< 9) = BitVec.ofNat 64 (l.toNat + 2 ^ 9) := by
  have hl := l.isLt
  have hor : 2 ^ 9 + l.toNat = 2 ^ 9 ||| l.toNat := Nat.two_pow_add_eq_or_of_lt hl 1
  apply BitVec.eq_of_toNat_eq
  simp (disch := omega) only [BitVec.toNat_or, BitVec.toNat_shiftLeft, BitVec.toNat_setWidth,
    BitVec.toNat_ofNat, Nat.shiftLeft_eq, Nat.mod_eq_of_lt]
  rw [Nat.one_mul, Nat.or_comm, ← hor, Nat.add_comm]

/-- R99: the bits of word k of a code value. -/
theorem codeWord_getLsbD (bits : BitVec 256) (k : Word) {j : Nat} (h : j < 64) :
    (codeWord bits k).getLsbD j = bits.getLsbD (64 * k.toNat + j) := by
  simp [codeWord, h]

section
variable {s : State} {sym : SymField} {x : Symbol} {k : Word} (hx : symbolOf sym = some x)
include hx

section
variable (hv : s.codesValid = true)
include hv

theorem codeLenRead_of_absent (hp : s.codePresent[x.val] = some false) :
    exec (.codeLenRead sym) s = .next (s.respond true false 0#64) := by
  simp [exec, execCodeLenRead, withSymbol_of_symbolOf hx, hv, codePresentAt, hp, finish]

theorem codeBitsRead_of_absent (hk : k.toNat ≤ 3) (hp : s.codePresent[x.val] = some false) :
    exec (.codeBitsRead sym k) s = .next (s.respond true false 0#64) := by
  simp [exec, execCodeBitsRead, withSymbol_of_symbolOf hx, hv, hk, codePresentAt, hp, finish]

theorem codeBitsRead_of_gt (hk : 3 < k.toNat) (hc : s.CloseAnswered) :
    exec (.codeBitsRead sym k) s = .next (s.afterError false .badOperand (k.setWidth 64)) := by
  rw [exec, execCodeBitsRead, withSymbol_of_symbolOf hx, if_pos hv, if_neg (Nat.not_le.mpr hk)]
  exact finish_raise_of_closeAnswered hc .badOperand (k.setWidth 64)

section
variable {l : BitVec 9} {b : BitVec 256} (hp : s.codePresent[x.val] = some true)
  (hl : s.codeLen[x.val] = some l) (hb : s.codeBits[x.val] = some b)
include hp hl hb

theorem codeLenRead_of_present :
    exec (.codeLenRead sym) s =
      .next (s.respond true false (BitVec.ofNat 64 (l.toNat + 2 ^ 9))) := by
  rw [← codeLenWord_eq]
  simp [exec, execCodeLenRead, withSymbol_of_symbolOf hx, hv, codePresentAt, hp, codeAt, hl, hb,
    finish]

theorem codeBitsRead_of_present (hk : k.toNat ≤ 3) :
    exec (.codeBitsRead sym k) s = .next (s.respond true false (codeWord b k)) := by
  simp [exec, execCodeBitsRead, withSymbol_of_symbolOf hx, hv, hk, codePresentAt, hp, codeAt, hl, hb,
    finish]

end
end

section
variable (hv : s.codesValid = false) (hc : s.CloseAnswered)
include hv hc

theorem codeLenRead_of_not_valid :
    exec (.codeLenRead sym) s =
      .next (s.afterError false .notReady ((commandWord 0x31#8 sym).setWidth 64)) := by
  rw [exec, execCodeLenRead, withSymbol_of_symbolOf hx, if_neg (by simp [hv])]
  exact finish_raise_of_closeAnswered hc .notReady _

theorem codeBitsRead_of_not_valid :
    exec (.codeBitsRead sym k) s =
      .next (s.afterError false .notReady ((commandWord 0x32#8 sym).setWidth 64)) := by
  rw [exec, execCodeBitsRead, withSymbol_of_symbolOf hx, if_neg (by simp [hv])]
  exact finish_raise_of_closeAnswered hc .notReady _

end
end

/-- Settles O32: each command is its word under valid codes, else the error entry. -/
theorem codeInspectionCommands : Obligations.CodeInspectionCommands := by
  refine ⟨encodedSym_of_takeSym fun _ _ => rfl, encodedSym_of_takeSym fun _ _ => rfl,
    fun s sym x k hx hv hp => ⟨codeLenRead_of_absent hx hv hp, fun hk => ?_⟩,
    fun s sym x k l b hx hv hp hl hb => ⟨codeLenRead_of_present hx hv hp hl hb, fun hk => ?_⟩,
    fun s sym k hle hv hc => ?_, fun s sym k hle hv hk hc => ?_⟩
  · exact codeBitsRead_of_absent hx hv hk hp
  · exact ⟨codeWord b k, codeBitsRead_of_present hx hv hp hl hb hk, fun j => codeWord_getLsbD b k⟩
  · obtain ⟨x, hx⟩ := exists_symbolOf hle
    exact ⟨codeLenRead_of_not_valid hx hv hc, codeBitsRead_of_not_valid hx hv hc⟩
  · obtain ⟨x, hx⟩ := exists_symbolOf hle
    exact codeBitsRead_of_gt hx hv hk hc

end Sys2Proof.Machine

namespace Sys2Proof.Machine

/-! ### One write after another -/

/-- A value's bits are its bits from the highest down (R12). -/
theorem bin_eq_map_getLsbD {w : Nat} (v : BitVec w) :
    bin v = (List.range w).map fun k => v.getLsbD (w - 1 - k) :=
  List.map_congr_left fun k hk => by simp [BitVec.getMsbD, List.mem_range.mp hk]

theorem writeBits_of_accept {n : Nat} (v : BitVec n) {s : State} (ho : s.outOpen = true)
    (ha : s.answer = .accept) : writeBits v s = .ok () (s.moved 0 (bin v) 1) := by
  rw [writeBits_accept ho ha, State.acceptWrite_eq_moved]

theorem writeBits_of_fail {n : Nat} (v : BitVec n) {s : State} (ho : s.outOpen = true)
    (ha : s.answer = .fail) : writeBits v s = .raise .ioWriteFail s.outBitsWritten s.countTx := by
  simp [writeBits, ho, ha]

theorem writeBits_of_silent {n : Nat} (v : BitVec n) {s : State} (ho : s.outOpen = true)
    (ha : s.answer = .silent) : writeBits v s = .stop .channelSilent := by
  simp [writeBits, ho, ha]

theorem readBits_of_fail {s : State} (n : Nat) (ha : s.answer = .fail) :
    readBits n s = .raise .ioReadFail s.inBitsRead s.countTx := by
  simp [readBits, ha]

theorem readBits_of_silent {s : State} (n : Nat) (ha : s.answer = .silent) :
    readBits n s = .stop .channelSilent := by
  simp [readBits, ha]

/-- A read of more bits than are left gives END (R46). -/
theorem readBits_of_short {n : Nat} {s : State} (ha : s.answer = .accept)
    (hlen : s.restBits.length < n) : readBits n s = .ok none s.countTx.exhaust := by
  rw [State.restBits_length] at hlen
  exact readBits_end ha (by omega)

/-- What accepted writes alone have moved. -/
theorem State.moved_writes (s : State) (out : List Bool) (k : Nat) :
    s.moved 0 out k =
      { s with
        outBits := s.outBits ++ out,
        outBitsWritten := s.outBitsWritten + BitVec.ofNat 64 out.length,
        txCount := s.txCount + k } := by
  simp [State.moved]

/-! ### The magic value -/

/-- Settles O33: MAGIC_WRITE is one write, with its four ends. -/
theorem magicWriteAppendsTheMagic : Obligations.MagicWriteAppendsTheMagic := by
  refine ⟨encodedNone_of_takeNone fun _ _ => rfl, fun s => ⟨fun ho ha => ?accept, fun ho => ?closed,
    fun ho ha hc => ?fail, fun ho ha => ?silent⟩⟩ <;> rw [exec, execMagicWrite]
  case accept =>
    rw [writeBits_of_accept _ ho ha, State.moved_writes, bin_length, bin_eq_map_getLsbD]
    rfl
  case closed => rw [writeBits_of_shut _ ho, Res.bind_raise, finish_raise_of_shut ho]
  case fail =>
    rw [writeBits_of_fail _ ho ha, Res.bind_raise]
    exact finish_raise_of_closeAnswered hc .ioWriteFail _
  case silent =>
    rw [writeBits_of_silent _ ho ha]
    rfl

section
variable {s : State} {v : Word} {rest : List Bool} (ha : s.answer = .accept)
  (hrest : s.restBits = bin v ++ rest)
include ha hrest

theorem readMagic_of_eq (hv : v = s.magic) :
    readMagic s = .ok (v.setWidth 64) (s.moved 32 [] 1) := by
  rw [readMagic, readBits_of_restBits (by decide) ha hrest, Res.bind_ok]
  exact if_pos hv

theorem readMagic_of_ne (hv : v ≠ s.magic) :
    readMagic s = .raise .hdrBadMagic (v.setWidth 64) (s.moved 32 [] 1) := by
  rw [readMagic, readBits_of_restBits (by decide) ha hrest, Res.bind_ok]
  exact if_neg hv

end

/-- Settles O34: MAGIC_READ is one read, and a value that is delivered is compared. -/
theorem magicReadChecksTheMagic : Obligations.MagicReadChecksTheMagic := by
  refine ⟨encodedNone_of_takeNone fun _ _ => rfl, fun s => ⟨fun v rest ha hrest =>
    ⟨fun hv => ?magic, fun hv hc => ?other⟩, fun ha hlen hc => ?short, fun ha hc => ?fail,
    fun ha => ?silent⟩⟩ <;> rw [exec, execMagicRead]
  case magic => rw [readMagic_of_eq ha hrest hv, State.moved_reads, finish]
  case other =>
    have hclose : (s.moved 32 [] 1).CloseAnswered := hc
    rw [readMagic_of_ne ha hrest hv, finish_raise_of_closeAnswered hclose, State.moved_reads]
  case short =>
    have hclose : s.countTx.exhaust.CloseAnswered := hc
    rw [readMagic, readBits_of_short ha hlen, Res.bind_ok]
    exact finish_raise_of_closeAnswered hclose .hdrEoi _
  case fail =>
    rw [readMagic, readBits_of_fail _ ha, Res.bind_raise]
    exact finish_raise_of_closeAnswered hc .ioReadFail _
  case silent =>
    rw [readMagic, readBits_of_silent _ ha]
    rfl

/-! ### Writing a header -/

/-- One transaction for each list of bits, in turn (R47, R56). -/
def writeEach : List (List Bool) → State → Res Unit
  | [], s => .ok () s
  | bits :: rest, s =>
    if s.outOpen then
      match s.answer with
      | .silent => .stop .channelSilent
      | .fail => .raise .ioWriteFail s.outBitsWritten s.countTx
      | .accept => writeEach rest (s.moved 0 bits 1)
    else .raise .outputClosed s.outBitsWritten s

/-- `WriteBits(n, v)` before others is one such transaction more. -/
theorem writeBits_bind_writeEach {n : Nat} (v : BitVec n) (rest : List (List Bool)) (s : State) :
    ((writeBits v s).bind fun _ t => writeEach rest t) = writeEach (bin v :: rest) s := by
  rw [writeEach]
  cases ho : s.outOpen with
  | false => rw [writeBits_of_shut v ho]; rfl
  | true =>
    cases ha : s.answer with
    | accept => rw [writeBits_of_accept v ho ha]; rfl
    | fail => rw [writeBits_of_fail v ho ha]; rfl
    | silent => rw [writeBits_of_silent v ho ha]; rfl

theorem writeEach_singleton {n : Nat} (v : BitVec n) (s : State) :
    writeEach [bin v] s = writeBits v s := by
  rw [← writeBits_bind_writeEach]
  cases writeBits v s <;> rfl

theorem writeEach_append (xs ys : List (List Bool)) (s : State) :
    writeEach (xs ++ ys) s = (writeEach xs s).bind fun _ t => writeEach ys t := by
  induction xs generalizing s with
  | nil => rfl
  | cons bits xs ih =>
    rw [List.cons_append, writeEach, writeEach]
    cases s.outOpen with
    | false => rfl
    | true =>
      cases s.answer with
      | accept => exact ih _
      | fail | silent => rfl

/-- HEADER_WRITE's recursion makes the header's writes, in pre-order (R102). -/
theorem emitTree_eq_writeEach (t : Tree) (s : State) :
    emitTree t s = writeEach t.shape.writes s := by
  induction t generalizing s with
  | leaf i x w =>
    simp only [emitTree, ← writeEach_singleton (symbolField x)]
    exact writeBits_bind_writeEach 1#1 _ s
  | node i w l r ihl ihr =>
    simp only [emitTree, ihl, ihr, ← writeEach_append]
    exact writeBits_bind_writeEach 0#1 _ s

section
variable {s : State} (ho : s.outOpen = true)
include ho

/-- Writes that are all accepted append their bits (R47). -/
theorem writeEach_of_accepted {ws : List (List Bool)}
    (h : s.acceptedBefore (s.txCount + ws.length)) :
    writeEach ws s = .ok () (s.moved 0 ws.flatten ws.length) := by
  induction ws generalizing s with
  | nil => rw [List.flatten_nil, List.length_nil, State.moved_none, writeEach]
  | cons bits ws ih =>
    rw [List.length_cons] at h
    have ha : s.answer = .accept := h s.txCount (Nat.le_refl _) (by omega)
    have hrest : (s.moved 0 bits 1).acceptedBefore ((s.moved 0 bits 1).txCount + ws.length) := by
      intro k hk hlt
      rw [State.moved_txCount] at hk hlt
      exact h k (by omega) (by omega)
    rw [writeEach, if_pos ho, ha]
    dsimp only
    rw [ih (s := s.moved 0 bits 1) ho hrest, State.moved_moved, List.flatten_cons, List.length_cons,
      Nat.add_comm 1]

/-- Where write number n is the first that fails, the n writes before it stay (R48, R130). -/
theorem writeEach_of_failsAfter {ws : List (List Bool)} {n : Nat} (hn : n < ws.length)
    (h : s.failsAfter n) :
    writeEach ws s = .raise .ioWriteFail
      (s.outBitsWritten + BitVec.ofNat 64 (ws.take n).flatten.length)
      (s.moved 0 (ws.take n).flatten (n + 1)) := by
  obtain ⟨hacc, hfail⟩ := h
  have hlen : (ws.take n).length = n := List.length_take_of_le hn.le
  have hfirst : writeEach (ws.take n) s = .ok () (s.moved 0 (ws.take n).flatten n) := by
    rw [writeEach_of_accepted ho (by rwa [hlen]), hlen]
  have hans : (s.moved 0 (ws.take n).flatten n).answer = .fail := hfail
  have hopen : (s.moved 0 (ws.take n).flatten n).outOpen = true := ho
  conv_lhs => rw [← List.take_append_drop n ws, List.drop_eq_getElem_cons hn]
  rw [writeEach_append, hfirst, Res.bind_ok, writeEach, if_pos hopen, hans]
  rfl

end

/-- A header is its writes, one after the other (R102). -/
theorem Shape.writes_flatten (sh : Shape) : sh.writes.flatten = sh.header := by
  induction sh with
  | leaf x => simp [Shape.writes, Shape.header]
  | node l r ihl ihr => simp [Shape.writes, Shape.header, ihl, ihr]

/-- R103: 11 L - 1 bits for L leaves. -/
theorem Shape.header_length (sh : Shape) : sh.header.length + 1 = 11 * sh.symbols.length := by
  induction sh with
  | leaf x => simp [Shape.header, Shape.symbols]
  | node l r ihl ihr =>
    simp only [Shape.header, Shape.symbols, List.length_cons, List.length_append]
    omega

/-- Two writes for each of the L leaves and one for each of the L - 1 internal nodes (R56, R102). -/
theorem Shape.writes_length (sh : Shape) : sh.writes.length + 1 = 3 * sh.symbols.length := by
  induction sh with
  | leaf x => rfl
  | node l r ihl ihr =>
    simp only [Shape.writes, Shape.symbols, List.length_cons, List.length_append]
    omega

/-- HEADER_WRITE on a held tree (R102). -/
theorem headerWrite_eq {s : State} {tree : Tree} (hv : s.treeValid = true)
    (ht : s.heldTree = some tree) :
    exec .headerWrite s = finish .other ((writeEach tree.shape.writes s).bind fun _ u =>
      .ok (u.outBitsWritten - s.outBitsWritten) (u.setEnded false)) := by
  rw [exec, execHeaderWrite, if_pos hv, withHeldTree, ht]
  dsimp only
  rw [emitTree_eq_writeEach]

/-- HEADER_WRITE where every write is accepted (R102, R103). -/
theorem headerWrite_of_quiet {s : State} {tree : Tree} (hq : s.Quiet) (ho : s.outOpen = true)
    (hv : s.treeValid = true) (ht : s.heldTree = some tree) :
    exec .headerWrite s = .next (((s.moved 0 tree.shape.header tree.shape.writes.length).setEnded
      false).respond true false (BitVec.ofNat 64 tree.shape.header.length)) := by
  have hacc : s.acceptedBefore (s.txCount + tree.shape.writes.length) := fun k hk _ => by
    have := hq (k - s.txCount)
    rwa [Nat.add_sub_cancel' hk] at this
  have hcount : (s.moved 0 tree.shape.header tree.shape.writes.length).outBitsWritten -
      s.outBitsWritten = BitVec.ofNat 64 tree.shape.header.length := by
    rw [State.moved_writes, BitVec.add_comm, BitVec.add_sub_cancel]
  rw [headerWrite_eq hv ht, writeEach_of_accepted ho hacc, Shape.writes_flatten, Res.bind_ok, hcount,
    finish]

/-- Settles O35: the recursion is the list of the header's writes, and each write is accepted or the first that
fails. -/
theorem headerWriteAppendsThePreorder : Obligations.HeaderWriteAppendsThePreorder := by
  refine ⟨fun s tree hq ho hv ht => ?_, fun s tree n ho hv ht => ⟨tree.shape.writes_flatten,
    fun hn hfail hc => ?_⟩, fun s hv hc => ?_⟩
  · have hbits := tree.shape.header_length
    have hwrites := tree.shape.writes_length
    rw [tree.symbols_shape] at hbits hwrites
    refine ⟨hbits, ?_⟩
    rw [headerWrite_of_quiet hq ho hv ht, State.moved_writes, ← hbits, ← hwrites]
    rfl
  · rw [headerWrite_eq hv ht, writeEach_of_failsAfter ho hn hfail, Res.bind_raise,
      finish_raise_of_closeAnswered hc]
  · rw [exec, execHeaderWrite, if_neg (by simp [hv])]
    exact finish_raise_of_closeAnswered hc .notReady 0x42#64

/-- Settles O37: what is written is the header of the tree's shape, whose symbols are distinct. -/
theorem headerRoundTrip : Obligations.HeaderRoundTrip := by
  intro s t u tree header rest hinv hv ht hq ho hwrite hout hqu hrest
  obtain ⟨tree', ht', hfills⟩ := hinv hv
  obtain rfl : tree = tree' := Option.some.inj (ht.symm.trans ht')
  rw [headerWrite_of_quiet hq ho hv ht] at hwrite
  obtain rfl : tree.shape.header = header := by
    cases hwrite
    exact List.append_cancel_left hout
  have hnd : tree.shape.symbols.Nodup := tree.symbols_shape ▸ hfills.distinct
  obtain ⟨v, copy, hread, hheld, hshape, hcopy, hind, hframe⟩ :=
    headerReadHoldsTheTree.2 u tree.shape rest hqu hrest hnd
  have hheader : v.treeSrc = .header := congrArg State.treeSrc hframe
  refine ⟨v, copy, hread, ?err, congrArg State.treeValid hframe, hheld, hshape, ?_,
    hcopy.header hheader, ?pos⟩
  case err | pos => rw [hframe]; rfl
  rw [hind, List.length_range]

/-! ### Errors of HEADER_READ -/

/-- Accepted reads that are delivered lead from s to t (R46). -/
def ReadsTo (s t : State) : Prop :=
  ∃ d k, (d = 0 ∨ s.inPos + d ≤ s.inBits.length) ∧ t = s.moved d [] k

/-- A pass over the header that is started in s raises e in t (R104, R130): after some bits, and on HDR_EOI with
the fewer than 9 bits left lost. -/
def ReadsRaise (s : State) (e : ErrCode) (t : State) : Prop :=
  ∃ u, ReadsTo s u ∧
    ((e ≠ .hdrEoi ∧ t = u) ∨
     (e = .hdrEoi ∧ s.inBits.length < u.inPos + 9 ∧ t = u.exhaust))

/-- The pseudocode, started in s, only reads, as a pass over the header does. -/
def Res.ReadsOnly {α : Type} (s : State) (r : Res α) : Prop :=
  r.Ends (fun _ t => ReadsTo s t) (fun e _ t => ReadsRaise s e t) (fun _ => True)

theorem ReadsTo.refl (s : State) : ReadsTo s s := ⟨0, 0, .inl rfl, s.moved_none.symm⟩

/-- A transaction that moves nothing. -/
theorem ReadsTo.countTx (s : State) : ReadsTo s s.countTx :=
  ⟨0, 1, .inl rfl, by rw [State.moved_reads]; simp [State.countTx]⟩

theorem ReadsTo.inBits {s t : State} (h : ReadsTo s t) : t.inBits = s.inBits := by
  obtain ⟨d, k, _, rfl⟩ := h
  rfl

theorem ReadsTo.trans {s t u : State} (h : ReadsTo s t) (h' : ReadsTo t u) : ReadsTo s u := by
  obtain ⟨d, k, hd, rfl⟩ := h
  obtain ⟨d', k', hd', rfl⟩ := h'
  refine ⟨d + d', k + k', ?_, State.moved_moved ..⟩
  have hd' : d' = 0 ∨ s.inPos + d + d' ≤ s.inBits.length := hd'
  omega

theorem ReadsRaise.after {s t u : State} {e : ErrCode} (h : ReadsTo s t) (h' : ReadsRaise t e u) :
    ReadsRaise s e u := by
  obtain ⟨v, hv, hend⟩ := h'
  rw [h.inBits] at hend
  exact ⟨v, h.trans hv, hend⟩

/-- An error other than HDR_EOI is raised where the reads have led to. -/
theorem ReadsRaise.here {s : State} {e : ErrCode} (he : e ≠ .hdrEoi) : ReadsRaise s e s :=
  ⟨s, .refl s, .inl ⟨he, rfl⟩⟩

section
variable {α β : Type}

theorem Res.ReadsOnly.raise {s : State} {e : ErrCode} (he : e ≠ .hdrEoi) (info : DWord) :
    (Res.raise e info s : Res α).ReadsOnly s := ReadsRaise.here he

theorem Res.ReadsOnly.after {r : Res α} {s t : State} (h : ReadsTo s t) (hr : r.ReadsOnly t) :
    r.ReadsOnly s :=
  Res.Ends.mono hr (fun _ _ hu => h.trans hu) (fun _ _ _ hu => hu.after h) (fun _ hx => hx)

theorem Res.ReadsOnly.bind {r : Res α} {f : α → State → Res β} {s : State} (hr : r.ReadsOnly s)
    (hf : ∀ a t, (f a t).ReadsOnly t) : (r.bind f).ReadsOnly s :=
  Res.Ends.bind hr fun a t ht => (hf a t).after ht

/-- A read of at most 9 bits whose END raises HDR_EOI (R46, R104). -/
theorem readBits_readsOnly {n : Nat} (hn : n ≤ 9) (s : State) {k : Option (BitVec n) → State → Res α}
    (hend : ∀ t, k none t = .raise .hdrEoi t.inBitsRead t)
    (hk : ∀ v t, (k (some v) t).ReadsOnly t) : ((readBits n s).bind k).ReadsOnly s := by
  cases h : readBits n s with
  | ok v t =>
    obtain ⟨_, ⟨hl, rfl, rfl⟩ | ⟨hl, rfl, rfl⟩⟩ := readBits_eq_ok h
    · exact (hk _ _).after ⟨n, 1, .inr hl, s.acceptRead_eq_moved n⟩
    · rw [Res.bind_ok, hend]
      refine ⟨s.countTx, .countTx s, .inr ⟨rfl, ?_, rfl⟩⟩
      show s.inBits.length < s.inPos + 9
      omega
  | raise e info t =>
    obtain ⟨_, rfl, _, rfl⟩ := readBits_eq_raise h
    exact (ReadsRaise.here (by decide)).after (.countTx s)
  | stop x => trivial

end

theorem parseLeaf_readsOnly (i : Nat) (p : Parse) (s : State) : (parseLeaf i p s).ReadsOnly s := by
  refine readBits_readsOnly (by decide) s (fun _ => rfl) fun f t => ?_
  dsimp only
  cases symbolOf f with
  | none => exact .raise (by decide) _
  | some x =>
    dsimp only
    split
    · exact .raise (by decide) _
    · exact ReadsTo.refl t

/-- The pass of HEADER_READ only reads (R104). -/
theorem parse_readsOnly (d : Nat) (p : Parse) (s : State) : (parse d p s).ReadsOnly s := by
  induction d generalizing p s with
  | zero => trivial
  | succ d ih =>
    refine readBits_readsOnly (by decide) s (fun _ => rfl) fun tag t => ?_
    dsimp only
    split
    · exact .raise (by decide) _
    · split
      · exact (ih _ _).bind fun l u => (ih _ _).bind fun r w => ReadsTo.refl w
      · exact parseLeaf_readsOnly _ _ _

/-- An error that the pass of HEADER_READ raises, and the state the command leaves after it (R104, R127). -/
theorem headerRead_of_err {s t : State} (h : exec .headerRead s = .next t) (herr : s.err = false)
    (ht : t.err = true) :
    ∃ e info u, ReadsRaise (beginHeaderRead s) e u ∧ t = u.loseNodes.afterError false e info := by
  have hpass := parse_readsOnly 514 Parse.start (beginHeaderRead s)
  rw [exec, execHeaderRead] at h
  generalize parse 514 Parse.start (beginHeaderRead s) = r at h hpass
  cases r with
  | ok a u =>
    obtain ⟨d, k, _, rfl⟩ : ReadsTo (beginHeaderRead s) u := hpass
    cases h
    exact absurd (herr.symm.trans ht) (by decide)
  | raise e info u => exact ⟨e, info, u, hpass, enterError_next h⟩
  | stop x => cases h

/-- Settles O38: the pass only reads, and the error entry follows what HEADER_READ clears first. -/
theorem headerReadErrorHoldsNoTree : Obligations.HeaderReadErrorHoldsNoTree := by
  intro s t herr h ht
  obtain ⟨e, info, u, ⟨v, ⟨d, k, hd, rfl⟩, hend⟩, rfl⟩ := headerRead_of_err h herr ht
  rw [State.moved_reads] at hend
  obtain ⟨he, rfl⟩ | ⟨rfl, hlt, rfl⟩ := hend
  · exact ⟨⟨d, rfl, hd, .inl ⟨he, rfl, rfl⟩⟩, rfl⟩
  · exact ⟨⟨d, rfl, hd, .inr ⟨rfl, rfl, rfl, hlt⟩⟩, rfl⟩

/-! ### The pass at the beginning of a node -/

section
variable {d : Nat} {p : Parse} {s : State} (ha : s.answer = .accept)
include ha

/-- The input ends before the tag bit (R104). -/
theorem parse_of_end (hrest : s.restBits = []) :
    parse (d + 1) p s = .raise .hdrEoi s.inBitsRead s.countTx.exhaust := by
  rw [parse, readBits_of_short ha (by rw [hrest]; decide)]
  rfl

/-- The tag bit of a 514th node (R104). -/
theorem parse_of_full {tag : Bool} {rest : List Bool} (hn : p.n = 513)
    (hrest : s.restBits = tag :: rest) :
    parse (d + 1) p s = .raise .hdrTooLarge (s.inBitsRead + 1#64) (s.moved 1 [] 1) := by
  rw [parse, readBits_one ha hrest, Res.bind_ok]
  exact if_pos hn

/-- The tag bit of a leaf (R104). -/
theorem parse_of_leaf {rest : List Bool} (hn : p.n < 513) (hrest : s.restBits = true :: rest) :
    parse (d + 1) p s = parseLeaf p.n p.take (s.moved 1 [] 1) := by
  rw [parse, readBits_one ha hrest, Res.bind_ok]
  dsimp only
  rw [if_neg (by omega), if_neg (by decide)]

/-- The input ends within the symbol (R104). -/
theorem parseLeaf_of_short (i : Nat) (hrest : s.restBits.length < 9) :
    parseLeaf i p s = .raise .hdrEoi s.inBitsRead s.countTx.exhaust := by
  rw [parseLeaf, readBits_of_short ha hrest]
  rfl

/-- A value above 256 is no symbol (R104). -/
theorem parseLeaf_of_badSymbol (i : Nat) {f : SymField} {rest : List Bool} (hf : 256 < f.toNat)
    (hrest : s.restBits = bin f ++ rest) :
    parseLeaf i p s = .raise .hdrBadSymbol (f.setWidth 64) (s.moved 9 [] 1) := by
  have hnone : symbolOf f = none := dif_neg (by omega)
  rw [parseLeaf, readBits_of_restBits (by decide) ha hrest, Res.bind_ok]
  simp only [hnone]

/-- A symbol of an earlier leaf (R104). -/
theorem parseLeaf_of_seen (i : Nat) {f : SymField} {x : Symbol} {rest : List Bool}
    (hx : symbolOf f = some x) (hseen : x ∈ p.seen) (hrest : s.restBits = bin f ++ rest) :
    parseLeaf i p s = .raise .hdrDupSymbol (f.setWidth 64) (s.moved 9 [] 1) := by
  rw [parseLeaf, readBits_of_restBits (by decide) ha hrest, Res.bind_ok]
  simp only [hx, if_pos hseen]

end

/-! ### The pass up to a place where a node begins -/

/-- The pass `parse d p s` comes to stand at a lead, before a node, in storage `q` and state `u`: what it raises
from there on, it raises (R104). -/
structure Reaches (d : Nat) (p : Parse) (s : State) (lead : Lead) (d' : Nat) (q : Parse) (u : State) :
    Prop where
  depth : 514 ≤ d' + q.n
  nodes : q.n = p.n + lead.nodes
  seen : q.seen = lead.symbols.reverse ++ p.seen
  bits : ∃ k, u = s.moved lead.bits.length [] k
  raises : ∀ {e info t}, parse d' q u = .raise e info t → parse d p s = .raise e info t

section
variable {d d' : Nat} {p q : Parse} {s u : State} {lead : Lead}

theorem Reaches.here (hd : 514 ≤ d + p.n) : Reaches d p s ⟨[], [], 0⟩ d p s where
  depth := hd
  nodes := rfl
  seen := rfl
  bits := ⟨0, s.moved_none.symm⟩
  raises h := h

/-- The tag bit of an internal node, and a lead of its left subtree. -/
theorem Reaches.left (ha : s.answer = .accept) {rest : List Bool} (hrest : s.restBits = false :: rest)
    (hn : p.n < 513) (h : Reaches d p.take (s.moved 1 [] 1) lead d' q u) :
    Reaches (d + 1) p s ⟨false :: lead.bits, lead.symbols, lead.nodes + 1⟩ d' q u where
  depth := h.depth
  nodes := by
    rw [h.nodes]
    simp only [Parse.take]
    omega
  seen := h.seen
  bits := by
    obtain ⟨k, rfl⟩ := h.bits
    exact ⟨1 + k, by rw [State.moved_moved, List.length_cons, Nat.add_comm 1]; rfl⟩
  raises hu := by
    rw [parse, readBits_one ha hrest, Res.bind_ok]
    dsimp only
    rw [if_neg (by omega), if_pos (by decide), h.raises hu, Res.bind_raise]

/-- The tag bit of an internal node, its left subtree `l`, and a lead of its right subtree. -/
theorem Reaches.right {l : Shape} {m : Parse} {t : Tree} {k : Nat} (ha : s.answer = .accept)
    {rest : List Bool} (hrest : s.restBits = false :: rest) (hn : p.n < 513)
    (hl : parse d p.take (s.moved 1 [] 1) =
      .ok (t.idx, m) ((s.moved 1 [] 1).moved l.header.length [] k))
    (hm : Parsed p.take m t) (hshape : t.shape = l)
    (h : Reaches d m ((s.moved 1 [] 1).moved l.header.length [] k) lead d' q u) :
    Reaches (d + 1) p s ⟨false :: (l.header ++ lead.bits), l.symbols ++ lead.symbols,
      2 * l.symbols.length + lead.nodes⟩ d' q u where
  depth := h.depth
  nodes := by
    have hlen := t.indices_length
    have hnext : m.n = p.n + 1 + t.indices.length := hm.next
    rw [h.nodes, ← hshape, t.symbols_shape]
    dsimp only
    omega
  seen := by
    rw [h.seen, hm.seen, ← hshape, t.symbols_shape, List.reverse_append, List.append_assoc]
    rfl
  bits := by
    obtain ⟨j, rfl⟩ := h.bits
    refine ⟨1 + (k + j), ?_⟩
    rw [State.moved_moved, State.moved_moved, List.length_cons, List.length_append, Nat.add_comm _ 1]
    rfl
  raises hu := by
    rw [parse, readBits_one ha hrest, Res.bind_ok]
    dsimp only
    rw [if_neg (by omega), if_pos (by decide), hl, Res.bind_ok, h.raises hu, Res.bind_raise]

end

/-- On an input that begins with a lead of distinct symbols and few enough nodes, the pass reaches it (R104). -/
theorem exists_reaches (sh : Shape) {lead : Lead} (hlead : lead ∈ sh.leads) {d : Nat} {p : Parse}
    {s : State} {rest : List Bool} (hq : s.Quiet) (hrest : s.restBits = lead.bits ++ rest)
    (hnew : (lead.symbols.reverse ++ p.seen).Nodup) (hn : p.n + lead.nodes ≤ 513)
    (hd : 514 ≤ d + p.n) : ∃ d' q u, Reaches d p s lead d' q u := by
  induction sh generalizing lead d p s rest with
  | leaf x =>
    obtain rfl : lead = ⟨[], [], 0⟩ := List.mem_singleton.mp hlead
    exact ⟨d, p, s, .here hd⟩
  | node l r ihl ihr =>
    obtain ⟨d, rfl⟩ : ∃ m, d = m + 1 := ⟨d - 1, by omega⟩
    have htake : p.take.n = p.n + 1 := rfl
    simp only [Shape.leads, List.mem_append, List.mem_map] at hlead
    obtain ⟨sub, hsub, rfl⟩ | ⟨sub, hsub, rfl⟩ := hlead
    · dsimp only at hrest hnew hn
      have hin : (s.moved 1 [] 1).restBits = sub.bits ++ rest := by
        rw [State.moved_restBits, hrest]; rfl
      obtain ⟨d', q, u, h⟩ := ihl hsub (d := d) (p := p.take) (hq.moved 1 [] 1) hin hnew (by omega)
        (by omega)
      exact ⟨d', q, u, h.left hq.answer hrest (by omega)⟩
    · simp only [List.reverse_append, List.append_assoc] at hrest hnew hn
      have hlpos := l.symbols_length_pos
      have hin : (s.moved 1 [] 1).restBits = l.header ++ (sub.bits ++ rest) := by
        rw [State.moved_restBits, hrest]; simp
      obtain ⟨m, t, k, hl, hm, hshape⟩ := parse_header l (d := d) (p := p.take) (hq.moved 1 [] 1) hin
        (List.nodup_append.mp hnew).2.1 (by omega) (by omega)
      have hlen := t.indices_length
      have hnext := hm.next
      have hsyms : t.symbols = l.symbols := by rw [← t.symbols_shape, hshape]
      rw [hsyms] at hlen
      obtain ⟨d', q, u, h⟩ := ihr hsub (d := d) (p := m)
        ((hq.moved 1 [] 1).moved l.header.length [] k)
        (by rw [State.moved_restBits, hin, List.drop_left]) (by rw [hm.seen, hsyms]; exact hnew)
        (by omega) (by omega)
      exact ⟨d', q, u, h.right hq.answer hrest (by omega) hl hm hshape⟩

/-- HEADER_READ where its pass raises (R104, R127). -/
theorem headerRead_of_raise {s t : State} {e : ErrCode} {info : DWord}
    (h : parse 514 Parse.start (beginHeaderRead s) = .raise e info t) (hq : t.Quiet) :
    exec .headerRead s = .next (t.loseNodes.afterError false e info) := by
  have hne : t.answer ≠ .silent := by rw [hq.answer]; decide
  have hc : t.loseNodes.CloseAnswered := .inr hne
  rw [exec, execHeaderRead, h]
  exact finish_raise_of_closeAnswered hc e info

/-- HEADER_READ comes to stand before a node, at a lead that the input begins with: there its pass goes on as
`parse (d + 1) q u`, and what that raises is the command's error (R104). -/
structure StandsAt (s : State) (lead : Lead) (rest : List Bool) (d : Nat) (q : Parse) (u : State) :
    Prop where
  quiet : u.Quiet
  input : u.restBits = rest
  nodes : q.n = lead.nodes
  seen : ∀ x ∈ lead.symbols, x ∈ q.seen
  inBits : u.inBits = s.inBits
  inPos : u.inPos = s.inPos + lead.bits.length
  inBitsRead : u.inBitsRead = s.inBitsRead + BitVec.ofNat 64 lead.bits.length
  raises : ∀ {e info t}, parse (d + 1) q u = .raise e info t → t.Quiet →
    exec .headerRead s = .next (t.loseNodes.afterError false e info)

section
variable {s : State} {sh : Shape} {lead : Lead} (hq : s.Quiet) (hlead : lead ∈ sh.leads)
  (hnd : lead.symbols.Nodup)
include hq hlead hnd

theorem exists_standsAt {rest : List Bool} (hn : lead.nodes ≤ 513)
    (hrest : s.restBits = lead.bits ++ rest) : ∃ d q u, StandsAt s lead rest d q u := by
  have hbegin : (beginHeaderRead s).Quiet := hq
  have hrest' : (beginHeaderRead s).restBits = lead.bits ++ rest := hrest
  obtain ⟨d', q, u, hr⟩ := exists_reaches sh hlead (d := 514) (p := Parse.start) hbegin hrest'
    (by simpa [Parse.start] using hnd) (by simpa [Parse.start] using hn) (by decide)
  obtain ⟨k, rfl⟩ := hr.bits
  have hnodes : q.n = lead.nodes := hr.nodes.trans (Nat.zero_add _)
  obtain ⟨d, rfl⟩ : ∃ m, d' = m + 1 := ⟨d' - 1, by have := hr.depth; omega⟩
  exact
    ⟨d, q, _,
      { quiet := hbegin.moved _ _ _
        input := by rw [State.moved_restBits, hrest', List.drop_left]
        nodes := hnodes
        seen := fun x hx => by simp [hr.seen, hx]
        inBits := rfl
        inPos := rfl
        inBitsRead := rfl
        raises := fun h ht => headerRead_of_raise (hr.raises h) ht }⟩

/-- HDR_EOI where the input ends before the tag bit of a node, or within a leaf's symbol (R104). -/
theorem headerRead_of_end
    (hend : lead.nodes ≤ 513 ∧ s.restBits = lead.bits ∨
      lead.nodes < 513 ∧ ∃ part, part.length < 9 ∧ s.restBits = lead.bits ++ true :: part) :
    ∃ t : State, exec .headerRead s = .next t ∧ t.err = true ∧ t.errCode = .hdrEoi ∧
      t.errInfo = t.inBitsRead ∧ t.inPos = s.inBits.length := by
  obtain ⟨hn, hrest⟩ | ⟨hn, part, hpart, hrest⟩ := hend
  · obtain ⟨d, q, u, h⟩ := exists_standsAt hq hlead hnd hn (hrest.trans (List.append_nil _).symm)
    have hquiet : u.countTx.exhaust.Quiet := h.quiet.countTx
    exact ⟨_, h.raises (parse_of_end h.quiet.answer h.input) hquiet, rfl, rfl, rfl,
      congrArg List.length h.inBits⟩
  · obtain ⟨d, q, u, h⟩ := exists_standsAt hq hlead hnd hn.le hrest
    have hmoved := h.quiet.moved 1 [] 1
    have hquiet : (u.moved 1 [] 1).countTx.exhaust.Quiet := hmoved.countTx
    have hshort : (u.moved 1 [] 1).restBits.length < 9 := by
      rw [State.moved_restBits, h.input]
      exact hpart
    have hraise := (parse_of_leaf (d := d) h.quiet.answer (h.nodes ▸ hn) h.input).trans
      (parseLeaf_of_short hmoved.answer q.n hshort)
    exact ⟨_, h.raises hraise hquiet, rfl, rfl, rfl, congrArg List.length h.inBits⟩

/-- HDR_TOO_LARGE on the tag bit of a 514th node (R104). -/
theorem headerRead_of_full {tag : Bool} {rest : List Bool} (hn : lead.nodes = 513)
    (hrest : s.restBits = lead.bits ++ tag :: rest) :
    ∃ t : State, exec .headerRead s = .next t ∧ t.err = true ∧ t.errCode = .hdrTooLarge ∧
      t.errInfo = s.inBitsRead + BitVec.ofNat 64 (lead.bits.length + 1) ∧
      t.inPos = s.inPos + lead.bits.length + 1 := by
  obtain ⟨d, q, u, h⟩ := exists_standsAt hq hlead hnd hn.le hrest
  have hraise := parse_of_full (d := d) h.quiet.answer (h.nodes.trans hn) h.input
  refine ⟨_, h.raises hraise (h.quiet.moved 1 [] 1), rfl, rfl, ?_, congrArg (· + 1) h.inPos⟩
  rw [BitVec.ofNat_add, ← BitVec.add_assoc, ← h.inBitsRead]
  rfl

section
variable {f : SymField} {rest : List Bool} (hn : lead.nodes < 513)
  (hrest : s.restBits = lead.bits ++ true :: bin f ++ rest)
include hn hrest

/-- A leaf at a lead: what its 9-bit field raises is the command's error (R104). -/
theorem headerRead_of_leaf {e : ErrCode}
    (hleaf : ∀ {i : Nat} {p : Parse} {u : State}, (∀ x ∈ lead.symbols, x ∈ p.seen) →
      u.answer = .accept → u.restBits = bin f ++ rest →
      parseLeaf i p u = .raise e (f.setWidth 64) (u.moved 9 [] 1)) :
    ∃ t : State, exec .headerRead s = .next t ∧ t.err = true ∧ t.errCode = e ∧
      t.errInfo = f.setWidth 64 ∧ t.inPos = s.inPos + lead.bits.length + 10 := by
  rw [List.append_assoc] at hrest
  obtain ⟨d, q, u, h⟩ := exists_standsAt hq hlead hnd hn.le hrest
  have hmoved := h.quiet.moved 1 [] 1
  have hfield : (u.moved 1 [] 1).restBits = bin f ++ rest := by
    rw [State.moved_restBits, h.input]
    rfl
  have hraise := (parse_of_leaf (d := d) h.quiet.answer (h.nodes ▸ hn) h.input).trans
    (hleaf (p := q.take) h.seen hmoved.answer hfield)
  exact ⟨_, h.raises hraise (hmoved.moved 9 [] 1), rfl, rfl, rfl, congrArg (· + 10) h.inPos⟩

end
end

/-! ### A header that is cut short -/

/-- Where two lists in a row are cut, the cut is in the second or properly in the first. -/
theorem cut_left_or_right {l r cut more : List Bool} (h : l ++ r = cut ++ more) :
    (∃ c, cut = l ++ c ∧ r = c ++ more) ∨ ∃ c, c ≠ [] ∧ l = cut ++ c := by
  obtain h | ⟨c, hl, hmore⟩ := List.append_eq_append_iff.mp h
  · exact .inl h
  · by_cases hc : c = []
    · subst hc
      exact .inl ⟨[], by simp [hl], by simp [hmore]⟩
    · exact .inr ⟨c, hc, hl⟩

/-- A header that is cut short ends before a node, or within a leaf's symbol, at a lead of some shape: its
symbols are the first of the header's, and it has begun fewer nodes than the header has. -/
theorem Shape.exists_lead_of_cut (sh : Shape) {cut more : List Bool} (h : sh.header = cut ++ more)
    (hmore : more ≠ []) :
    ∃ part : Shape, ∃ lead ∈ part.leads, lead.symbols <+: sh.symbols ∧
      lead.nodes + 2 ≤ 2 * sh.symbols.length ∧
      (cut = lead.bits ∨ ∃ bits, bits.length < 9 ∧ cut = lead.bits ++ true :: bits) := by
  induction sh generalizing cut more with
  | leaf x =>
    refine ⟨.leaf x, ⟨[], [], 0⟩, List.mem_singleton_self _, List.nil_prefix, le_rfl, ?_⟩
    cases cut with
    | nil => exact .inl rfl
    | cons b bits =>
      obtain ⟨rfl, hbits⟩ : true = b ∧ bin (symbolField x) = bits ++ more := List.cons.inj h
      have hlen := congrArg List.length hbits
      rw [bin_length, List.length_append] at hlen
      have := List.length_pos_of_ne_nil hmore
      exact .inr ⟨bits, by omega, rfl⟩
  | node l r ihl ihr =>
    have hlpos := l.symbols_length_pos
    have hrpos := r.symbols_length_pos
    simp only [Shape.symbols, List.length_append]
    cases cut with
    | nil =>
      exact ⟨.leaf sentinel, ⟨[], [], 0⟩, List.mem_singleton_self _, List.nil_prefix, by dsimp only; omega,
        .inl rfl⟩
    | cons b cut =>
      obtain ⟨rfl, hcut⟩ : false = b ∧ l.header ++ r.header = cut ++ more := List.cons.inj h
      obtain ⟨c, rfl, hr⟩ | ⟨c, hc, hl⟩ := cut_left_or_right hcut
      · obtain ⟨part, lead, hlead, hsyms, hnodes, hend⟩ := ihr hr hmore
        refine ⟨.node l part, _, List.mem_append_right _ (List.mem_map_of_mem hlead),
          (List.prefix_append_right_inj _).mpr hsyms, by dsimp only; omega, ?_⟩
        obtain rfl | ⟨bits, hbits, rfl⟩ := hend
        · exact .inl rfl
        · exact .inr ⟨bits, hbits, by simp⟩
      · obtain ⟨part, lead, hlead, hsyms, hnodes, hend⟩ := ihl hl hc
        refine ⟨.node part r, _, List.mem_append_left _ (List.mem_map_of_mem hlead),
          hsyms.trans (List.prefix_append _ _), by dsimp only; omega, ?_⟩
        obtain rfl | ⟨bits, hbits, rfl⟩ := hend
        · exact .inl rfl
        · exact .inr ⟨bits, hbits, rfl⟩

/-- A chain of internal nodes to the left. -/
def Shape.chain : Nat → Shape
  | 0 => .leaf sentinel
  | n + 1 => .node (chain n) (.leaf sentinel)

theorem Shape.chain_lead (n : Nat) :
    (⟨List.replicate n false, [], n⟩ : Lead) ∈ (Shape.chain n).leads := by
  induction n with
  | zero => exact List.mem_singleton_self _
  | succ n ih => exact List.mem_append_left _ (List.mem_map_of_mem ih)

theorem setWidth_of_symbolOf {f : SymField} {x : Symbol} (h : symbolOf f = some x) :
    f.setWidth 64 = BitVec.ofNat 64 x.val := by
  unfold symbolOf at h
  split at h
  · cases h
    exact (BitVec.ofNat_toNat 64 f).symm
  · cases h

/-- Settles O39: the pass reaches every lead, and what it meets there raises; a header that is cut short and 514
0-bits are such inputs. -/
theorem malformedHeadersAreRefused : Obligations.MalformedHeadersAreRefused := by
  intro s hq _
  refine ⟨fun sh lead hlead hnd => ⟨headerRead_of_end hq hlead hnd,
    fun tag rest hn hrest => headerRead_of_full hq hlead hnd hn hrest,
    fun f rest hn hrest => ⟨fun hf => ?bad, fun x hx hsym => ?dup⟩⟩,
    fun sh more hcut hmore hnd => ?cut, fun rest hrest => ?size⟩
  case bad =>
    exact headerRead_of_leaf hq hlead hnd hn hrest fun _ ha hu => parseLeaf_of_badSymbol ha _ hf hu
  case dup =>
    rw [← setWidth_of_symbolOf hsym]
    exact headerRead_of_leaf hq hlead hnd hn hrest fun hseen ha hu =>
      parseLeaf_of_seen ha _ hsym (hseen x hx) hu
  case cut =>
    obtain ⟨part, lead, hlead, hsyms, hnodes, hend⟩ := sh.exists_lead_of_cut hcut hmore
    have hcard := symbols_length_le_of_nodup hnd
    have hn : lead.nodes < 513 := by omega
    exact headerRead_of_end hq hlead (hnd.sublist hsyms.sublist)
      (hend.imp (fun h => ⟨hn.le, h⟩) (fun h => ⟨hn, h⟩))
  case size =>
    have hbits : s.restBits = List.replicate 513 false ++ false :: rest := by
      rw [hrest, List.replicate_succ', List.append_assoc]
      rfl
    obtain ⟨t, hexec, herr, hcode, hinfo, -⟩ :=
      headerRead_of_full hq (Shape.chain_lead 513) .nil rfl hbits
    rw [List.length_replicate] at hinfo
    exact ⟨t, hexec, herr, hcode, hinfo⟩

end Sys2Proof.Machine

namespace Sys2Proof.Machine

/-! ### Accepted transactions in a row -/

theorem State.Quiet.acceptedBefore {s : State} (h : s.Quiet) (n : Nat) : s.acceptedBefore n :=
  fun k hk _ => by
    have := h (k - s.txCount)
    rwa [Nat.add_sub_cancel' hk] at this

section
variable {s : State} {n : Nat} (h : s.acceptedBefore n)
include h

theorem State.acceptedBefore.mono {m : Nat} (hm : m ≤ n) : s.acceptedBefore m :=
  fun k hk hlt => h k hk (hlt.trans_le hm)

/-- The next transaction is one of the accepted ones. -/
theorem State.acceptedBefore.answer (hn : s.txCount < n) : s.answer = .accept :=
  h s.txCount le_rfl hn

/-- Transactions that have been made are none of those to come. -/
theorem State.acceptedBefore.moved (m : Nat) (out : List Bool) (k : Nat) :
    (s.moved m out k).acceptedBefore n :=
  fun j hj hlt => h j ((Nat.le_add_right _ k).trans hj) hlt

end

/-- After k transactions the next one is accepted where k + 1 are. -/
theorem State.acceptedBefore.moved_answer {s : State} {k : Nat}
    (h : s.acceptedBefore (s.txCount + (k + 1))) (n : Nat) (out : List Bool) :
    (s.moved n out k).answer = .accept :=
  h _ (Nat.le_add_right _ k) (Nat.lt_succ_self _)

/-- A failed transaction moves nothing (R48). -/
theorem State.countTx_eq_moved (s : State) : s.countTx = s.moved 0 [] 1 := by
  simp [State.moved, State.countTx]

/-! ### Writing a code -/

/-- A code begins with its highest bit (R96). -/
theorem codeString_succ (j : Nat) (bits : BitVec 256) :
    codeString (j + 1) bits = bits.getLsbD j :: codeString j bits := by
  rw [codeString, List.range_succ_eq_map, List.map_cons, List.map_map]
  refine congrArg _ (List.map_congr_left fun k _ => ?_)
  have hk : j + 1 - 1 - (k + 1) = j - 1 - k := by omega
  exact congrArg bits.getLsbD hk

@[simp] theorem codeString_length (len : Nat) (bits : BitVec 256) :
    (codeString len bits).length = len := by simp [codeString]

/-- The writes of a code, one bit for each transaction (R106). -/
def bitWrites (c : List Bool) : List (List Bool) := c.map fun b => [b]

@[simp] theorem bitWrites_length (c : List Bool) : (bitWrites c).length = c.length :=
  List.length_map _

@[simp] theorem bitWrites_flatten (c : List Bool) : (bitWrites c).flatten = c := by
  rw [bitWrites, ← List.flatMap_def, List.flatMap_singleton']

theorem bitWrites_take (c : List Bool) (k : Nat) : (bitWrites c).take k = bitWrites (c.take k) :=
  List.map_take.symm

/-- The bits of a code value are written highest first (R106). -/
theorem emitBits_eq_writeEach (bits : BitVec 256) (j : Nat) (s : State) :
    emitBits bits j s = writeEach (bitWrites (codeString j bits)) s := by
  induction j generalizing s with
  | zero => rfl
  | succ j ih =>
    have hbin : bin (BitVec.ofBool (bits.getLsbD j)) = [bits.getLsbD j] := by
      cases bits.getLsbD j <;> rfl
    simp only [emitBits, ih, writeBits_bind_writeEach, hbin, codeString_succ]
    rfl

/-- A symbol with a code is written bit by bit, and answers the code's length (R106). -/
theorem emitSymbol_eq_writeEach {s : State} {x : Symbol} {c : List Bool} (hc : s.HasCode x c) :
    emitSymbol x s =
      (writeEach (bitWrites c) s).bind fun _ u => .ok (BitVec.ofNat 9 c.length) u := by
  obtain ⟨l, b, rfl, hemit⟩ := emitSymbol_of_hasCode hc
  rw [hemit, emitBits_eq_writeEach, codeString_length, BitVec.ofNat_toNat, BitVec.setWidth_eq]

theorem emitSymbol_of_absent {s : State} {x : Symbol} (h : s.codePresent[x.val] = some false) :
    emitSymbol x s = .raise .noCode (BitVec.ofNat 64 x.val) s := by
  simp [emitSymbol, codePresentAt, h]

/-- A CODE_LEN field holds the length of a code that is there (R28). -/
theorem State.HasCode.length_lt {s : State} {x : Symbol} {c : List Bool} (hc : s.HasCode x c) :
    c.length < 2 ^ 9 := by
  obtain ⟨l, b, -, -, -, rfl⟩ := hc
  exact (codeString_length _ _).trans_lt l.isLt

section
variable {s : State} {x : Symbol} {c : List Bool} (hc : s.HasCode x c)
include hc

/-- A code whose writes are all accepted is appended; an empty code has no write (R106). -/
theorem emitSymbol_of_accepted (ho : s.outOpen = true ∨ c = [])
    (h : s.acceptedBefore (s.txCount + c.length)) :
    emitSymbol x s = .ok (BitVec.ofNat 9 c.length) (s.moved 0 c c.length) := by
  rw [emitSymbol_eq_writeEach hc]
  obtain ho | rfl := ho
  · rw [writeEach_of_accepted ho (by rwa [bitWrites_length]), bitWrites_flatten, bitWrites_length,
      Res.bind_ok]
  · rw [List.length_nil, State.moved_none]
    rfl

/-- Where the write of bit k is the first that fails, the k bits before it stay (R106, R130). -/
theorem emitSymbol_of_failsAfter {k : Nat} (ho : s.outOpen = true) (hk : k < c.length)
    (h : s.failsAfter k) :
    emitSymbol x s = .raise .ioWriteFail (s.outBitsWritten + BitVec.ofNat 64 k)
      (s.moved 0 (c.take k) (k + 1)) := by
  rw [emitSymbol_eq_writeEach hc, writeEach_of_failsAfter ho (by rwa [bitWrites_length]) h,
    bitWrites_take, bitWrites_flatten, List.length_take_of_le hk.le, Res.bind_raise]

end

/-- A command that does no more than pass on what encoding symbol x in state u raises (R106 to R109). -/
theorem encodeErrors_of_raises {i : Instr} {s u : State} {x : Symbol}
    (h : ∀ {e info t}, emitSymbol x u = .raise e info t →
      exec i s = finish .other (.raise e info t)) : EncodeErrors i s u x := by
  refine ⟨fun hp hclose => ?_, fun c hc => ⟨fun k ho hk hfail hclose => ?_, fun ho hne => ?_⟩⟩
  · rw [h (emitSymbol_of_absent hp), finish_raise_of_closeAnswered hclose]
  · rw [h (emitSymbol_of_failsAfter hc ho hk hfail), finish_raise_of_closeAnswered hclose]
  · rw [h (emitSymbol_of_shut ho hc hne), finish_raise_of_shut ho]

/-! ### ENC_SYMBOL and ENC_EOS -/

section
variable {s : State} (hv : s.codesValid = true) (he : s.encEnded = false)
include hv he

theorem encSymbol_eq (b : Byte) :
    exec (.encSymbol b) s =
      finish .other ((emitSymbol (byteSymbol b) s).bind fun len t => .ok (len.setWidth 64) t) := by
  rw [exec, execEncSymbol, encReady_of_ready hv he]

theorem encEos_eq :
    exec .encEos s = finish .other ((emitSymbol sentinel s).bind fun len t =>
      .ok (len.setWidth 64) (t.setEnded true)) := by
  rw [exec, execEncEos, encReady_of_ready hv he]

/-- ENC_SYMBOL passes on what the writing of its code raises (R107). -/
theorem encSymbol_errors (b : Byte) : EncodeErrors (.encSymbol b) s s (byteSymbol b) :=
  encodeErrors_of_raises fun h => by rw [encSymbol_eq hv he, h, Res.bind_raise]

/-- ENC_EOS passes on what the writing of the sentinel's code raises (R108). -/
theorem encEos_errors : EncodeErrors .encEos s s sentinel :=
  encodeErrors_of_raises fun h => by rw [encEos_eq hv he, h, Res.bind_raise]

section
variable (hq : s.Quiet) (ho : s.outOpen = true) {c : List Bool}
include hq ho

/-- ENC_SYMBOL on quiet channels appends the byte's code (R107). -/
theorem encSymbol_of_quiet {b : Byte} (hc : s.HasCode (byteSymbol b) c) :
    exec (.encSymbol b) s =
      .next ((s.moved 0 c c.length).respond true false (BitVec.ofNat 64 c.length)) := by
  rw [encSymbol_eq hv he, emitSymbol_of_accepted hc (.inl ho) (hq.acceptedBefore _), Res.bind_ok,
    BitVec.setWidth_ofNat_of_le_of_lt (by decide) hc.length_lt, finish]

/-- ENC_EOS on quiet channels appends the sentinel's code and ends the stream (R108). -/
theorem encEos_of_quiet (hc : s.HasCode sentinel c) :
    exec .encEos s = .next (((s.moved 0 c c.length).setEnded true).respond true false
      (BitVec.ofNat 64 c.length)) := by
  rw [encEos_eq hv he, emitSymbol_of_accepted hc (.inl ho) (hq.acceptedBefore _), Res.bind_ok,
    BitVec.setWidth_ofNat_of_le_of_lt (by decide) hc.length_lt, finish]

end
end

/-- Settles O40: a code is its bits' writes, each accepted or the first that fails. -/
theorem encoderAppendsTheCode : Obligations.EncoderAppendsTheCode := by
  refine ⟨fun s hq ho hv he => ⟨fun b c hc => ?_, fun c hc => ?_⟩,
    fun s hv he => ⟨encSymbol_errors hv he, encEos_errors hv he⟩⟩
  · rw [encSymbol_of_quiet hv he hq ho hc, State.moved_writes]
  · rw [encEos_of_quiet hv he hq ho hc, State.moved_writes]
    rfl

/-! ### The preconditions of the encoder -/

/-- Without valid codes an encoder command is not ready (R107 to R109). -/
theorem encReady_of_not_valid {α : Type} {s : State} (hv : s.codesValid = false) (i : Instr)
    (k : Res α) : encReady i s k = .raise .notReady (wordInfo i) s := by
  simp [encReady, hv, notReady]

/-- After the sentinel an encoder command encodes nothing (R107 to R109). -/
theorem encReady_of_ended {α : Type} {s : State} (hv : s.codesValid = true)
    (he : s.encEnded = true) (i : Instr) (k : Res α) :
    encReady i s k = .raise .streamEnded (wordInfo i) s := by
  simp [encReady, hv, he]

/-- Where the preconditions raise, each encoder command does just that, whatever it would encode. -/
theorem enc_of_encReady_raise {s : State} {e : ErrCode} (hc : s.CloseAnswered)
    (h : ∀ (i : Instr) (k : Res DWord), encReady i s k = .raise e (wordInfo i) s) :
    (∀ b : Byte, exec (.encSymbol b) s =
      .next (s.afterError false e (wordInfo (.encSymbol b)))) ∧
    exec .encEos s = .next (s.afterError false e (wordInfo .encEos)) ∧
    exec .encStream s = .next (s.afterError false e (wordInfo .encStream)) := by
  refine ⟨fun b => ?_, ?_, ?_⟩
  · rw [exec, execEncSymbol, h, finish_raise_of_closeAnswered hc]
  · rw [exec, execEncEos, h, finish_raise_of_closeAnswered hc]
  · rw [exec, execEncStream, h, finish_raise_of_closeAnswered hc]

/-- ENC_STREAM on an exhausted input (R109). -/
theorem encStream_of_exhausted {s : State} (hc : s.CloseAnswered) (hv : s.codesValid = true)
    (he : s.encEnded = false) (hx : s.inExhausted = true) :
    exec .encStream s = .next (s.afterError false .notReady 0x52#64) := by
  rw [exec, execEncStream, encReady_of_ready hv he, if_pos hx]
  exact finish_raise_of_closeAnswered hc .notReady 0x52#64

/-- Settles O41: each precondition that fails raises before anything is encoded. -/
theorem encoderChecksInOrder : Obligations.EncoderChecksInOrder := by
  refine ⟨fun s hc hv => enc_of_encReady_raise hc fun i k => encReady_of_not_valid hv i k,
    fun s hc hv he => enc_of_encReady_raise hc fun i k => encReady_of_ended hv he i k,
    fun s hc hv he => ⟨fun b hp => ?_, fun hp => (encEos_errors hv he).1 hp hc,
      fun hx => encStream_of_exhausted hc hv he hx⟩⟩
  rw [(encSymbol_errors hv he b).1 hp hc, byteSymbol, BitVec.ofNat_toNat]

/-! ### The encoding loop -/

/-- Eight bits fewer are one whole byte fewer (R46). -/
theorem wholeBytes_drop (bits : List Bool) (n : Nat) :
    wholeBytes (bits.drop (8 * n)) = (wholeBytes bits).drop n := by
  induction n generalizing bits with
  | zero => rfl
  | succ n ih =>
    rw [Nat.mul_succ, Nat.add_comm, ← List.drop_drop, ih]
    cases h : wholeBytes bits with
    | nil =>
      rw [List.drop_eq_nil_of_le (wholeBytes_eq_nil h).le]
      simp [wholeBytes]
    | cons b rest => rw [(wholeBytes_eq_cons h).2.2, List.drop_succ_cons]

/-- The codes of bytes, one after the other (R110). -/
def bodyOf (code : Symbol → List Bool) (bytes : List Byte) : List Bool :=
  bytes.flatMap fun b => code (byteSymbol b)

theorem bodyOf_cons (code : Symbol → List Bool) (b : Byte) (bytes : List Byte) :
    bodyOf code (b :: bytes) = code (byteSymbol b) ++ bodyOf code bytes := List.flatMap_cons

/-- One turn of the loop: a byte is read and its code written (R109). -/
theorem encodeLoop_of_byte {s : State} {b : Byte} {rest : List Byte} {c : List Bool}
    (hw : wholeBytes s.restBits = b :: rest) (hc : s.HasCode (byteSymbol b) c)
    (ho : s.outOpen = true ∨ c = []) (hacc : s.acceptedBefore (s.txCount + (1 + c.length)))
    (bound n : Nat) :
    encodeLoop (bound + 1) n s = encodeLoop bound (n + 1) (s.moved 8 c (1 + c.length)) := by
  have hread : readBits 8 s = .ok (some b) (s.moved 8 [] 1) :=
    readBits_of_wholeBytes_cons (hacc.answer (by omega)) hw
  have hemit := emitSymbol_of_accepted (s := s.moved 8 [] 1) hc ho
    ((hacc.moved 8 [] 1).mono (by rw [State.moved_txCount, Nat.add_assoc]))
  rw [encodeLoop, hread, Res.bind_ok]
  dsimp only
  rw [hemit, Res.bind_ok, State.moved_moved]
  rfl

/-- The loop over bytes that have codes, where every transaction is accepted (R109): one read and the code's
writes for each of them. With the output closed their codes are empty. -/
theorem encodeLoop_of_bytes {code : Symbol → List Bool} {bytes tail : List Byte} {s : State}
    (hw : wholeBytes s.restBits = bytes ++ tail)
    (hcode : ∀ b ∈ bytes, s.HasCode (byteSymbol b) (code (byteSymbol b)))
    (ho : s.outOpen = true ∨ bodyOf code bytes = [])
    (hacc : s.acceptedBefore (s.txCount + (bytes.length + (bodyOf code bytes).length)))
    (bound n : Nat) :
    encodeLoop (bound + bytes.length) n s = encodeLoop bound (n + bytes.length)
      (s.moved (8 * bytes.length) (bodyOf code bytes)
        (bytes.length + (bodyOf code bytes).length)) := by
  induction bytes generalizing s n with
  | nil => exact congrArg (encodeLoop bound n) s.moved_none.symm
  | cons b bytes ih =>
    have hw' : wholeBytes s.restBits = b :: (bytes ++ tail) := hw
    obtain ⟨hb, hbytes⟩ := List.forall_mem_cons.mp hcode
    simp only [bodyOf_cons, List.length_cons, List.length_append, List.append_eq_nil_iff] at ho hacc ⊢
    have hturn := encodeLoop_of_byte hw' hb (ho.imp_right And.left) (hacc.mono (by omega))
      (bound + bytes.length) n
    have hloop := ih (s := s.moved 8 (code (byteSymbol b)) (1 + (code (byteSymbol b)).length))
      (State.wholeBytes_moved hw') hbytes (ho.imp_right And.right)
      ((hacc.moved _ _ _).mono (by rw [State.moved_txCount]; omega)) (n + 1)
    rw [← Nat.add_assoc, hturn, hloop, State.moved_moved]
    have hbits : 8 + 8 * bytes.length = 8 * (bytes.length + 1) := by omega
    rw [hbits]
    congr 1
    · omega
    · congr 1
      omega

/-! ### ENC_STREAM -/

/-- The end of ENC_STREAM, after n bytes: the sentinel's code (R109). -/
def endStream (n : Nat) (s : State) : Res DWord :=
  (emitSymbol sentinel s).bind fun _ u => .ok (BitVec.ofNat 64 n) (u.setEnded true)

theorem endStream_of_accepted {s : State} {c : List Bool} (hc : s.HasCode sentinel c)
    (ho : s.outOpen = true ∨ c = []) (hacc : s.acceptedBefore (s.txCount + c.length)) (n : Nat) :
    endStream n s = .ok (BitVec.ofNat 64 n) ((s.moved 0 c c.length).setEnded true) := by
  rw [endStream, emitSymbol_of_accepted hc ho hacc, Res.bind_ok]

theorem encStream_eq {s : State} (hv : s.codesValid = true) (he : s.encEnded = false)
    (hx : s.inExhausted = false) :
    exec .encStream s = finish .other ((encodeLoop (inputBound s) 0 s).bind endStream) := by
  rw [exec, execEncStream, encReady_of_ready hv he, if_neg (by simp [hx])]
  rfl

section
variable {s : State} {code : Symbol → List Bool} {n : Nat} {body : List Bool}
  (hv : s.codesValid = true) (he : s.encEnded = false) (hx : s.inExhausted = false)
  (hn : n ≤ (wholeBytes s.restBits).length)
  (hcode : ∀ b ∈ (wholeBytes s.restBits).take n, s.HasCode (byteSymbol b) (code (byteSymbol b)))
  (hbody : body = bodyOf code ((wholeBytes s.restBits).take n))
  (ho : s.outOpen = true ∨ body = [])
include hv he hx hn hcode hbody ho

/-- ENC_STREAM gets past the first n bytes where they have codes and their transactions are accepted (R109). -/
theorem encStream_after_bytes (hacc : s.acceptedBefore (s.txCount + (n + body.length))) :
    ∃ bound, exec .encStream s = finish .other ((encodeLoop (bound + 1) n
      (s.moved (8 * n) body (n + body.length))).bind endStream) := by
  have hlen : ((wholeBytes s.restBits).take n).length = n := List.length_take_of_le hn
  obtain ⟨bound, hbound⟩ : ∃ bound, inputBound s = bound + 1 + n := by
    have hle := (wholeBytes_length_le s.restBits).trans s.restBits_length.le
    exact ⟨s.inBits.length - s.inPos - n, by rw [inputBound]; omega⟩
  subst hbody
  have hloop := encodeLoop_of_bytes (List.take_append_drop n _).symm hcode ho
    (by rwa [hlen]) (bound + 1) 0
  rw [hlen, Nat.zero_add] at hloop
  exact ⟨bound, by rw [encStream_eq hv he hx, hbound, hloop]⟩

/-- The read of the next byte fails (R46, R130). -/
theorem encStream_of_readFail (hfail : s.failsAfter (n + body.length))
    (hc : (s.moved (8 * n) body (n + body.length + 1)).CloseAnswered) :
    exec .encStream s = .next ((s.moved (8 * n) body (n + body.length + 1)).afterError false
      .ioReadFail (s.inBitsRead + BitVec.ofNat 64 (8 * n))) := by
  obtain ⟨hacc, ha⟩ := hfail
  obtain ⟨bound, hexec⟩ := encStream_after_bytes hv he hx hn hcode hbody ho hacc
  have hans : (s.moved (8 * n) body (n + body.length)).answer = .fail := ha
  have hstate : (s.moved (8 * n) body (n + body.length)).countTx =
      s.moved (8 * n) body (n + body.length + 1) := rfl
  rw [hexec, encodeLoop, readBits_of_fail 8 hans, hstate]
  exact finish_raise_of_closeAnswered hc .ioReadFail _

section
variable (hacc : s.acceptedBefore (s.txCount + (n + body.length + 1)))
include hacc

/-- ENC_STREAM passes on what the writing of the next byte's code raises (R109). -/
theorem encStream_byte_errors {v : Byte} (hnext : (wholeBytes s.restBits)[n]? = some v) :
    EncodeErrors .encStream s (s.moved (8 * (n + 1)) body (n + body.length + 1))
      (byteSymbol v) := by
  obtain ⟨bound, hexec⟩ := encStream_after_bytes hv he hx hn hcode hbody ho
    (hacc.mono (by omega))
  obtain ⟨hlt, rfl⟩ := List.getElem?_eq_some_iff.mp hnext
  have hw : wholeBytes (s.moved (8 * n) body (n + body.length)).restBits =
      (wholeBytes s.restBits)[n] :: (wholeBytes s.restBits).drop (n + 1) := by
    rw [State.moved_restBits, wholeBytes_drop, List.drop_eq_getElem_cons hlt]
  have hread := readBits_of_wholeBytes_cons (hacc.moved_answer _ _) hw
  rw [State.moved_moved, List.append_nil] at hread
  refine encodeErrors_of_raises fun h => ?_
  rw [hexec, encodeLoop, hread, Res.bind_ok]
  dsimp only
  rw [Nat.mul_succ] at h
  rw [h, Res.bind_raise, Res.bind_raise]

/-- With all bytes encoded the input is exhausted, and the sentinel's code is to come (R109). -/
theorem encStream_at_sentinel (hall : n = (wholeBytes s.restBits).length) :
    exec .encStream s = finish .other
      (endStream n (s.moved (8 * n) body (n + body.length + 1)).exhaust) := by
  obtain ⟨bound, hexec⟩ := encStream_after_bytes hv he hx hn hcode hbody ho
    (hacc.mono (by omega))
  have hw : wholeBytes (s.moved (8 * n) body (n + body.length)).restBits = [] := by
    rw [State.moved_restBits, wholeBytes_drop, hall, List.drop_length]
  rw [hexec, encodeLoop, readBits_of_wholeBytes_nil (hacc.moved_answer _ _) hw, Res.bind_ok]
  rfl

end
end

theorem State.Quiet.exhaust {s : State} (h : s.Quiet) : s.exhaust.Quiet := h

@[simp] theorem State.moved_outBits (s : State) (n : Nat) (out : List Bool) (k : Nat) :
    (s.moved n out k).outBits = s.outBits ++ out := rfl

/-- At the end of the input writes still append (R46, R47). -/
theorem State.exhaust_moved (s : State) (out : List Bool) (k : Nat) :
    s.exhaust.moved 0 out k = (s.moved 0 out k).exhaust := rfl

/-- ENC_STREAM on quiet channels, over an input whose bytes all have codes (R109, R110). -/
theorem encStream_of_quiet {s : State} {code : Symbol → List Bool} (hv : s.codesValid = true)
    (he : s.encEnded = false) (hx : s.inExhausted = false) (hq : s.Quiet) (ho : s.outOpen = true)
    (hcode : ∀ b ∈ wholeBytes s.restBits, s.HasCode (byteSymbol b) (code (byteSymbol b)))
    (hend : s.HasCode sentinel (code sentinel)) :
    ∃ k, exec .encStream s = .next (((s.moved (8 * (wholeBytes s.restBits).length)
      (bodyOf code (wholeBytes s.restBits) ++ code sentinel) k).exhaust.setEnded true).respond
        true false (BitVec.ofNat 64 (wholeBytes s.restBits).length)) := by
  have hall := List.take_length (l := wholeBytes s.restBits)
  have hexec := encStream_at_sentinel hv he hx le_rfl (by rwa [hall]) rfl (.inl ho)
    (hq.acceptedBefore _) rfl
  rw [hall, endStream_of_accepted (c := code sentinel), State.exhaust_moved, State.moved_moved] at hexec
  · exact ⟨_, hexec⟩
  · exact hend
  · exact .inl ho
  · exact (hq.moved _ _ _).exhaust.acceptedBefore _

/-- Settles O42: the bytes that have codes are turns of the loop whose transactions are accepted; the turn after
them raises, or at the end of the input the sentinel's code is written. -/
theorem encStreamAppendsTheBody : Obligations.EncStreamAppendsTheBody := by
  refine ⟨fun s code hq ho hv he hx hcode hend => ?_,
    fun s code n body hv he hx hn hcode hbody ho => ⟨fun hfail hc => ?_, fun hacc =>
      ⟨fun v hnext => ?_, fun hall => ?_⟩⟩⟩
  · obtain ⟨k, hexec⟩ := encStream_of_quiet hv he hx hq ho hcode hend
    have hlen (out : List Bool) : (s.outBits ++ out).length - s.outBits.length = out.length := by
      rw [List.length_append, Nat.add_sub_cancel_left]
    refine ⟨_, hexec, (List.append_assoc _ _ _).symm, ?_⟩
    rw [State.respond_outBits, State.setEnded_outBits, State.exhaust_outBits, State.moved_outBits,
      hlen]
    rfl
  · exact encStream_of_readFail hv he hx hn hcode hbody ho hfail hc
  · exact encStream_byte_errors hv he hx hn hcode hbody ho hacc hnext
  · refine encodeErrors_of_raises
      (u := (s.moved (8 * n) body (n + body.length + 1)).exhaust) fun h => ?_
    rw [encStream_at_sentinel hv he hx hn hcode hbody ho hacc hall, endStream, h, Res.bind_raise]

/-! ### ENC_ENDED -/

theorem ChanFrame.encEnded {s t : State} (h : ChanFrame s t) : t.encEnded = s.encEnded := by
  obtain ⟨_, _, _, _, _, _, rfl⟩ := h; rfl

theorem ChanFrame.err {s t : State} (h : ChanFrame s t) : t.err = s.err := by
  obtain ⟨_, _, _, _, _, _, rfl⟩ := h; rfl

/-- The pseudocode touches the channels only. -/
def Res.Framed {α : Type} (s : State) (r : Res α) : Prop :=
  r.Ends (fun _ t => ChanFrame s t) (fun _ _ t => ChanFrame s t) (fun _ => True)

theorem emitSymbol_framed (x : Symbol) (s : State) : (emitSymbol x s).Framed s :=
  (emitSymbol_ends x s).mono (fun _ _ h => h.1) (fun _ _ _ h => h.1) fun _ _ => trivial

theorem encodeLoop_framed (n : Nat) (s : State) : (encodeLoop (inputBound s) n s).Framed s :=
  (encodeLoop_ends _ n s (inputBound_enough s)).mono (fun _ _ h => h.1) (fun _ _ _ h => h.1)
    fun _ _ => trivial

theorem emitTree_framed (t : Tree) (s : State) : (emitTree t s).Framed s :=
  (emitTree_ends t s).mono (fun _ _ h => h.1) (fun _ _ _ h => h.2.2.1) fun _ _ => trivial

theorem headerPass_framed (s : State) : (parse 514 Parse.start s).Framed s :=
  (parse_ends 514 Parse.start s (by decide) (by decide)).mono (fun _ _ h => h.1)
    (fun _ _ _ h => h.1) fun _ _ => trivial

/-- The pseudocode, started in s, leaves ERR where it ends with a value, and then ENC_ENDED is `done`; where it
raises, ENC_ENDED is `failed`. -/
def Res.LeavesEnded {α : Type} (s : State) (done failed : Bool) (r : Res α) : Prop :=
  r.Ends (fun _ t => t.err = s.err ∧ t.encEnded = done) (fun _ _ t => t.encEnded = failed)
    (fun _ => True)

section
variable {α β : Type} {s : State} {done : Bool}

theorem Res.LeavesEnded.raise (e : ErrCode) (info : DWord) :
    (Res.raise e info s : Res α).LeavesEnded s done s.encEnded := rfl

theorem Res.LeavesEnded.bind {r : Res α} {f : α → State → Res β} (hr : r.Framed s)
    (hf : ∀ a t, (f a t).LeavesEnded t done t.encEnded) :
    (r.bind f).LeavesEnded s done s.encEnded := by
  refine Res.Ends.bind (hr.mono (fun _ _ h => h) (fun _ _ _ h => h.encEnded) fun _ h => h)
    fun a t ht => ?_
  rw [← ht.err, ← ht.encEnded]
  exact hf a t

/-- A precondition of a command that does not hold raises before anything changes (R126). -/
theorem guard_leavesEnded (p : Prop) [Decidable p] (e : ErrCode) (info : DWord) {k : Res α}
    (hk : k.LeavesEnded s done s.encEnded) :
    (if p then .raise e info s else k).LeavesEnded s done s.encEnded := by
  split
  · exact .raise e info
  · exact hk

theorem ready_leavesEnded (i : Instr) (b : Bool) {k : Res α}
    (hk : k.LeavesEnded s done s.encEnded) :
    (if b then k else notReady i s).LeavesEnded s done s.encEnded := by
  cases b with
  | false => exact .raise _ _
  | true => exact hk

theorem encReady_leavesEnded (i : Instr) {k : Res α} (hk : k.LeavesEnded s done s.encEnded) :
    (encReady i s k).LeavesEnded s done s.encEnded :=
  ready_leavesEnded i _ (guard_leavesEnded _ _ _ hk)

theorem withHeldTree_leavesEnded {k : Tree → Res α}
    (hk : ∀ t, (k t).LeavesEnded s done s.encEnded) :
    (withHeldTree s k).LeavesEnded s done s.encEnded := by
  unfold withHeldTree
  split
  · exact hk _
  · trivial

end

/-- The pass of HEADER_READ starts with ENC_ENDED cleared and leaves it so, also where it raises (R104). -/
theorem headerRead_leavesEnded (s : State) :
    ∃ r : Res DWord, exec .headerRead s = finish .other r ∧ r.LeavesEnded s false false := by
  refine ⟨_, rfl, ?_⟩
  have hpass := headerPass_framed (beginHeaderRead s)
  cases hp : parse 514 Parse.start (beginHeaderRead s) with
  | ok a t =>
    have hf : ChanFrame (beginHeaderRead s) t := hpass.of_ok hp
    exact ⟨hf.err, hf.encEnded⟩
  | raise e info t =>
    rw [hp] at hpass
    exact ChanFrame.encEnded hpass
  | stop x => trivial

/-- The commands that end the stream where they complete (R108, R109). -/
def endsStream (i : Instr) : Bool := decide (i = .encEos ∨ i = .encStream)

/-- R30: the other commands that write ENC_ENDED leave it where they raise. -/
theorem exec_leavesEnded {i : Instr} (hi : writesEnded i = true) (hne : i ≠ .headerRead)
    (s : State) :
    ∃ r : Res DWord, exec i s = finish .other r ∧ r.LeavesEnded s (endsStream i) s.encEnded := by
  cases i with
  | headerRead => exact absurd rfl hne
  | treeBuild => exact ⟨_, rfl, guard_leavesEnded _ _ _ ⟨rfl, rfl⟩⟩
  | codesBuild =>
    exact ⟨_, rfl, ready_leavesEnded _ _ (withHeldTree_leavesEnded fun _ => ⟨rfl, rfl⟩)⟩
  | headerWrite =>
    exact ⟨_, rfl, ready_leavesEnded _ _ (withHeldTree_leavesEnded fun t =>
      .bind (emitTree_framed t s) fun _ _ => ⟨rfl, rfl⟩)⟩
  | encEos =>
    exact ⟨_, rfl, encReady_leavesEnded _
      (.bind (emitSymbol_framed sentinel s) fun _ _ => ⟨rfl, rfl⟩)⟩
  | encStream =>
    exact ⟨_, rfl, encReady_leavesEnded _ (guard_leavesEnded _ _ _
      (.bind (encodeLoop_framed 0 s) fun _ t =>
        .bind (emitSymbol_framed sentinel t) fun _ _ => ⟨rfl, rfl⟩))⟩
  | _ => cases hi

/-- What a command leaves of ERR and ENC_ENDED, by how its pseudocode ends. -/
theorem ended_of_leavesEnded {r : Res DWord} {s t : State} {done failed : Bool}
    (hr : r.LeavesEnded s done failed) (h : finish .other r = .next t) :
    (t.err = s.err ∧ t.encEnded = done) ∨ (t.err = true ∧ t.encEnded = failed) := by
  obtain ⟨v, u, rfl, rfl⟩ | ⟨e, info, u, rfl, he⟩ := finish_eq_next h
  · exact .inl hr
  · rw [enterError_next he]
    exact .inr ⟨rfl, hr⟩

/-- Every command that gives a next state has left ENC_ENDED, or completed with the value its row gives, or is
HEADER_READ, which has cleared it (R30). -/
theorem exec_encEnded {i : Instr} {s t : State} (h : exec i s = .next t) :
    (i = .headerRead ∧ t.encEnded = false) ∨
    (writesEnded i = true ∧ t.err = s.err ∧ t.encEnded = endsStream i) ∨
    ((writesEnded i = true → t.err = true) ∧ i ≠ .headerRead ∧ t.encEnded = s.encEnded) := by
  by_cases hread : i = .headerRead
  · subst hread
    obtain ⟨r, hr, hended⟩ := headerRead_leavesEnded s
    exact .inl ⟨rfl, (ended_of_leavesEnded hended (hr ▸ h)).elim And.right And.right⟩
  · cases hi : writesEnded i with
    | false =>
      obtain ⟨-, -, -, -, hkeep, -⟩ := commandsKeepToTheAccessTable i s t h
      exact .inr (.inr ⟨nofun, hread, hkeep hi⟩)
    | true =>
      obtain ⟨r, hr, hended⟩ := exec_leavesEnded hi hread s
      obtain ⟨herr, hdone⟩ | ⟨herr, hkeep⟩ := ended_of_leavesEnded hended (hr ▸ h)
      · exact .inr (.inl ⟨rfl, herr, hdone⟩)
      · exact .inr (.inr ⟨fun _ => herr, hread, hkeep⟩)

/-- R107 to R109: after the sentinel an encoder command takes the error entry in the state it started in. -/
theorem enc_of_ended {i : Instr} {s t : State} (he : s.encEnded = true) (h : exec i s = .next t)
    (hi : (∃ b, i = .encSymbol b) ∨ i = .encEos ∨ i = .encStream) :
    ∃ e info, t = s.afterError false e info := by
  have hready {α : Type} (j : Instr) (k : Res α) : ∃ e info, encReady j s k = .raise e info s := by
    cases hv : s.codesValid with
    | false => exact ⟨_, _, encReady_of_not_valid hv j k⟩
    | true => exact ⟨_, _, encReady_of_ended hv he j k⟩
  obtain ⟨e, info, hraise⟩ : ∃ e info, exec i s = finish .other (.raise e info s) := by
    obtain ⟨b, rfl⟩ | rfl | rfl := hi
    all_goals
      obtain ⟨e, info, hr⟩ := hready _ _
      exact ⟨e, info, congrArg (finish .other) hr⟩
  rw [hraise] at h
  exact ⟨e, info, enterError_next h⟩

/-- Of the commands that write ENC_ENDED, those that do not clear it end the stream (R30). -/
theorem endsStream_iff {i : Instr} (hi : writesEnded i = true) :
    endsStream i = true ↔ i ∉ [.treeBuild, .headerRead, .codesBuild, .headerWrite] := by
  cases i with
  | treeBuild | codesBuild | headerWrite | headerRead | encEos | encStream => decide
  | _ => cases hi

/-- Settles O43: each clause reads off what `exec_encEnded` leaves in ENC_ENDED. -/
theorem nothingIsEncodedAfterTheSentinel : Obligations.NothingIsEncodedAfterTheSentinel := by
  refine ⟨fun i s t he h => ⟨fun hi => ?_, fun hi => ?_⟩, fun i s t h hi => ?_,
    fun i s t herr he h ht => ?_, fun i s t herr h ht hi => ?_⟩
  · obtain ⟨e, info, rfl⟩ := enc_of_ended he h hi
    rfl
  · obtain ⟨rfl, -⟩ | ⟨hw, -, hdone⟩ | ⟨-, -, hkeep⟩ := exec_encEnded h
    · exact absurd (by decide) hi
    · exact hdone.trans ((endsStream_iff hw).mpr hi)
    · exact hkeep.trans he
  · obtain ⟨-, hcleared⟩ | ⟨hw, -, hdone⟩ | ⟨hfail, hread, -⟩ := exec_encEnded h
    · exact hcleared
    · have hmem : i ∈ [.treeBuild, .headerRead, .codesBuild, .headerWrite] :=
        hi.elim And.left fun hread => by simp [hread]
      exact hdone.trans (Bool.eq_false_iff.mpr fun hend => (endsStream_iff hw).mp hend hmem)
    · obtain ⟨hmem, hok⟩ := hi.resolve_right hread
      have hw : writesEnded i = true := by
        simp only [List.mem_cons, List.not_mem_nil, or_false] at hmem
        obtain rfl | rfl | rfl | rfl := hmem <;> rfl
      exact absurd (hok.symm.trans (hfail hw)) (by decide)
  · obtain ⟨-, hcleared⟩ | ⟨-, hsame, hdone⟩ | ⟨-, -, hkeep⟩ := exec_encEnded h
    · exact absurd (ht.symm.trans hcleared) (by decide)
    · exact ⟨of_decide_eq_true (hdone.symm.trans ht), hsame.trans herr⟩
    · exact absurd (ht.symm.trans (hkeep.trans he)) (by decide)
  · obtain ⟨rfl, -⟩ | ⟨-, hsame, -⟩ | ⟨-, -, hkeep⟩ := exec_encEnded h
    · simp at hi
    · exact absurd (ht.symm.trans (hsame.trans herr)) (by decide)
    · exact hkeep

/-! ### Decoding a body -/

/-- R95: the paths are those of the tree's shape. -/
theorem Tree.paths_eq_of_shape_eq {t u : Tree} (h : t.shape = u.shape) : t.paths = u.paths := by
  induction t generalizing u with
  | leaf i x w =>
    cases u with
    | leaf => cases h; rfl
    | node => cases h
  | node i w l r ihl ihr =>
    cases u with
    | leaf => cases h
    | node =>
      obtain ⟨hl, hr⟩ := Shape.node.inj h
      rw [Tree.paths, Tree.paths, ihl hl, ihr hr]

/-- A byte's leaf is reached with an open output that accepts: the byte is written, and the walk goes back to the
root (R111). -/
theorem arrive_byte_of_accept {s : State} {leaf : NodeIdx} {b : Byte} {w : Option Weight}
    (ho : s.outOpen = true) (ha : s.answer = .accept)
    (hn : nodeAt s.nodes leaf.toNat = some (.leaf (byteSymbol b) w)) :
    arrive leaf s = .ok (byteCode (byteSymbol b))
      ((s.moved 0 (bin b) 1).setDec s.decState (some s.root)) := by
  have hb : BitVec.ofNat 8 (byteSymbol b).val = b := by
    rw [byteSymbol, BitVec.ofNat_toNat, BitVec.setWidth_eq]
  rw [arrive, hn]
  dsimp only
  rw [if_neg (byteSymbol_ne_sentinel b), writeBits_of_accept _ ho ha, Res.bind_ok, hb]
  rfl

theorem arrive_sentinel {s : State} {leaf : NodeIdx} {w : Option Weight}
    (hn : nodeAt s.nodes leaf.toNat = some (.leaf sentinel w)) :
    arrive leaf s = .ok 2#64 (s.setDec .done none) := by
  rw [arrive, hn]
  rfl

/-- The decoder stands at the root of a tree of two leaves or more, with its output open and the channels accepting
everything (R111). -/
structure WalksFromRoot (s : State) (tree : Tree) : Prop where
  quiet : s.Quiet
  opened : s.outOpen = true
  walking : s.decState = .walking
  cursor : s.decCur = some s.root
  idx : tree.idx = s.root.toNat
  stored : tree.StoredIn (nodeAt s.nodes)
  inner : ∀ x, (x, []) ∉ tree.paths

namespace WalksFromRoot

variable {s : State} {tree : Tree} (h : WalksFromRoot s tree)
include h

theorem moved (n : Nat) (out : List Bool) (k : Nat) : WalksFromRoot (s.moved n out k) tree :=
  ⟨h.quiet.moved n out k, h.opened, h.walking, h.cursor, h.idx, h.stored, h.inner⟩

/-- DEC_STREAM on a path from the root that the input begins with: the step at its end reaches the leaf (R115). -/
theorem streamLoop_path {x : Symbol} {path rest : List Bool} (hmem : (x, path) ∈ tree.paths)
    (hrest : s.restBits = path ++ rest) :
    ∃ leaf w c, nodeAt s.nodes leaf.toNat = some (.leaf x w) ∧ ∀ bound n,
      streamLoop (bound + path.length) n s =
        (arrive leaf ((s.moved path.length [] path.length).setDec s.decState c)).bind fun r t =>
          streamLoop bound (if r.getLsbD 0 then n + 1 else n) t := by
  cases path with
  | nil => exact absurd hmem (h.inner x)
  | cons b path =>
    have hpath : OnPath s tree x (b :: path) rest :=
      ⟨h.quiet, ⟨s.root, h.cursor, h.idx⟩, h.stored, hmem, hrest⟩
    obtain ⟨u, leaf, w, c, hdesc, hstep, hleaf⟩ := hpath.descends
    refine ⟨leaf, w, c, hleaf, fun bound n => ?_⟩
    have hbound : bound + (b :: path).length = bound + 1 + path.length := by
      rw [List.length_cons]
      omega
    rw [hbound, hdesc.streamLoop h.walking, streamLoop, if_pos (hdesc.decState.trans h.walking),
      hstep]
    rfl

/-- A byte's path: the byte is emitted and the walk is back at the root (R111, R115). -/
theorem streamLoop_byte {b : Byte} {path rest : List Bool}
    (hmem : (byteSymbol b, path) ∈ tree.paths) (hrest : s.restBits = path ++ rest) (bound n : Nat) :
    streamLoop (bound + path.length) n s =
      streamLoop bound (n + 1) (s.moved path.length (bin b) (path.length + 1)) := by
  obtain ⟨leaf, w, c, hleaf, hloop⟩ := h.streamLoop_path hmem hrest
  have harrive := arrive_byte_of_accept
    (s := (s.moved path.length [] path.length).setDec s.decState c) h.opened
    (h.quiet.moved path.length [] path.length).answer hleaf
  have hback : ((s.moved path.length [] path.length).moved 0 (bin b) 1).setDec s.decState
      (some s.root) = s.moved path.length (bin b) (path.length + 1) := by
    rw [State.moved_moved, ← h.cursor]
    rfl
  have hbit : (byteCode (byteSymbol b)).getLsbD 0 = true := by simp [byteCode]
  rw [hloop, harrive, Res.bind_ok, if_pos hbit, ← hback]
  rfl

/-- The sentinel's path: the walk ends (R111, R115). -/
theorem streamLoop_sentinel {path rest : List Bool} (hmem : (sentinel, path) ∈ tree.paths)
    (hrest : s.restBits = path ++ rest) (bound n : Nat) :
    streamLoop (bound + 1 + path.length) n s =
      .ok n ((s.moved path.length [] path.length).setDec .done none) := by
  obtain ⟨leaf, w, c, hleaf, hloop⟩ := h.streamLoop_path hmem hrest
  have harrive := arrive_sentinel
    (s := (s.moved path.length [] path.length).setDec s.decState c) hleaf
  rw [hloop, harrive, Res.bind_ok, streamLoop, if_neg (by simp)]
  rfl

end WalksFromRoot

/-- DEC_STREAM on the codes of bytes emits the bytes (R115, R117). -/
theorem WalksFromRoot.streamLoop_body {s : State} {tree : Tree} (h : WalksFromRoot s tree)
    {code : Symbol → List Bool} {bytes : List Byte} {rest : List Bool}
    (hcode : ∀ b ∈ bytes, (byteSymbol b, code (byteSymbol b)) ∈ tree.paths)
    (hrest : s.restBits = bodyOf code bytes ++ rest) (bound n : Nat) :
    streamLoop (bound + (bodyOf code bytes).length) n s = streamLoop bound (n + bytes.length)
      (s.moved (bodyOf code bytes).length (bytes.flatMap fun b => bin b)
        ((bodyOf code bytes).length + bytes.length)) := by
  induction bytes generalizing s n with
  | nil => exact congrArg (streamLoop bound n) s.moved_none.symm
  | cons b bytes ih =>
    obtain ⟨hb, hbytes⟩ := List.forall_mem_cons.mp hcode
    rw [bodyOf_cons, List.append_assoc] at hrest
    have hbyte := h.streamLoop_byte hb hrest (bound + (bodyOf code bytes).length) n
    have hloop := ih (h.moved (code (byteSymbol b)).length (bin b)
      ((code (byteSymbol b)).length + 1)) hbytes
      (by rw [State.moved_restBits, hrest, List.drop_left]) (n + 1)
    have hbound : bound + (bodyOf code (b :: bytes)).length =
        bound + (bodyOf code bytes).length + (code (byteSymbol b)).length := by
      rw [bodyOf_cons, List.length_append]
      omega
    rw [hbound, hbyte, hloop, State.moved_moved, bodyOf_cons, List.length_append, List.flatMap_cons,
      List.length_cons, Nat.add_right_comm n, Nat.add_assoc n]
    congr 2
    omega

/-- DEC_STREAM on the codes of bytes and then the sentinel's code (R117). -/
theorem WalksFromRoot.decStream {s : State} {tree : Tree} (h : WalksFromRoot s tree)
    {code : Symbol → List Bool} {bytes : List Byte} {rest : List Bool}
    (hcode : ∀ b ∈ bytes, (byteSymbol b, code (byteSymbol b)) ∈ tree.paths)
    (hend : (sentinel, code sentinel) ∈ tree.paths)
    (hrest : s.restBits = bodyOf code bytes ++ code sentinel ++ rest) :
    ∃ k, exec .decStream s = .next (((s.moved (bodyOf code bytes ++ code sentinel).length
      (bytes.flatMap fun b => bin b) k).setDec .done none).respond true false
        (BitVec.ofNat 64 bytes.length)) := by
  rw [List.append_assoc] at hrest
  obtain ⟨bound, hbound⟩ : ∃ bound, inputBound s =
      bound + 1 + (code sentinel).length + (bodyOf code bytes).length := by
    have hlen := s.restBits_length
    simp only [hrest, List.length_append] at hlen
    exact ⟨rest.length, by rw [inputBound]; omega⟩
  have hloop := h.streamLoop_body hcode hrest (bound + 1 + (code sentinel).length) 0
  have hafter : (s.moved (bodyOf code bytes).length (bytes.flatMap fun b => bin b)
      ((bodyOf code bytes).length + bytes.length)).restBits = code sentinel ++ rest := by
    rw [State.moved_restBits, hrest, List.drop_left]
  rw [(h.moved _ _ _).streamLoop_sentinel hend hafter, State.moved_moved, Nat.zero_add,
    List.append_nil, ← List.length_append] at hloop
  rw [exec, execDecStream, whenWalking_of_walking h.walking, hbound, hloop, Res.bind_ok, finish]
  exact ⟨_, rfl⟩

/-! ### What ENC_STREAM has encoded -/

/-- The code that the entries of symbol x spell, if it has one (R96). -/
def State.codeOf (s : State) (x : Symbol) : List Bool :=
  codeString (s.codeLen[x.val].getD 0#9).toNat (s.codeBits[x.val].getD 0#256)

theorem codeAt_eq_ok {s t : State} {x : Symbol} {c : BitVec 9 × BitVec 256}
    (h : codeAt s x = .ok c t) : s.codeLen[x.val] = some c.1 ∧ s.codeBits[x.val] = some c.2 := by
  unfold codeAt at h
  split at h
  · rename_i l b hl hb
    cases h
    exact ⟨hl, hb⟩
  · cases h

/-- A symbol that is encoded has a code, and a code of some bits is written to an open output (R106, R107). -/
theorem emitSymbol_eq_ok {s t : State} {x : Symbol} {l : BitVec 9} (h : emitSymbol x s = .ok l t) :
    s.HasCode x (s.codeOf x) ∧ (s.codeOf x ≠ [] → s.outOpen = true) := by
  have hcode : s.HasCode x (s.codeOf x) := by
    obtain ⟨p, u, hpres, hemit⟩ := Res.bind_eq_ok h
    obtain ⟨hp, rfl⟩ := codePresentAt_eq_ok hpres
    cases p with
    | false => cases hemit
    | true =>
      obtain ⟨c, v, hat, -⟩ := Res.bind_eq_ok hemit
      obtain ⟨hl, hb⟩ := codeAt_eq_ok hat
      exact ⟨c.1, c.2, hp, hl, hb, by rw [State.codeOf, hl, hb]; rfl⟩
  refine ⟨hcode, fun hne => ?_⟩
  by_contra ho
  rw [emitSymbol_of_shut (Bool.not_eq_true _ ▸ ho) hcode hne] at h
  cases h

section
variable {s t : State} (h : ChanFrame s t)
include h

theorem ChanFrame.hasCode {x : Symbol} {c : List Bool} (hc : t.HasCode x c) : s.HasCode x c := by
  obtain ⟨_, _, _, _, _, _, rfl⟩ := h
  exact hc

theorem ChanFrame.codeOf (x : Symbol) : t.codeOf x = s.codeOf x := by
  obtain ⟨_, _, _, _, _, _, rfl⟩ := h
  rfl

end

/-- Where the loop completes, every whole byte of the input has a code (R109). -/
theorem encodeLoop_eq_ok {bound n m : Nat} {s t : State} (h : encodeLoop bound n s = .ok m t) :
    ∀ b ∈ wholeBytes s.restBits, s.HasCode (byteSymbol b) (s.codeOf (byteSymbol b)) := by
  induction bound generalizing n s with
  | zero => cases h
  | succ bound ih =>
    obtain ⟨v, u, hread, hturn⟩ := Res.bind_eq_ok h
    have ha := (readBits_eq_ok hread).1
    cases hw : wholeBytes s.restBits with
    | nil => exact nofun
    | cons b rest =>
      rw [readBits_of_wholeBytes_cons ha hw] at hread
      cases hread
      obtain ⟨l, w, hemit, hloop⟩ := Res.bind_eq_ok hturn
      obtain ⟨hframe, hpos⟩ := (emitSymbol_ends _ _).of_ok hemit
      have hrest : wholeBytes w.restBits = rest := by
        rw [State.restBits, hframe.inBits, hpos]
        exact State.wholeBytes_moved hw
      rw [List.forall_mem_cons]
      refine ⟨(emitSymbol_eq_ok hemit).1, fun b' hb' => ?_⟩
      have hcode := ih hloop b' (hrest ▸ hb')
      rw [hframe.codeOf] at hcode
      exact hframe.hasCode hcode

/-- What an encoding that completes has found: the preconditions, and codes for the bytes and the sentinel, this one
written to an open output unless it is empty (R109). -/
structure Encodable (s : State) : Prop where
  valid : s.codesValid = true
  ended : s.encEnded = false
  exhausted : s.inExhausted = false
  bytes : ∀ b ∈ wholeBytes s.restBits, s.HasCode (byteSymbol b) (s.codeOf (byteSymbol b))
  eos : s.HasCode sentinel (s.codeOf sentinel)
  opened : s.codeOf sentinel ≠ [] → s.outOpen = true

theorem encReady_eq_ok {α : Type} {i : Instr} {s t : State} {k : Res α} {a : α}
    (h : encReady i s k = .ok a t) : s.codesValid = true ∧ s.encEnded = false ∧ k = .ok a t := by
  cases hv : s.codesValid with
  | false => rw [encReady_of_not_valid hv] at h; cases h
  | true =>
    cases he : s.encEnded with
    | true => rw [encReady_of_ended hv he] at h; cases h
    | false => exact ⟨rfl, rfl, (encReady_of_ready hv he i k).symm.trans h⟩

/-- ENC_STREAM without an error has completed. -/
theorem encodable_of_encStream {s t : State} (h : exec .encStream s = .next t)
    (hok : t.err = false) : Encodable s := by
  obtain ⟨v, u, hr, -⟩ | ⟨e, info, u, -, he⟩ := finish_eq_next h
  · obtain ⟨hv, he, hk⟩ := encReady_eq_ok hr
    cases hx : s.inExhausted with
    | true => rw [if_pos hx] at hk; cases hk
    | false =>
      rw [if_neg (by simp [hx])] at hk
      obtain ⟨n, w, hloop, hend⟩ := Res.bind_eq_ok hk
      obtain ⟨l, z, hemit, -⟩ := Res.bind_eq_ok hend
      have hframe : ChanFrame s w := (encodeLoop_framed 0 s).of_ok hloop
      obtain ⟨hcode, hopen⟩ := emitSymbol_eq_ok hemit
      rw [hframe.codeOf] at hcode hopen
      exact ⟨hv, he, hx, encodeLoop_eq_ok hloop, hframe.hasCode hcode,
        fun hne => hframe.outOpen ▸ hopen hne⟩
  · rw [enterError_next he] at hok
    cases hok

/-! ### The round trip -/

/-- A decoder that walks from the root of its held tree, on an open output with quiet channels. -/
theorem walksFromRoot_of_decInv {u : State} {tree : Tree} (ht : u.heldTree = some tree)
    (hd : u.DecInv) (hq : u.Quiet) (ho : u.outOpen = true) (hw : u.decState = .walking)
    (hc : u.decCur = some u.root) : WalksFromRoot u tree where
  quiet := hq
  opened := ho
  walking := hw
  cursor := hc
  idx := readTree_idx ht
  stored := storedIn_of_readTree ht
  inner x hx := by
    obtain ⟨-, c, l, r, w, hcur, -, hn⟩ := hd.2 hw
    obtain rfl : u.root = c := Option.some.inj (hc.symm.trans hcur)
    obtain ⟨i, v, rfl⟩ := Tree.eq_leaf_of_mem_paths hx
    have hleaf : nodeAt u.nodes i = some (.leaf x v) := storedIn_of_readTree ht
    have hi : i = u.root.toNat := readTree_idx ht
    rw [hi, hn] at hleaf
    cases hleaf

/-- Under valid codes a symbol's code is its path in the held tree (R28, R96). -/
theorem State.HasCode.mem_paths {s : State} {tree : Tree} {x : Symbol} {c : List Bool}
    (hc : s.HasCode x c) (ht : s.TreeInv) (hcodes : s.CodesInv) (hv : s.codesValid = true)
    (hheld : s.heldTree = some tree) : (x, c) ∈ tree.paths := by
  obtain ⟨htv, t, hheld', htable⟩ := hcodes hv
  obtain rfl : tree = t := Option.some.inj (hheld.symm.trans hheld')
  obtain ⟨t, hheld', hfills⟩ := ht htv
  obtain rfl : tree = t := Option.some.inj (hheld.symm.trans hheld')
  exact (State.hasCode_iff_mem_paths htable hfills.distinct).mp hc

/-- Settles O50: the encoder's codes are paths of the tree, and so of the decoder's; the walk from the root follows
them one after the other. -/
theorem decoderInvertsEncoder : Obligations.DecoderInvertsEncoder := by
  intro s t u tree copy rest ht hcodes hq _ hexec hok hheld hcopy hshape _ hd hqu hou hw hc hrest
  have henc := encodable_of_encStream hexec hok
  have hwalk := walksFromRoot_of_decInv hcopy hd hqu hou hw hc
  have hpath {x : Symbol} (hx : s.HasCode x (s.codeOf x)) : (x, s.codeOf x) ∈ copy.paths :=
    Tree.paths_eq_of_shape_eq hshape ▸ hx.mem_paths ht hcodes henc.valid hheld
  have hend := hpath henc.eos
  have ho : s.outOpen = true := henc.opened fun hnil => hwalk.inner sentinel (hnil ▸ hend)
  obtain ⟨k, hstream⟩ :=
    encStream_of_quiet henc.valid henc.ended henc.exhausted hq ho henc.bytes henc.eos
  obtain rfl := Host.Outcome.next.inj (hexec.symm.trans hstream)
  simp only [State.respond_outBits, State.setEnded_outBits, State.exhaust_outBits,
    State.moved_outBits, List.drop_left] at hrest
  obtain ⟨j, hdec⟩ := hwalk.decStream (fun b hb => hpath (henc.bytes b hb)) hend hrest
  exact ⟨_, hdec, rfl, rfl, rfl, by simp [State.moved]⟩

end Sys2Proof.Machine

namespace Sys2Proof.Machine

/-! ### How a decoder command ends -/

/-- A decoder command that raises, its preconditions met and the close of the error entry answered (R127). -/
theorem finish_decoder_raise {s : State} (hc : s.CloseAnswered) {e : ErrCode} (he : e ≠ .notReady)
    (info : DWord) : finish .decoder (.raise e info s) = .next (s.afterError true e info) := by
  rw [finish, enterError_of_closeAnswered hc, decide_eq_true ⟨rfl, he⟩]

/-- NOT_READY leaves DEC_STATE (R127). -/
theorem finish_decoder_notReady {s : State} (hc : s.CloseAnswered) (i : Instr) :
    finish .decoder (notReady i s) = .next (s.afterError false .notReady (wordInfo i)) :=
  enterError_of_closeAnswered hc .decoder .notReady (wordInfo i)

/-- R111: a byte's step code, as a number. -/
theorem byteCode_byteSymbol (b : Byte) :
    byteCode (byteSymbol b) = BitVec.ofNat 64 (1 + 256 * b.toNat) := by
  have hb := b.isLt
  have hor : 1 ||| b.toNat <<< 8 = b.toNat <<< 8 + 1 := by
    rw [Nat.or_comm, Nat.shiftLeft_add_eq_or_of_lt (by decide)]
  apply BitVec.eq_of_toNat_eq
  simp only [byteCode, byteSymbol, BitVec.toNat_or, BitVec.toNat_shiftLeft, BitVec.toNat_ofNat]
  rw [Nat.mod_eq_of_lt (a := b.toNat) (by omega), Nat.mod_eq_of_lt (a := 1) (by decide),
    Nat.mod_eq_of_lt (a := b.toNat <<< 8) (by rw [Nat.shiftLeft_eq]; omega), hor, Nat.shiftLeft_eq]
  omega

/-- What reads and the write of one byte have moved. -/
theorem State.moved_byte (s : State) (n : Nat) (b : Byte) (k : Nat) :
    s.moved n (bin b) k =
      { s with
        inPos := s.inPos + n, inBitsRead := s.inBitsRead + BitVec.ofNat 64 n,
        outBits := s.outBits ++ bin b, outBitsWritten := s.outBitsWritten + 8#64,
        txCount := s.txCount + k } := by
  rw [State.moved, bin_length]

theorem State.Quiet.closeAnswered {s : State} (h : s.Quiet) : s.CloseAnswered :=
  .inr (by rw [h.answer]; decide)

/-! ### DEC_START, and the states in which nothing walks -/

/-- Settles O44: the node at ROOT decides. -/
theorem decStartByTheRoot : Obligations.DecStartByTheRoot := by
  refine ⟨encodedNone_of_takeNone fun _ _ => rfl, fun s => ⟨fun l r w hv hn => ?internal,
    fun w hv hn => ?sentinel, fun b w hv hc hn => ?byte, fun hv hc => ?noTree⟩⟩
  case internal =>
    rw [exec, execDecStart, if_pos hv, hn]
    rfl
  case sentinel =>
    rw [exec, execDecStart, if_pos hv, hn]
    rfl
  case byte =>
    have hinfo : BitVec.ofNat 64 (byteSymbol b).val = b.setWidth 64 := BitVec.ofNat_toNat 64 b
    rw [exec, execDecStart, if_pos hv, hn]
    dsimp only
    rw [if_neg (byteSymbol_ne_sentinel b), hinfo, finish_decoder_raise hc (by decide)]
  case noTree =>
    rw [exec, execDecStart, if_neg (by simp [hv]), finish_decoder_notReady hc]
    rfl

/-- DONE is absorbing (R113 to R115). -/
theorem whenWalking_of_done {i : Instr} {s : State} (hd : s.decState = .done)
    (doneResult : DWord) (k : Res DWord) : whenWalking i s doneResult k = .ok doneResult s := by
  rw [whenWalking, hd]

theorem whenWalking_of_idle_or_error {i : Instr} {s : State}
    (hd : s.decState = .idle ∨ s.decState = .error) (doneResult : DWord) (k : Res DWord) :
    whenWalking i s doneResult k = notReady i s := by
  obtain hd | hd := hd <;> rw [whenWalking, hd]

/-- Settles O49: the shared head of the three commands decides. -/
theorem doneAbsorbsAndIdleIsNotReady : Obligations.DoneAbsorbsAndIdleIsNotReady := by
  refine fun s => ⟨fun hd => ⟨?_, ?_, ?_⟩, fun hd hc => ⟨?_, ?_, ?_⟩⟩
  · rw [exec, execDecBit, whenWalking_of_done hd, finish]
  · rw [exec, execDecSymbol, whenWalking_of_done hd, finish]
  · rw [exec, execDecStream, whenWalking_of_done hd, finish]
  · rw [exec, execDecBit, whenWalking_of_idle_or_error hd, finish_decoder_notReady hc]
    rfl
  · rw [exec, execDecSymbol, whenWalking_of_idle_or_error hd, finish_decoder_notReady hc]
    rfl
  · rw [exec, execDecStream, whenWalking_of_idle_or_error hd, finish_decoder_notReady hc]
    rfl

/-! ### One step of the walk -/

/-- Where the input is at its end the step raises TRUNCATED_STREAM (R111). -/
theorem decStep_of_end {s : State} (ha : s.answer = .accept) (hrest : s.restBits = []) :
    decStep s = .raise .truncatedStream s.inBitsRead s.countTx.exhaust := by
  rw [decStep, readBits_of_short ha (by rw [hrest]; exact Nat.one_pos), Res.bind_ok]
  rfl

theorem decStep_of_fail {s : State} (ha : s.answer = .fail) :
    decStep s = .raise .ioReadFail s.inBitsRead s.countTx := by
  rw [decStep, readBits_of_fail 1 ha, Res.bind_raise]

/-- A byte's leaf whose write fails (R111). -/
theorem arrive_byte_of_fail {s : State} {leaf : NodeIdx} {b : Byte} {w : Option Weight}
    (ho : s.outOpen = true) (ha : s.answer = .fail)
    (hn : nodeAt s.nodes leaf.toNat = some (.leaf (byteSymbol b) w)) :
    arrive leaf s = .raise .ioWriteFail s.outBitsWritten s.countTx := by
  rw [arrive, hn]
  dsimp only
  rw [if_neg (byteSymbol_ne_sentinel b), writeBits_of_fail _ ho ha, Res.bind_raise]

/-- Settles O45: one bit selects the child, and the child's node decides how the step ends. -/
theorem decBitTakesOneStep : Obligations.DecBitTakesOneStep := by
  intro s c l r w hq hd hc hn
  refine ⟨fun bit rest hrest => ?_, fun hrest => ?_⟩
  · have hstep := decStep_of_internal hq.answer hrest hc hn
    refine ⟨fun l' r' w' hchild => ?internal, fun w' hchild => ?sentinel,
      fun b w' ho hchild => ?byte⟩
    case internal =>
      rw [exec, execDecBit, whenWalking_of_walking hd, hstep,
        arrive_of_internal (s := s.moved 1 [] 1) hchild, State.moved_reads]
      rfl
    case sentinel =>
      rw [exec, execDecBit, whenWalking_of_walking hd, hstep,
        arrive_sentinel (s := s.moved 1 [] 1) hchild, State.moved_reads]
      rfl
    case byte =>
      rw [exec, execDecBit, whenWalking_of_walking hd, hstep,
        arrive_byte_of_accept (s := s.moved 1 [] 1) ho (hq.moved 1 [] 1).answer hchild,
        byteCode_byteSymbol, State.moved_moved, List.nil_append, State.moved_byte]
      rfl
  · rw [exec, execDecBit, whenWalking_of_walking hd, decStep_of_end hq.answer hrest,
      finish_decoder_raise hq.countTx.exhaust.closeAnswered (by decide)]
    rfl

end Sys2Proof.Machine

namespace Sys2Proof.Machine

/-! ### Where a walk stands -/

/-- A tree below an internal node has no path of no edge (R95). -/
theorem Tree.nil_not_mem_paths {f : Nat → Option Node} {i : Nat} {t : Tree} (hi : t.idx = i)
    (ht : t.StoredIn f) (hn : ∃ l r w, f i = some (.internal l r w)) (x : Symbol) :
    (x, []) ∉ t.paths := by
  intro hx
  obtain ⟨j, v, rfl⟩ := Tree.eq_leaf_of_mem_paths hx
  obtain ⟨l, r, w, hn⟩ := hn
  have hleaf : f j = some (.leaf x v) := ht
  obtain rfl : j = i := hi
  rw [hn] at hleaf
  cases hleaf

/-- The decoder walks, and stands at the top of `place`, a stored tree of two leaves or more (R111). -/
structure WalksAt (s : State) (place : Tree) : Prop where
  walking : s.decState = .walking
  cursor : ∃ cur, s.decCur = some cur ∧ place.idx = cur.toNat
  stored : place.StoredIn (nodeAt s.nodes)
  inner : ∀ x, (x, []) ∉ place.paths

theorem walksAt_of_readTree {s : State} {c : NodeIdx} {place : Tree} {d : Nat}
    (hw : s.decState = .walking) (hc : s.decCur = some c)
    (hn : ∃ l r w, nodeAt s.nodes c.toNat = some (.internal l r w))
    (hp : readTree s.nodes d c.toNat = some place) : WalksAt s place where
  walking := hw
  cursor := ⟨c, hc, readTree_idx hp⟩
  stored := storedIn_of_readTree hp
  inner := Tree.nil_not_mem_paths (readTree_idx hp) (storedIn_of_readTree hp) hn

/-- ROOT is the top of `tree`, a stored tree of two leaves or more. -/
structure RootedIn (s : State) (tree : Tree) : Prop where
  idx : tree.idx = s.root.toNat
  stored : tree.StoredIn (nodeAt s.nodes)
  inner : ∀ x, (x, []) ∉ tree.paths

theorem rootedIn_of_heldTree {s : State} {tree : Tree} (ht : s.heldTree = some tree)
    (hn : ∃ l r w, nodeAt s.nodes s.root.toNat = some (.internal l r w)) : RootedIn s tree where
  idx := readTree_idx ht
  stored := storedIn_of_readTree ht
  inner := Tree.nil_not_mem_paths (readTree_idx ht) (storedIn_of_readTree ht) hn

/-- The state of a walk at cursor c that has read n bits and written `out`, with k transactions. -/
def State.walkedTo (s : State) (n : Nat) (out : List Bool) (k : Nat) (c : Option NodeIdx) : State :=
  (s.moved n out k).setDec .walking c

theorem State.walkedTo_none {s : State} (hw : s.decState = .walking) :
    s.walkedTo 0 [] 0 s.decCur = s := by
  rw [State.walkedTo, State.moved_none, ← hw]
  rfl

theorem State.walkedTo_walkedTo (s : State) (n m : Nat) (out more : List Bool) (k j : Nat)
    (c d : Option NodeIdx) :
    (s.walkedTo n out k c).walkedTo m more j d =
      s.walkedTo (n + m) (out ++ more) (k + j) d := by
  show ((s.moved n out k).moved m more j).setDec .walking d = _
  rw [State.moved_moved, State.walkedTo]

@[simp] theorem State.walkedTo_restBits (s : State) (n : Nat) (out : List Bool) (k : Nat)
    (c : Option NodeIdx) : (s.walkedTo n out k c).restBits = s.restBits.drop n :=
  State.moved_restBits s n out k

/-- Transactions that have been made are none of those to come. -/
theorem State.acceptedBefore.walkedTo {s : State} {j : Nat} (h : s.acceptedBefore j) (n : Nat)
    (out : List Bool) (k : Nat) (c : Option NodeIdx) : (s.walkedTo n out k c).acceptedBefore j :=
  h.moved n out k

/-! ### The walk along a path -/

section
variable {s : State} {place : Tree} (h : WalksAt s place) {x : Symbol} {path rest : List Bool}
include h

/-- The first step on a path reaches the child that its first bit selects (R111). -/
theorem WalksAt.decStep {b : Bool} (hmem : (x, b :: path) ∈ place.paths)
    (ha : s.answer = .accept) (hrest : s.restBits = b :: rest) :
    ∃ (c : NodeIdx) (sub : Tree), Machine.decStep s = arrive c (s.moved 1 [] 1) ∧
      sub.idx = c.toNat ∧ sub.StoredIn (nodeAt s.nodes) ∧ (x, path) ∈ sub.paths := by
  obtain ⟨hw, ⟨cur, hc, hidx⟩, hst, -⟩ := h
  obtain ⟨i, w, tl, tr, rfl, hsub⟩ := Tree.eq_node_of_mem_paths hmem
  obtain ⟨l, r, hn, hchild⟩ := hst.child
  obtain ⟨hstb, hidxb⟩ := hchild b
  obtain rfl : i = cur.toNat := hidx
  exact ⟨_, _, decStep_of_internal ha hrest hc hn, hidxb, hstb, hsub⟩

/-- A step on a path before its last reaches an internal node (R111). -/
theorem WalksAt.decStep_inner {b : Bool} (hmem : (x, b :: path) ∈ place.paths) (hne : path ≠ [])
    (ha : s.answer = .accept) (hrest : s.restBits = b :: rest) :
    ∃ c sub, Machine.decStep s = .ok 0#64 (s.walkedTo 1 [] 1 c) ∧
      WalksAt (s.walkedTo 1 [] 1 c) sub ∧ (x, path) ∈ sub.paths := by
  obtain ⟨c, sub, hstep, hidx, hst, hsub⟩ := h.decStep hmem ha hrest
  obtain ⟨b', path, rfl⟩ := List.exists_cons_of_ne_nil hne
  obtain ⟨i, w, l, r, rfl, -⟩ := Tree.eq_node_of_mem_paths hsub
  obtain ⟨a, d, hn, -⟩ := hst.child
  obtain rfl : i = c.toNat := hidx
  refine ⟨some c, _, ?_, ⟨rfl, ⟨c, rfl, rfl⟩, hst, fun y => by simp [Tree.paths]⟩, hsub⟩
  rw [hstep, arrive_of_internal (s := s.moved 1 [] 1) hn, State.walkedTo, ← h.walking]
  rfl

/-- The last step on a path reaches the leaf at its end (R111). -/
theorem WalksAt.decStep_last {b : Bool} (hmem : (x, [b]) ∈ place.paths)
    (ha : s.answer = .accept) (hrest : s.restBits = b :: rest) :
    ∃ leaf w, Machine.decStep s = arrive leaf (s.moved 1 [] 1) ∧
      nodeAt s.nodes leaf.toNat = some (.leaf x w) := by
  obtain ⟨c, sub, hstep, hidx, hst, hsub⟩ := h.decStep hmem ha hrest
  obtain ⟨i, w, rfl⟩ := Tree.eq_leaf_of_mem_paths hsub
  obtain rfl : i = c.toNat := hidx
  exact ⟨c, w, hstep, hst⟩

end

/-- The walk along a part of a path that ends before its leaf (R111). -/
theorem WalksAt.descends {s : State} {place : Tree} (h : WalksAt s place) {x : Symbol}
    {part more rest : List Bool} (hmem : (x, part ++ more) ∈ place.paths) (hmore : more ≠ [])
    (hrest : s.restBits = part ++ rest) (hacc : s.acceptedBefore (s.txCount + part.length)) :
    ∃ c sub, Descends part.length s (s.walkedTo part.length [] part.length c) ∧
      WalksAt (s.walkedTo part.length [] part.length c) sub ∧ (x, more) ∈ sub.paths := by
  induction part generalizing s place with
  | nil =>
    have hself := State.walkedTo_none h.walking
    refine ⟨s.decCur, place, ?_, ?_, hmem⟩ <;> rw [List.length_nil, hself]
    · exact .refl s
    · exact h
  | cons b part ih =>
    obtain ⟨c, sub, hstep, hwalk, hsub⟩ := h.decStep_inner hmem
      (List.append_ne_nil_of_right_ne_nil _ hmore) (hacc.answer (by simp)) hrest
    obtain ⟨d, sub', hdesc, hwalk', hsub'⟩ := ih hwalk hsub
      (by rw [State.walkedTo_restBits, hrest]; rfl)
      ((hacc.walkedTo 1 [] 1 c).mono (by
        show s.txCount + 1 + part.length ≤ _
        rw [List.length_cons]
        omega))
    rw [State.walkedTo_walkedTo, List.nil_append, Nat.add_comm 1] at hdesc hwalk'
    exact ⟨d, sub', .step hstep hdesc, hwalk', hsub'⟩

/-- The walk along a whole path (R111). -/
theorem WalksAt.reaches_leaf {s : State} {place : Tree} (h : WalksAt s place) {x : Symbol}
    {path rest : List Bool} (hmem : (x, path) ∈ place.paths) (hrest : s.restBits = path ++ rest)
    (hacc : s.acceptedBefore (s.txCount + path.length)) :
    ∃ k u leaf w c, path.length = k + 1 ∧ Descends k s u ∧
      Machine.decStep u = arrive leaf (s.walkedTo path.length [] path.length c) ∧
      nodeAt s.nodes leaf.toNat = some (.leaf x w) := by
  obtain rfl | ⟨part, b, rfl⟩ := List.eq_nil_or_concat' path
  · exact absurd hmem (h.inner x)
  · rw [List.length_append, List.length_singleton] at hacc ⊢
    rw [List.append_assoc] at hrest
    obtain ⟨c, sub, hdesc, hwalk, hsub⟩ :=
      h.descends hmem (List.cons_ne_nil b []) hrest (hacc.mono (Nat.le_succ _))
    obtain ⟨leaf, w, hstep, hleaf⟩ := hwalk.decStep_last hsub
      (hacc _ (Nat.le_add_right _ _) (Nat.lt_succ_self _))
      (by rw [State.walkedTo_restBits, hrest, List.drop_left]; rfl)
    refine ⟨part.length, _, leaf, w, c, rfl, hdesc, hstep.trans ?_, hleaf⟩
    rw [← List.nil_append [], ← State.walkedTo_walkedTo]
    rfl

/-! ### DEC_SYMBOL -/

/-- A loop of the decoder has a turn for every bit that is left, and one more. -/
theorem inputBound_of_restBits {s : State} {bits rest : List Bool} (h : s.restBits = bits ++ rest) :
    inputBound s = rest.length + 1 + bits.length := by
  rw [inputBound, ← State.restBits_length, h, List.length_append]
  omega

theorem symbol_eq_sentinel_or_byte (x : Symbol) : x = sentinel ∨ ∃ b : Byte, x = byteSymbol b := by
  by_cases hx : x.val < 256
  · exact .inr ⟨BitVec.ofNatLT x.val hx, Fin.ext (by simp [byteSymbol])⟩
  · exact .inl (Fin.ext (Nat.le_antisymm (Nat.le_of_lt_succ x.isLt) (Nat.le_of_not_lt hx)))

/-- DEC_SYMBOL reads a path that the input begins with, and answers what the step to its leaf answers (R114). -/
theorem WalksAt.decSymbol {s : State} {place : Tree} (h : WalksAt s place) {x : Symbol}
    {path rest : List Bool} (hmem : (x, path) ∈ place.paths) (hrest : s.restBits = path ++ rest)
    (hacc : s.acceptedBefore (s.txCount + path.length)) :
    ∃ leaf w c, nodeAt s.nodes leaf.toNat = some (.leaf x w) ∧ ∀ r t,
      arrive leaf (s.walkedTo path.length [] path.length c) = .ok r t → r ≠ 0#64 →
      exec .decSymbol s = .next (t.respond true false r) := by
  obtain ⟨k, u, leaf, w, c, hk, hdesc, hstep, hleaf⟩ := h.reaches_leaf hmem hrest hacc
  refine ⟨leaf, w, c, hleaf, fun r t harrive hr => ?_⟩
  have hbound : inputBound s = rest.length + 1 + 1 + k := by
    rw [inputBound_of_restBits hrest, hk]
    omega
  rw [exec, execDecSymbol, whenWalking_of_walking h.walking, hbound, hdesc.symbolLoop, symbolLoop,
    hstep, harrive, Res.bind_ok, if_neg hr, finish]

/-! ### Errors on the way -/

/-- Command i, started in s, gets to the step that starts in u, and does no more than pass on what it raises
(R113 to R115). -/
def PassesOn (i : Instr) (s u : State) : Prop :=
  ∀ ⦃e info t⦄, decStep u = .raise e info t → exec i s = finish .decoder (.raise e info t)

theorem passesOn_decBit {s : State} (hw : s.decState = .walking) : PassesOn .decBit s s :=
  fun _ _ _ hraise => by rw [exec, execDecBit, whenWalking_of_walking hw, hraise]

theorem Descends.passesOn_decSymbol {k : Nat} {s u : State} (h : Descends k s u)
    (hw : s.decState = .walking) {rest : Nat} (hbound : inputBound s = rest + 1 + k) :
    PassesOn .decSymbol s u := fun _ _ _ hraise => by
  rw [exec, execDecSymbol, whenWalking_of_walking hw, hbound, h.symbolLoop, Machine.symbolLoop,
    hraise, Res.bind_raise]

section
variable {i : Instr} {s u : State} (h : PassesOn i s u)
include h

theorem PassesOn.truncated (ha : u.answer = .accept) (hrest : u.restBits = [])
    (hc : u.countTx.CloseAnswered) :
    exec i s = .next (u.countTx.exhaust.afterError true .truncatedStream u.inBitsRead) := by
  rw [h (decStep_of_end ha hrest), finish_decoder_raise (s := u.countTx.exhaust) hc (by decide)]

theorem PassesOn.readFails (ha : u.answer = .fail) (hc : u.countTx.CloseAnswered) :
    exec i s = .next (u.countTx.afterError true .ioReadFail u.inBitsRead) := by
  rw [h (decStep_of_fail ha), finish_decoder_raise hc (by decide)]

/-- The write of the byte whose leaf the next bit leads to fails (R111, R130). -/
theorem PassesOn.writeFails {place : Tree} (hu : WalksAt u place) {b : Byte} {bit : Bool}
    {rest : List Bool} (hmem : (byteSymbol b, [bit]) ∈ place.paths) (ho : u.outOpen = true)
    (hrest : u.restBits = bit :: rest) (ha : u.answer = .accept)
    (hfail : u.answerAt (u.txCount + 1) = .fail) (hc : (u.moved 1 [] 2).CloseAnswered) :
    exec i s = .next ((u.moved 1 [] 2).afterError true .ioWriteFail u.outBitsWritten) := by
  obtain ⟨leaf, w, hstep, hleaf⟩ := hu.decStep_last hmem ha hrest
  rw [arrive_byte_of_fail (s := u.moved 1 [] 1) ho hfail hleaf, State.moved_reads_outBitsWritten]
    at hstep
  rw [h hstep, finish_decoder_raise (s := (u.moved 1 [] 1).countTx) hc (by decide)]
  rfl

end

/-- Settles O46: the walk along the path ends in the leaf's arrival; along a part of a path it ends where the input
does. -/
theorem decSymbolFollowsThePath : Obligations.DecSymbolFollowsThePath := by
  intro s c sub x path hq hd hc hn hsub hmem
  have hwalk := walksAt_of_readTree hd hc hn hsub
  refine ⟨fun rest ho hrest => ?_, fun more hmore hpath => ?_⟩
  · obtain ⟨leaf, w, cur, hleaf, hexec⟩ := hwalk.decSymbol hmem hrest (hq.acceptedBefore _)
    obtain rfl | ⟨b, rfl⟩ := symbol_eq_sentinel_or_byte x
    · have harrive := arrive_sentinel
        (s := s.walkedTo path.length [] path.length cur) hleaf
      refine ⟨_, hexec _ _ harrive (by decide), fun _ => ?_,
        fun b hb => absurd hb.symm (byteSymbol_ne_sentinel b)⟩
      rw [State.walkedTo, State.moved_reads]
      rfl
    · have harrive := arrive_byte_of_accept
        (s := s.walkedTo path.length [] path.length cur) ho
        (hq.moved path.length [] path.length).answer hleaf
      refine ⟨_, hexec _ _ harrive (byteCode_ne_zero _),
        fun hb => absurd hb (byteSymbol_ne_sentinel b), fun b' hb => ?_⟩
      obtain rfl := byteSymbol_inj.mp hb
      have hback := s.walkedTo_walkedTo path.length 0 [] (bin b) path.length 1 cur (some s.root)
      rw [byteCode_byteSymbol]
      refine congrArg (State.respond · true false _) (hback.trans ?_)
      rw [List.nil_append, State.walkedTo, State.moved_byte, ← hd]
      rfl
  · rw [hpath] at hmem
    have hrest : s.restBits = s.restBits ++ [] := (List.append_nil _).symm
    obtain ⟨cur, place, hdesc, -, -⟩ := hwalk.descends hmem hmore hrest (hq.acceptedBefore _)
    have hpass := hdesc.passesOn_decSymbol hd (inputBound_of_restBits hrest)
    have hquiet := hq.moved s.restBits.length [] s.restBits.length
    rw [hpass.truncated hquiet.answer (by simp) hquiet.countTx.closeAnswered, State.walkedTo,
      State.moved_reads]
    rfl

/-! ### DEC_STREAM, byte after byte -/

theorem Tree.placeAfter_self (tree : Tree) (bytes : List Byte) : tree.placeAfter tree bytes = tree :=
  ite_self _

/-- A byte's path: the byte is emitted, and the walk is back at the root (R111, R115). -/
theorem WalksAt.streamLoop_byte {s : State} {place : Tree} (h : WalksAt s place)
    (ho : s.outOpen = true) {b : Byte} {path rest : List Bool}
    (hmem : (byteSymbol b, path) ∈ place.paths) (hrest : s.restBits = path ++ rest)
    (hacc : s.acceptedBefore (s.txCount + (path.length + 1))) (bound n : Nat) :
    streamLoop (bound + path.length) n s = streamLoop bound (n + 1)
      (s.walkedTo path.length (bin b) (path.length + 1) (some s.root)) := by
  obtain ⟨k, u, leaf, w, c, hk, hdesc, hstep, hleaf⟩ :=
    h.reaches_leaf hmem hrest (hacc.mono (Nat.le_succ _))
  have harrive := arrive_byte_of_accept (s := s.walkedTo path.length [] path.length c) ho
    (hacc.moved_answer path.length []) hleaf
  have hbit : (byteCode (byteSymbol b)).getLsbD 0 = true := by simp [byteCode]
  have hback := s.walkedTo_walkedTo path.length 0 [] (bin b) path.length 1 c (some s.root)
  have hbound : bound + path.length = bound + 1 + k := by omega
  rw [hbound, hdesc.streamLoop h.walking, streamLoop,
    if_pos (hdesc.decState.trans h.walking), hstep, harrive, Res.bind_ok, if_pos hbit]
  exact congrArg (streamLoop bound (n + 1)) hback

/-- The paths of some bytes: the bytes are emitted, and the walk stands behind them (R111, R115). -/
theorem WalksAt.streamLoop_spells {s : State} {tree place : Tree} (h : WalksAt s place)
    (hr : RootedIn s tree) {bytes : List Byte} {bits rest : List Bool}
    (hsp : tree.spells place bytes bits) (ho : s.outOpen = true ∨ bytes = [])
    (hrest : s.restBits = bits ++ rest)
    (hacc : s.acceptedBefore (s.txCount + (bits.length + bytes.length))) :
    ∃ c, WalksAt (s.walkedTo bits.length (bytes.flatMap fun b => bin b)
        (bits.length + bytes.length) c) (tree.placeAfter place bytes) ∧
      ∀ bound n, streamLoop (bound + bits.length) n s = streamLoop bound (n + bytes.length)
        (s.walkedTo bits.length (bytes.flatMap fun b => bin b) (bits.length + bytes.length) c) := by
  induction bytes generalizing s place bits with
  | nil =>
    obtain rfl : bits = [] := hsp
    have hself : s.walkedTo 0 [] 0 s.decCur = s := State.walkedTo_none h.walking
    exact ⟨s.decCur, hself.symm ▸ h, fun bound n => congrArg (streamLoop bound n) hself.symm⟩
  | cons b bytes ih =>
    obtain ⟨path, more, rfl, hmem, hsp⟩ := hsp
    have hopen : s.outOpen = true := ho.resolve_right (List.cons_ne_nil b bytes)
    rw [List.append_assoc] at hrest
    rw [List.length_append, List.length_cons] at hacc
    have hbyte := h.streamLoop_byte hopen hmem hrest (hacc.mono (by omega))
    obtain ⟨c, hwalk, hloop⟩ := ih
      (s := s.walkedTo path.length (bin b) (path.length + 1) (some s.root)) (place := tree)
      ⟨rfl, ⟨s.root, rfl, hr.idx⟩, hr.stored, hr.inner⟩ ⟨hr.idx, hr.stored, hr.inner⟩ hsp (.inl hopen)
      (by rw [State.walkedTo_restBits, hrest, List.drop_left])
      ((hacc.walkedTo _ _ _ _).mono (by
        show s.txCount + (path.length + 1) + (more.length + bytes.length) ≤ _
        omega))
    have hlen : path.length + 1 + (more.length + bytes.length) =
        (path ++ more).length + (b :: bytes).length := by
      rw [List.length_append, List.length_cons]
      omega
    rw [Tree.placeAfter_self, State.walkedTo_walkedTo, hlen, ← List.length_append] at hwalk
    refine ⟨c, hwalk, fun bound n => ?_⟩
    have hbound : bound + (path ++ more).length = bound + more.length + path.length := by
      rw [List.length_append]
      omega
    rw [hbound, hbyte, hloop, State.walkedTo_walkedTo, hlen, ← List.length_append, List.length_cons,
      Nat.add_assoc n, Nat.add_comm 1]
    rfl

/-- What the streamed bytes and the part of a path after them leave for a step to raise (R115). -/
theorem passesOn_decStream {s v u : State} {m j k rest : Nat} (hw : s.decState = .walking)
    (hloop : ∀ bound n, streamLoop (bound + m) n s = streamLoop bound (n + j) v)
    (hdesc : Descends k v u) (hv : v.decState = .walking)
    (hbound : inputBound s = rest + 1 + k + m) : PassesOn .decStream s u := fun _ _ _ hraise => by
  rw [exec, execDecStream, whenWalking_of_walking hw, hbound, hloop, hdesc.streamLoop hv, streamLoop,
    if_pos (hdesc.decState.trans hv), hraise, Res.bind_raise, Res.bind_raise]

theorem Descends.eq_of_zero {s u : State} (h : Descends 0 s u) : u = s := by
  cases h
  rfl

/-- The walk behind the paths of some bytes, and along a part of the next path: DEC_STREAM gets there, and where
there is no byte DEC_SYMBOL does, and DEC_BIT before any bit (R113 to R115). -/
theorem WalksAt.passesOn {s : State} {tree place : Tree} (h : WalksAt s place)
    (hr : RootedIn s tree) {bytes : List Byte} {bits part more rest : List Bool} {x : Symbol}
    (hsp : tree.spells place bytes bits) (ho : s.outOpen = true ∨ bytes = [])
    (hmem : (x, part ++ more) ∈ (tree.placeAfter place bytes).paths) (hmore : more ≠ [])
    {i : Instr} (hi : i = .decStream ∨ bytes = [] ∧ (i = .decSymbol ∨ i = .decBit ∧ part = []))
    (hrest : s.restBits = bits ++ part ++ rest)
    (hacc : s.acceptedBefore (s.txCount + (bits.length + bytes.length + part.length))) :
    ∃ u c sub, u = s.walkedTo (bits.length + part.length) (bytes.flatMap fun b => bin b)
        (bits.length + bytes.length + part.length) c ∧
      PassesOn i s u ∧ WalksAt u sub ∧ (x, more) ∈ sub.paths := by
  rw [List.append_assoc] at hrest
  obtain rfl | ⟨rfl, hi⟩ := hi
  · obtain ⟨c, hwalk, hloop⟩ := h.streamLoop_spells hr hsp ho hrest (hacc.mono (by omega))
    obtain ⟨d, sub, hdesc, hsub, hin⟩ := hwalk.descends hmem hmore (rest := rest)
      (by rw [State.walkedTo_restBits, hrest, List.drop_left])
      ((hacc.walkedTo _ _ _ _).mono (by
        show s.txCount + (bits.length + bytes.length) + part.length ≤ _
        omega))
    have hbound : inputBound s = rest.length + 1 + part.length + bits.length := by
      rw [inputBound_of_restBits hrest, List.length_append]
      omega
    refine ⟨_, d, sub, ?_, passesOn_decStream h.walking hloop hdesc hwalk.walking hbound, hsub, hin⟩
    rw [State.walkedTo_walkedTo, List.append_nil]
  · obtain rfl : bits = [] := hsp
    simp only [List.length_nil, Nat.zero_add] at hacc ⊢
    obtain ⟨d, sub, hdesc, hsub, hin⟩ := h.descends hmem hmore hrest hacc
    refine ⟨_, d, sub, rfl, ?_, hsub, hin⟩
    obtain rfl | ⟨rfl, rfl⟩ := hi
    · exact hdesc.passesOn_decSymbol h.walking (inputBound_of_restBits hrest)
    · rw [List.flatMap_nil, hdesc.eq_of_zero]
      exact passesOn_decBit h.walking

theorem Tree.nil_not_mem_placeAfter {tree place : Tree} (htree : ∀ x, (x, []) ∉ tree.paths)
    (hplace : ∀ x, (x, []) ∉ place.paths) (bytes : List Byte) (x : Symbol) :
    (x, []) ∉ (tree.placeAfter place bytes).paths := by
  cases bytes with
  | nil => exact hplace x
  | cons => exact htree x

/-! ### How a bit string leads through a tree -/

theorem Tree.exists_mem_paths (t : Tree) : ∃ x path, (x, path) ∈ t.paths := by
  induction t with
  | leaf i x w => exact ⟨x, [], List.mem_singleton_self _⟩
  | node i w l r ihl _ =>
    obtain ⟨x, path, hmem⟩ := ihl
    exact ⟨x, false :: path, by simpa [Tree.paths] using hmem⟩

theorem Tree.cons_mem_paths {i : Nat} {w : Option Weight} {l r : Tree} {x : Symbol} {b : Bool}
    {path : List Bool} (h : (x, path) ∈ (if b then r else l).paths) :
    (x, b :: path) ∈ (Tree.node i w l r).paths := by
  cases b <;> simpa [Tree.paths] using h

/-- Every bit string begins with a path of the tree or is a part of one that ends before its leaf (R95). -/
theorem Tree.path_or_part (t : Tree) (bits : List Bool) :
    (∃ x path rest, (x, path) ∈ t.paths ∧ bits = path ++ rest) ∨
      ∃ x more, more ≠ [] ∧ (x, bits ++ more) ∈ t.paths := by
  induction t generalizing bits with
  | leaf i x w => exact .inl ⟨x, [], bits, List.mem_singleton_self _, rfl⟩
  | node i w l r ihl ihr =>
    cases bits with
    | nil =>
      obtain ⟨x, path, hmem⟩ := l.exists_mem_paths
      exact .inr ⟨x, false :: path, List.cons_ne_nil _ _, Tree.cons_mem_paths (b := false) hmem⟩
    | cons b bits =>
      have ih : (∃ x path rest, (x, path) ∈ (if b then r else l).paths ∧ bits = path ++ rest) ∨
          ∃ x more, more ≠ [] ∧ (x, bits ++ more) ∈ (if b then r else l).paths := by
        cases b
        · exact ihl bits
        · exact ihr bits
      obtain ⟨x, path, rest, hmem, rfl⟩ | ⟨x, more, hmore, hmem⟩ := ih
      · exact .inl ⟨x, b :: path, rest, Tree.cons_mem_paths hmem, rfl⟩
      · exact .inr ⟨x, more, hmore, Tree.cons_mem_paths hmem⟩

/-- How a bit string ends for a walk that stands at `place`: behind the path of the sentinel, with `rest` after it,
or within a path (R111, R117). -/
def Tree.Leads (place : Tree) (bits : List Bool) : Prop :=
  (∃ path rest, (sentinel, path) ∈ place.paths ∧ bits = path ++ rest) ∨
    ∃ x more, more ≠ [] ∧ (x, bits ++ more) ∈ place.paths

/-- Every bit string spells some bytes, and behind them it meets the sentinel or ends within a path (R117). -/
theorem Tree.exists_spells {tree : Tree} (htree : ∀ x, (x, []) ∉ tree.paths) (place : Tree)
    (hplace : ∀ x, (x, []) ∉ place.paths) (input : List Bool) :
    ∃ bytes bits left, input = bits ++ left ∧ tree.spells place bytes bits ∧
      (tree.placeAfter place bytes).Leads left := by
  induction hn : input.length using Nat.strong_induction_on generalizing input place with
  | _ n ih =>
    obtain ⟨x, path, rest, hmem, rfl⟩ | hpart := place.path_or_part input
    · obtain rfl | ⟨b, rfl⟩ := symbol_eq_sentinel_or_byte x
      · exact ⟨[], [], _, rfl, rfl, .inl ⟨path, rest, hmem, rfl⟩⟩
      · have hpath : path ≠ [] := fun hnil => hplace _ (hnil ▸ hmem)
        have hlt : rest.length < n := by
          rw [← hn, List.length_append]
          exact Nat.lt_add_of_pos_left (List.length_pos_iff.mpr hpath)
        obtain ⟨bytes, bits, left, rfl, hsp, hleads⟩ := ih _ hlt tree htree rest rfl
        rw [Tree.placeAfter_self] at hleads
        exact ⟨b :: bytes, path ++ bits, left, (List.append_assoc ..).symm,
          ⟨path, bits, rfl, hmem, hsp⟩, hleads⟩
    · exact ⟨[], [], input, rfl, rfl, .inr hpart⟩

/-! ### DEC_STREAM to its end -/

/-- The sentinel's path behind the paths of some bytes: the walk ends (R115, R117). -/
theorem WalksAt.decStream {s : State} {tree place : Tree} (h : WalksAt s place)
    (hr : RootedIn s tree) {bytes : List Byte} {bits path rest : List Bool}
    (hsp : tree.spells place bytes bits) (ho : s.outOpen = true ∨ bytes = [])
    (hmem : (sentinel, path) ∈ (tree.placeAfter place bytes).paths)
    (hrest : s.restBits = bits ++ path ++ rest)
    (hacc : s.acceptedBefore (s.txCount + (bits.length + bytes.length + path.length))) :
    exec .decStream s = .next (((s.moved (bits.length + path.length)
      (bytes.flatMap fun b => bin b) (bits.length + bytes.length + path.length)).setDec
        .done none).respond true false (BitVec.ofNat 64 bytes.length)) := by
  rw [List.append_assoc] at hrest
  obtain ⟨c, hwalk, hloop⟩ := h.streamLoop_spells hr hsp ho hrest (hacc.mono (by omega))
  obtain ⟨k, u, leaf, w, d, hk, hdesc, hstep, hleaf⟩ := hwalk.reaches_leaf hmem (rest := rest)
    (by rw [State.walkedTo_restBits, hrest, List.drop_left])
    ((hacc.walkedTo _ _ _ _).mono (by
      show s.txCount + (bits.length + bytes.length) + path.length ≤ _
      omega))
  have hend := hstep.trans (arrive_sentinel hleaf)
  rw [State.walkedTo_walkedTo, List.append_nil] at hend
  have hbound : inputBound s = rest.length + 1 + 1 + k + bits.length := by
    rw [inputBound_of_restBits hrest, List.length_append]
    omega
  rw [exec, execDecStream, whenWalking_of_walking h.walking, hbound, hloop,
    hdesc.streamLoop hwalk.walking, streamLoop, if_pos (hdesc.decState.trans hwalk.walking), hend,
    Res.bind_ok, streamLoop, if_neg nofun, if_neg (by decide), Nat.zero_add]
  rfl

/-- Settles O47: the codes are paths from the root, which the walk follows one after the other. -/
theorem decStreamDecodesTheBody : Obligations.DecStreamDecodesTheBody := by
  intro s tree code bytes rest hq ho hw hc hn hheld hcode hend hrest
  have hroot := rootedIn_of_heldTree hheld hn
  have hwalk : WalksFromRoot s tree :=
    ⟨hq, ho, hw, hc, hroot.idx, hroot.stored, hroot.inner⟩
  obtain ⟨k, hexec⟩ := hwalk.decStream hcode hend hrest
  refine ⟨_, hexec, ?_⟩
  have hne : 0 < (code sentinel).length :=
    List.length_pos_iff.mpr fun hnil => hroot.inner sentinel (hnil ▸ hend)
  have hlen := s.restBits_length
  rw [hrest, List.length_append] at hlen
  have hread : (bodyOf code bytes ++ code sentinel).length =
      s.inBits.length - rest.length - s.inPos := by
    rw [bodyOf]
    omega
  have hpos : s.inBits.length - rest.length =
      s.inPos + (s.inBits.length - rest.length - s.inPos) := by
    rw [List.length_append] at hlen
    omega
  have hout : (bytes.flatMap fun b => bin b).length = 8 * bytes.length := by
    simp [List.length_flatMap, Nat.mul_comm]
  rw [hread, State.moved, hout, ← hpos]
  rfl

/-! ### How DEC_STREAM ends -/

/-- Below every index of a tree that is read, a tree is read. -/
theorem readTree_of_mem_indices {nodes : NodeTable} {d i j : Nat} {t : Tree}
    (h : readTree nodes d i = some t) (hj : j ∈ t.indices) : ∃ sub, readTree nodes d j = some sub := by
  induction d generalizing i t with
  | zero => cases h
  | succ d ih =>
    have htop := h
    rw [readTree] at h
    split at h
    · cases h
    · cases h
      exact ⟨_, List.mem_singleton.mp hj ▸ htop⟩
    · split at h
      · rename_i hl hr
        cases h
        rw [Tree.indices, List.mem_cons, List.mem_append] at hj
        obtain rfl | hj | hj := hj
        · exact ⟨_, htop⟩
        · exact (ih hl hj).imp fun _ => readTree_deeper
        · exact (ih hr hj).imp fun _ => readTree_deeper
      · cases h

/-- While walking, the cursor and ROOT each stand at the top of a stored tree of two leaves or more (R27, R31). -/
theorem State.DecInv.walks {s : State} (hd : s.DecInv) (ht : s.TreeInv) (hw : s.decState = .walking) :
    ∃ c tree sub, s.decCur = some c ∧ s.heldTree = some tree ∧
      readTree s.nodes Config.nodeCap c.toNat = some sub ∧ WalksAt s sub ∧ RootedIn s tree := by
  obtain ⟨hv, c, l, r, w, hc, hlt, hn⟩ := hd.2 hw
  obtain ⟨tree, hheld, hfills, -, -⟩ := ht.held hv
  obtain ⟨sub, hsub⟩ := readTree_of_mem_indices hheld (hfills.mem_indices.mpr hlt)
  exact ⟨c, tree, sub, hc, hheld, hsub, walksAt_of_readTree hw hc ⟨l, r, w, hn⟩ hsub,
    rootedIn_of_heldTree hheld (ht.root_internal hv hlt hn)⟩

section
variable {s : State} {tree place : Tree} (h : WalksAt s place) (hr : RootedIn s tree)
  {bytes : List Byte} {bits : List Bool} (hsp : tree.spells place bytes bits)
  (ho : s.outOpen = true ∨ bytes = []) {i : Instr}
include h hr hsp

section
variable {x : Symbol} {part more : List Bool} (hmore : more ≠ [])
  (hmem : (x, part ++ more) ∈ (tree.placeAfter place bytes).paths)
  (hi : i = .decStream ∨ bytes = [] ∧ (i = .decSymbol ∨ i = .decBit ∧ part = []))
  {u : State} (hu : u = s.moved (bits.length + part.length) (bytes.flatMap fun b => bin b)
    (bits.length + bytes.length + part.length + 1))
include ho hmore hmem hi hu

/-- The input ends within a path (R111, R130). -/
theorem WalksAt.truncated (hrest : s.restBits = bits ++ part) (hacc : s.acceptedBefore u.txCount)
    (hc : u.CloseAnswered) :
    exec i s = .next ({ u with inPos := s.inBits.length, inExhausted := true }.afterError
      true .truncatedStream u.inBitsRead) := by
  subst hu
  obtain ⟨v, c, sub, rfl, hpass, -, -⟩ := h.passesOn hr hsp ho hmem hmore hi (rest := [])
    (by rw [hrest, List.append_nil]) (hacc.mono (Nat.le_succ _))
  exact hpass.truncated (hacc _ (Nat.le_add_right _ _) (Nat.lt_succ_self _))
    (by rw [State.walkedTo_restBits, hrest, ← List.length_append, List.drop_length]) hc

/-- A read within a path fails (R111, R130). -/
theorem WalksAt.readFails {rest : List Bool} (hrest : s.restBits = bits ++ part ++ rest)
    (hfail : s.failsAfter (bits.length + bytes.length + part.length)) (hc : u.CloseAnswered) :
    exec i s = .next (u.afterError true .ioReadFail u.inBitsRead) := by
  subst hu
  obtain ⟨v, c, sub, rfl, hpass, -, -⟩ := h.passesOn hr hsp ho hmem hmore hi hrest hfail.1
  exact hpass.readFails hfail.2 hc

end

/-- The write of the byte at the end of a path fails (R111, R130). -/
theorem WalksAt.writeFails {b : Byte} {path rest : List Bool}
    (hmem : (byteSymbol b, path) ∈ (tree.placeAfter place bytes).paths)
    (hi : i = .decStream ∨ bytes = [] ∧ (i = .decSymbol ∨ i = .decBit ∧ path.length = 1))
    (hrest : s.restBits = bits ++ path ++ rest) (ho : s.outOpen = true)
    (hfail : s.failsAfter (bits.length + bytes.length + path.length)) {u : State}
    (hu : u = s.moved (bits.length + path.length) (bytes.flatMap fun b => bin b)
      (bits.length + bytes.length + path.length + 1)) (hc : u.CloseAnswered) :
    exec i s = .next (u.afterError true .ioWriteFail u.outBitsWritten) := by
  subst hu
  obtain rfl | ⟨part, bit, rfl⟩ := List.eq_nil_or_concat' path
  · exact absurd hmem (Tree.nil_not_mem_placeAfter hr.inner h.inner bytes _)
  · obtain ⟨hacc, hfail⟩ := hfail
    have hi' : i = .decStream ∨ bytes = [] ∧ (i = .decSymbol ∨ i = .decBit ∧ part = []) := by
      simpa using hi
    have hrest' : s.restBits = bits ++ part ++ (bit :: rest) := by simp [hrest]
    rw [List.length_append, List.length_singleton] at hacc hfail hc ⊢
    obtain ⟨v, c, sub, rfl, hpass, hwalk, hin⟩ := h.passesOn hr hsp (.inl ho) hmem
      (List.cons_ne_nil bit []) hi' hrest' (hacc.mono (by omega))
    have hthere := State.moved_moved s (bits.length + part.length) 1 (bytes.flatMap fun b => bin b) []
      (bits.length + bytes.length + part.length) 2
    rw [List.append_nil] at hthere
    rw [← Nat.add_assoc bits.length, ← Nat.add_assoc (bits.length + bytes.length), Nat.add_assoc _ 1 1,
      ← hthere] at hc ⊢
    rw [State.moved_reads_outBitsWritten]
    exact hpass.writeFails hwalk hin ho
      (by rw [State.walkedTo_restBits, hrest', ← List.length_append, List.drop_left])
      (hacc _ (Nat.le_add_right _ _) (Nat.lt_succ_self _)) hfail hc

end

/-- Settles O48: every input spells some bytes and then meets the sentinel or ends within a path, and the walk along
them passes on what the step behind them raises. -/
theorem decStreamEndsDoneOrTruncated : Obligations.DecStreamEndsDoneOrTruncated := by
  refine ⟨fun s ht hd hq ho herr hw => ?_,
    fun i s c tree sub bytes bits hw hc hn hsub hheld hroot hsp ho =>
      ⟨fun x part more hmore hmem hi u hu => ?_, fun b path rest hmem hi hrest hopen hfail u hu =>
        ?_⟩⟩
  · obtain ⟨c, tree, sub, hc, hheld, hsub, hwalk, hroot⟩ := hd.walks ht hw
    obtain ⟨bytes, bits, left, hrest, hsp, ⟨path, rest, hmem, rfl⟩ | ⟨x, more, hmore, hmem⟩⟩ :=
      Tree.exists_spells hroot.inner sub hwalk.inner s.restBits
    · have hexec := hwalk.decStream hroot hsp (.inl ho) hmem
        (hrest.trans (List.append_assoc ..).symm) (hq.acceptedBefore _)
      have hne : path ≠ [] := fun hnil =>
        Tree.nil_not_mem_placeAfter hroot.inner hwalk.inner bytes _ (hnil ▸ hmem)
      refine ⟨_, c, tree, sub, bytes, bits, hexec, hc, hheld, hsub, hsp, rfl,
        .inl ⟨herr, rfl, ?_, path, rest, hmem, hrest.trans (List.append_assoc ..).symm, rfl⟩⟩
      exact Nat.lt_add_of_pos_right
        (Nat.lt_add_left bits.length (List.length_pos_iff.mpr hne))
    · have hexec := hwalk.truncated hroot hsp (.inl ho) hmore hmem (.inl rfl) rfl hrest
        (hq.acceptedBefore _) (hq.moved _ _ _).closeAnswered
      exact ⟨_, c, tree, sub, bytes, bits, hexec, hc, hheld, hsub, hsp, rfl,
        .inr ⟨rfl, rfl, rfl, rfl, x, left, more, hmore, hmem, hrest⟩⟩
  · have hwalk := walksAt_of_readTree hw hc hn hsub
    have hr := rootedIn_of_heldTree hheld hroot
    exact ⟨hwalk.truncated hr hsp ho hmore hmem hi hu,
      fun rest => hwalk.readFails hr hsp ho hmore hmem hi hu⟩
  · exact (walksAt_of_readTree hw hc hn hsub).writeFails (rootedIn_of_heldTree hheld hroot) hsp hmem
      hi hrest hopen hfail hu

end Sys2Proof.Machine

namespace Sys2Proof.Machine

/-! ### The control commands -/

/-- A SYM outside the class `sel` is illegal (R67). -/
theorem takeSel_of_gt {sym : SymField} (h : 1 < sym.toNat) (f : BitVec 1 → Instr) :
    takeSel sym f = .illegal .symOutOfClass := if_neg (Nat.not_le.mpr h)

/-- Settles O16: none of the three asks a channel or checks anything, so each is its response on the registers it
leaves. -/
theorem controlRegisterCommandsComplete : Obligations.ControlRegisterCommandsComplete := by
  refine ⟨encodedNone_of_takeNone fun _ _ => rfl, encodedNone_of_takeNone fun _ _ => rfl,
    fun arg => ⟨?zero, ?one⟩, fun sym arg h => ?illegal, fun s => ⟨rfl, rfl, rfl, rfl⟩⟩
  case zero => exact (decode_commandWord 0x05#8 0#9 arg).trans (takeSel_setWidth 0#1 .cntRead)
  case one => exact (decode_commandWord 0x05#8 1#9 arg).trans (takeSel_setWidth 1#1 .cntRead)
  case illegal => exact (decode_commandWord 0x05#8 sym arg).trans (takeSel_of_gt h .cntRead)

section
variable {s : State}

theorem chanReset_of_accept (ha : s.answer = .accept) :
    chanReset s = .ok () s.countTx.rewind := by simp [chanReset, ha]

theorem chanReset_of_fail (ha : s.answer = .fail) :
    chanReset s = .raise .ioReadFail s.inBitsRead s.countTx := by simp [chanReset, ha]

theorem chanReset_of_silent (ha : s.answer = .silent) :
    chanReset s = .stop .channelSilent := by simp [chanReset, ha]

/-- R51: the close of a closed output asks no channel. -/
theorem chanClose_of_shut (ho : s.outOpen = false) : chanClose s = .answered true s := by
  simp [chanClose, ho]

theorem chanClose_of_accept (ho : s.outOpen = true) (ha : s.answer = .accept) :
    chanClose s = .answered true s.shutOut.countTx.closeChannel := by simp [chanClose, ho, ha]

theorem chanClose_of_fail (ho : s.outOpen = true) (ha : s.answer = .fail) :
    chanClose s = .answered false s.shutOut.countTx := by simp [chanClose, ho, ha]

theorem chanClose_of_silent (ho : s.outOpen = true) (ha : s.answer = .silent) :
    chanClose s = .silent := by simp [chanClose, ho, ha]

end

/-- Settles O17: IN_RESET is one reset of the input and OUT_CLOSE one close of the output, each with its ends. The
error entry after a failed close finds the output closed, so it asks no channel again. -/
theorem channelControlCommands : Obligations.ChannelControlCommands := by
  refine ⟨encodedNone_of_takeNone fun _ _ => rfl, encodedNone_of_takeNone fun _ _ => rfl,
    fun s => ⟨fun ha => ?resetAccept, fun ha hc => ?resetFail, fun ha => ?resetSilent,
      fun ho => ?closeShut, fun ho ha => ?closeAccept, fun ho ha => ?closeFail,
      fun ho ha => ?closeSilent⟩⟩
  case resetAccept =>
    rw [exec, execInReset, chanReset_of_accept ha]
    rfl
  case resetFail =>
    rw [exec, execInReset, chanReset_of_fail ha]
    exact finish_raise_of_closeAnswered hc .ioReadFail s.inBitsRead
  case resetSilent =>
    rw [exec, execInReset, chanReset_of_silent ha]
    rfl
  case closeShut =>
    rw [exec, execOutClose, chanClose_of_shut ho]
    rfl
  case closeAccept =>
    rw [exec, execOutClose, chanClose_of_accept ho ha]
    rfl
  case closeFail =>
    rw [exec, execOutClose, chanClose_of_fail ho ha]
    exact finish_raise_of_shut (s := s.shutOut.countTx) rfl .ioWriteFail s.outBitsWritten
  case closeSilent => rw [exec, execOutClose, chanClose_of_silent ho ha]

end Sys2Proof.Machine

namespace Sys2Proof.Machine

/-! ### Rejection, the error entry and reset -/

/-- R128: under a latched error every word but the one of ERR_CLEAR is rejected. -/
theorem issue_of_latched {w arg : Word} {s : State} (herr : s.err = true) (hw : w ≠ 0x00000002#32) :
    issue w arg s = .next (reject s) := by
  have hr : rejects w s = true := by simp [rejects, herr, hw]
  rw [issue, if_pos hr]

/-- Settles O8: the word is rejected whatever it decodes to, and the response shows the latched registers. -/
theorem latchedErrorRejects : Obligations.LatchedErrorRejects := by
  intro s w arg rest herr hw hhost
  obtain ⟨-, -, hbits⟩ := statusWordFields
  obtain ⟨hok, herrbit, hrej, -, -, -, -, -, -, -, -, hcode, -⟩ := hbits false true (s.setHost rest)
  have hstep : step s = .next (reject (s.setHost rest)) :=
    (step_of_host_command hhost).trans (issue_of_latched (s := s.setHost rest) herr hw)
  exact ⟨statusWord false true (s.setHost rest), hstep, hok, herrbit.trans herr, hrej, hcode⟩

/-- R49, R127: the error entry waits for its close. -/
theorem enterError_of_silent {s : State} (ho : s.outOpen = true) (ha : s.answer = .silent)
    (u : CmdKind) (e : ErrCode) (info : DWord) : enterError u e info s = .fault .channelSilent := by
  have hopen : (latchError u e info s).outOpen = true := by rw [latchError_eq]; exact ho
  have hans : (latchError u e info s).answer = .silent := (latchError_answer u e info s).trans ha
  rw [enterError, chanClose_of_silent hopen hans]

/-- Settles O12: an answered close gives the state of the table, and one that is never answered gives none. -/
theorem errorEntryLatchesAndCloses : Obligations.ErrorEntryLatchesAndCloses := fun u e info _ =>
  ⟨fun hc => enterError_of_closeAnswered hc u e info, fun ho ha => enterError_of_silent ho ha u e info⟩

/-- R143, R145: a reset at the head of the host's list is taken, also in place of a command. -/
theorem step_of_host_reset {s : State} {fresh : Channels} {rest : List HostAct} {w arg : Word}
    (h : s.host = .reset fresh :: rest ∨ s.host = .resetDuring w arg fresh :: rest) :
    step s = .next (s.afterReset fresh rest) := by
  rcases h with h | h <;> rw [step, takeAct, h]

/-- R142: the reset table does not depend on the state before, the fresh channels or the host's acts. -/
theorem afterReset_atReset (s : State) (fresh : Channels) (rest : List HostAct) :
    (s.afterReset fresh rest).AtReset where
  freq x := Vector.getElem_replicate x.isLt
  node := nodeAt_absent
  codes x := ⟨Vector.getElem_replicate x.isLt, Vector.getElem_replicate x.isLt,
    Vector.getElem_replicate x.isLt⟩
  treeValid := rfl
  treeSrc := rfl
  root := rfl
  nodeCount := rfl
  leafCount := rfl
  codesValid := rfl
  encEnded := rfl
  decState := rfl
  decCur := rfl
  err := rfl
  errCode := rfl
  errInfo := rfl
  outOpen := rfl
  inExhausted := rfl
  inBitsRead := rfl
  outBitsWritten := rfl

/-- R35, R142: STATUS after a reset shows OUT_OPEN alone, beside OK. -/
theorem afterReset_statusWord (s : State) (fresh : Channels) (rest : List HostAct) :
    statusWord false false (s.afterReset fresh rest) = 0x80#32 ∧
      statusWord true false (s.afterReset fresh rest) = 0x81#32 := by
  have hreset : ∀ ok, statusWord ok false (s.afterReset fresh rest) = statusWord ok false State.reset :=
    fun _ => rfl
  rw [hreset, hreset]
  decide

/-- Settles O9: both kinds of reset leave `State.afterReset`, which has the table and the fresh channels. -/
theorem resetGivesTheResetTable : Obligations.ResetGivesTheResetTable :=
  ⟨fun s fresh rest _ _ h => ⟨s.afterReset fresh rest, step_of_host_reset h,
      afterReset_atReset s fresh rest, rfl, rfl, rfl, rfl, rfl, rfl,
      afterReset_statusWord s fresh rest⟩,
    afterReset_atReset State.reset ⟨[], []⟩ []⟩

end Sys2Proof.Machine

namespace Sys2Proof.Machine

/-! ### The transactions and errors of a command -/

/-- In command i state t is reached from s with every transaction accepted; ERR stays, and so does OUT_OPEN but
in OUT_CLOSE (R48, R51). -/
structure Accepts (i : Instr) (s t : State) : Prop where
  answers : t.txAnswers = s.txAnswers
  count : s.txCount ≤ t.txCount
  accepted : s.acceptedBefore t.txCount
  outOpen : i ≠ .outClose → t.outOpen = s.outOpen
  err : t.err = s.err

/-- The errors raised before a command does anything: those of the checks (R126, R130), and CONSTRUCTION (R89). -/
def earlyErrors : List ErrCode :=
  [.illegalCommand, .notReady, .badOperand, .streamEnded, .construction]

/-- The errors that a failed transaction raises (R48). -/
def channelFailures : List ErrCode := [.ioReadFail, .ioWriteFail]

theorem not_mem_channelFailures_of_early {e : ErrCode} (he : e ∈ earlyErrors) :
    e ∉ channelFailures :=
  (by decide : ∀ e ∈ earlyErrors, e ∉ channelFailures) e he

/-- Command i, started in c, may raise e(info) in t once it has come to s: by the table of errors (R124), in c itself
for an early error (R130), and at the first failed transaction for a channel failure (R48). -/
structure RaisesBy (i : Instr) (c s : State) (e : ErrCode) (info : DWord) (t : State) : Prop where
  listed : e ∈ mayRaise i
  fits : infoFits i c (t.latch e info)
  early : e ∈ earlyErrors → t = c
  accepted : e ∉ channelFailures → s.acceptedBefore t.txCount
  failed : e ∈ channelFailures →
    ∃ u, Accepts i s u ∧ u.answer = .fail ∧ t.txCount = u.txCount + 1
  outOpen : i ≠ .outClose → t.outOpen = s.outOpen

/-- The pseudocode is a part of command i, which was started in c and has come to s: it ends with a value after
accepted transactions only, and raises only as the command may. -/
def Res.Follows {α : Type} (i : Instr) (c s : State) (r : Res α) : Prop :=
  r.Ends (fun _ t => Accepts i s t) (fun e info t => RaisesBy i c s e info t) (fun _ => True)

section
variable {i : Instr} {c s t u : State}

/-- Updates of the registers alone reach a state without a transaction. -/
theorem Accepts.still (ha : t.txAnswers = s.txAnswers) (hn : t.txCount = s.txCount)
    (ho : t.outOpen = s.outOpen) (he : t.err = s.err) : Accepts i s t where
  answers := ha
  count := hn.ge
  accepted := hn ▸ s.acceptedBefore_self
  outOpen _ := ho
  err := he

theorem Accepts.refl (s : State) : Accepts i s s := .still rfl rfl rfl rfl

theorem Accepts.setFreq (s : State) (f : FreqTable) : Accepts i s (s.setFreq f) :=
  .still rfl rfl rfl rfl

theorem Accepts.setCount (s : State) (x : Symbol) (v : Word) : Accepts i s (s.setCount x v) :=
  .setFreq s _

theorem Accepts.unlatch (herr : s.err = false) : Accepts i s s.unlatch :=
  .still rfl rfl rfl herr.symm

/-- One accepted transaction. -/
theorem Accepts.transaction (h : s.answer = .accept) (ha : t.txAnswers = s.txAnswers)
    (hn : t.txCount = s.txCount + 1) (ho : i ≠ .outClose → t.outOpen = s.outOpen)
    (he : t.err = s.err) : Accepts i s t where
  answers := ha
  count := by omega
  accepted := hn ▸ (s.acceptedBefore_succ s.txCount).mpr ⟨s.acceptedBefore_self, fun _ => h⟩
  outOpen := ho
  err := he

theorem Accepts.answerAt (h : Accepts i s t) (k : Nat) : t.answerAt k = s.answerAt k := by
  rw [State.answerAt, State.answerAt, h.answers]

/-- What is accepted from t on is accepted from s on. -/
theorem Accepts.acceptedBefore (h : Accepts i s t) {n : Nat} (hn : t.acceptedBefore n) :
    s.acceptedBefore n := by
  intro k hk hlt
  rcases Nat.lt_or_ge k t.txCount with hkt | hkt
  · exact h.accepted k hk hkt
  · rw [← h.answerAt]
    exact hn k hkt hlt

theorem Accepts.trans (h : Accepts i s t) (h' : Accepts i t u) : Accepts i s u where
  answers := h'.answers.trans h.answers
  count := h.count.trans h'.count
  accepted := h.acceptedBefore h'.accepted
  outOpen hi := (h'.outOpen hi).trans (h.outOpen hi)
  err := h'.err.trans h.err

theorem RaisesBy.after {e : ErrCode} {info : DWord} (h : Accepts i s t)
    (hr : RaisesBy i c t e info u) : RaisesBy i c s e info u where
  listed := hr.listed
  fits := hr.fits
  early := hr.early
  accepted he := h.acceptedBefore (hr.accepted he)
  failed he := by
    obtain ⟨v, hv, hfail, hn⟩ := hr.failed he
    exact ⟨v, h.trans hv, hfail, hn⟩
  outOpen hi := (hr.outOpen hi).trans (h.outOpen hi)

/-! ### Sequences, and the two kinds of raise that ask no channel -/

variable {α β : Type}

theorem Res.Follows.ok (a : α) (h : Accepts i s t) : (Res.ok a t).Follows i c s := h

theorem Res.Follows.stop (f : Fault) : (Res.stop f : Res α).Follows i c s := trivial

theorem Res.Follows.after {r : Res α} (h : Accepts i s t) (hr : r.Follows i c t) : r.Follows i c s :=
  Res.Ends.mono hr (fun _ _ hu => h.trans hu) (fun _ _ _ hu => hu.after h) fun _ hx => hx

theorem Res.Follows.bind {r : Res α} {f : α → State → Res β} (hr : r.Follows i c s)
    (hf : ∀ a t, r = .ok a t → (f a t).Follows i c t) : (r.bind f).Follows i c s := by
  cases r with
  | ok a t => exact (hf a t rfl).after hr
  | raise e info t => exact hr
  | stop x => exact hr

/-- An error of the data, raised where accepted transactions have led to. -/
theorem Res.Follows.raise {e : ErrCode} {info : DWord} (hl : e ∈ mayRaise i)
    (he : e ∉ earlyErrors ∧ e ∉ channelFailures) (hf : infoFits i c (s.latch e info)) :
    (Res.raise e info s : Res α).Follows i c s where
  listed := hl
  fits := hf
  early h := absurd h he.1
  accepted _ := s.acceptedBefore_self
  failed h := absurd h he.2
  outOpen _ := rfl

/-- An early error, raised where the command started. -/
theorem Res.Follows.refuse {e : ErrCode} {info : DWord} (hl : e ∈ mayRaise i) (he : e ∈ earlyErrors)
    (hf : infoFits i s (s.latch e info)) : (Res.raise e info s : Res α).Follows i s s where
  listed := hl
  fits := hf
  early _ := rfl
  accepted _ := s.acceptedBefore_self
  failed h := absurd h (not_mem_channelFailures_of_early he)
  outOpen _ := rfl

/-- A transaction that fails raises its own error. -/
theorem Res.Follows.fail {e : ErrCode} {info : DWord} (ha : s.answer = .fail) (hl : e ∈ mayRaise i)
    (he : e ∈ channelFailures) (hf : infoFits i c (t.latch e info)) (hn : t.txCount = s.txCount + 1)
    (ho : i ≠ .outClose → t.outOpen = s.outOpen) : (Res.raise e info t : Res α).Follows i c s where
  listed := hl
  fits := hf
  early h := absurd he (not_mem_channelFailures_of_early h)
  accepted h := absurd he h
  failed _ := ⟨s, .refl s, ha, hn⟩
  outOpen := ho

/-! ### The channel operations -/

/-- The commands that read raise IO_READ_FAIL (R124). -/
theorem ioReadFail_mem_mayRaise (hi : usesInput i = true) : .ioReadFail ∈ mayRaise i := by
  cases i with
  | inReset | freqCountStream | magicRead | headerRead | encStream | decBit | decSymbol | decStream =>
    decide
  | _ => cases hi

/-- The commands that write raise OUTPUT_CLOSED and IO_WRITE_FAIL (R124). -/
theorem writeErrors_mem_mayRaise (hi : writesOutput i = true) :
    .outputClosed ∈ mayRaise i ∧ .ioWriteFail ∈ mayRaise i := by
  cases i with
  | encSymbol b => simp [mayRaise]
  | magicWrite | headerWrite | encEos | encStream | decBit | decSymbol | decStream => decide
  | _ => cases hi

theorem readBits_follows (n : Nat) (s : State) (hi : usesInput i = true) :
    (readBits n s).Follows i c s := by
  cases h : readBits n s with
  | ok v t =>
    obtain ⟨ha, ⟨_, _, rfl⟩ | ⟨_, _, rfl⟩⟩ := readBits_eq_ok h
    · exact .ok _ (.transaction ha rfl rfl (fun _ => rfl) rfl)
    · exact .ok _ (.transaction ha rfl rfl (fun _ => rfl) rfl)
  | raise e info t =>
    obtain ⟨ha, rfl, rfl, rfl⟩ := readBits_eq_raise h
    exact .fail ha (ioReadFail_mem_mayRaise hi) (by decide) rfl rfl fun _ => rfl
  | stop x => exact .stop x

theorem writeBits_follows {n : Nat} (v : BitVec n) (s : State) (hi : writesOutput i = true) :
    (writeBits v s).Follows i c s := by
  obtain ⟨hclosed, hfail⟩ := writeErrors_mem_mayRaise hi
  cases h : writeBits v s with
  | ok a t =>
    obtain ⟨_, ha, rfl⟩ := writeBits_eq_ok h
    exact .ok _ (.transaction ha rfl rfl (fun _ => rfl) rfl)
  | raise e info t =>
    obtain ⟨rfl, ⟨_, rfl, rfl⟩ | ⟨_, ha, rfl, rfl⟩⟩ := writeBits_eq_raise h
    · exact .raise hclosed (by decide) rfl
    · exact .fail ha hfail (by decide) rfl rfl fun _ => rfl
  | stop x => exact .stop x

end

theorem bitsToNat_lt (bits : List Bool) : bitsToNat bits < 2 ^ bits.length := by
  induction bits using List.reverseRecOn with
  | nil => decide
  | append_singleton bits b ih =>
    have hb := b.toNat_lt
    rw [bitsToNat_concat, List.length_append, List.length_singleton, pow_succ]
    omega

/-- A delivered value is that of the last bits read (R46, R53). -/
theorem lastBits_of_readBits {n : Nat} {s t : State} {b : BitVec n}
    (h : readBits n s = .ok (some b) t) : t.lastBits n = b.toNat := by
  obtain ⟨_, ⟨hl, hv, rfl⟩ | ⟨_, hv, _⟩⟩ := readBits_eq_ok h
  · obtain rfl := Option.some.inj hv
    have hlen : (s.restBits.take n).length = n := by
      rw [List.length_take, s.restBits_length]
      omega
    have hlt : bitsToNat (s.restBits.take n) < 2 ^ n := by
      simpa only [hlen] using bitsToNat_lt (s.restBits.take n)
    rw [lastBits_acceptRead]
    exact (Nat.mod_eq_of_lt hlt).symm.trans (BitVec.toNat_ofNat ..).symm
  · cases hv

/-- The same, as an ERRINFO. -/
theorem setWidth_of_readBits {n : Nat} {s t : State} {b : BitVec n}
    (h : readBits n s = .ok (some b) t) : b.setWidth 64 = BitVec.ofNat 64 (t.lastBits n) := by
  rw [lastBits_of_readBits h, BitVec.ofNat_toNat]

/-! ### Counting -/

section
variable {i : Instr} {c s : State}

theorem countByte_follows {b : Byte} (hl : .countOverflow ∈ mayRaise i)
    (hf : infoFits i c (s.latch .countOverflow (b.setWidth 64))) :
    (countByte b s).Follows i c s := by
  rcases countByte_cases b s with ⟨_, h⟩ | ⟨_, h⟩ <;> rw [h]
  · exact .raise hl (by decide) hf
  · exact .ok _ (.setCount s _ _)

theorem countLoop_follows (bound n : Nat) (s : State) :
    (countLoop bound n s).Follows .freqCountStream c s := by
  induction bound generalizing n s with
  | zero => exact .stop _
  | succ bound ih =>
    refine (readBits_follows 8 s rfl).bind fun v t hread => ?_
    cases v with
    | none => exact .ok _ (.refl t)
    | some b =>
      have hfits : infoFits .freqCountStream c (t.latch .countOverflow (b.setWidth 64)) :=
        ⟨fun _ h => (nomatch h), fun _ => setWidth_of_readBits hread⟩
      exact (countByte_follows (by decide) hfits).bind fun _ u _ => ih (n + 1) u

/-! ### Codes -/

theorem codePresentAt_follows (x : Symbol) : (codePresentAt s x).Follows i c s := by
  unfold codePresentAt
  split
  · exact .ok _ (.refl s)
  · exact .stop _

theorem codeAt_follows (x : Symbol) : (codeAt s x).Follows i c s := by
  unfold codeAt
  split
  · exact .ok _ (.refl s)
  · exact .stop _

theorem emitBits_follows (bits : BitVec 256) (j : Nat) (s : State) (hi : writesOutput i = true) :
    (emitBits bits j s).Follows i c s := by
  induction j generalizing s with
  | zero => exact .ok _ (.refl s)
  | succ j ih => exact (writeBits_follows _ s hi).bind fun _ t _ => ih t

theorem emitSymbol_follows {x : Symbol} (hi : writesOutput i = true) (hl : .noCode ∈ mayRaise i)
    (hf : infoFits i c (s.latch .noCode (BitVec.ofNat 64 x.val))) :
    (emitSymbol x s).Follows i c s := by
  refine (codePresentAt_follows x).bind fun p t hp => ?_
  obtain ⟨_, rfl⟩ := codePresentAt_eq_ok hp
  cases p with
  | false => exact .raise hl (by decide) hf
  | true =>
    exact (codeAt_follows x).bind fun code u _ =>
      (emitBits_follows code.2 code.1.toNat u hi).bind fun _ v _ => .ok _ (.refl v)

/-- Writing a code leaves the input and CODES_VALID. -/
theorem emitSymbol_ok_keeps {s t : State} {x : Symbol} {l : BitVec 9} (hv : s.codesValid = true)
    (h : emitSymbol x s = .ok l t) : t.inExhausted = s.inExhausted ∧ t.codesValid = true := by
  have hu : Updates .encEos s t := (emitSymbol_traced x s rfl hv).of_ok h
  obtain ⟨-, hx, -⟩ := hu.leaves.input rfl
  exact ⟨hx, (hu.codesValid rfl).trans hv⟩

/-- While the loop of ENC_STREAM goes on the input is not exhausted, so the symbol without a code is the byte read
last (R109). -/
theorem encodeLoop_follows (bound n : Nat) (s : State) (hv : s.codesValid = true)
    (hx : s.inExhausted = false) : (encodeLoop bound n s).Follows .encStream c s := by
  induction bound generalizing n s with
  | zero => exact .stop _
  | succ bound ih =>
    refine (readBits_follows 8 s rfl).bind fun v t hread => ?_
    cases v with
    | none => exact .ok _ (.refl t)
    | some b =>
      obtain ⟨hvt, hxt⟩ : t.codesValid = true ∧ t.inExhausted = false := by
        obtain ⟨_, ⟨_, _, rfl⟩ | ⟨_, hnone, _⟩⟩ := readBits_eq_ok hread
        · exact ⟨hv, hx⟩
        · cases hnone
      have hinfo : BitVec.ofNat 64 (byteSymbol b).val = BitVec.ofNat 64 (t.lastBits 8) := by
        rw [lastBits_of_readBits hread]; rfl
      have hfits : infoFits .encStream c (t.latch .noCode (BitVec.ofNat 64 (byteSymbol b).val)) :=
        ⟨fun _ h => (nomatch h), fun h => (nomatch h), fun _ =>
          ⟨fun _ => hinfo, fun h => absurd (h.symm.trans hxt) (by decide)⟩⟩
      refine (emitSymbol_follows rfl (by decide) hfits).bind fun _ u hemit => ?_
      obtain ⟨hxu, hvu⟩ := emitSymbol_ok_keeps hvt hemit
      exact ih (n + 1) u hvu (hxu.trans hxt)

/-! ### The tree header -/

theorem emitTree_follows (t : Tree) (s : State) (hi : writesOutput i = true) :
    (emitTree t s).Follows i c s := by
  induction t generalizing s with
  | leaf j x w => exact (writeBits_follows _ s hi).bind fun _ t _ => writeBits_follows _ t hi
  | node j w l r ihl ihr =>
    exact (writeBits_follows _ s hi).bind fun _ t _ => (ihl t).bind fun _ u _ => ihr u

/-- A field names a symbol exactly when its value is at most 256 (R15, R67). -/
theorem symbolOf_eq_none_iff {f : SymField} : symbolOf f = none ↔ 256 < f.toNat := by
  rw [symbolOf]
  split
  · simp only [reduceCtorEq, false_iff]
    omega
  · simp only [true_iff]
    omega

theorem parseLeaf_follows (j : Nat) (p : Parse) (s : State) :
    (parseLeaf j p s).Follows .headerRead c s := by
  refine (readBits_follows 9 s rfl).bind fun v t hread => ?_
  cases v with
  | none => exact .raise (by decide) (by decide) rfl
  | some f =>
    have hlast := lastBits_of_readBits hread
    cases hf : symbolOf f with
    | none =>
      have hbad : 256 < t.lastBits 9 := hlast ▸ symbolOf_eq_none_iff.mp hf
      simp only [hf]
      exact .raise (by decide) (by decide) (And.intro (setWidth_of_readBits hread) hbad)
    | some x =>
      have hgood : t.lastBits 9 ≤ 256 := by
        rw [hlast]
        exact Nat.le_of_not_lt fun hlt => by rw [symbolOf_eq_none_iff.mpr hlt] at hf; cases hf
      simp only [hf]
      split
      · exact .raise (by decide) (by decide) (And.intro (setWidth_of_readBits hread) hgood)
      · exact .ok _ (.refl t)

theorem parse_follows (d : Nat) (p : Parse) (s : State) :
    (parse d p s).Follows .headerRead c s := by
  induction d generalizing p s with
  | zero => exact .stop _
  | succ d ih =>
    refine (readBits_follows 1 s rfl).bind fun v t _ => ?_
    cases v with
    | none => exact .raise (by decide) (by decide) rfl
    | some tag =>
      dsimp only
      split
      · exact .raise (by decide) (by decide) rfl
      · split
        · exact (ih p.take t).bind fun l u _ => (ih l.2 u).bind fun r w _ => .ok _ (.refl w)
        · exact parseLeaf_follows p.n p.take t

/-! ### The decoder -/

theorem childOfCursor_follows (right : Bool) : (childOfCursor right s).Follows i c s := by
  unfold childOfCursor
  split
  · exact .stop _
  · split
    · exact .ok _ (.refl s)
    · exact .stop _
    · exact .stop _

theorem arrive_follows (j : NodeIdx) (s : State) (hw : writesOutput i = true) :
    (arrive j s).Follows i c s := by
  unfold arrive
  split
  · exact .stop _
  · exact .ok _ (.still rfl rfl rfl rfl)
  · split
    · exact .ok _ (.still rfl rfl rfl rfl)
    · exact (writeBits_follows _ s hw).bind fun _ t _ => .ok _ (.still rfl rfl rfl rfl)

variable (hr : usesInput i = true) (hw : writesOutput i = true) (hl : .truncatedStream ∈ mayRaise i)
include hr hw hl

theorem decStep_follows (s : State) : (decStep s).Follows i c s := by
  refine (readBits_follows 1 s hr).bind fun v t _ => ?_
  cases v with
  | none => exact .raise hl (by decide) rfl
  | some b =>
    exact (childOfCursor_follows (b == 1#1)).bind fun j u _ => arrive_follows j u hw

theorem symbolLoop_follows (bound : Nat) (s : State) : (symbolLoop bound s).Follows i c s := by
  induction bound generalizing s with
  | zero => exact .stop _
  | succ bound ih =>
    refine (decStep_follows hr hw hl s).bind fun r t _ => ?_
    split
    · exact ih t
    · exact .ok _ (.refl t)

theorem streamLoop_follows (bound n : Nat) (s : State) :
    (streamLoop bound n s).Follows i c s := by
  induction bound generalizing n s with
  | zero => exact .stop _
  | succ bound ih =>
    unfold streamLoop
    split
    · exact (decStep_follows hr hw hl s).bind fun _ t _ => ih _ t
    · exact .ok _ (.refl s)

end

/-! ### The checks a command begins with -/

section
variable {i : Instr} {s : State} {α : Type}

theorem notReady_follows (hl : .notReady ∈ mayRaise i) : (notReady i s : Res α).Follows i s s :=
  .refuse hl (by decide) rfl

theorem ready_follows (hl : .notReady ∈ mayRaise i) (b : Bool) {k : Res α}
    (hk : b = true → k.Follows i s s) : (if b then k else notReady i s).Follows i s s := by
  cases b with
  | false => exact notReady_follows hl
  | true => exact hk rfl

theorem withSymbol_follows (hl : .illegalCommand ∈ mayRaise i) (sym : SymField)
    {k : Symbol → Res DWord} (hk : ∀ x, (k x).Follows i s s) :
    (withSymbol i sym s k).Follows i s s := by
  unfold withSymbol
  split
  · exact hk _
  · exact .refuse hl (by decide) rfl

theorem nodeIndex_follows (hl : .badOperand ∈ mayRaise i) {k : Res α} (hk : k.Follows i s s) :
    (if nodeIndexOk (encodeArg i) s then k else badOperand (encodeArg i) s).Follows i s s := by
  split
  · exact hk
  · exact .refuse hl (by decide) rfl

theorem encReady_follows (hl : .notReady ∈ mayRaise i) (hl' : .streamEnded ∈ mayRaise i) {k : Res α}
    (hk : s.codesValid = true → k.Follows i s s) : (encReady i s k).Follows i s s := by
  refine ready_follows hl s.codesValid fun hv => ?_
  split
  · exact .refuse hl' (by decide) rfl
  · exact hk hv

theorem whenWalking_follows (hl : .notReady ∈ mayRaise i) (doneResult : DWord) {k : Res DWord}
    (hk : k.Follows i s s) : (whenWalking i s doneResult k).Follows i s s := by
  unfold whenWalking
  split
  · exact notReady_follows hl
  · exact notReady_follows hl
  · exact .ok _ (.refl s)
  · exact hk

theorem withHeldTree_follows {k : Tree → Res α} (hk : ∀ t, (k t).Follows i s s) :
    (withHeldTree s k).Follows i s s := by
  unfold withHeldTree
  split
  · exact hk _
  · exact .stop _

/-- The two reads of the code table (R98, R99). -/
theorem codeRead_follows (x : Symbol) (f : BitVec 9 × BitVec 256 → DWord) :
    ((codePresentAt s x).bind fun p t =>
      if p then (codeAt t x).bind fun code u => .ok (f code) u else .ok 0#64 t).Follows i s s := by
  refine (codePresentAt_follows x).bind fun p t _ => ?_
  split
  · exact (codeAt_follows x).bind fun _ u _ => .ok _ (.refl u)
  · exact .ok _ (.refl t)

end

/-! ### Every command -/

/-- Command i is pseudocode that follows the command's rules, and then the end of a command. -/
def Obeys (i : Instr) (s : State) : Prop :=
  ∃ r, exec i s = finish (kindOf i) r ∧ r.Follows i s s

theorem inReset_obeys (s : State) : Obeys .inReset s := by
  refine ⟨_, rfl, ?_⟩
  rcases chanReset_cases s with ⟨ha, h⟩ | ⟨ha, h⟩ | ⟨_, h⟩ <;> rw [h]
  · exact .ok _ (.transaction ha rfl rfl (fun _ => rfl) rfl)
  · exact .fail ha (by decide) (by decide) rfl rfl fun _ => rfl
  · exact .stop _

theorem outClose_obeys (s : State) : Obeys .outClose s := by
  rcases chanClose_cases s with ⟨_, h⟩ | ⟨_, ha, h⟩ | ⟨_, ha, h⟩ | ⟨_, _, h⟩
  · refine ⟨.ok s.outBitsWritten s, ?_, .ok _ (.refl s)⟩
    rw [exec, execOutClose, h]; rfl
  · refine ⟨.ok s.outBitsWritten s.shutOut.countTx.closeChannel, ?_,
      .ok _ (.transaction ha rfl rfl (fun hi => absurd rfl hi) rfl)⟩
    rw [exec, execOutClose, h]; rfl
  · refine ⟨.raise .ioWriteFail s.outBitsWritten s.shutOut.countTx, ?_,
      .fail ha (by decide) (by decide) rfl rfl fun hi => absurd rfl hi⟩
    rw [exec, execOutClose, h]; rfl
  · refine ⟨.stop .channelSilent, ?_, .stop _⟩
    rw [exec, execOutClose, h]; rfl

theorem freqCount_obeys (b : Byte) (s : State) : Obeys (.freqCount b) s := by
  have hfits : infoFits (.freqCount b) s (s.latch .countOverflow (b.setWidth 64)) :=
    ⟨fun _ h => by cases h; rfl, fun h => (nomatch h)⟩
  exact ⟨_, rfl, (countByte_follows (.head _) hfits).bind fun _ t _ => .ok _ (.refl t)⟩

theorem freqCountStream_obeys (s : State) : Obeys .freqCountStream s := by
  refine ⟨_, rfl, ?_⟩
  split
  · exact notReady_follows (by decide)
  · exact .after (.setFreq s zeroFreq)
      ((countLoop_follows _ 0 _).bind fun n t _ => .ok _ (.setCount t sentinel 1#32))

theorem treeBuild_obeys (s : State) : Obeys .treeBuild s := by
  refine ⟨_, rfl, ?_⟩
  split
  · exact .refuse (by decide) (by decide) rfl
  · exact .ok _ (.still rfl rfl rfl rfl)

theorem nodeRead_obeys (index : Word) (s : State) : Obeys (.nodeRead index) s := by
  refine ⟨_, rfl, ready_follows (.head _) _ fun _ =>
    nodeIndex_follows (i := .nodeRead index) (.tail _ (.head _)) ?_⟩
  split
  · exact .ok _ (.refl s)
  · exact .stop _

theorem nodeWeightRead_obeys (index : Word) (s : State) : Obeys (.nodeWeightRead index) s := by
  refine ⟨_, rfl, ready_follows (.head _) _ fun _ =>
    nodeIndex_follows (i := .nodeWeightRead index) (.tail _ (.head _)) ?_⟩
  split
  · exact .ok _ (.refl s)
  · exact .stop _

theorem codeLenRead_obeys (sym : SymField) (s : State) : Obeys (.codeLenRead sym) s :=
  ⟨_, rfl, withSymbol_follows (.head _) sym fun x =>
    ready_follows (.tail _ (.head _)) _ fun _ => codeRead_follows x _⟩

theorem codeBitsRead_obeys (sym : SymField) (k : Word) (s : State) :
    Obeys (.codeBitsRead sym k) s := by
  refine ⟨_, rfl, withSymbol_follows (.head _) sym fun x =>
    ready_follows (.tail _ (.head _)) _ fun _ => ?_⟩
  split
  · exact codeRead_follows x _
  · exact .refuse (.tail _ (.tail _ (.head _))) (by decide) rfl

theorem magicRead_obeys (s : State) : Obeys .magicRead s := by
  refine ⟨_, rfl, (readBits_follows 32 s rfl).bind fun v t hread => ?_⟩
  cases v with
  | none => exact .raise (by decide) (by decide) rfl
  | some m =>
    dsimp only
    split
    · exact .ok _ (.refl t)
    · rename_i hm
      have hne : m.setWidth 64 ≠ t.magic.setWidth 64 := fun h =>
        hm (by simpa using congrArg (BitVec.setWidth 32) h)
      exact .raise (by decide) (by decide) (And.intro (setWidth_of_readBits hread) hne)

theorem headerWrite_obeys (s : State) : Obeys .headerWrite s :=
  ⟨_, rfl, ready_follows (by decide) _ fun _ => withHeldTree_follows fun t =>
    (emitTree_follows t s rfl).bind fun _ u _ => .ok _ (.still rfl rfl rfl rfl)⟩

/-- Losing NODE touches no register that the table of errors speaks of (R104). -/
theorem RaisesBy.loseNodes {c s t : State} {e : ErrCode} {info : DWord}
    (h : RaisesBy .headerRead c s e info t) : RaisesBy .headerRead c s e info t.loseNodes where
  listed := h.listed
  fits := h.fits
  early he := absurd he ((by decide : ∀ e ∈ mayRaise .headerRead, e ∉ earlyErrors) e h.listed)
  accepted := h.accepted
  failed := h.failed
  outOpen := h.outOpen

theorem headerRead_obeys (s : State) : Obeys .headerRead s := by
  refine ⟨_, rfl, .after (.still rfl rfl rfl rfl : Accepts .headerRead s (beginHeaderRead s)) ?_⟩
  have hpass := parse_follows (c := s) 514 Parse.start (beginHeaderRead s)
  generalize parse 514 Parse.start (beginHeaderRead s) = r at hpass ⊢
  cases r with
  | ok a t => exact hpass.trans (.still rfl rfl rfl rfl)
  | raise e info t => exact hpass.loseNodes
  | stop x => trivial

theorem encSymbol_obeys (b : Byte) (s : State) : Obeys (.encSymbol b) s := by
  have hfits : infoFits (.encSymbol b) s (s.latch .noCode (BitVec.ofNat 64 (byteSymbol b).val)) :=
    ⟨fun _ h => by cases h; exact BitVec.ofNat_toNat 64 b, fun h => (nomatch h), fun h => (nomatch h)⟩
  exact ⟨_, rfl, encReady_follows (.head _) (.tail _ (.head _)) fun _ =>
    (emitSymbol_follows rfl (.tail _ (.tail _ (.head _))) hfits).bind fun _ t _ => .ok _ (.refl t)⟩

theorem encEos_obeys (s : State) : Obeys .encEos s := by
  have hfits : infoFits .encEos s (s.latch .noCode (BitVec.ofNat 64 sentinel.val)) :=
    ⟨fun _ h => (nomatch h), fun _ => rfl, fun h => (nomatch h)⟩
  exact ⟨_, rfl, encReady_follows (by decide) (by decide) fun _ =>
    (emitSymbol_follows rfl (by decide) hfits).bind fun _ t _ => .ok _ (.still rfl rfl rfl rfl)⟩

/-- The loop of ENC_STREAM ends with the input exhausted, so the symbol without a code is then the sentinel
(R109). -/
theorem encStream_obeys (s : State) : Obeys .encStream s := by
  refine ⟨_, rfl, encReady_follows (by decide) (by decide) fun hv => ?_⟩
  split
  · exact notReady_follows (by decide)
  · rename_i hx
    refine (encodeLoop_follows _ 0 s hv (Bool.not_eq_true _ ▸ hx)).bind fun n t hloop => ?_
    obtain ⟨-, hend⟩ := (encodeLoop_ends _ 0 s (inputBound_enough s)).of_ok hloop
    have hfits : infoFits .encStream s (t.latch .noCode (BitVec.ofNat 64 sentinel.val)) :=
      ⟨fun _ h => (nomatch h), fun h => (nomatch h), fun _ =>
        ⟨fun h => absurd (h.symm.trans hend) (by decide), fun _ => rfl⟩⟩
    exact (emitSymbol_follows rfl (by decide) hfits).bind fun _ u _ => .ok _ (.still rfl rfl rfl rfl)

theorem decStart_obeys (s : State) : Obeys .decStart s := by
  refine ⟨_, rfl, ready_follows (by decide) _ fun _ => ?_⟩
  split
  · exact .stop _
  · exact .ok _ (.still rfl rfl rfl rfl)
  · rename_i x w hn
    split
    · exact .ok _ (.still rfl rfl rfl rfl)
    · rename_i hx
      exact .raise (by decide) (by decide) (Exists.intro x (Exists.intro w ⟨hn, hx, rfl⟩))

theorem decStream_obeys (s : State) : Obeys .decStream s :=
  ⟨_, rfl, whenWalking_follows (by decide) _ <|
    (streamLoop_follows rfl rfl (by decide) _ 0 s).bind fun _ t _ => .ok _ (.refl t)⟩

/-- R48, R124, R126: what every command keeps to, from a state without an error. -/
theorem exec_obeys (i : Instr) {s : State} (herr : s.err = false) : Obeys i s := by
  cases i with
  | nop => exact ⟨_, rfl, .ok _ (.refl s)⟩
  | errClear => exact ⟨_, rfl, .ok _ (Accepts.unlatch herr)⟩
  | inReset => exact inReset_obeys s
  | outClose => exact outClose_obeys s
  | cntRead sel => exact ⟨_, rfl, .ok _ (.refl s)⟩
  | freqClear => exact ⟨_, rfl, .ok _ (Accepts.setFreq s zeroFreq)⟩
  | freqCount b => exact freqCount_obeys b s
  | freqSetEos => exact ⟨_, rfl, .ok _ (Accepts.setCount s sentinel 1#32)⟩
  | freqWrite sym count =>
    exact ⟨_, rfl, withSymbol_follows (.head _) sym fun x => .ok _ (.setCount s x count)⟩
  | freqRead sym => exact ⟨_, rfl, withSymbol_follows (.head _) sym fun _ => .ok _ (.refl s)⟩
  | freqCountStream => exact freqCountStream_obeys s
  | treeBuild => exact treeBuild_obeys s
  | treeInfo => exact ⟨_, rfl, ready_follows (by decide) _ fun _ => .ok _ (.refl s)⟩
  | nodeRead index => exact nodeRead_obeys index s
  | nodeWeightRead index => exact nodeWeightRead_obeys index s
  | codesBuild =>
    exact ⟨_, rfl, ready_follows (by decide) _ fun _ => withHeldTree_follows fun _ =>
      .ok _ (.still rfl rfl rfl rfl)⟩
  | codeLenRead sym => exact codeLenRead_obeys sym s
  | codeBitsRead sym k => exact codeBitsRead_obeys sym k s
  | magicWrite => exact ⟨_, rfl, (writeBits_follows _ s rfl).bind fun _ t _ => .ok _ (.refl t)⟩
  | magicRead => exact magicRead_obeys s
  | headerWrite => exact headerWrite_obeys s
  | headerRead => exact headerRead_obeys s
  | encSymbol b => exact encSymbol_obeys b s
  | encEos => exact encEos_obeys s
  | encStream => exact encStream_obeys s
  | decStart => exact decStart_obeys s
  | decBit => exact ⟨_, rfl, whenWalking_follows (by decide) _ (decStep_follows rfl rfl (by decide) s)⟩
  | decSymbol =>
    exact ⟨_, rfl, whenWalking_follows (by decide) _ (symbolLoop_follows rfl rfl (by decide) _ s)⟩
  | decStream => exact decStream_obeys s

/-- R48, R123: from a state without an error a command completes after accepted transactions, or takes the error
entry where it may raise. -/
theorem exec_ends {i : Instr} {s t : State} (herr : s.err = false) (h : exec i s = .next t) :
    (∃ v u, Accepts i s u ∧ t = u.respond true false v) ∨
    (∃ e info u, RaisesBy i s s e info u ∧
      t = u.afterError (decide (kindOf i = .decoder ∧ e ≠ .notReady)) e info) := by
  obtain ⟨r, hr, hfollows⟩ := exec_obeys i herr
  rw [hr] at h
  obtain ⟨v, u, rfl, rfl⟩ | ⟨e, info, u, rfl, he⟩ := finish_eq_next h
  · exact .inl ⟨v, u, hfollows, rfl⟩
  · exact .inr ⟨e, info, u, hfollows, enterError_next he⟩

section
variable {i : Instr} {s t : State} (herr : s.err = false) (h : exec i s = .next t)
include herr h

/-- R48: a command completes only after accepted transactions. -/
theorem exec_accepted (ht : t.err = false) : s.acceptedBefore t.txCount := by
  obtain ⟨v, u, hu, rfl⟩ | ⟨e, info, u, -, rfl⟩ := exec_ends herr h
  · exact hu.accepted
  · cases ht

/-- R123, R127: a command that ends with an error has taken the error entry where it may raise. -/
theorem exec_raises (ht : t.err = true) :
    ∃ e info u, RaisesBy i s s e info u ∧
      t = u.afterError (decide (kindOf i = .decoder ∧ e ≠ .notReady)) e info := by
  obtain ⟨v, u, hu, rfl⟩ | hraise := exec_ends herr h
  · exact absurd (ht.symm.trans (hu.err.trans herr)) (by decide)
  · exact hraise

end

/-- Settles O14: the command may raise the error in the state it is raised in, and the error entry leaves what the
table speaks of. -/
theorem errorsFollowTheErrorTable : Obligations.ErrorsFollowTheErrorTable := by
  intro i s t herr h ht
  obtain ⟨e, info, u, hr, rfl⟩ := exec_raises herr h ht
  exact ⟨hr.listed, hr.fits⟩

/-! ### The error entry of a command -/

/-- The only early error of a decoder command is NOT_READY (R124). -/
theorem notReady_of_early {i : Instr} {e : ErrCode} (hi : isDecoder i = true) (hl : e ∈ mayRaise i)
    (he : e ∈ earlyErrors) : e = .notReady := by
  cases i with
  | decStart => exact (by decide : ∀ e ∈ mayRaise .decStart, e ∈ earlyErrors → e = .notReady) e hl he
  | decBit | decSymbol | decStream =>
    exact (by decide : ∀ e ∈ mayRaise .decBit, e ∈ earlyErrors → e = .notReady) e hl he
  | _ => cases hi

/-- R126, R130: an early error leaves what the error entry makes of the state the command started in. -/
theorem exec_early {i : Instr} {s t : State} (herr : s.err = false) (h : exec i s = .next t)
    (ht : t.err = true) (he : t.errCode ∈ earlyErrors) : ∃ e info, t = s.afterError false e info := by
  obtain ⟨e, info, u, hr, rfl⟩ := exec_raises herr h ht
  obtain rfl : u = s := hr.early he
  have hkind : ¬ (kindOf i = .decoder ∧ e ≠ .notReady) := by
    rintro ⟨hk, hne⟩
    have hi : isDecoder i = true := by
      by_contra hi
      rw [kindOf, if_neg hi] at hk
      cases hk
    exact hne (notReady_of_early hi hr.listed he)
  exact ⟨e, info, by rw [decide_eq_false hkind]⟩

/-- Settles O15: such an error is raised in the state the command started in. -/
theorem earlyErrorsHaveNoOtherEffect : Obligations.EarlyErrorsHaveNoOtherEffect := by
  intro i s t herr h ht he
  obtain ⟨e, info, rfl⟩ := exec_early herr h ht he
  rfl

section
variable {i : Instr} {s t : State} (herr : s.err = false) (h : exec i s = .next t)
  (ht : t.err = true)
include herr h ht

/-- R127: what the error entry leaves after any command. -/
theorem exec_latches : t.outOpen = false ∧ t.errCode ≠ .none ∧
    t.responses = s.responses ++ [⟨statusWord false false t, t.errInfo⟩] := by
  obtain ⟨u, hu, ⟨v, rfl⟩ | ⟨e, info, hne, rfl⟩⟩ := exec_next h
  · have hclear : u.err = false := err_of_completes (.inr herr) hu h
    exact absurd (ht.symm.trans hclear) (by decide)
  · exact ⟨rfl, hne, congrArg (· ++ _) hu.leaves.responses⟩

/-- R127: a decoder command goes to ERROR, unless it was not ready. -/
theorem exec_decoder_error (hi : isDecoder i = true) (hne : t.errCode ≠ .notReady) :
    t.decState = .error ∧ t.decCur = none := by
  obtain ⟨e, info, u, -, rfl⟩ := exec_raises herr h ht
  have hkind : kindOf i = .decoder ∧ e ≠ .notReady := ⟨if_pos hi, hne⟩
  rw [decide_eq_true hkind]
  exact ⟨rfl, rfl⟩

/-- An early error leaves the decoder's registers. -/
theorem exec_early_dec (he : t.errCode ∈ earlyErrors) :
    t.decState = s.decState ∧ t.decCur = s.decCur := by
  obtain ⟨e, info, rfl⟩ := exec_early herr h ht he
  exact ⟨rfl, rfl⟩

/-- Of the other commands only TREE_BUILD and HEADER_READ write the decoder's registers, and TREE_BUILD raises
before it does (R89, R127). -/
theorem exec_other_dec (hi : isDecoder i = false) (hread : i ≠ .headerRead) :
    t.decState = s.decState ∧ t.decCur = s.decCur := by
  by_cases hbuild : i = .treeBuild
  · subst hbuild
    obtain ⟨hlisted, -⟩ := errorsFollowTheErrorTable _ _ _ herr h ht
    exact exec_early_dec herr h ht ((by decide : ∀ e ∈ mayRaise .treeBuild, e ∈ earlyErrors) _ hlisted)
  · have hw : writesDec i = false := by
      cases i with
      | treeBuild => exact absurd rfl hbuild
      | headerRead => exact absurd rfl hread
      | decStart | decBit | decSymbol | decStream => cases hi
      | _ => rfl
    obtain ⟨-, -, -, -, -, hdec, -⟩ := commandsKeepToTheAccessTable i s t h
    exact hdec hw

/-- R48, R127: the transactions of a command that raises, before the close of the error entry. -/
theorem exec_raise_transactions (hi : i ≠ .outClose) :
    ∃ n : Nat, t.txCount = n + s.closeCount ∧
      (t.errCode ∉ channelFailures → s.acceptedBefore n) ∧
      (t.errCode ∈ channelFailures →
        ∃ k, n = k + 1 ∧ s.txCount ≤ k ∧ s.acceptedBefore k ∧ s.answerAt k = .fail) := by
  obtain ⟨e, info, u, hr, rfl⟩ := exec_raises herr h ht
  refine ⟨u.txCount, ?_, hr.accepted, fun he => ?_⟩
  · rw [State.closeCount, ← hr.outOpen hi]
    show (if u.outOpen then u.txCount + 1 else u.txCount) = _
    split <;> rfl
  · obtain ⟨v, hv, hfail, hn⟩ := hr.failed he
    exact ⟨v.txCount, hn, hv.count, hv.accepted, (hv.answerAt _).symm.trans hfail⟩

end

/-- Settles O13: the error entry latches the error where the command may raise it, and the transactions up to
there were accepted but for the one that failed. -/
theorem everyErrorTakesTheEntry : Obligations.EveryErrorTakesTheEntry := by
  refine ⟨fun i s t herr h ht => ?entry, fun i s t herr h ht => exec_accepted herr h ht,
    fun i s t herr hi h ht => exec_raise_transactions herr h ht hi⟩
  obtain ⟨hopen, hcode, hresp⟩ := exec_latches herr h ht
  refine ⟨hopen, hcode, hresp, fun hi hne => exec_decoder_error herr h ht hi hne,
    fun _ he => exec_early_dec herr h ht (he ▸ by decide),
    fun hi hread => exec_other_dec herr h ht hi hread, fun hread => ?_⟩
  subst hread
  obtain ⟨-, hstate⟩ := headerReadErrorHoldsNoTree s t herr h ht
  exact ⟨congrArg State.decState hstate, congrArg State.decCur hstate⟩

end Sys2Proof.Machine
